-- ==== Sys2Proof/Word.lean ====
section
/-! DEFINITION. Word.lean: the byte, the numbers of records, and the fixed tables of records. -/

namespace Sys2Proof

/-- One byte of a frame (R1). -/
abbrev Byte := BitVec 8

/-- A load number, 0 to 95 (R40). -/
abbrev LoadNo := Fin 96

/-- A space number, 0 to 15 (Table 1-2). -/
abbrev SpaceNo := Fin 16

/-- An axis number, 0 to 2, and the number of its signal channel (R121, R168). -/
abbrev AxisNo := Fin 3

/-- A SCENE value, 0 to 127: space × 8 + scene number (R4, R79). -/
abbrev SceneNo := Fin 128

/-- A place of the Interlock Table, 0 to 15 (R159). -/
abbrev PlaceNo := Fin 16

/-- The source of a request: a station address 1 to 62, or 0 for the Management Link. -/
abbrev Origin := Fin 63

/-- Apply one function to every record of a table. -/
def mapTable {α β : Type} {n : Nat} (f : α → β) (v : Vector α n) : Vector β n :=
  ⟨⟨v.toArray.toList.map f⟩, by simp⟩

end Sys2Proof
end

