-- ==== Sys2Proof/Config.lean ====
section
/-! DEFINITION. Config.lean: what the spec leaves open for the whole run. -/

namespace Sys2Proof

/-- FREE VALUE. Where several timers of the part fall due at the same instant, the spec says that either
may be taken first (R35, R72, R146, R158, R175). This constant has no body: applied to the state's
counter `tieCount` it gives the one taken, and nothing can be proved of which (log entry 3). -/
opaque Config.tieBreak : Nat → Nat

end Sys2Proof
end

