-- ==== Sys2Proof/Syntax.lean ====
section
/-! DEFINITION. Syntax.lean: the names of the spec's tables, and the commands: one constructor of `Instr` for each
row of the table of operations and events. -/

namespace Sys2Proof

/-- The two ports (00_scope.md, Setting and connections). -/
inductive Port | bus | link
  deriving DecidableEq, Repr

/-- Ranks in ascending order (00_scope.md, Ranks). -/
inductive Rank | guest | crew | officer | management
  deriving DecidableEq, Repr

/-- What a load output drives (Table 3-1). -/
inductive LoadKind | none | dim | switch
  deriving DecidableEq, Repr

/-- The two directions of an axis (chapter 7). -/
inductive Direction | extend | retract
  deriving DecidableEq, Repr

/-- The direction an interlock entry forbids (Table 9-1). -/
inductive BlockDir | extend | retract | any
  deriving DecidableEq, Repr

/-- The condition of an interlock entry (Table 9-1). -/
inductive Relation | below | above | notParked
  deriving DecidableEq, Repr

/-- Which tones a signal pattern sounds (Table 10-1). -/
inductive SigMode | single | twoTone
  deriving DecidableEq, Repr

/-- Kind of a claim (Table 2-1). -/
inductive ClaimKind | lock | hold
  deriving DecidableEq, Repr

/-- What a claim holds (Table 2-1). -/
inductive ClaimTarget
  | load (n : LoadNo)
  | space (s : SpaceNo)
  | axis (a : AxisNo)
  deriving DecidableEq, Repr

/-- Sources of a warm reset (R178). -/
inductive WarmCause | brownout | pin
  deriving DecidableEq, Repr

/-- A reset source that can persist beyond the reset event (R178): the supply still low, or the reset
input held active. -/
inductive ResetSource | supply | pin
  deriving DecidableEq, Repr

/-- Target classes (Table 1-2). -/
inductive TargetClass | load | group | space | all | axis | scene | budget | device
  deriving DecidableEq, Repr

/-- A target as a body carries it: a listed class and a 16-bit value not yet checked (R4). -/
structure RawTarget where
  cls : TargetClass
  value : Nat
  deriving DecidableEq, Repr

/-- A target whose value lies in its class's range (Table 1-2). -/
inductive Target
  | load (n : LoadNo)
  | group (tag : Nat)
  | space (s : SpaceNo)
  | all
  | axis (a : AxisNo)
  | scene (v : SceneNo)
  | budget
  | device
  deriving DecidableEq, Repr

/-- The request kinds of Table 1-3. -/
inductive ReqKind
  | query | setLevel | recallScene | returnScene | claim | renew | release | move | stop
  | writeStation | writeLoad | writeAxis | writeInterlock | writeSignal | takeScene | writeScene
  | giveScene | setBudget | clearLockout | start | halt | readNotice
  deriving DecidableEq, Repr

/-- Reply codes (Table 1-6). -/
inductive ReplyCode
  | done | doneLimited | donePartial | accepted | empty
  | badRequest | unknownStation | notPermitted | badTarget | notReady | wrongState | claimed | notHolder
  | tableFull | interlocked | obstructed | noBudget | busy | lockedOut | sceneOwned | sceneLive | badValue
  deriving DecidableEq, Repr

/-- The configuration fields of a load (Table 3-1). -/
structure LoadConfig where
  kind : LoadKind
  space : SpaceNo
  groupMask : BitVec 64
  shedRank : Nat
  shedLevel : Nat
  ratedPower : Nat
  minDuty : Nat
  deriving DecidableEq, Repr

/-- The configuration fields of an axis (Table 7-1). -/
structure AxisConfig where
  demand : Nat
  courtesy : Option LoadNo
  runSpeed : Nat
  creepSpeed : Nat
  accelStep : Nat
  decelStep : Nat
  approach : Nat
  softLow : Nat
  softHigh : Nat
  stallWindow : Nat
  overCurrent : Nat
  noLoad : Nat
  warnCycles : Nat
  deriving DecidableEq, Repr

/-- A signal pattern (Table 10-1). -/
structure Pattern where
  primaryMark : Nat
  primarySpace : Nat
  secondaryMark : Nat
  secondarySpace : Nat
  mode : SigMode
  gapCycles : Nat
  deriving DecidableEq, Repr

/-- The commands: one constructor for each row of the table of operations and events. A request carries its
origin and the bytes of its body; an expiry or an input event carries the record it reaches. -/
inductive Instr
  | query (o : Origin) (body : List Byte)
  | setLevel (o : Origin) (body : List Byte)
  | recallScene (o : Origin) (body : List Byte)
  | returnScene (o : Origin) (body : List Byte)
  | claim (o : Origin) (body : List Byte)
  | renew (o : Origin) (body : List Byte)
  | release (o : Origin) (body : List Byte)
  | move (o : Origin) (body : List Byte)
  | stop (o : Origin) (body : List Byte)
  | writeStation (o : Origin) (body : List Byte)
  | writeLoad (o : Origin) (body : List Byte)
  | writeAxis (o : Origin) (body : List Byte)
  | writeInterlock (o : Origin) (body : List Byte)
  | writeSignal (o : Origin) (body : List Byte)
  | takeScene (o : Origin) (body : List Byte)
  | writeScene (o : Origin) (body : List Byte)
  | giveScene (o : Origin) (body : List Byte)
  | setBudget (o : Origin) (body : List Byte)
  | clearLockout (o : Origin) (body : List Byte)
  | start (o : Origin) (body : List Byte)
  | halt (o : Origin) (body : List Byte)
  | readNotice (o : Origin) (body : List Byte)
  | unknownKind (o : Origin) (kind : Byte) (body : List Byte)
  | frameDropped (p : Port) (bytes : List Byte)
  | replySent
  | replyRead
  | leaseExpiry (t : ClaimTarget)
  | fadeStep (n : LoadNo)
  | outputPeriodEnd (n : LoadNo)
  | rampExpiry (a : AxisNo)
  | brakeSettleExpiry (a : AxisNo)
  | confirmWindowExpiry (a : AxisNo)
  | pulseWatchExpiry (a : AxisNo)
  | overCurrentExpiry (a : AxisNo)
  | restExpiry (a : AxisNo)
  | signalMarkEnd (a : AxisNo)
  | signalCycleEnd (a : AxisNo)
  | settleExpiry
  | positionPulse (a : AxisNo)
  | homeActive (a : AxisNo)
  | homeInactive (a : AxisNo)
  | safetyEdgeActive (a : AxisNo)
  | safetyEdgeInactive (a : AxisNo)
  | currentRise (a : AxisNo) (current : Byte)
  | currentFall (a : AxisNo) (current : Byte)
  | powerOnReset (supplyLow : Bool)
  | warmReset (cause : WarmCause) (persists : Bool)
  | resetSourceEnd (source : ResetSource)
  deriving DecidableEq, Repr

end Sys2Proof
end

