-- ==== Sys2Proof/Machine/Intervals.lean ====
section
/-! DEFINITION. Machine/Intervals.lean: the fixed lengths of time (00_scope.md, Fixed intervals), in milliseconds. -/

namespace Sys2Proof.Machine

/-- Fade step (R62). -/
def fadeStepMs : Nat := 20
/-- Output period (R73). -/
def outputPeriodMs : Nat := 1
/-- Ramp interval (R131). -/
def rampMs : Nat := 10
/-- Brake settle (R136). -/
def brakeSettleMs : Nat := 300
/-- Load confirm window (R147). -/
def confirmMs : Nat := 200
/-- Over-current persistence (R149). -/
def overCurrentMs : Nat := 100
/-- Settle interval after a power-on reset (R178). -/
def powerOnSettleMs : Nat := 250
/-- Settle interval after a warm reset (R178). -/
def warmSettleMs : Nat := 100
/-- Steps of a restore fade, an unforce fade and the fade of a raised SHED LEVEL (R69). -/
def restoreSteps : Nat := 50
/-- Steps of the warm-reset fade-in (R70). -/
def fadeInSteps : Nat := 100
/-- One unit of a signal mark or space (Table 10-1) and of STALL WINDOW (Table 7-1). -/
def tenMs : Nat := 10
/-- One unit of a HOLD lease (Table 2-2). -/
def holdUnitMs : Nat := 50
/-- One unit of a LOCK lease (Table 2-2). -/
def lockUnitMs : Nat := 1000

/-- Rest length after the n-th stall: 2 × 2^min(n − 1, 4) s (Table 8-1). -/
def restMs (n : Nat) : Nat := 2 * 2 ^ min (n - 1) 4 * 1000

end Sys2Proof.Machine
end

