-- ==== Sys2Proof/Machine/State.lean ====
section
/-! DEFINITION. Machine/State.lean: every record, buffer, counter, mode, timer and pin of the part, as plain data; the
stops of the model; and the state right after a power-on reset. A timer is held as the milliseconds it has left; none
is a timer that is stopped. -/

namespace Sys2Proof.Machine

/-- A fault: no command of this part faults. The spec answers every request with a reply code, drops every bad
frame silently, and gives every event an effect in every state, so the model has no fault to raise (safe: none is
ever answered). -/
inductive Fault
  deriving DecidableEq, Repr

/-- A refusal of the model. -/
inductive Refusal
  /-- Raised by `exec` for a command that has no meaning yet, by its mnemonic. Safe: the model stops. No arm
  raises it: every command of the table has its meaning. -/
  | notModelled (mnemonic : String)
  deriving DecidableEq, Repr

/-! ### Ports -/

/-- The body of a reply (Table 1-5). -/
inductive ReplyBody
  /-- A reply code and no further field. -/
  | plain (code : ReplyCode)
  /-- DONE, DONE_LIMITED or DONE_PARTIAL with the three counts of SET_LEVEL, RECALL_SCENE, RETURN_SCENE. -/
  | counts (code : ReplyCode) (applied limited skipped : Nat)
  /-- CLAIMED with the rank that stands in the way. -/
  | claimed (rank : Rank)
  /-- DONE to READ_NOTICE with the condition's code. -/
  | condition (code : Nat)
  /-- DONE to QUERY with the 16-bit fields of the view. -/
  | view (fields : List Nat)
  deriving DecidableEq, Repr

/-- A reply frame (R6), less its length and check, which its bytes determine. -/
structure Reply where
  destination : Byte
  source : Byte
  kind : Byte
  body : ReplyBody
  deriving DecidableEq, Repr

/-! ### Station Table, Claim Table -/

/-- A present entry of the Station Table (Table 1-7). -/
structure Station where
  rank : Rank
  spaceMask : BitVec 16
  axisMask : BitVec 3
  deriving DecidableEq, Repr

/-- A lease: PERMANENT, or the milliseconds left (R24). -/
inductive Lease
  | permanent
  | left (ms : Nat)
  deriving DecidableEq, Repr

/-- A claim record in use (Table 2-1). Its KIND is a function of its TARGET: HOLD for an axis, else LOCK. -/
structure Claim where
  target : ClaimTarget
  holder : Origin
  rank : Rank
  lease : Lease
  deriving DecidableEq, Repr

/-! ### Load Table, Fade Engine, Output Stage -/

/-- A fade record (Table 4-1) with its step timer; `rising` is SIGN +1. -/
structure Fade where
  rising : Bool
  q : Nat
  r : Nat
  n : Nat
  remaining : Nat
  acc : Nat
  stepTimer : Nat
  deriving DecidableEq, Repr

/-- A load record (Tables 3-1 and 3-2). -/
structure LoadRec extends LoadConfig where
  setTarget : Nat
  effTarget : Nat
  level : Nat
  fade : Option Fade
  shed : Bool
  forced : Bool
  countedDraw : Nat
  deriving DecidableEq, Repr

/-- A load output (R73): its live duty, its staged duty, and what is left of its present period. -/
structure Output where
  live : Nat
  staged : Option Nat
  period : Option Nat
  deriving DecidableEq, Repr

/-! ### Scene Store -/

/-- Who may act on a scene (Table 5-1). -/
inductive Owner | live | management
  deriving DecidableEq, Repr

/-- A scene record (Table 5-1). -/
structure Scene where
  owner : Owner
  defaultFade : Nat
  entries : List (LoadNo × Nat)
  deriving DecidableEq, Repr

/-- A stack frame: pairs of a load and the set target it had (R91). -/
abbrev StackFrame := List (LoadNo × Nat)

/-! ### Power Budget Monitor -/

/-- The budget record (Table 6-1); the shed list stands oldest first. -/
structure Budget where
  available : Nat
  committed : Nat
  deficit : Bool
  shedList : List LoadNo
  heldDemand : Vector Nat 3
  deriving DecidableEq, Repr

/-! ### Axis Controllers -/

/-- States of an axis (Table 7-2). -/
inductive AxisState | parked | warn | run | stopping | rest | lockout
  deriving DecidableEq, Repr

/-- End reasons (Table 7-4). -/
inductive EndReason
  | none | target | limit | home | stopRequest | leaseLost | preEmpted | interlock | obstructed | stall | noLoad
  | noBudget | halt | reset | cleared
  deriving DecidableEq, Repr

/-- The accepted motion of an axis (R130). -/
structure Pending where
  direction : Direction
  target : Option Nat
  origin : Origin
  deriving DecidableEq, Repr

/-- An axis record (Tables 7-1 and 7-2) with its timers. `restRemaining` is REST REMAINING and the rest timer;
`monitoring` is stall monitoring (R149); `pulseWatch` is present while the watch is armed. -/
structure AxisRec extends AxisConfig where
  state : AxisState
  position : Nat
  verified : Bool
  speed : Nat
  direction : Direction
  pending : Option Pending
  stallCount : Nat
  restRemaining : Option Nat
  jam : Option Nat
  endReason : EndReason
  runDistance : Nat
  rampTimer : Option Nat
  brakeTimer : Option Nat
  confirmTimer : Option Nat
  monitoring : Bool
  pulseWatch : Option Nat
  overCurrentTimer : Option Nat
  deriving DecidableEq, Repr

/-- The inputs of an axis (R121): home, safety edge, current sense 0 to 255. -/
structure AxisInputs where
  home : Bool
  edge : Bool
  current : Nat
  deriving DecidableEq, Repr

/-- The outputs of an axis (R121): direction active for EXTEND, drive duty in 4096ths, brake active to release. -/
structure AxisPins where
  direction : Bool
  drive : Nat
  brake : Bool
  deriving DecidableEq, Repr

/-! ### Interlock Table -/

/-- A present interlock entry (Table 9-1). -/
structure Interlock where
  subject : AxisNo
  direction : BlockDir
  condition : AxisNo
  relation : Relation
  threshold : Nat
  deriving DecidableEq, Repr

/-! ### Signal Generator -/

/-- States of a signal channel (Table 10-2). -/
inductive ChannelState | idle | sounding | finishing
  deriving DecidableEq, Repr

/-- Kinds of a signal cycle (Table 10-2). -/
inductive Cycle | primary | secondary | gap
  deriving DecidableEq, Repr

/-- Parts of a sounded cycle (Table 10-2). -/
inductive Phase | mark | space
  deriving DecidableEq, Repr

/-- A signal channel (Tables 10-1 and 10-2) with the timers of its cycle in progress. -/
structure Channel where
  live : Pattern
  staged : Option Pattern
  state : ChannelState
  cycle : Option Cycle
  phase : Option Phase
  gapLeft : Nat
  warnCount : Nat
  discard : Bool
  markTimer : Option Nat
  cycleTimer : Option Nat
  deriving DecidableEq, Repr

/-- The outputs of a signal channel (R169): beacon/horn active, tone select active for secondary. -/
structure SignalPins where
  beacon : Bool
  tone : Bool
  deriving DecidableEq, Repr

/-! ### Run Control, Notice Unit -/

/-- Run state (R176). -/
inductive RunState | halted | running
  deriving DecidableEq, Repr

/-- Reset cause (R176). -/
inductive ResetCause | powerOn | brownout | pin
  deriving DecidableEq, Repr

/-- The device record (R176). -/
structure Device where
  runState : RunState
  resetCause : ResetCause
  motionAtReset : Bool
  deriving DecidableEq, Repr

/-- The kind of reset whose settle interval it is (R178). -/
inductive SettleKind | powerOn | warm
  deriving DecidableEq, Repr

/-- A settle interval under way (R178, R179): `timer` is none while the source of the reset persists and the settle
timer has not started. -/
structure Settle where
  kind : SettleKind
  timer : Option Nat
  deriving DecidableEq, Repr

/-- The pending flags of the six notice conditions (R181). -/
structure Notices where
  axisLockout : Bool
  deficit : Bool
  axisFault : Bool
  motionLeaseLost : Bool
  shedChange : Bool
  resetNotice : Bool
  deriving DecidableEq, Repr

/-- The state of the part. `busTx` and `linkTx` are the bytes of the reply frame last put out on each port, `tieCount`
counts the free choices taken among timers due together, and `pending` is the queue of commands waiting, first in,
first out: these are the model's own. -/
structure State where
  pending : List Instr
  busRx : List Byte
  linkRx : List Byte
  busReplies : List Reply
  linkReply : Option Reply
  busTx : List Byte
  linkTx : List Byte
  stations : Vector (Option Station) 62
  claims : List Claim
  loads : Vector LoadRec 96
  outputs : Vector Output 96
  scenes : Vector Scene 128
  returnStacks : Vector (List StackFrame) 16
  budget : Budget
  axes : Vector AxisRec 3
  axisInputs : Vector AxisInputs 3
  axisPins : Vector AxisPins 3
  interlocks : Vector (Option Interlock) 16
  channels : Vector Channel 3
  signalPins : Vector SignalPins 3
  device : Device
  settle : Option Settle
  resetInput : Bool
  supplyLow : Bool
  notices : Notices
  noticeLine : Bool
  tieCount : Nat
  deriving DecidableEq, Repr

/-- The outcome of a command. -/
abbrev Result := Host.Outcome State Fault Refusal

/-! ### Values after a power-on reset -/

/-- Table 3-1 and Table 3-2 after power-on (R40, R41). -/
def LoadRec.reset : LoadRec :=
  { kind := .none, space := 0, groupMask := 0, shedRank := 0, shedLevel := 0, ratedPower := 0, minDuty := 0
    setTarget := 0, effTarget := 0, level := 0, fade := none, shed := false, forced := false, countedDraw := 0 }

/-- An output after any reset: off, nothing staged, no period running (R73). -/
def Output.reset : Output := { live := 0, staged := none, period := none }

/-- Table 5-1 after power-on. -/
def Scene.reset : Scene := { owner := .live, defaultFade := 0, entries := [] }

/-- Table 6-1 after power-on. -/
def Budget.reset : Budget :=
  { available := 0, committed := 0, deficit := false, shedList := [], heldDemand := Vector.replicate 3 0 }

/-- Table 7-1 and Table 7-2 after power-on; every timer stopped (R122, R125). -/
def AxisRec.reset : AxisRec :=
  { demand := 0, courtesy := none, runSpeed := 1, creepSpeed := 1, accelStep := 1, decelStep := 1, approach := 0
    softLow := 0, softHigh := 16383, stallWindow := 10, overCurrent := 255, noLoad := 0, warnCycles := 1
    state := .parked, position := 0, verified := false, speed := 0, direction := .extend, pending := none
    stallCount := 0, restRemaining := none, jam := none, endReason := .none, runDistance := 0
    rampTimer := none, brakeTimer := none, confirmTimer := none, monitoring := false, pulseWatch := none
    overCurrentTimer := none }

/-- All three outputs of an axis inactive (R121). -/
def AxisPins.off : AxisPins := { direction := false, drive := 0, brake := false }

/-- Table 10-1 after power-on (R168). -/
def Pattern.reset : Pattern :=
  { primaryMark := 30, primarySpace := 20, secondaryMark := 15, secondarySpace := 10, mode := .twoTone, gapCycles := 0 }

/-- Table 10-2 after a reset, with the live pattern given (R168). -/
def Channel.idleWith (live : Pattern) : Channel :=
  { live := live, staged := none, state := .idle, cycle := none, phase := none, gapLeft := 0, warnCount := 0
    discard := false, markTimer := none, cycleTimer := none }

/-- Both outputs of a channel inactive (R169). -/
def SignalPins.off : SignalPins := { beacon := false, tone := false }

/-- RESET alone pending (R181). -/
def Notices.reset : Notices :=
  { axisLockout := false, deficit := false, axisFault := false, motionLeaseLost := false, shedChange := false, resetNotice := true }

/-- The part right after a power-on reset: every record at its power-on value, HALTED, the settle interval of 250 ms
begun (R178). The spec gives the input pins, the bytes last put out and `tieCount` no reset value: inactive, 0, empty
and 0 are the model's (log entries 3, 5 and 6). -/
def State.reset : State :=
  { pending := [], busRx := [], linkRx := [], busReplies := [], linkReply := none, busTx := [], linkTx := []
    stations := Vector.replicate 62 none, claims := []
    loads := Vector.replicate 96 LoadRec.reset, outputs := Vector.replicate 96 Output.reset
    scenes := Vector.replicate 128 Scene.reset, returnStacks := Vector.replicate 16 []
    budget := Budget.reset
    axes := Vector.replicate 3 AxisRec.reset
    axisInputs := Vector.replicate 3 { home := false, edge := false, current := 0 }
    axisPins := Vector.replicate 3 AxisPins.off
    interlocks := Vector.replicate 16 none
    channels := Vector.replicate 3 (Channel.idleWith Pattern.reset)
    signalPins := Vector.replicate 3 SignalPins.off
    device := { runState := .halted, resetCause := .powerOn, motionAtReset := false }
    settle := some { kind := .powerOn, timer := some powerOnSettleMs }
    resetInput := false, supplyLow := false
    notices := Notices.reset, noticeLine := false, tieCount := 0 }

end Sys2Proof.Machine
end

