-- ==== Sys2Proof/Machine/Flags.lean ====
section
/-! DEFINITION. Machine/Flags.lean: the notice conditions, and the output pins that follow the records. -/

namespace Sys2Proof.Machine

/-- The three axes, in ascending number. -/
def allAxes : List AxisNo := [0, 1, 2]

/-- The part is in its settle interval (R179). -/
def State.inSettle (s : State) : Bool := s.settle.isSome

/-- Raise AXIS_FAULT (R157). -/
def State.raiseAxisFault (s : State) : State := { s with notices := { s.notices with axisFault := true } }

/-- Raise MOTION_LEASE_LOST (R140). -/
def State.raiseMotionLeaseLost (s : State) : State := { s with notices := { s.notices with motionLeaseLost := true } }

/-- Raise SHED_CHANGE (R103). -/
def State.raiseShedChange (s : State) : State := { s with notices := { s.notices with shedChange := true } }

/-- At least one condition is pending (R181). -/
def Notices.any (p : Notices) : Bool :=
  p.axisLockout || p.deficit || p.axisFault || p.motionLeaseLost || p.shedChange || p.resetNotice

/-- The pending condition of highest priority, by its code; 0 for NONE (R181, R182). -/
def Notices.highest (p : Notices) : Nat :=
  if p.axisLockout then 1 else if p.deficit then 2 else if p.axisFault then 3
  else if p.motionLeaseLost then 4 else if p.shedChange then 5 else if p.resetNotice then 6 else 0

/-- Clear the edge condition of the given code; a level condition stays pending (R182). -/
def Notices.clearEdge (p : Notices) (code : Nat) : Notices :=
  match code with
  | 3 => { p with axisFault := false }
  | 4 => { p with motionLeaseLost := false }
  | 5 => { p with shedChange := false }
  | 6 => { p with resetNotice := false }
  | _ => p

/-- Field 4 of the device view: bit c − 1 set for each pending condition of code c (R180). -/
def Notices.mask (p : Notices) : Nat :=
  (if p.axisLockout then 1 else 0) + (if p.deficit then 2 else 0) + (if p.axisFault then 4 else 0)
    + (if p.motionLeaseLost then 8 else 0) + (if p.shedChange then 16 else 0) + (if p.resetNotice then 32 else 0)

/-- The cause of AXIS_LOCKOUT: at least one axis is in LOCKOUT (R157). -/
def State.anyLockout (s : State) : Bool := allAxes.any fun a => (s.axes.get a).state == .lockout

/-- The two level conditions are pending exactly while their cause is present (R181). -/
def State.levelNotices (s : State) : Notices :=
  { s.notices with axisLockout := s.anyLockout, deficit := s.budget.deficit }

/-- The outputs of an axis (R121, Table 7-3): the drive duty is SPEED × 16 in RUN and STOPPING, the brake is released
in RUN, and in STOPPING until SPEED is 0; all three are inactive through the settle interval. -/
def AxisRec.pins (ax : AxisRec) (inSettle : Bool) : AxisPins :=
  if inSettle then AxisPins.off
  else
    { direction := ax.direction == .extend
      drive := match ax.state with | .run | .stopping => ax.speed * 16 | _ => 0
      brake := match ax.state with | .run => true | .stopping => decide (0 < ax.speed) | _ => false }

/-- The outputs of a channel (R169); both are inactive through the settle interval. -/
def Channel.pins (ch : Channel) (inSettle : Bool) : SignalPins :=
  if inSettle then SignalPins.off
  else
    { beacon := ch.phase == some .mark && (ch.cycle == some .primary || ch.cycle == some .secondary)
      tone := ch.cycle == some .secondary }

/-- The NOTICE line: high while a condition is pending, held low by the settle interval (R179, R181). -/
def State.noticeLevel (s : State) : Bool := !s.inSettle && s.levelNotices.any

/-- Bring the level conditions and the output pins to what the records give, at the end of an event. -/
def State.driveOutputs (s : State) : State :=
  { s with
    notices := s.levelNotices
    axisPins := mapTable (fun ax => ax.pins s.inSettle) s.axes
    signalPins := mapTable (fun ch => ch.pins s.inSettle) s.channels
    noticeLine := s.noticeLevel }

/-- The outcome of a whole event. -/
def State.complete (s : State) : Result := .next s.driveOutputs

end Sys2Proof.Machine
end

