-- ==== Sys2Proof/Machine/Ops.lean ====
section
/-! DEFINITION. Machine/Ops.lean: the one way to each record, the load record's own operations (chapters 3 and 4), and
the Power Budget Monitor's answers to them (chapter 6). -/

namespace Sys2Proof.Machine

/-! ### The records -/

/-- The 96 loads, in ascending number. -/
def allLoads : List LoadNo := List.finRange 96

/-- The 16 places of the Interlock Table. -/
def allPlaces : List PlaceNo := List.finRange 16

def State.load (s : State) (n : LoadNo) : LoadRec := s.loads.get n
def State.output (s : State) (n : LoadNo) : Output := s.outputs.get n
def State.axis (s : State) (a : AxisNo) : AxisRec := s.axes.get a
def State.axisIn (s : State) (a : AxisNo) : AxisInputs := s.axisInputs.get a
def State.channel (s : State) (a : AxisNo) : Channel := s.channels.get a
def State.scene (s : State) (v : SceneNo) : Scene := s.scenes.get v
def State.returnStack (s : State) (p : SpaceNo) : List StackFrame := s.returnStacks.get p
def State.interlock (s : State) (p : PlaceNo) : Option Interlock := s.interlocks.get p
def State.held (s : State) (a : AxisNo) : Nat := s.budget.heldDemand.get a

/-- The Station Table entry of an origin; the Management Link has none (R3, R9). -/
def State.station (s : State) (o : Origin) : Option Station :=
  if h : 1 ≤ o.val then s.stations.get ⟨o.val - 1, by omega⟩ else none

def State.setLoad (s : State) (n : LoadNo) (l : LoadRec) : State := { s with loads := s.loads.set n l }
def State.setOutput (s : State) (n : LoadNo) (x : Output) : State := { s with outputs := s.outputs.set n x }
def State.setAxis (s : State) (a : AxisNo) (x : AxisRec) : State := { s with axes := s.axes.set a x }
def State.setAxisIn (s : State) (a : AxisNo) (x : AxisInputs) : State := { s with axisInputs := s.axisInputs.set a x }
def State.setChannel (s : State) (a : AxisNo) (x : Channel) : State := { s with channels := s.channels.set a x }
def State.setScene (s : State) (v : SceneNo) (x : Scene) : State := { s with scenes := s.scenes.set v x }
def State.setReturnStack (s : State) (p : SpaceNo) (x : List StackFrame) : State :=
  { s with returnStacks := s.returnStacks.set p x }
def State.setInterlock (s : State) (p : PlaceNo) (x : Option Interlock) : State :=
  { s with interlocks := s.interlocks.set p x }
def State.setBudget (s : State) (b : Budget) : State := { s with budget := b }
def State.setClaims (s : State) (c : List Claim) : State := { s with claims := c }
def State.setHeld (s : State) (a : AxisNo) (d : Nat) : State :=
  { s with budget := { s.budget with heldDemand := s.budget.heldDemand.set a d } }
def State.setCommitted (s : State) (c : Nat) : State := { s with budget := { s.budget with committed := c } }
def State.setDeficit (s : State) (d : Bool) : State := { s with budget := { s.budget with deficit := d } }
def State.setShedList (s : State) (l : List LoadNo) : State := { s with budget := { s.budget with shedList := l } }

/-- Every return stack cleared (R93). -/
def State.clearStacks (s : State) : State := { s with returnStacks := Vector.replicate 16 [] }

/-- The space of a scene, floor(v / 8) (R4). -/
def sceneSpace (v : SceneNo) : SpaceNo := ⟨v.val / 8, by omega⟩

/-! ### The derived values of a load -/

/-- EFFECTIVE TARGET (R42). -/
def LoadRec.effectiveTarget (l : LoadRec) : Nat :=
  match l.kind with
  | .none => 0
  | .dim => if l.forced then 1000 else if l.shed then min l.setTarget l.shedLevel else l.setTarget
  | .switch =>
    if l.forced then 1000
    else if l.shed then (if min l.setTarget l.shedLevel = 1000 then 1000 else 0)
    else l.setTarget

/-- The power a load of this kind and rating counts when the larger of its level and effective target is m (R43). -/
def LoadRec.drawAt (l : LoadRec) (m : Nat) : Nat :=
  match l.kind with
  | .none => 0
  | .switch => if 0 < m then l.ratedPower else 0
  | .dim => (l.ratedPower * m + 999) / 1000

/-- EFFECTIVE TARGET recomputed (R42). -/
def LoadRec.retarget (l : LoadRec) : LoadRec := { l with effTarget := l.effectiveTarget }

/-- COUNTED DRAW recomputed (R43). -/
def LoadRec.recount (l : LoadRec) : LoadRec := { l with countedDraw := l.drawAt (max l.level l.effTarget) }

/-! ### Fades (chapter 4) -/

/-- A fade of `steps` steps from LEVEL to EFFECTIVE TARGET (R62). A SWITCH, NONE or FORCED load makes no record (R61). -/
def LoadRec.startFade (steps : Nat) (l : LoadRec) : LoadRec :=
  if l.kind = .dim ∧ l.forced = false then
    let delta := (l.effTarget - l.level) + (l.level - l.effTarget)
    if delta = 0 then { l with fade := none }
    else if steps = 0 then { l with fade := none, level := l.effTarget }
    else
      { l with
        fade := some
          { rising := decide (l.level < l.effTarget), q := delta / steps, r := delta - delta / steps * steps
            n := steps, remaining := steps, acc := 0, stepTimer := fadeStepMs } }
  else l

/-- One step on the fade record f of a load (R64, steps 1 to 5). -/
def LoadRec.stepFade (f : Fade) (l : LoadRec) : LoadRec :=
  let carry := decide (f.n ≤ f.acc + f.r)
  let move := f.q + (if carry then 1 else 0)
  { l with
    level := if f.rising then l.level + move else l.level - move
    fade :=
      if f.remaining ≤ 1 then none
      else
        some { f with
          acc := if carry then f.acc + f.r - f.n else f.acc + f.r
          remaining := f.remaining - 1
          stepTimer := fadeStepMs } }

/-- The level of a SWITCH load follows its effective target at once (R53). -/
def LoadRec.followSwitch (l : LoadRec) : LoadRec :=
  if l.kind = .switch then { l with level := l.effTarget } else l

/-- What a load does when its effective target has fallen from `old` to the present one (R56): a level above it is cut
to it at once, a rise toward `old` is refaded over its remaining steps (R68), an unchanged target leaves all as it was. -/
def LoadRec.dropToTarget (old : Nat) (l : LoadRec) : LoadRec :=
  match l.kind with
  | .none => l
  | .switch => l.followSwitch
  | .dim =>
    if l.effTarget < old then
      if l.effTarget < l.level then { l with level := l.effTarget, fade := none }
      else
        match l.fade with
        | some f => l.startFade f.remaining
        | none => l
    else l

/-- A shed (R56). -/
def LoadRec.toShed (l : LoadRec) : LoadRec :=
  ({ l with shed := true }.retarget.dropToTarget l.effTarget).recount

/-- A restore (R57). -/
def LoadRec.toRestored (l : LoadRec) : LoadRec :=
  (({ l with shed := false }.retarget).startFade restoreSteps).followSwitch.recount

/-- A force (R58): it reaches DIM and SWITCH loads, and changes nothing in a load already forced. -/
def LoadRec.toForced (l : LoadRec) : LoadRec :=
  if l.forced ∨ l.kind = .none then l
  else { l with forced := true, effTarget := 1000, level := 1000, fade := none }.recount

/-- An unforce (R59). -/
def LoadRec.toUnforced (l : LoadRec) : LoadRec :=
  if l.forced then
    let u := { l with forced := false }.retarget
    let v :=
      match u.kind with
      | .none => u
      | .switch => u.followSwitch
      | .dim => if u.shed then { u with level := u.effTarget, fade := none } else u.startFade restoreSteps
    v.recount
  else l

/-! ### The Output Stage -/

/-- The duty of a level (R74, R75). -/
def LoadRec.duty (l : LoadRec) : Nat :=
  match l.kind with
  | .none => 0
  | .switch => if 0 < l.level then 4095 else 0
  | .dim => if l.level = 0 then 0 else max ((l.level * l.level * 4095 + 500000) / 1000000) l.minDuty

/-- Stage the duty of a load's present level on its output (R76); through the settle interval changes of level do not
reach the outputs (R78). -/
def State.stageDuty (s : State) (n : LoadNo) : State :=
  if s.inSettle then s else s.setOutput n { s.output n with staged := some (s.load n).duty }

/-! ### Reports of counted draw -/

/-- HEADROOM (R98); 0 while DEFICIT is set (R106, R117; log entry 16). -/
def Budget.headroom (b : Budget) : Nat := if b.deficit then 0 else b.available - b.committed

def State.headroom (s : State) : Nat := s.budget.headroom

/-- A changed load record is written: a new level (or `restage`: a new KIND or MIN DUTY) goes to the Output Stage (R44),
and the change of counted draw is taken into COMMITTED (R99). The answer to a fall is not given here. -/
def State.storeLoad (s : State) (n : LoadNo) (l' : LoadRec) (restage : Bool := false) : State :=
  let l := s.load n
  let s1 := s.setLoad n l'
  let s2 := if restage || l'.level != l.level then s1.stageDuty n else s1
  s2.setCommitted (s2.budget.committed + l'.countedDraw - l.countedDraw)

/-- One restore of the pass: the load leaves the list, is restored, and its rise is added (R112, step 3). -/
def State.restoreOne (s : State) (n : LoadNo) : State :=
  ((s.setShedList (s.budget.shedList.erase n)).storeLoad n (s.load n).toRestored).raiseShedChange

/-- The restore of load n fits: its increase is at most HEADROOM (R112, R113). -/
def State.restoreFits (s : State) (n : LoadNo) : Bool :=
  decide ((s.load n).toRestored.countedDraw ≤ (s.load n).countedDraw + s.headroom)

/-- The restore pass over the entries given, newest first; it ends at the first that does not fit (R112). -/
def State.restoreAlong : List LoadNo → State → State
  | [], s => s
  | n :: rest, s => if s.restoreFits n then State.restoreAlong rest (s.restoreOne n) else s

/-- The restore pass (R112). -/
def State.restorePass (s : State) : State := State.restoreAlong s.budget.shedList.reverse s

/-- The answer to a fall of COMMITTED (R111): in deficit it clears DEFICIT if COMMITTED is within AVAILABLE (R119), and
the restore pass runs with DEFICIT clear. -/
def State.answerFall (s : State) : State :=
  if s.budget.deficit then
    if s.budget.committed ≤ s.budget.available then (s.setDeficit false).restorePass else s
  else s.restorePass

/-- A changed load record is written and its counted draw reported; a fall is answered (R43, R111). -/
def State.reportLoad (s : State) (n : LoadNo) (l' : LoadRec) (restage : Bool := false) : State :=
  let t := s.storeLoad n l' restage
  if l'.countedDraw < (s.load n).countedDraw then t.answerFall else t

/-! ### The budget limit and SET_LEVEL on one load -/

/-- The level the monitor permits a raise of load n to `level` (R105, R106). -/
def State.raiseLimit (s : State) (n : LoadNo) (level : Nat) : Nat :=
  let l := s.load n
  let allowed := l.countedDraw + s.headroom
  match l.kind with
  | .switch => if l.ratedPower ≤ allowed then 1000 else l.setTarget
  | _ => if l.ratedPower = 0 then level else min level (allowed * 1000 / l.ratedPower)

/-- The level that R52 steps 1 and 2 make of the level requested (R53). -/
def LoadRec.levelAsked (l : LoadRec) (level : Nat) : Nat :=
  if l.kind = .switch then (if 0 < level then 1000 else 0) else min level 1000

/-- SET TARGET as R52 step 3 leaves it: a raise is limited, and never below the present SET TARGET (R54). -/
def State.limitedTarget (s : State) (n : LoadNo) (level : Nat) : Nat :=
  let l := s.load n
  let asked := l.levelAsked level
  if l.setTarget < asked then max (s.raiseLimit n asked) l.setTarget else asked

/-- The record that R52 steps 4 to 7 make of a load given its new SET TARGET and fade steps (R53, R55). -/
def LoadRec.withSetTarget (l : LoadRec) (target steps : Nat) : LoadRec :=
  ((({ l with setTarget := target }.retarget).startFade steps).followSwitch).recount

/-- A requested fade in steps: clamped to 600, five steps to the 100 ms (R52 step 1). -/
def fadeSteps (fade : Nat) : Nat := min fade 600 * 5

/-- SET_LEVEL on one load (R52), and whether it was applied in full (R20). -/
def State.setLevelOn (s : State) (n : LoadNo) (level fade : Nat) : State × Bool :=
  let target := s.limitedTarget n level
  (s.reportLoad n ((s.load n).withSetTarget target (fadeSteps fade)),
   target == (s.load n).levelAsked level)

/-! ### Sheds and grants -/

/-- The relief of a load: the fall of COUNTED DRAW a shed would cause (R104). -/
def LoadRec.relief (l : LoadRec) : Nat :=
  let e := { l with shed := true }.effectiveTarget
  if e < l.effTarget then l.countedDraw - l.drawAt e else 0

/-- A load is sheddable (R104). -/
def LoadRec.sheddable (l : LoadRec) : Bool :=
  l.kind != .none && decide (1 ≤ l.shedRank) && decide (l.shedRank ≤ 7) && !l.shed && !l.forced && decide (0 < l.relief)

/-- One shed: the flag, the level, the list, the fall taken without an answer, SHED_CHANGE (R56, R103, R109). -/
def State.shedOne (s : State) (n : LoadNo) : State :=
  ((s.storeLoad n (s.load n).toShed).setShedList (s.budget.shedList ++ [n])).raiseShedChange

/-- The shed order: highest SHED RANK first, and within a rank the highest load number (R104). -/
def State.shedOrder (s : State) : List LoadNo :=
  [7, 6, 5, 4, 3, 2, 1].flatMap fun r => allLoads.reverse.filter fun n => (s.load n).shedRank == r

/-- Shed the sheddable loads of a list in turn, until `enough` holds. -/
def State.shedAlong (enough : State → Bool) : List LoadNo → State → State
  | [], s => s
  | n :: rest, s =>
    if enough s then s
    else if (s.load n).sheddable then State.shedAlong enough rest (s.shedOne n)
    else State.shedAlong enough rest s

/-- The courtesy increment of a motion (R107). -/
def State.courtesyIncrement (s : State) (courtesy : Option LoadNo) : Nat :=
  match courtesy with
  | none => 0
  | some n =>
    let l := s.load n
    if l.kind = .none ∨ l.forced then 0 else l.drawAt 1000 - l.countedDraw

/-- The need D of a motion of axis a (R107). -/
def State.motionNeed (s : State) (a : AxisNo) : Nat :=
  (s.axis a).demand + s.courtesyIncrement (s.axis a).courtesy

/-- The loads a grant for axis a may shed, in shed order: its own courtesy load is left out (R108). -/
def State.grantOrder (s : State) (a : AxisNo) : List LoadNo :=
  s.shedOrder.filter fun n => (s.axis a).courtesy != some n

/-- The total relief a grant for axis a can find (R108). -/
def State.grantRelief (s : State) (a : AxisNo) : Nat :=
  (s.grantOrder a).foldl (fun sum n => if (s.load n).sheddable then sum + (s.load n).relief else sum) 0

/-- A grant made: DEMAND is added to HELD DEMAND and to COMMITTED (R110). -/
def State.addDemand (s : State) (a : AxisNo) : State :=
  let d := (s.axis a).demand
  (s.setHeld a (s.held a + d)).setCommitted (s.budget.committed + d)

/-- The motion grant (R108, R109, R110); none is a refusal, which changes nothing. -/
def State.grant (s : State) (a : AxisNo) : Option State :=
  let d := s.motionNeed a
  if s.budget.deficit then (if d = 0 then some (s.addDemand a) else none)
  else if d ≤ s.headroom then some (s.addDemand a)
  else if s.headroom + s.grantRelief a < d then none
  else some ((State.shedAlong (fun t => decide (d ≤ t.headroom)) (s.grantOrder a) s).addDemand a)

end Sys2Proof.Machine
end

