-- ==== Sys2Proof/Machine/Interlocks.lean ====
section
/-! DEFINITION. Machine/Interlocks.lean: satisfied entries and blocked directions (chapter 9). -/

namespace Sys2Proof.Machine

/-- The entry's condition holds (R162). -/
def State.satisfied (s : State) (e : Interlock) : Bool :=
  let c := s.axis e.condition
  match e.relation with
  | .below => !c.verified || decide (c.position < e.threshold)
  | .above => !c.verified || decide (e.threshold < c.position)
  | .notParked => match c.state with | .warn | .run | .stopping | .rest => true | .parked | .lockout => false

/-- The direction an entry forbids is `d`, or ANY (R163). -/
def BlockDir.forbids (b : BlockDir) (d : Direction) : Bool :=
  match b, d with
  | .any, _ => true
  | .extend, .extend => true
  | .retract, .retract => true
  | _, _ => false

/-- The entry blocks axis a in direction d (R163). -/
def State.entryBlocks (s : State) (e : Interlock) (a : AxisNo) (d : Direction) : Bool :=
  s.satisfied e && e.subject == a && BlockDir.forbids e.direction d

/-- Axis a is blocked in direction d (R163, R164). -/
def State.blocked (s : State) (a : AxisNo) (d : Direction) : Bool :=
  allPlaces.any fun p => match s.interlock p with | some e => s.entryBlocks e a d | none => false

/-- The direction in which an axis in WARN or RUN is tested (R163). -/
def AxisRec.movingDirection (ax : AxisRec) : Option Direction :=
  match ax.state with
  | .warn => ax.pending.map (·.direction)
  | .run => some ax.direction
  | _ => none

/-- The entry is satisfied and its subject moves in a direction it blocks (R161, R165). -/
def State.entryStops (s : State) (e : Interlock) : Bool :=
  match (s.axis e.subject).movingDirection with
  | some d => s.entryBlocks e e.subject d
  | none => false

end Sys2Proof.Machine
end

