-- ==== Sys2Proof/Decode.lean ====
section
/-! DEFINITION. Decode.lean: the frame on the two ports, its check, and the bodies of the requests (R1 to R5), with the
bytes that spell them. The table of operations gives no row any bits: `decodeTableWord` spells none. -/

namespace Sys2Proof

/-- A 16-bit value of a frame, most significant byte first (R1). -/
def wordOf (hi lo : Byte) : Nat := hi.toNat * 256 + lo.toNat

/-- The two bytes of a 16-bit value, most significant first (R1). -/
def bytesOf (n : Nat) : List Byte := [BitVec.ofNat 8 (n / 256), BitVec.ofNat 8 n]

/-- One bit of the check: generator x^16 + x^12 + x^5 + 1, most significant bit first (R2). -/
def crcBit (c : BitVec 16) : BitVec 16 := if c.msb then (c <<< 1) ^^^ 0x1021#16 else c <<< 1

/-- One byte of the check (R2). -/
def crcByte (c : BitVec 16) (b : Byte) : BitVec 16 :=
  crcBit (crcBit (crcBit (crcBit (crcBit (crcBit (crcBit (crcBit (c ^^^ (b.zeroExtend 16 <<< 8)))))))))

/-- The check of a frame: initial value all ones, no final inversion (R2). -/
def crc16 (bs : List Byte) : BitVec 16 := bs.foldl crcByte 0xFFFF#16

/-- The frame of four header bytes, a body and the check of both (Table 1-1). -/
def frameBytes (destination source kind : Byte) (body : List Byte) : List Byte :=
  let covered := destination :: source :: kind :: BitVec.ofNat 8 body.length :: body
  covered ++ bytesOf (crc16 covered).toNat

/-- What a received frame carries once R1 and R2 have passed it. -/
structure Received where
  origin : Origin
  kind : Byte
  body : List Byte
  deriving DecidableEq, Repr

/-- The origin of a frame: on the Cabin Bus a source 1 to 62 that names station 63, the part, as its
destination (R2); on the Management Link 0, the two address bytes not examined (R3). -/
def frameOrigin (p : Port) (destination source : Byte) : Option Origin :=
  match p with
  | .link => some 0
  | .bus =>
    if h : destination = 63 ∧ 1 ≤ source.toNat ∧ source.toNat ≤ 62 then some ⟨source.toNat, by omega⟩ else none

/-- Read the bytes between two delimiters as a frame; none where R1 or R2 drops it. -/
def readFrame (p : Port) (bytes : List Byte) : Option Received :=
  match bytes with
  | destination :: source :: kind :: length :: rest =>
    if 6 ≤ bytes.length ∧ bytes.length ≤ 66 ∧ length.toNat ≤ 60 ∧ bytes.length = length.toNat + 6 then
      let body := rest.take length.toNat
      if rest.drop length.toNat = bytesOf (crc16 (destination :: source :: kind :: length :: body)).toNat then
        (frameOrigin p destination source).map fun o => ⟨o, kind, body⟩
      else none
    else none
  | _ => none

/-- Kind bytes (Table 1-3). -/
def ReqKind.code : ReqKind → Byte
  | .query => 1 | .setLevel => 2 | .recallScene => 3 | .returnScene => 4 | .claim => 5 | .renew => 6
  | .release => 7 | .move => 8 | .stop => 9 | .writeStation => 16 | .writeLoad => 17 | .writeAxis => 18
  | .writeInterlock => 19 | .writeSignal => 20 | .takeScene => 21 | .writeScene => 22 | .giveScene => 23
  | .setBudget => 24 | .clearLockout => 25 | .start => 26 | .halt => 27 | .readNotice => 28

/-- The request kinds, in the order of Table 1-3. -/
def ReqKind.table : List ReqKind :=
  [.query, .setLevel, .recallScene, .returnScene, .claim, .renew, .release, .move, .stop, .writeStation,
   .writeLoad, .writeAxis, .writeInterlock, .writeSignal, .takeScene, .writeScene, .giveScene, .setBudget,
   .clearLockout, .start, .halt, .readNotice]

/-- The request kind of a kind byte; none for a byte that Table 1-3 does not list (R5). -/
def ReqKind.ofByte (b : Byte) : Option ReqKind := ReqKind.table.find? fun k => k.code == b

/-- Kinds whose origin column in Table 1-3 reads management. -/
def ReqKind.managementOnly : ReqKind → Bool
  | .query | .setLevel | .recallScene | .returnScene | .claim | .renew | .release | .move | .stop => false
  | .writeStation | .writeLoad | .writeAxis | .writeInterlock | .writeSignal | .takeScene | .writeScene
  | .giveScene | .setBudget | .clearLockout | .start | .halt | .readNotice => true

/-- Kinds that RUNNING refuses with WRONG_STATE (R14). -/
def ReqKind.haltedOnly : ReqKind → Bool
  | .writeLoad | .writeAxis | .writeInterlock => true
  | _ => false

/-- The target classes that Table 1-3 allows for a kind. -/
def ReqKind.classes : ReqKind → List TargetClass
  | .query => [.load, .axis, .scene, .budget, .device]
  | .setLevel => [.load, .group, .space, .all]
  | .recallScene => [.scene]
  | .returnScene => [.space]
  | .claim | .renew | .release => [.load, .space, .axis]
  | .move | .stop | .writeAxis | .writeSignal | .clearLockout => [.axis]
  | .writeLoad => [.load]
  | .takeScene | .writeScene | .giveScene => [.scene]
  | .writeStation | .writeInterlock | .setBudget | .start | .halt | .readNotice => []

/-- Class bytes (Table 1-2). -/
def TargetClass.code : TargetClass → Byte
  | .load => 1 | .group => 2 | .space => 3 | .all => 4 | .axis => 5 | .scene => 6 | .budget => 7 | .device => 8

/-- The class of a class byte; none for a byte that Table 1-2 does not list (R4). -/
def TargetClass.ofByte (b : Byte) : Option TargetClass :=
  [.load, .group, .space, .all, .axis, .scene, .budget, .device].find? fun c => c.code == b

/-- The three bytes of a target (R4). -/
def targetBytes (t : RawTarget) : List Byte := t.cls.code :: bytesOf t.value

/-- A target from its three bytes (R4). -/
def readTarget (c hi lo : Byte) : Option RawTarget :=
  (TargetClass.ofByte c).map fun cls => ⟨cls, wordOf hi lo⟩

/-- The target of a value in its class's range (Table 1-2); none where the value lies outside it. -/
def RawTarget.typed (t : RawTarget) : Option Target :=
  match t.cls with
  | .load => if h : t.value < 96 then some (.load ⟨t.value, h⟩) else none
  | .group => some (.group t.value)
  | .space => if h : t.value < 16 then some (.space ⟨t.value, h⟩) else none
  | .all => some .all
  | .axis => if h : t.value < 3 then some (.axis ⟨t.value, h⟩) else none
  | .scene => if h : t.value < 128 then some (.scene ⟨t.value, h⟩) else none
  | .budget => some .budget
  | .device => some .device

/-- Present byte (Table 1-4). -/
def readPresent (b : Byte) : Option Bool := if b = 0 then some false else if b = 1 then some true else none

/-- Rank codes in requests and replies (Table 1-4). -/
def Rank.code : Rank → Nat
  | .guest => 1 | .crew => 2 | .officer => 3 | .management => 4

/-- Rank byte of WRITE_STATION (Table 1-4). -/
def readRank (b : Byte) : Option Rank :=
  if b = 1 then some .guest else if b = 2 then some .crew else if b = 3 then some .officer
  else if b = 4 then some .management else none

/-- Claim kind byte (Table 1-4). -/
def readClaimKind (b : Byte) : Option ClaimKind := if b = 1 then some .lock else if b = 2 then some .hold else none

/-- Claim kind codes (Table 1-4). -/
def ClaimKind.code : ClaimKind → Nat
  | .lock => 1 | .hold => 2

/-- Direction codes (Tables 1-4 and 7-5). -/
def Direction.code : Direction → Nat
  | .extend => 1 | .retract => 2

/-- Direction byte of MOVE (Table 1-4). -/
def readDirection (b : Byte) : Option Direction :=
  if b = 1 then some .extend else if b = 2 then some .retract else none

/-- Direction byte of WRITE_INTERLOCK (Table 1-4). -/
def readBlockDir (b : Byte) : Option BlockDir :=
  if b = 1 then some .extend else if b = 2 then some .retract else if b = 3 then some .any else none

/-- Relation byte (Table 1-4). -/
def readRelation (b : Byte) : Option Relation :=
  if b = 1 then some .below else if b = 2 then some .above else if b = 3 then some .notParked else none

/-- Load kind byte (Table 1-4). -/
def readLoadKind (b : Byte) : Option LoadKind :=
  if b = 0 then some .none else if b = 1 then some .dim else if b = 2 then some .switch else none

/-- Mode byte (Table 1-4). -/
def readMode (b : Byte) : Option SigMode := if b = 1 then some .single else if b = 2 then some .twoTone else none

/-- A body that is a target alone: QUERY, RELEASE, STOP, TAKE_SCENE, GIVE_SCENE, CLEAR_LOCKOUT (Table 1-3). -/
def readTargetBody : List Byte → Option (RawTarget × Unit)
  | [c, hi, lo] => (readTarget c hi lo).map fun t => (t, ())
  | _ => none

/-- A body of a target and one 16-bit value: RECALL_SCENE, RETURN_SCENE, RENEW (Table 1-3). -/
def readTargetWord : List Byte → Option (RawTarget × Nat)
  | [c, hi, lo, v1, v0] => (readTarget c hi lo).map fun t => (t, wordOf v1 v0)
  | _ => none

/-- The body of SET_LEVEL: target, level, fade (Table 1-3). -/
def readSetLevel : List Byte → Option (RawTarget × (Nat × Nat))
  | [c, hi, lo, l1, l0, f1, f0] => (readTarget c hi lo).map fun t => (t, (wordOf l1 l0, wordOf f1 f0))
  | _ => none

/-- The body of CLAIM: target, claim kind, lease (Table 1-3). -/
def readClaim : List Byte → Option (RawTarget × (ClaimKind × Nat))
  | [c, hi, lo, k, l1, l0] =>
    (readTarget c hi lo).bind fun t => (readClaimKind k).map fun kind => (t, (kind, wordOf l1 l0))
  | _ => none

/-- The body of MOVE: target, direction, target position (Table 1-3). -/
def readMove : List Byte → Option (RawTarget × (Direction × Nat))
  | [c, hi, lo, d, p1, p0] =>
    (readTarget c hi lo).bind fun t => (readDirection d).map fun dir => (t, (dir, wordOf p1 p0))
  | _ => none

/-- The fields of a WRITE_STATION body (Table 1-3). -/
structure StationFields where
  address : Nat
  present : Bool
  rank : Rank
  spaceMask : BitVec 16
  axisMask : Byte
  deriving DecidableEq, Repr

/-- The body of WRITE_STATION (Table 1-3). -/
def readWriteStation : List Byte → Option StationFields
  | [a, p, r, s1, s0, x] =>
    (readPresent p).bind fun present => (readRank r).map fun rank => ⟨a.toNat, present, rank, s1 ++ s0, x⟩
  | _ => none

/-- The fields of a WRITE_LOAD body, not yet checked (Table 1-3). -/
structure LoadFields where
  kind : LoadKind
  space : Nat
  groupMask : BitVec 64
  shedRank : Nat
  shedLevel : Nat
  ratedPower : Nat
  minDuty : Nat
  deriving DecidableEq, Repr

/-- The body of WRITE_LOAD; slot 8 × i + j of the group mask is bit j of the byte at position i (Table 1-3). -/
def readWriteLoad : List Byte → Option (RawTarget × LoadFields)
  | [c, hi, lo, k, s, g0, g1, g2, g3, g4, g5, g6, g7, r, l1, l0, p1, p0, m] =>
    (readTarget c hi lo).bind fun t => (readLoadKind k).map fun kind =>
      (t, ⟨kind, s.toNat, g7 ++ g6 ++ g5 ++ g4 ++ g3 ++ g2 ++ g1 ++ g0, r.toNat, wordOf l1 l0, wordOf p1 p0, m.toNat⟩)
  | _ => none

/-- The fields of a WRITE_AXIS body, not yet checked; `courtesy` is the courtesy load byte (Table 1-3). -/
structure AxisFields where
  courtesy : Nat
  config : AxisConfig
  deriving DecidableEq, Repr

/-- The body of WRITE_AXIS; a courtesy load byte of 255 is absent (R5). -/
def readWriteAxis : List Byte → Option (RawTarget × AxisFields)
  | [c, hi, lo, d1, d0, cl, run, creep, acc, dec, a1, a0, l1, l0, h1, h0, sw, oc, nl, w] =>
    (readTarget c hi lo).map fun t =>
      (t, { courtesy := cl.toNat
            config :=
              { demand := wordOf d1 d0
                courtesy := if h : cl.toNat < 96 then some ⟨cl.toNat, h⟩ else none
                runSpeed := run.toNat, creepSpeed := creep.toNat, accelStep := acc.toNat, decelStep := dec.toNat
                approach := wordOf a1 a0, softLow := wordOf l1 l0, softHigh := wordOf h1 h0
                stallWindow := sw.toNat, overCurrent := oc.toNat, noLoad := nl.toNat, warnCycles := w.toNat } })
  | _ => none

/-- The fields of a WRITE_INTERLOCK body, not yet checked (Table 1-3). -/
structure InterlockFields where
  index : Nat
  present : Bool
  subject : Nat
  direction : BlockDir
  condition : Nat
  relation : Relation
  threshold : Nat
  deriving DecidableEq, Repr

/-- The body of WRITE_INTERLOCK (Table 1-3). -/
def readWriteInterlock : List Byte → Option InterlockFields
  | [i, p, s, d, c, r, t1, t0] =>
    (readPresent p).bind fun present => (readBlockDir d).bind fun dir => (readRelation r).map fun rel =>
      ⟨i.toNat, present, s.toNat, dir, c.toNat, rel, wordOf t1 t0⟩
  | _ => none

/-- The body of WRITE_SIGNAL (Table 1-3). -/
def readWriteSignal : List Byte → Option (RawTarget × Pattern)
  | [c, hi, lo, pm, ps, sm, ss, m, g] =>
    (readTarget c hi lo).bind fun t => (readMode m).map fun mode =>
      (t, ⟨pm.toNat, ps.toNat, sm.toNat, ss.toNat, mode, g.toNat⟩)
  | _ => none

/-- The entries of a WRITE_SCENE body: a load number byte and a 16-bit level each (Table 1-3). -/
def readEntries : List Byte → List (Nat × Nat)
  | n :: l1 :: l0 :: rest => (n.toNat, wordOf l1 l0) :: readEntries rest
  | _ => []

/-- The fields of a WRITE_SCENE body, not yet checked (Table 1-3). -/
structure SceneFields where
  defaultFade : Nat
  entries : List (Nat × Nat)
  deriving DecidableEq, Repr

/-- The body of WRITE_SCENE, of length 6 + 3 × count (R5). -/
def readWriteScene : List Byte → Option (RawTarget × SceneFields)
  | c :: hi :: lo :: f1 :: f0 :: count :: rest =>
    if rest.length = 3 * count.toNat then
      (readTarget c hi lo).map fun t => (t, ⟨wordOf f1 f0, readEntries rest⟩)
    else none
  | _ => none

/-- The body of SET_BUDGET (Table 1-3). -/
def readSetBudget : List Byte → Option Nat
  | [v1, v0] => some (wordOf v1 v0)
  | _ => none

/-- An empty body: START, HALT, READ_NOTICE (Table 1-3). -/
def readEmpty : List Byte → Option Unit
  | [] => some ()
  | _ => none

/-- The body of SET_LEVEL, written out (Table 1-3). -/
def setLevelBody (t : RawTarget) (level fade : Nat) : List Byte := targetBytes t ++ bytesOf level ++ bytesOf fade

/-- A body of a target and one 16-bit value, written out (Table 1-3). -/
def targetWordBody (t : RawTarget) (v : Nat) : List Byte := targetBytes t ++ bytesOf v

/-- The body of CLAIM, written out (Table 1-3). -/
def claimBody (t : RawTarget) (k : ClaimKind) (lease : Nat) : List Byte :=
  targetBytes t ++ BitVec.ofNat 8 k.code :: bytesOf lease

/-- The body of MOVE, written out (Table 1-3). -/
def moveBody (t : RawTarget) (d : Direction) (position : Nat) : List Byte :=
  targetBytes t ++ BitVec.ofNat 8 d.code :: bytesOf position

/-- The command that a word spells by the table's bits: the table gives no row any bits, so none. -/
def decodeTableWord (_nbits _w : Nat) : Option Instr := none

end Sys2Proof
end

