-- ==== Sys2Proof/Machine/Operands.lean ====
section
/-! DEFINITION. Machine/Operands.lean: the Request Dispatcher (chapter 1): admission, the checks in their order, targets
and their resolution, coverage and the lock rule, replies. -/

namespace Sys2Proof.Machine

/-! ### Ranks and permissions -/

/-- `a` is strictly higher than `b`. -/
def outranks (a b : Rank) : Bool := decide (b.code < a.code)

/-- The requester's rank (R11). An absent station never gets as far as its rank is read (R12). -/
def State.rankOf (s : State) (o : Origin) : Rank :=
  if o = 0 then .management else match s.station o with | some e => e.rank | none => .guest

/-- The origin is permitted a space (R11, Table 1-7). -/
def State.permitsSpace (s : State) (o : Origin) (p : SpaceNo) : Bool :=
  o == 0 || match s.station o with | some e => e.spaceMask.getLsbD p | none => false

/-- The origin is permitted an axis (R11, Table 1-7). -/
def State.permitsAxis (s : State) (o : Origin) (a : AxisNo) : Bool :=
  o == 0 || match s.station o with | some e => e.axisMask.getLsbD a | none => false

/-! ### Claims and coverage -/

/-- KIND of a claim: HOLD for an axis, else LOCK (R26). -/
def Claim.kind (c : Claim) : ClaimKind := match c.target with | .axis _ => .hold | _ => .lock

/-- A claim covers load n (R22). -/
def State.coversLoad (s : State) (n : LoadNo) (c : Claim) : Bool :=
  c.target == .load n || c.target == .space (s.load n).space

/-- The coverage answer for load n (R23). -/
def State.loadCover (s : State) (n : LoadNo) : Option Claim := s.claims.find? fun c => s.coversLoad n c

/-- The coverage answer for axis a (R23). -/
def State.axisCover (s : State) (a : AxisNo) : Option Claim := s.claims.find? fun c => c.target == .axis a

/-- The remaining LEASE as the coverage answer reports it (R23): rounded up, never 0 for a finite lease. -/
def Claim.leaseReported (c : Claim) : Nat :=
  match c.lease with
  | .permanent => 0
  | .left ms =>
    match c.kind with
    | .hold => max 1 ((ms + (holdUnitMs - 1)) / holdUnitMs)
    | .lock => max 1 ((ms + (lockUnitMs - 1)) / lockUnitMs)

/-- The claim that locks load n against the requester, if any (R19). -/
def State.lockAgainst (s : State) (o : Origin) (n : LoadNo) : Option Claim :=
  match s.loadCover n with
  | some c => if c.holder ≠ o ∧ outranks (s.rankOf o) c.rank = false then some c else none
  | none => none

/-! ### Ports and replies -/

/-- The frame being received on the origin's port is complete (R1). -/
def State.endReceipt (s : State) (o : Origin) : State :=
  if o = 0 then { s with linkRx := [] } else { s with busRx := [] }

/-- The origin's port has room for a reply (R6). -/
def State.hasRoom (s : State) (o : Origin) : Bool :=
  if o = 0 then s.linkReply.isNone else decide (s.busReplies.length < 4)

/-- The reply to a request of a kind byte from an origin (R6). -/
def replyTo (o : Origin) (kind : Byte) (b : ReplyBody) : Reply :=
  { destination := BitVec.ofNat 8 o.val, source := if o = 0 then 0 else 63, kind := kind + 128, body := b }

/-- The reply is put in the Cabin Bus queue, or in the slot of the Management Link (R6). -/
def State.postReply (s : State) (o : Origin) (kind : Byte) (b : ReplyBody) : State :=
  if o = 0 then { s with linkReply := some (replyTo o kind b) }
  else { s with busReplies := s.busReplies ++ [replyTo o kind b] }

/-- Reply codes (Table 1-6). -/
def ReplyCode.number : ReplyCode → Nat
  | .done => 0 | .doneLimited => 1 | .donePartial => 2 | .accepted => 3 | .empty => 4
  | .badRequest => 16 | .unknownStation => 17 | .notPermitted => 18 | .badTarget => 19 | .notReady => 20
  | .wrongState => 21 | .claimed => 22 | .notHolder => 23 | .tableFull => 24 | .interlocked => 25
  | .obstructed => 26 | .noBudget => 27 | .busy => 28 | .lockedOut => 29 | .sceneOwned => 30
  | .sceneLive => 31 | .badValue => 32

/-- The bytes of a reply body (Table 1-5). -/
def ReplyBody.bytes : ReplyBody → List Byte
  | .plain c => [BitVec.ofNat 8 (ReplyCode.number c)]
  | .counts c applied limited skipped =>
    [BitVec.ofNat 8 (ReplyCode.number c), BitVec.ofNat 8 applied, BitVec.ofNat 8 limited, BitVec.ofNat 8 skipped]
  | .claimed r => [BitVec.ofNat 8 (ReplyCode.number .claimed), BitVec.ofNat 8 r.code]
  | .condition c => [BitVec.ofNat 8 (ReplyCode.number .done), BitVec.ofNat 8 c]
  | .view fields => BitVec.ofNat 8 (ReplyCode.number .done) :: fields.flatMap bytesOf

/-- The reply code of a reply body. -/
def ReplyBody.code : ReplyBody → ReplyCode
  | .plain c => c
  | .counts c _ _ _ => c
  | .claimed _ => .claimed
  | .condition _ => .done
  | .view _ => .done

/-- The bytes of a reply frame (R6, Table 1-1). -/
def Reply.bytes (r : Reply) : List Byte := frameBytes r.destination r.source r.kind r.body.bytes

/-! ### Deciding a request -/

/-- What an owner answers: the reply body and the state its changes leave. -/
abbrev Decision := ReplyBody × State

/-- A refusal: a reply code, and no record changed (R8). -/
def State.refuse (s : State) (c : ReplyCode) : Decision := (.plain c, s)

/-- A reply of DONE with no further field. -/
def State.done (s : State) : Decision := (.plain .done, s)

/-- A frame of a request completes receipt. Where its body does not fit a frame, or the port has no room for the reply,
it is dropped (R1, R6); else it is decided in this event and answered on the port it arrived by (R6, R12). -/
def serve (o : Origin) (kind : Byte) (body : List Byte) (decideIt : State → Decision) (s : State) : Result :=
  let r := s.endReceipt o
  if body.length ≤ 60 ∧ r.hasRoom o then
    let d := decideIt r
    (d.2.postReply o kind d.1).complete
  else .next r

/-- The settle interval and the admission of the origin (R12). -/
def State.admission (s : State) (o : Origin) : Option ReplyCode :=
  if s.inSettle then some .notReady
  else if o ≠ 0 ∧ s.station o = none then some .unknownStation
  else none

/-- The checks of an admitted request of a listed kind up to its target: origin, body, run state (R13, R14). -/
def State.screen (s : State) (k : ReqKind) (o : Origin) (bodyOk : Bool) : Option ReplyCode :=
  if k.managementOnly = true ∧ o ≠ 0 then some .notPermitted
  else if bodyOk = false then some .badRequest
  else if s.device.runState = .halted ∧ o ≠ 0 ∧ k ≠ .query then some .notReady
  else if s.device.runState = .running ∧ k.haltedOnly = true then some .wrongState
  else none

/-- A request whose body carries no target (R12 to R14). -/
def decideBody {α : Type} (k : ReqKind) (o : Origin) (parsed : Option α) (owner : α → State → Decision) (s : State) :
    Decision :=
  match s.admission o with
  | some c => s.refuse c
  | none =>
    match s.screen k o parsed.isSome with
    | some c => s.refuse c
    | none => match parsed with | some x => owner x s | none => s.refuse .badRequest

/-- The permission a station needs for a target (R15). -/
def State.permitted (s : State) (k : ReqKind) (o : Origin) (t : Target) : Bool :=
  match t with
  | .load n => s.permitsSpace o (s.load n).space
  | .space p => k == .setLevel || s.permitsSpace o p
  | .scene v => s.permitsSpace o (sceneSpace v)
  | .axis a => s.permitsAxis o a
  | .group _ | .all | .budget | .device => true

/-- The kinds that may name a load of kind NONE (R15). -/
def ReqKind.namesAnyLoad : ReqKind → Bool
  | .writeLoad | .renew | .release => true
  | _ => false

/-- The checks of the target: class, value range, unconfigured loads, permission (R15). -/
def State.checkTarget (s : State) (k : ReqKind) (o : Origin) (t : RawTarget) : Except ReplyCode Target :=
  if t.cls ∉ k.classes then .error .badTarget
  else
    match t.typed with
    | none => .error .badTarget
    | some target =>
      if (match target with
          | .load n => (s.load n).kind == .none && !ReqKind.namesAnyLoad k
          | _ => false) = true then .error .badTarget
      else if s.permitted k o target = false then .error .notPermitted
      else .ok target

/-- A request whose body carries a target (R12 to R15). -/
def decideTarget {α : Type} (k : ReqKind) (o : Origin) (parsed : Option (RawTarget × α))
    (owner : Target → α → State → Decision) (s : State) : Decision :=
  decideBody k o parsed
    (fun x s =>
      match s.checkTarget k o x.1 with
      | .error c => s.refuse c
      | .ok t => owner t x.2 s) s

/-! ### Resolving targets to loads -/

/-- The group slot of a tag (R17). -/
def groupSlot (tag : Nat) : Nat := tag * 40503 % 65536 / 1024

/-- The resolved set of a SET_LEVEL target, in ascending load number (R16, R17). -/
def State.resolve (s : State) (t : Target) : List LoadNo :=
  match t with
  | .load n => [n]
  | .group tag => allLoads.filter fun n => (s.load n).kind != .none && (s.load n).groupMask.getLsbD (groupSlot tag)
  | .space p => allLoads.filter fun n => (s.load n).kind != .none && (s.load n).space == p
  | .all => allLoads.filter fun n => (s.load n).kind != .none
  | _ => []

/-- The permitted-space filter (R18); a LOAD target has met its permission already (R15). -/
def State.filterPermitted (s : State) (o : Origin) (t : Target) (ns : List LoadNo) : List LoadNo :=
  match t with
  | .load _ => ns
  | _ => ns.filter fun n => s.permitsSpace o (s.load n).space

/-! ### SET_LEVEL on many loads -/

/-- What a request on many loads has done so far: the three counts, and for each load reached the set target it had. -/
structure Tally where
  applied : Nat
  limited : Nat
  skipped : Nat
  pairs : List (LoadNo × Nat)
  deriving DecidableEq, Repr

def Tally.zero : Tally := { applied := 0, limited := 0, skipped := 0, pairs := [] }

/-- The entries of a request, one at a time and each handled whole: skipped, or given one SET_LEVEL (R19, R20, R52, R88). -/
def applyEntries (skip : State → LoadNo → Bool) (fade : Nat) :
    List (LoadNo × Nat) → Tally → State → Tally × State
  | [], k, s => (k, s)
  | (n, level) :: rest, k, s =>
    if skip s n then applyEntries skip fade rest { k with skipped := k.skipped + 1 } s
    else
      let r := s.setLevelOn n level fade
      let pairs := k.pairs ++ [(n, (s.load n).setTarget)]
      applyEntries skip fade rest
        (if r.2 then { k with applied := k.applied + 1, pairs := pairs }
         else { k with limited := k.limited + 1, pairs := pairs }) r.1

/-- The reply of the three counts; the code is chosen from them (R20). -/
def Tally.reply (k : Tally) : ReplyBody :=
  .counts (if 0 < k.skipped then .donePartial else if 0 < k.limited then .doneLimited else .done)
    k.applied k.limited k.skipped

/-- The load is locked against the requester (R19). -/
def State.locked (o : Origin) (s : State) (n : LoadNo) : Bool := (s.lockAgainst o n).isSome

end Sys2Proof.Machine
end

