-- ==== Sys2Proof/Machine/Signals.lean ====
section
/-! DEFINITION. Machine/Signals.lean: the signal channel (chapter 10). -/

namespace Sys2Proof.Machine

/-- The cycle is sounded: PRIMARY or SECONDARY. -/
def Cycle.sounded (c : Cycle) : Bool := match c with | .gap => false | _ => true

/-- Mark and space of a cycle kind, in 10 ms; a GAP cycle has the length of a primary one (R170). -/
def Pattern.lengths (p : Pattern) (c : Cycle) : Nat × Nat :=
  match c with
  | .secondary => (p.secondaryMark, p.secondarySpace)
  | _ => (p.primaryMark, p.primarySpace)

/-- A cycle begins, with its lengths from the live pattern; where the space is 0 the mark end is the cycle end (R170). -/
def Channel.beginCycle (ch : Channel) (c : Cycle) : Channel :=
  let len := Pattern.lengths ch.live c
  { ch with
    cycle := some c
    phase := if c.sounded then some .mark else none
    markTimer := if c.sounded && decide (0 < len.2) then some (len.1 * tenMs) else none
    cycleTimer := some ((len.1 + len.2) * tenMs) }

/-- The channel goes IDLE (R172 step 4, R173 step 3). -/
def Channel.toIdle (ch : Channel) : Channel :=
  { ch with
    state := .idle, cycle := none, phase := none, gapLeft := 0, warnCount := 0, discard := false
    markTimer := none, cycleTimer := none }

/-- The start of a channel by its axis entering WARN (R171). -/
def Channel.start (ch : Channel) : Channel :=
  match ch.state with
  | .idle => { ch with state := .sounding, warnCount := 0, gapLeft := 0, discard := false }.beginCycle .primary
  | .finishing => { ch with state := .sounding, warnCount := 0, discard := true }
  | .sounding => ch

/-- The finish request of an axis entering PARKED, REST or LOCKOUT (R173). -/
def Channel.finish (ch : Channel) : Channel :=
  match ch.state with
  | .sounding => { ch with state := .finishing }
  | _ => ch

/-- A staged pattern becomes live (R172 step 1). -/
def Channel.adoptStaged (ch : Channel) : Channel :=
  match ch.staged with
  | some p => { ch with live := p, staged := none }
  | none => ch

/-- The next cycle after one of the given kind, begun (R170). -/
def Channel.nextCycle (ch : Channel) (ended : Cycle) : Channel :=
  let g := ch.live.gapCycles
  let gaps := { ch with gapLeft := g - 1 }.beginCycle .gap
  match ended with
  | .primary =>
    match ch.live.mode with
    | .twoTone => ch.beginCycle .secondary
    | .single => if g = 0 then ch.beginCycle .primary else gaps
  | .secondary => if g = 0 then ch.beginCycle .primary else gaps
  | .gap =>
    if 0 < ch.gapLeft ∧ 0 < g then { ch with gapLeft := ch.gapLeft - 1 }.beginCycle .gap
    else { ch with gapLeft := 0 }.beginCycle .primary

/-- The end of a cycle of the given kind, and whether the channel reports its warning complete (R172, R173). -/
def Channel.endCycle (ch : Channel) (ended : Cycle) (warnCycles : Nat) : Channel × Bool :=
  let c := ch.adoptStaged
  match c.state with
  | .idle => (c, false)
  | .sounding =>
    if c.discard then ({ c with discard := false, gapLeft := 0 }.beginCycle .primary, false)
    else
      let counted := if ended.sounded then { c with warnCount := c.warnCount + 1 } else c
      if ended.sounded = true ∧ counted.warnCount = warnCycles then (counted.toIdle, true)
      else (counted.nextCycle ended, false)
  | .finishing =>
    (c.toIdle, !c.discard && ended.sounded && (c.warnCount + 1 == warnCycles))

/-- The mark of the sounded cycle in progress ends (R170). -/
def Channel.endMark (ch : Channel) : Channel := { ch with phase := some .space, markTimer := none }

/-- A pattern written: live at once on an IDLE channel, else staged (R174). -/
def Channel.write (ch : Channel) (p : Pattern) : Channel :=
  match ch.state with
  | .idle => { ch with live := p, staged := none }
  | _ => { ch with staged := some p }

/-- A channel after a warm reset: IDLE, a staged pattern live (R168). -/
def Channel.warm (ch : Channel) : Channel := Channel.idleWith ch.adoptStaged.live

end Sys2Proof.Machine
end

