-- ==== Sys2Proof/Machine/Axes.lean ====
section
/-! DEFINITION. Machine/Axes.lean: the state changes of an axis that several commands share (chapters 7 and 8), with the
Interlock Table's answer to them (chapter 9). -/

namespace Sys2Proof.Machine

/-- The axis is in WARN, RUN or STOPPING. -/
def AxisRec.inMotion (ax : AxisRec) : Bool :=
  match ax.state with | .warn | .run | .stopping => true | _ => false

/-- Another axis in WARN, RUN or STOPPING names load n as its courtesy load (R137). -/
def State.otherForces (s : State) (a : AxisNo) (n : LoadNo) : Bool :=
  allAxes.any fun b => b != a && (s.axis b).inMotion && (s.axis b).courtesy == some n

/-- The courtesy load of axis a is forced; its rise was granted beforehand (R58, R110, R137). -/
def State.forceCourtesy (s : State) (a : AxisNo) : State :=
  match (s.axis a).courtesy with
  | none => s
  | some n => s.storeLoad n (s.load n).toForced

/-- The courtesy load of axis a is unforced unless another axis holds it (R135 step 3, R137). -/
def State.releaseCourtesy (s : State) (a : AxisNo) : State :=
  match (s.axis a).courtesy with
  | none => s
  | some n => if s.otherForces a n then s else s.storeLoad n (s.load n).toUnforced

/-- The axis gives back its HELD DEMAND (R110). -/
def State.releaseDemand (s : State) (a : AxisNo) : State :=
  (s.setHeld a 0).setCommitted (s.budget.committed - s.held a)

/-- The record of an axis that has taken a state out of motion: drive off, SPEED 0, every timer of RUN and STOPPING
stopped (R135 step 1); REST REMAINING stands in REST alone. -/
def AxisRec.atRest (ax : AxisRec) (st : AxisState) : AxisRec :=
  { ax with
    state := st, speed := 0, rampTimer := none, brakeTimer := none, confirmTimer := none, monitoring := false
    pulseWatch := none, overCurrentTimer := none
    restRemaining := if st = .rest then ax.restRemaining else none }

/-- Steps 2 and 3 of R135, and then the answer to their falls; the release of demand by an abandoned axis is exempt
(R111). -/
def State.giveBack (s : State) (a : AxisNo) (exempt : Bool) : State :=
  let s2 := s.releaseDemand a
  let s3 := s2.releaseCourtesy a
  if (decide (0 < s.held a) && !exempt) || decide (s3.budget.committed < s2.budget.committed) then s3.answerFall else s3

/-- Steps 4 and 5 of R135, the axis having taken state st. -/
def State.endMotion (s : State) (a : AxisNo) (st : AxisState) : State :=
  let t := s.setChannel a (s.channel a).finish
  if st = .rest then t else t.setAxis a { t.axis a with pending := none }

/-- An axis leaving motion for PARKED, REST or LOCKOUT (R135 steps 1 to 5). -/
def State.leaveMotion (s : State) (a : AxisNo) (st : AxisState) (exempt : Bool := false) : State :=
  ((s.setAxis a ((s.axis a).atRest st)).giveBack a exempt).endMotion a st

/-- PARKED with the end reason given (R135), the change not yet passed on. -/
def State.parkCore (s : State) (a : AxisNo) (er : EndReason) (exempt : Bool := false) : State :=
  (s.setAxis a { s.axis a with endReason := er }).leaveMotion a .parked exempt

/-- The record of an axis entering STOPPING (R136): the timers of RUN but the ramp stop, STALL COUNT returns to 0 after
64 counts of travel (R138), and at SPEED 0 the brake settle begins at once. -/
def AxisRec.toStopping (ax : AxisRec) (er : EndReason) : AxisRec :=
  { ax with
    state := .stopping, endReason := er
    stallCount := if 64 ≤ ax.runDistance then 0 else ax.stallCount
    confirmTimer := none, monitoring := false, pulseWatch := none, overCurrentTimer := none
    rampTimer := if ax.speed = 0 then none else ax.rampTimer
    brakeTimer := if ax.speed = 0 then some brakeSettleMs else none }

/-- STOPPING with the end reason given, the change not yet passed on. -/
def State.stopCore (s : State) (a : AxisNo) (er : EndReason) : State := s.setAxis a ((s.axis a).toStopping er)

/-- The response of an axis to a block (R141), the change not yet passed on. -/
def State.blockCore (s : State) (a : AxisNo) : State :=
  match (s.axis a).state with
  | .warn => s.parkCore a .interlock
  | .run => s.stopCore a .interlock
  | _ => s

/-- A change of axis c is passed to the Interlock Table (R165): each entry that watches c and is satisfied stops its
subject if that moves in a direction it blocks, and the subject's own change is passed on in turn (R166). Each axis is
blocked at most once in an event, so a depth of three passes reaches the end of every chain. DESIGN CHOICE: the places are
taken in ascending number, and the chain of one subject ends before the next place is reached (log entry 14). -/
def State.passChange : Nat → AxisNo → State → State
  | 0, _, s => s
  | depth + 1, c, s =>
    allPlaces.foldl
      (fun s p =>
        match s.interlock p with
        | some e =>
          if e.condition = c ∧ s.entryStops e = true then
            State.passChange depth e.subject (s.blockCore e.subject)
          else s
        | none => s) s

/-- A change of axis a is passed to the Interlock Table (R144). -/
def State.tellInterlocks (s : State) (a : AxisNo) : State := State.passChange 3 a s

/-- The axis enters PARKED (R135). -/
def State.park (s : State) (a : AxisNo) (er : EndReason) (exempt : Bool := false) : State :=
  (s.parkCore a er exempt).tellInterlocks a

/-- The axis in RUN enters STOPPING (R136). -/
def State.stopMotion (s : State) (a : AxisNo) (er : EndReason) : State := (s.stopCore a er).tellInterlocks a

/-- The axis enters WARN with a pending motion, its grant made (R129 steps 2 to 6). -/
def State.enterWarn (s : State) (a : AxisNo) (p : Pending) : State :=
  let s1 := s.setAxis a { s.axis a with pending := some p }
  let s2 := s1.forceCourtesy a
  let s3 := s2.setAxis a { s2.axis a with state := .warn, speed := 0, restRemaining := none }
  let s4 := s3.setChannel a (s3.channel a).start
  s4.tellInterlocks a

/-- The target position recorded for a MOVE (R130). -/
def AxisRec.recordedTarget (ax : AxisRec) (position : Nat) : Option Nat :=
  if ax.verified = true ∧ position ≠ 65535 then some (max ax.softLow (min position ax.softHigh)) else none

/-- The first normal end of RUN that holds (R134); `homeEvent` is the home input becoming active, or an entry to RUN
with DIRECTION RETRACT that finds it active. -/
def AxisRec.normalEnd (ax : AxisRec) (homeEvent : Bool) : Option EndReason :=
  let target := match ax.pending with | some p => p.target | none => none
  let reached : Bool := match target with
    | some t => (match ax.direction with | .extend => decide (t ≤ ax.position) | .retract => decide (ax.position ≤ t))
    | none => false
  let limit : Bool := ax.verified && (match ax.direction with
    | .extend => decide (ax.softHigh ≤ ax.position)
    | .retract => decide (0 < ax.softLow) && decide (ax.position ≤ ax.softLow))
  if homeEvent = true ∧ ax.direction = .retract then some .home
  else if reached then some .target
  else if limit then some .limit
  else none

/-- The normal ends of an axis in RUN are tested, and the first that holds ends the run (R134). -/
def State.testEnds (s : State) (a : AxisNo) (homeEvent : Bool) : State :=
  if (s.axis a).state = .run then
    match (s.axis a).normalEnd homeEvent with
    | some er => s.stopMotion a er
    | none => s
  else s

/-- POSITION takes a value; a change is passed on (R133, R144). -/
def State.moveTo (s : State) (a : AxisNo) (position : Nat) : State :=
  if (s.axis a).position = position then s
  else (s.setAxis a { s.axis a with position := position }).tellInterlocks a

/-- Home is found: POSITION 0, VERIFIED set, each change passed on (R134). -/
def State.foundHome (s : State) (a : AxisNo) : State :=
  let ax := s.axis a
  let t := s.setAxis a { ax with position := 0, verified := true }
  if ax.position = 0 ∧ ax.verified = true then t else t.tellInterlocks a

/-- The record of an axis at steps 1 to 5 of its entry to RUN (R131). -/
def AxisRec.toRun (ax : AxisRec) : AxisRec :=
  { ax with
    direction := match ax.pending with | some p => p.direction | none => ax.direction
    runDistance := 0, speed := 0, state := .run
    rampTimer := some rampMs, confirmTimer := some confirmMs, brakeTimer := none
    monitoring := false, pulseWatch := none, overCurrentTimer := none }

/-- The entry to RUN of an axis in WARN on the channel's report; an axis not in WARN ignores it (R131). -/
def State.enterRun (s : State) (a : AxisNo) : State :=
  if (s.axis a).state = .warn then
    let s1 := s.setAxis a (s.axis a).toRun
    let atHome := (s1.axis a).direction == .retract && (s1.axisIn a).home
    let s2 := if atHome then s1.foundHome a else s1
    (s2.testEnds a atHome).tellInterlocks a
  else s

/-- A quick stop of an axis in RUN for an obstruction (R136, R156). -/
def State.quickStop (s : State) (a : AxisNo) (er : EndReason) : State :=
  let s1 := s.setAxis a { s.axis a with speed := 0, pending := none }
  s1.stopMotion a er

/-- The end of the HOLD claim of axis a, with the end reason the Claim Table gives (R140). -/
def State.claimEnded (s : State) (a : AxisNo) (er : EndReason) : State :=
  let lost := er == .leaseLost
  match (s.axis a).state with
  | .warn => (if lost then s.raiseMotionLeaseLost else s).park a er
  | .run => (if lost then s.raiseMotionLeaseLost else s).stopMotion a er
  | .rest =>
    let t := if lost && (s.axis a).pending.isSome then s.raiseMotionLeaseLost else s
    t.setAxis a { t.axis a with pending := none }
  | _ => s

/-- The response of an axis to HALT (R142). -/
def State.axisHalt (s : State) (a : AxisNo) : State :=
  match (s.axis a).state with
  | .warn | .rest => s.park a .halt
  | .run => (s.setAxis a { s.axis a with pending := none }).stopMotion a .halt
  | _ => s

/-- The response of an axis to budget abandonment (R141): its release of demand is exempt (R111). -/
def State.abandon (s : State) (a : AxisNo) : State :=
  if (s.axis a).state = .warn then s.park a .noBudget true else s

/-- A lockout for NO_LOAD (R148). -/
def State.noLoadLockout (s : State) (a : AxisNo) : State :=
  let s1 := s.setAxis a { s.axis a with endReason := .noLoad }
  ((s1.leaveMotion a .lockout).tellInterlocks a).raiseAxisFault

/-- A stall of an axis in RUN (R150). -/
def State.stall (s : State) (a : AxisNo) : State :=
  let ax := s.axis a
  let n := ax.stallCount + 1
  let s1 :=
    if 8 ≤ n then
      (s.setAxis a { ax with stallCount := 8, endReason := .stall, jam := some ax.position }).leaveMotion a .lockout
    else
      (s.setAxis a { ax with stallCount := n, endReason := .stall, restRemaining := some (restMs n) }).leaveMotion a .rest
  (s1.tellInterlocks a).raiseAxisFault

/-- The pulse watch is armed in the first event of monitored RUN in which SPEED is at or above CREEP SPEED (R149). -/
def AxisRec.armWatch (ax : AxisRec) : AxisRec :=
  if ax.monitoring = true ∧ ax.pulseWatch = none ∧ ax.creepSpeed ≤ ax.speed then
    { ax with pulseWatch := some (ax.stallWindow * tenMs) }
  else ax

end Sys2Proof.Machine
end

