-- ==== Sys2Proof/Machine/ClaimRequests.lean ====
section
/-! DEFINITION. Machine/ClaimRequests.lean: CLAIM, RENEW, RELEASE and the expiry of a lease (chapter 2). -/

namespace Sys2Proof.Machine

/-- What a CLAIM, RENEW or RELEASE target names. -/
def claimTargetOf (t : Target) : Option ClaimTarget :=
  match t with
  | .load n => some (.load n)
  | .space p => some (.space p)
  | .axis a => some (.axis a)
  | _ => none

/-- The claim kind that goes with a target (R26). -/
def ClaimTarget.kind (t : ClaimTarget) : ClaimKind := match t with | .axis _ => .hold | _ => .lock

/-- The lease granted (Table 2-2). -/
def leaseGranted (k : ClaimKind) (rank : Rank) (lease : Nat) : Lease :=
  match k with
  | .hold => .left ((if lease = 0 then 10 else min lease 10) * holdUnitMs)
  | .lock =>
    if lease = 0 then (if 3 ≤ rank.code then .permanent else .left (43200 * lockUnitMs))
    else .left (min lease 43200 * lockUnitMs)

/-- A claim renewed: its lease afresh by its HOLDER RANK; PERMANENT stays PERMANENT (R27, R33). -/
def Claim.renewed (c : Claim) (lease : Nat) : Claim :=
  match c.lease with
  | .permanent => c
  | .left _ => { c with lease := leaseGranted c.kind c.rank lease }

/-- The live claim of an origin whose TARGET is exactly t, if any. -/
def State.ownClaim (s : State) (o : Origin) (t : ClaimTarget) : Option Claim :=
  s.claims.find? fun c => c.target == t && c.holder == o

/-- The origin's claim on exactly t has its lease set afresh (R27, R33). -/
def State.renewClaim (s : State) (o : Origin) (t : ClaimTarget) (lease : Nat) : State :=
  s.setClaims (s.claims.map fun c => if c.target = t ∧ c.holder = o then c.renewed lease else c)

/-- The claim is on something the target takes in: the same target, the space of the load, or a load of the space (R29). -/
def State.overlaps (s : State) (t : ClaimTarget) (c : Claim) : Bool :=
  c.target == t ||
    match t, c.target with
    | .load n, .space p => p == (s.load n).space
    | .space p, .load n => (s.load n).space == p
    | _, _ => false

/-- The claims of other origins that conflict with the target (R29). -/
def State.conflicts (s : State) (o : Origin) (t : ClaimTarget) : List Claim :=
  s.claims.filter fun c => c.holder != o && s.overlaps t c

/-- The highest HOLDER RANK among claims, GUEST for none (R29). -/
def highestRank (cs : List Claim) : Rank := cs.foldl (fun r c => if outranks c.rank r then c.rank else r) .guest

/-- The load claims of the requester in a space it now claims (R31 step 2). -/
def State.foldedIn (s : State) (o : Origin) (t : ClaimTarget) : List Claim :=
  match t with
  | .space p => s.claims.filter fun c => c.holder == o && (match c.target with | .load n => (s.load n).space == p | _ => false)
  | _ => []

/-- A CLAIM carried out: pre-emptions, the requester's own load claims folded in, the new claim (R31). -/
def State.makeClaim (s : State) (o : Origin) (t : ClaimTarget) (lease : Nat) : State :=
  let out := s.conflicts o t
  let folded := s.foldedIn o t
  let s1 := s.setClaims (s.claims.filter fun c => !out.contains c)
  let s2 := match t with | .axis a => (if out = [] then s1 else s1.claimEnded a .preEmpted) | _ => s1
  let rank := s.rankOf o
  s2.setClaims
    ((s2.claims.filter fun c => !folded.contains c)
      ++ [{ target := t, holder := o, rank := rank, lease := leaseGranted (ClaimTarget.kind t) rank lease }])

/-- CLAIM at the Claim Table (R26 to R31). -/
def State.decideClaim (s : State) (o : Origin) (t : ClaimTarget) (k : ClaimKind) (lease : Nat) : Decision :=
  if ClaimTarget.kind t ≠ k then s.refuse .badRequest
  else if (s.ownClaim o t).isSome then (s.renewClaim o t lease).done
  else if (match t with
           | .load n => (s.ownClaim o (.space (s.load n).space)).isSome
           | _ => false) = true then s.done
  else
    let out := s.conflicts o t
    if (out.any fun c => !outranks (s.rankOf o) c.rank) = true then (.claimed (highestRank out), s)
    else if out = [] ∧ s.foldedIn o t = [] ∧ 32 ≤ s.claims.length then s.refuse .tableFull
    else (s.makeClaim o t lease).done

/-- CLAIM (R31). -/
def execClaim (o : Origin) (body : List Byte) (s : State) : Result :=
  serve o ReqKind.claim.code body
    (decideTarget .claim o (readClaim body) fun t x s =>
      match claimTargetOf t with | some ct => s.decideClaim o ct x.1 x.2 | none => s.refuse .badTarget) s

/-- RENEW at the Claim Table (R33). -/
def State.decideRenew (s : State) (o : Origin) (t : ClaimTarget) (lease : Nat) : Decision :=
  if (s.ownClaim o t).isSome then (s.renewClaim o t lease).done else s.refuse .notHolder

/-- RENEW (R33). -/
def execRenew (o : Origin) (body : List Byte) (s : State) : Result :=
  serve o ReqKind.renew.code body
    (decideTarget .renew o (readTargetWord body) fun t lease s =>
      match claimTargetOf t with | some ct => s.decideRenew o ct lease | none => s.refuse .badTarget) s

/-- The origin's claim on exactly t is retired, its record freed and its lease timer stopped (R21, R34). -/
def State.releaseClaim (s : State) (o : Origin) (t : ClaimTarget) : State :=
  s.setClaims (s.claims.filter fun c => !(c.target == t && c.holder == o))

/-- The claim on exactly t is retired, its record freed and its lease timer stopped (R21, R25). -/
def State.retireClaim (s : State) (t : ClaimTarget) : State := s.setClaims (s.claims.filter fun c => c.target != t)

/-- A claim's end is told to the axis it held (R39). -/
def State.tellHeldAxis (s : State) (t : ClaimTarget) (er : EndReason) : State :=
  match t with
  | .axis a => s.claimEnded a er
  | _ => s

/-- RELEASE at the Claim Table (R34). -/
def State.decideRelease (s : State) (o : Origin) (t : ClaimTarget) : Decision :=
  if (s.ownClaim o t).isSome then ((s.releaseClaim o t).tellHeldAxis t .stopRequest).done else s.refuse .notHolder

/-- RELEASE (R34). -/
def execRelease (o : Origin) (body : List Byte) (s : State) : Result :=
  serve o ReqKind.release.code body
    (decideTarget .release o (readTargetBody body) fun t _ s =>
      match claimTargetOf t with | some ct => s.decideRelease o ct | none => s.refuse .badTarget) s

/-- The lease of the claim on exactly t has run out: its remaining time is zero (R25). -/
def State.leaseRunOut (s : State) (t : ClaimTarget) : Bool := s.claims.any fun c => c.target == t && c.lease == .left 0

/-- LEASE_EXPIRY (R25): the claim on exactly t, if its lease has run out, is retired, and a held axis is told LEASE_LOST. A
PERMANENT lease does not run down (R24). An expiry that waits behind the RENEW, the CLAIM or the RELEASE taken first finds
the lease set afresh, the claim another's or gone, and does not happen (R35; log entry 4). -/
def State.expireLease (s : State) (t : ClaimTarget) : State :=
  if s.leaseRunOut t then
    (s.retireClaim t).tellHeldAxis t .leaseLost
  else s

/-- LEASE_EXPIRY (R25). -/
def execLeaseExpiry (t : ClaimTarget) (s : State) : Result := (s.expireLease t).complete

end Sys2Proof.Machine
end

