-- ==== Sys2Proof/Machine/InputEvents.lean ====
section
/-! DEFINITION. Machine/InputEvents.lean: the events of an axis's four inputs (R133, R134, R149, R156). They are taken in
every state, the settle interval too (R179). -/

namespace Sys2Proof.Machine

/-- POSITION after one pulse, saturating at 0 and at 16383 (R133). -/
def AxisRec.counted (ax : AxisRec) : Nat :=
  match ax.direction with
  | .extend => if ax.position < 16383 then ax.position + 1 else ax.position
  | .retract => ax.position - 1

/-- What a pulse in RUN changes besides POSITION: RUN DISTANCE, and an armed pulse watch starts afresh (R133, R149). -/
def AxisRec.travelled (ax : AxisRec) : AxisRec :=
  { ax with
    runDistance := min (ax.runDistance + 1) 65535
    pulseWatch := if ax.monitoring then ax.pulseWatch.map (fun _ => ax.stallWindow * tenMs) else ax.pulseWatch }

/-- A position pulse of axis a (R133). -/
def State.pulse (s : State) (a : AxisNo) : State :=
  let ax := s.axis a
  if ax.state = .run then ((s.setAxis a ax.travelled).moveTo a ax.counted).testEnds a false
  else s.moveTo a ax.counted

/-- POSITION_PULSE (R133). -/
def execPositionPulse (a : AxisNo) (s : State) : Result := (s.pulse a).complete

/-- The home input of axis a at a level. -/
def State.setHome (s : State) (a : AxisNo) (x : Bool) : State := s.setAxisIn a { s.axisIn a with home := x }

/-- The home input of axis a becomes active (R134). -/
def State.homeFound (s : State) (a : AxisNo) : State :=
  ((s.setHome a true).foundHome a).testEnds a true

/-- HOME_ACTIVE (R134). -/
def execHomeActive (a : AxisNo) (s : State) : Result := (s.homeFound a).complete

/-- HOME_INACTIVE: no effect but the input itself (R134). -/
def execHomeInactive (a : AxisNo) (s : State) : Result := (s.setHome a false).complete

/-- The safety-edge input of axis a at a level. -/
def State.setEdge (s : State) (a : AxisNo) (x : Bool) : State := s.setAxisIn a { s.axisIn a with edge := x }

/-- The safety edge of axis a becomes active (R156, R136). -/
def State.edgePressed (s : State) (a : AxisNo) : State :=
  let t := s.setEdge a true
  let ax := t.axis a
  match ax.state with
  | .warn => (t.park a .obstructed).raiseAxisFault
  | .run => (t.quickStop a .obstructed).raiseAxisFault
  | .stopping =>
    if 0 < ax.speed then t.setAxis a { ax with speed := 0, rampTimer := none, brakeTimer := some brakeSettleMs } else t
  | .rest | .parked | .lockout => t

/-- SAFETY_EDGE_ACTIVE (R156). -/
def execSafetyEdgeActive (a : AxisNo) (s : State) : Result := (s.edgePressed a).complete

/-- SAFETY_EDGE_INACTIVE: no effect but the input itself (R156). -/
def execSafetyEdgeInactive (a : AxisNo) (s : State) : Result := (s.setEdge a false).complete

/-- The over-current timer when the current goes from `old` to `new` in monitored RUN (R149): it starts as the current
rises above the threshold and stops as it falls back to or below it. -/
def AxisRec.currentMoved (ax : AxisRec) (old new : Nat) : AxisRec :=
  if ax.monitoring = true ∧ ax.state = .run then
    if ax.overCurrent < new then
      if old ≤ ax.overCurrent then { ax with overCurrentTimer := some overCurrentMs } else ax
    else { ax with overCurrentTimer := none }
  else ax

/-- The current sense input of axis a takes a new value (R149, log entry 12). -/
def State.setCurrent (s : State) (a : AxisNo) (v : Nat) : State :=
  (s.setAxisIn a { s.axisIn a with current := v }).setAxis a ((s.axis a).currentMoved (s.axisIn a).current v)

/-- CURRENT_RISE (R149). -/
def execCurrentRise (a : AxisNo) (current : Byte) (s : State) : Result := (s.setCurrent a current.toNat).complete

/-- CURRENT_FALL (R149). -/
def execCurrentFall (a : AxisNo) (current : Byte) (s : State) : Result := (s.setCurrent a current.toNat).complete

end Sys2Proof.Machine
end

