-- ==== Sys2Proof/Machine/Reduction.lean ====
section
/-! DEFINITION. Machine/Reduction.lean: the reduction procedure (R114 to R116). -/

namespace Sys2Proof.Machine

/-- COMMITTED is at or below AVAILABLE. -/
def State.withinBudget (s : State) : Bool := decide (s.budget.committed ≤ s.budget.available)

/-- The first step: shed the sheddable loads in shed order until COMMITTED fits or none remains (R114). -/
def State.reduceLoads (s : State) : State := State.shedAlong State.withinBudget s.shedOrder s

/-- The second step: every axis in WARN is abandoned (R115). -/
def State.abandonWarned (s : State) : State := allAxes.foldl State.abandon s

/-- The first two steps. They clear DEFICIT where they suffice; the restore pass follows the second alone (R114, R115, R119). -/
def State.reduceTwoSteps (s : State) : State :=
  let s1 := s.reduceLoads
  if s1.withinBudget then s1.setDeficit false
  else
    let s2 := s1.abandonWarned
    if s2.withinBudget then (s2.setDeficit false).restorePass else s2

/-- The reduction procedure (R114 to R116). -/
def State.reduce (s : State) : State :=
  let t := s.reduceTwoSteps
  if t.withinBudget then t else t.setDeficit true

end Sys2Proof.Machine
end

