-- ==== Sys2Proof/Machine/LoadRequests.lean ====
section
/-! DEFINITION. Machine/LoadRequests.lean: SET_LEVEL (R16 to R20, R52) and WRITE_LOAD (R46 to R51, R118). -/

namespace Sys2Proof.Machine

/-- SET_LEVEL past the checks of its target (R16 to R20). -/
def State.setLevels (s : State) (o : Origin) (t : Target) (level fade : Nat) : Decision :=
  match t with
  | .load n =>
    match s.lockAgainst o n with
    | some c => (.claimed c.rank, s)
    | none =>
      let r := applyEntries (State.locked o) fade [(n, level)] Tally.zero s
      (r.1.reply, r.2)
  | _ =>
    let found := s.resolve t
    let kept := s.filterPermitted o t found
    if found = [] ∨ kept = [] then s.refuse .badTarget
    else
      let r := applyEntries (State.locked o) fade (kept.map fun n => (n, level)) Tally.zero s
      (r.1.reply, r.2)

/-- SET_LEVEL (R52). -/
def execSetLevel (o : Origin) (body : List Byte) (s : State) : Result :=
  serve o ReqKind.setLevel.code body
    (decideTarget .setLevel o (readSetLevel body) fun t x s => s.setLevels o t x.1 x.2) s

/-- The values of a WRITE_LOAD are in range (R46 check 2). -/
def loadFieldsOk (f : LoadFields) : Bool :=
  decide (f.space ≤ 15) && decide (f.shedRank ≤ 7) && decide (f.shedLevel ≤ 1000) && decide (f.ratedPower ≤ 400)
    && decide (f.minDuty ≤ 64)

/-- The configuration a WRITE_LOAD carries (R47). -/
def loadConfigOf (f : LoadFields) : LoadConfig :=
  { kind := f.kind, space := Fin.ofNat 16 f.space, groupMask := f.groupMask, shedRank := f.shedRank
    shedLevel := f.shedLevel, ratedPower := f.ratedPower, minDuty := f.minDuty }

/-- The record with its new configuration, the live fields adjusted for a change of KIND (R47, R48). -/
def LoadRec.reconfigure (l : LoadRec) (c : LoadConfig) : LoadRec :=
  let w : LoadRec := { l with toLoadConfig := c }
  match l.kind, c.kind with
  | .dim, .none | .switch, .none => { w with setTarget := 0, level := 0, fade := none, shed := false }.retarget
  | .dim, .switch =>
    ({ w with fade := none, setTarget := if 0 < w.setTarget then 1000 else 0 }.retarget).followSwitch
  | _, _ => w.retarget

/-- A change of SHED RANK or SHED LEVEL on a shed load (R50); `old` is the record before the write. -/
def LoadRec.reshed (old w : LoadRec) : LoadRec :=
  if w.shed = true ∧ (w.shedRank ≠ old.shedRank ∨ w.shedLevel ≠ old.shedLevel) then
    if w.shedRank = 0 then (({ w with shed := false }.retarget).startFade restoreSteps).followSwitch
    else if w.effTarget < old.effTarget then w.dropToTarget old.effTarget
    else if old.effTarget < w.effTarget then (w.startFade restoreSteps).followSwitch
    else w
  else w

/-- The record a WRITE_LOAD leaves, before the budget's answer (R47 to R50). -/
def LoadRec.rewritten (l : LoadRec) (c : LoadConfig) : LoadRec := (LoadRec.reshed l (l.reconfigure c)).recount

/-- A load of kind NONE ceases to be any axis's courtesy load (R124). -/
def State.dropCourtesy (s : State) (n : LoadNo) : State :=
  { s with axes := mapTable (fun ax => if ax.courtesy = some n then { ax with courtesy := none } else ax) s.axes }

/-- A load that moved into a claimed space loses its own claim, whatever KIND the same write gives it (R37; DEDUCED, log
entry 18). -/
def State.retireMoved (s : State) (n : LoadNo) : State :=
  let space := (s.load n).space
  if (s.claims.any fun c => c.target == .load n) && (s.claims.any fun c => c.target == .space space) then
    s.setClaims (s.claims.filter fun c => c.target != .load n)
  else s

/-- The trim of a written load in deficit to the draw c it had (R118); a level above the new effective target is cut to
it though the target may not have fallen (log entry 16). -/
def LoadRec.trim (l : LoadRec) (c : Nat) : LoadRec :=
  match l.kind with
  | .none => l
  | .dim =>
    let w := { l with setTarget := min l.setTarget (c * 1000 / l.ratedPower) }.retarget
    (if w.effTarget < w.level then { w with level := w.effTarget, fade := none } else w.dropToTarget l.effTarget).recount
  | .switch => if c < l.ratedPower then ({ l with setTarget := 0 }.retarget.followSwitch).recount else l

/-- The answer to a rise that a WRITE_LOAD brings in deficit (R118); `c` and `start` are the load's draw and
COMMITTED before the write. Where the two steps end within AVAILABLE, DEFICIT is cleared and no trim is made, though
COMMITTED may stand above `start` (R114, R119; DEDUCED, log entry 16). -/
def State.reduceInDeficit (s : State) (n : LoadNo) (c start : Nat) : State :=
  let t := s.reduceTwoSteps
  if t.withinBudget then t
  else
    let u := if start < t.budget.committed then t.storeLoad n ((t.load n).trim c) else t
    u.setDeficit true

/-- A WRITE_LOAD carried out (R47 to R51, R114, R118). A write that sets KIND to NONE and moves the load into a claimed
space retires the load's claim for the move (R37, R48; DEDUCED, log entry 18). -/
def State.writeLoad (s : State) (n : LoadNo) (c : LoadConfig) : State :=
  let l := s.load n
  let l' := l.rewritten c
  let s1 := s.clearStacks
  let s2 := if l.shed && !l'.shed then (s1.setShedList (s1.budget.shedList.erase n)).raiseShedChange else s1
  let s3 := if c.kind = .none then s2.dropCourtesy n else s2
  let s4 := s3.storeLoad n l' (l'.kind != l.kind || l'.minDuty != l.minDuty)
  let s5 := if l'.space ≠ l.space then s4.retireMoved n else s4
  if l'.countedDraw < l.countedDraw then s5.answerFall
  else if l.countedDraw < l'.countedDraw then
    if s.budget.deficit then s5.reduceInDeficit n l.countedDraw s.budget.committed
    else if s5.withinBudget then s5 else s5.reduce
  else s5

/-- WRITE_LOAD at the Load Table (R46). -/
def State.decideWriteLoad (s : State) (n : LoadNo) (f : LoadFields) : Decision :=
  if (s.load n).forced then s.refuse .busy
  else if loadFieldsOk f = false then s.refuse .badValue
  else (s.writeLoad n (loadConfigOf f)).done

/-- WRITE_LOAD (R46). -/
def execWriteLoad (o : Origin) (body : List Byte) (s : State) : Result :=
  serve o ReqKind.writeLoad.code body
    (decideTarget .writeLoad o (readWriteLoad body) fun t f s =>
      match t with | .load n => s.decideWriteLoad n f | _ => s.refuse .badTarget) s

end Sys2Proof.Machine
end

