-- ==== Sys2Proof/Machine/AxisRequests.lean ====
section
/-! DEFINITION. Machine/AxisRequests.lean: MOVE, STOP, WRITE_AXIS and CLEAR_LOCKOUT (chapters 7 and 8). -/

namespace Sys2Proof.Machine

/-- The origin holds the live HOLD claim on axis a (R127 check 1, R152 test 2). -/
def State.holdsAxis (s : State) (o : Origin) (a : AxisNo) : Bool := (s.axisCover a).map (·.holder) == some o

/-- The motion a MOVE asks for, as it is recorded (R130). -/
def AxisRec.asked (ax : AxisRec) (o : Origin) (d : Direction) (position : Nat) : Pending :=
  { direction := d, target := ax.recordedTarget position, origin := o }

/-- The target of the PENDING MOTION replaced (R127 check 4, R130). -/
def State.replaceTarget (s : State) (a : AxisNo) (position : Nat) : State :=
  let ax := s.axis a
  s.setAxis a { ax with pending := ax.pending.map fun p => { p with target := ax.recordedTarget position } }

/-- MOVE on a PARKED axis whose requester holds it: checks 5 to 7, then the start (R127, R129). The reply is ACCEPTED, as
R129 says, where a row of R167 says DONE (DEDUCED, log entry 19). -/
def State.startMove (s : State) (o : Origin) (a : AxisNo) (d : Direction) (position : Nat) : Decision :=
  if (s.axisIn a).edge then s.refuse .obstructed
  else if s.blocked a d then s.refuse .interlocked
  else
    match s.grant a with
    | none => s.refuse .noBudget
    | some t => (.plain .accepted, t.enterWarn a ((s.axis a).asked o d position))

/-- MOVE at the Axis Controller (R127). -/
def State.decideMove (s : State) (o : Origin) (a : AxisNo) (d : Direction) (position : Nat) : Decision :=
  if s.holdsAxis o a = false then s.refuse .notHolder
  else
    match (s.axis a).state with
    | .lockout => s.refuse .lockedOut
    | .stopping | .rest => s.refuse .busy
    | .warn =>
      if (s.axis a).pending.map (·.direction) = some d then (s.replaceTarget a position).done else s.refuse .busy
    | .run =>
      if (s.axis a).pending.map (·.direction) = some d then ((s.replaceTarget a position).testEnds a false).done
      else s.refuse .busy
    | .parked => s.startMove o a d position

/-- MOVE (R127 to R130). -/
def execMove (o : Origin) (body : List Byte) (s : State) : Result :=
  serve o ReqKind.move.code body
    (decideTarget .move o (readMove body) fun t x s =>
      match t with | .axis a => s.decideMove o a x.1 x.2 | _ => s.refuse .badTarget) s

/-- STOP at the Axis Controller (R139). -/
def State.stopAxis (s : State) (a : AxisNo) : State :=
  match (s.axis a).state with
  | .warn => s.park a .stopRequest
  | .run => s.stopMotion a .stopRequest
  | .rest => s.setAxis a { s.axis a with pending := none }
  | .parked | .stopping | .lockout => s

/-- STOP (R139). -/
def execStop (o : Origin) (body : List Byte) (s : State) : Result :=
  serve o ReqKind.stop.code body
    (decideTarget .stop o (readTargetBody body) fun t _ s =>
      match t with | .axis a => (s.stopAxis a).done | _ => s.refuse .badTarget) s

/-- The values of a WRITE_AXIS are good (R123 check 2). -/
def State.axisFieldsOk (s : State) (f : AxisFields) : Bool :=
  let c := f.config
  decide (c.demand ≤ 1500)
    && (decide (f.courtesy < 96) || decide (f.courtesy = 255))
    && (match c.courtesy with | some n => (s.load n).kind != .none | none => true)
    && decide (0 < c.runSpeed) && decide (0 < c.creepSpeed) && decide (0 < c.accelStep) && decide (0 < c.decelStep)
    && decide (c.creepSpeed ≤ c.runSpeed) && decide (c.approach ≤ 1023)
    && decide (c.softHigh ≤ 16383) && decide (c.softLow < c.softHigh)
    && decide (10 ≤ c.stallWindow) && decide (c.stallWindow ≤ 200) && decide (c.noLoad < c.overCurrent)
    && decide (0 < c.warnCycles) && decide (c.warnCycles ≤ 15)

/-- The axis is in WARN, RUN, STOPPING or REST. -/
def AxisRec.engaged (ax : AxisRec) : Bool :=
  match ax.state with | .warn | .run | .stopping | .rest => true | .parked | .lockout => false

/-- WRITE_AXIS at the Axis Controller (R123). -/
def State.decideWriteAxis (s : State) (a : AxisNo) (f : AxisFields) : Decision :=
  if (s.axis a).engaged then s.refuse .busy
  else if s.axisFieldsOk f = false then s.refuse .badValue
  else (s.setAxis a { s.axis a with toAxisConfig := f.config }).done

/-- WRITE_AXIS (R123). -/
def execWriteAxis (o : Origin) (body : List Byte) (s : State) : Result :=
  serve o ReqKind.writeAxis.code body
    (decideTarget .writeAxis o (readWriteAxis body) fun t f s =>
      match t with | .axis a => s.decideWriteAxis a f | _ => s.refuse .badTarget) s

/-- CLEAR_LOCKOUT at the Axis Controller (R155). -/
def State.clearLockout (s : State) (a : AxisNo) : State :=
  if (s.axis a).state = .lockout then
    (s.setAxis a { s.axis a with state := .parked, stallCount := 0, jam := none, endReason := .cleared }).tellInterlocks a
  else s

/-- CLEAR_LOCKOUT (R155). -/
def execClearLockout (o : Origin) (body : List Byte) (s : State) : Result :=
  serve o ReqKind.clearLockout.code body
    (decideTarget .clearLockout o (readTargetBody body) fun t _ s =>
      match t with | .axis a => (s.clearLockout a).done | _ => s.refuse .badTarget) s

end Sys2Proof.Machine
end

