-- ==== Sys2Proof/Machine/QueryRequests.lean ====
section
/-! DEFINITION. Machine/QueryRequests.lean: QUERY and the five views (R60, R81, R102, R145, R180). -/

namespace Sys2Proof.Machine

/-- An optional value of a view: 65535 where absent (R7). -/
def optField (x : Option Nat) : Nat := x.getD 65535

def flagField (b : Bool) : Nat := if b then 1 else 0

/-- Load kind in the load view (Table 3-3). -/
def kindField (k : LoadKind) : Nat := match k with | .none => 0 | .dim => 1 | .switch => 2

/-- Slots 16 × i to 16 × i + 15 of a group mask (Table 3-3). -/
def maskField (m : BitVec 64) (i : Nat) : Nat := (m.extractLsb' (16 * i) 16).toNat

/-- Class of a covering claim (Table 3-3). -/
def coverClass (c : Claim) : Nat := match c.target with | .load _ => 1 | .space _ => 3 | .axis _ => 5

/-- The load view (Table 3-3). -/
def State.loadView (s : State) (n : LoadNo) : List Nat :=
  let l := s.load n
  let c := s.loadCover n
  [kindField l.kind, l.space.val, maskField l.groupMask 0, maskField l.groupMask 1, maskField l.groupMask 2,
   maskField l.groupMask 3, l.shedRank, l.shedLevel, l.ratedPower, l.minDuty, l.setTarget, l.effTarget, l.level,
   optField (l.fade.map (·.remaining)), optField (l.fade.map (·.n)), flagField l.shed,
   optField (s.budget.shedList.findIdx? (· == n)), flagField l.forced, l.countedDraw, (s.output n).live,
   optField (c.map coverClass), optField (c.map (·.holder.val)), optField (c.map (·.rank.code)),
   optField (c.map (·.leaseReported))]

/-- Axis state codes (Table 7-5). -/
def AxisState.code : AxisState → Nat
  | .parked => 1 | .warn => 2 | .run => 3 | .stopping => 4 | .rest => 5 | .lockout => 6

/-- End reason codes (Table 7-4). -/
def EndReason.code : EndReason → Nat
  | .none => 0 | .target => 1 | .limit => 2 | .home => 3 | .stopRequest => 4 | .leaseLost => 5 | .preEmpted => 6
  | .interlock => 7 | .obstructed => 8 | .stall => 9 | .noLoad => 10 | .noBudget => 11 | .halt => 12 | .reset => 13
  | .cleared => 14

/-- REST REMAINING in 100 ms, rounded up, 1 to 320 (Table 7-5). -/
def restField (ms : Nat) : Nat := max 1 ((ms + 99) / 100)

/-- The axis view (Table 7-5). -/
def State.axisView (s : State) (a : AxisNo) : List Nat :=
  let ax := s.axis a
  let c := s.axisCover a
  let i := s.axisIn a
  [ax.state.code, ax.position, flagField ax.verified, ax.speed, ax.direction.code,
   optField (ax.pending.map (·.direction.code)), optField (ax.pending.bind (·.target)),
   optField (ax.pending.map (·.origin.val)), ax.stallCount, optField (ax.restRemaining.map restField),
   optField ax.jam, ax.endReason.code, ax.runDistance, optField (c.map (·.holder.val)), optField (c.map (·.rank.code)),
   optField (c.map (·.leaseReported)), flagField i.edge + 2 * flagField i.home, ax.demand,
   optField (ax.courtesy.map (·.val)), ax.runSpeed, ax.creepSpeed, ax.accelStep, ax.decelStep, ax.approach, ax.softLow,
   ax.softHigh, ax.stallWindow, ax.overCurrent * 256 + ax.noLoad, ax.warnCycles]

/-- Entry i of a scene view: load number and level, 65535 beyond the list (Table 5-2). -/
def entryFields (es : List (LoadNo × Nat)) (i : Nat) : List Nat :=
  [optField (es[i]?.map (·.1.val)), optField (es[i]?.map (·.2))]

/-- The scene view (Table 5-2). -/
def State.sceneView (s : State) (v : SceneNo) : List Nat :=
  let c := s.scene v
  [match c.owner with | .live => 1 | .management => 2, c.defaultFade, c.entries.length,
   (s.returnStack (sceneSpace v)).length] ++ (List.range 12).flatMap (entryFields c.entries)

/-- The sum of the counted draws of all loads (R99, R100). -/
def State.totalDraw (s : State) : Nat := allLoads.foldl (fun sum n => sum + (s.load n).countedDraw) 0

/-- The sum of the held demands of all axes (R99). -/
def State.totalHeld (s : State) : Nat := allAxes.foldl (fun sum a => sum + s.held a) 0

/-- The budget view (Table 6-2). -/
def State.budgetView (s : State) : List Nat :=
  let b := s.budget
  let newest := b.shedList.reverse
  [b.available, b.committed, b.headroom, flagField b.deficit, s.totalDraw, s.totalHeld, b.shedList.length]
    ++ (List.range 22).map fun i => optField (newest[i]?.map (·.val))

/-- The device view (R180). -/
def State.deviceView (s : State) : List Nat :=
  [match s.device.runState with | .halted => 1 | .running => 2,
   match s.device.resetCause with | .powerOn => 1 | .brownout => 2 | .pin => 3,
   flagField s.device.motionAtReset, s.notices.mask, s.claims.length]

/-- The view of a QUERY target (R60, R81, R102, R145, R180). -/
def State.viewOf (s : State) (t : Target) : Decision :=
  match t with
  | .load n => (.view (s.loadView n), s)
  | .axis a => (.view (s.axisView a), s)
  | .scene v => (.view (s.sceneView v), s)
  | .budget => (.view s.budgetView, s)
  | .device => (.view s.deviceView, s)
  | .group _ | .space _ | .all => s.refuse .badTarget

/-- QUERY (R60, R81, R102, R145, R180). -/
def execQuery (o : Origin) (body : List Byte) (s : State) : Result :=
  serve o ReqKind.query.code body (decideTarget .query o (readTargetBody body) fun t _ s => s.viewOf t) s

end Sys2Proof.Machine
end

