-- ==== Sys2Proof/Machine/RunRequests.lean ====
section
/-! DEFINITION. Machine/RunRequests.lean: SET_BUDGET (R101), START and HALT (R176, R177) and READ_NOTICE (R182). -/

namespace Sys2Proof.Machine

/-- AVAILABLE takes a value and is compared with COMMITTED (R101). -/
def State.applyBudget (s : State) (v : Nat) : State :=
  let t := s.setBudget { s.budget with available := v }
  if t.withinBudget then (t.setDeficit false).restorePass else t.reduce

/-- SET_BUDGET at the Power Budget Monitor (R101). -/
def State.decideSetBudget (s : State) (v : Nat) : Decision :=
  if 20000 < v then s.refuse .badValue else (s.applyBudget v).done

/-- SET_BUDGET (R101). -/
def execSetBudget (o : Origin) (body : List Byte) (s : State) : Result :=
  serve o ReqKind.setBudget.code body (decideBody .setBudget o (readSetBudget body) fun v s => s.decideSetBudget v) s

/-- RUN STATE takes a value (R176, R177). -/
def State.setRunState (s : State) (r : RunState) : State := { s with device := { s.device with runState := r } }

/-- START (R176). -/
def execStart (o : Origin) (body : List Byte) (s : State) : Result :=
  serve o ReqKind.start.code body (decideBody .start o (readEmpty body) fun _ s => (s.setRunState .running).done) s

/-- A HALT carried out, its steps in order (R177, R38, R93), the axes in ascending number (log entry 14). -/
def State.haltPart (s : State) : State :=
  (((allAxes.foldl State.axisHalt s).setClaims []).clearStacks).setRunState .halted

/-- HALT (R177). -/
def execHalt (o : Origin) (body : List Byte) (s : State) : Result :=
  serve o ReqKind.halt.code body (decideBody .halt o (readEmpty body) fun _ s => s.haltPart.done) s

/-- READ_NOTICE at the Notice Unit (R182). -/
def State.readNotice (s : State) : Decision :=
  let code := s.notices.highest
  (.condition code, { s with notices := s.notices.clearEdge code })

/-- READ_NOTICE (R182). -/
def execReadNotice (o : Origin) (body : List Byte) (s : State) : Result :=
  serve o ReqKind.readNotice.code body (decideBody .readNotice o (readEmpty body) fun _ s => s.readNotice) s

end Sys2Proof.Machine
end

