-- ==== Sys2Proof/Machine/SceneRequests.lean ====
section
/-! DEFINITION. Machine/SceneRequests.lean: the scene kinds and the return stacks (chapter 5). -/

namespace Sys2Proof.Machine

/-- An entry or a pair of space p is skipped for the requester (R87). -/
def State.entrySkipped (o : Origin) (p : SpaceNo) (s : State) (n : LoadNo) : Bool :=
  (s.load n).kind == .none || (s.load n).space != p || State.locked o s n

/-- A push onto a stack: newest first, at most six frames kept (R92). -/
def pushFrame (stack : List StackFrame) (f : StackFrame) : List StackFrame := (f :: stack).take 6

/-- The fade of a recall: the request's, or the scene's where the request carries the absent marker (R5, R88). -/
def recallFade (requested default : Nat) : Nat := if requested = 65535 then default else requested

/-- A recall (R86 to R90). -/
def State.recall (s : State) (o : Origin) (v : SceneNo) (fade : Nat) : Decision :=
  let c := s.scene v
  let p := sceneSpace v
  match c.owner with
  | .management => s.refuse .sceneOwned
  | .live =>
    let r := applyEntries (State.entrySkipped o p) (recallFade fade c.defaultFade) c.entries Tally.zero s
    let t := r.2
    (r.1.reply, if r.1.pairs = [] then t else t.setReturnStack p (pushFrame (t.returnStack p) r.1.pairs))

/-- RECALL_SCENE (R87). -/
def execRecallScene (o : Origin) (body : List Byte) (s : State) : Result :=
  serve o ReqKind.recallScene.code body
    (decideTarget .recallScene o (readTargetWord body) fun t fade s =>
      match t with | .scene v => s.recall o v fade | _ => s.refuse .badTarget) s

/-- A return (R94 to R96). -/
def State.returnScene (s : State) (o : Origin) (p : SpaceNo) (fade : Nat) : Decision :=
  match s.returnStack p with
  | [] => (.plain .empty, s)
  | f :: rest =>
    let r := applyEntries (State.entrySkipped o p) fade f Tally.zero (s.setReturnStack p rest)
    (r.1.reply, r.2)

/-- RETURN_SCENE (R95). -/
def execReturnScene (o : Origin) (body : List Byte) (s : State) : Result :=
  serve o ReqKind.returnScene.code body
    (decideTarget .returnScene o (readTargetWord body) fun t fade s =>
      match t with | .space p => s.returnScene o p fade | _ => s.refuse .badTarget) s

/-- The OWNER of a scene is set (R82, R85). -/
def State.ownScene (s : State) (v : SceneNo) (w : Owner) : State := s.setScene v { s.scene v with owner := w }

/-- TAKE_SCENE (R82). -/
def execTakeScene (o : Origin) (body : List Byte) (s : State) : Result :=
  serve o ReqKind.takeScene.code body
    (decideTarget .takeScene o (readTargetBody body) fun t _ s =>
      match t with | .scene v => (s.ownScene v .management).done | _ => s.refuse .badTarget) s

/-- GIVE_SCENE (R85). -/
def execGiveScene (o : Origin) (body : List Byte) (s : State) : Result :=
  serve o ReqKind.giveScene.code body
    (decideTarget .giveScene o (readTargetBody body) fun t _ s =>
      match t with | .scene v => (s.ownScene v .live).done | _ => s.refuse .badTarget) s

/-- The entries of a WRITE_SCENE as the scene holds them. -/
def sceneEntries (es : List (Nat × Nat)) : List (LoadNo × Nat) := es.map fun e => (Fin.ofNat 96 e.1, e.2)

/-- The values of a WRITE_SCENE to a scene of space p are good (R83 check 2). -/
def State.sceneFieldsOk (s : State) (p : SpaceNo) (f : SceneFields) : Bool :=
  decide (f.entries.length ≤ 12) && decide (f.defaultFade ≤ 600)
    && (f.entries.all fun e => decide (e.1 ≤ 95) && decide (e.2 ≤ 1000))
    && decide (f.entries.map Prod.fst).Nodup
    && ((sceneEntries f.entries).all fun e => (s.load e.1).space == p)

/-- WRITE_SCENE at the Scene Store (R83, R84). -/
def State.decideWriteScene (s : State) (v : SceneNo) (f : SceneFields) : Decision :=
  match (s.scene v).owner with
  | .live => s.refuse .sceneLive
  | .management =>
    if s.sceneFieldsOk (sceneSpace v) f = false then s.refuse .badValue
    else
      ((s.setScene v { owner := .management, defaultFade := f.defaultFade, entries := sceneEntries f.entries }).setReturnStack
        (sceneSpace v) []).done

/-- WRITE_SCENE (R84). -/
def execWriteScene (o : Origin) (body : List Byte) (s : State) : Result :=
  serve o ReqKind.writeScene.code body
    (decideTarget .writeScene o (readWriteScene body) fun t f s =>
      match t with | .scene v => s.decideWriteScene v f | _ => s.refuse .badTarget) s

end Sys2Proof.Machine
end

