-- ==== Sys2Proof/Machine/TableRequests.lean ====
section
/-! DEFINITION. Machine/TableRequests.lean: WRITE_STATION (R10, R36), WRITE_INTERLOCK (R160, R161) and WRITE_SIGNAL
(R174). -/

namespace Sys2Proof.Machine

/-- What a WRITE_STATION body asks of an entry: the good values of R10, with the entry's new contents. -/
def stationEntry (f : StationFields) : Option (Fin 62 × Option Station) :=
  if h : 1 ≤ f.address ∧ f.address ≤ 62 then
    let place : Fin 62 := ⟨f.address - 1, by omega⟩
    if f.present then
      if f.rank = .management ∨ 8 ≤ f.axisMask.toNat then none
      else some (place, some { rank := f.rank, spaceMask := f.spaceMask, axisMask := f.axisMask.setWidth 3 })
    else some (place, none)
  else none

/-- The origin of a place of the Station Table. -/
def placeOrigin (p : Fin 62) : Origin := ⟨p.val + 1, by omega⟩

/-- The claim is on a lost axis, a lost space, or a load of a lost space; `before` is the part before the write (R36). -/
def State.claimLost (before after : State) (o : Origin) (c : Claim) : Bool :=
  c.holder == o &&
    match c.target with
    | .axis a => before.permitsAxis o a && !after.permitsAxis o a
    | .space p => before.permitsSpace o p && !after.permitsSpace o p
    | .load n => before.permitsSpace o (before.load n).space && !after.permitsSpace o (before.load n).space

/-- The axis learns that the claim which held it was lost (R36, R39). -/
def State.tellIfLost (lost : List Claim) (s : State) (a : AxisNo) : State :=
  if (lost.any fun c => c.target == .axis a) = true then s.claimEnded a .preEmpted else s

/-- A Station Table entry written: the claims of what it lost are retired, and each axis that loses its HOLD claim
responds as to pre-emption (R10, R36), in ascending number (log entry 14). -/
def State.writeStation (s : State) (p : Fin 62) (e : Option Station) : State :=
  let t := { s with stations := s.stations.set p e }
  let lost := s.claims.filter fun c => s.claimLost t (placeOrigin p) c
  let u := t.setClaims (s.claims.filter fun c => !s.claimLost t (placeOrigin p) c)
  allAxes.foldl (State.tellIfLost lost) u

/-- WRITE_STATION at the Station Table (R10). -/
def State.decideWriteStation (s : State) (f : StationFields) : Decision :=
  match stationEntry f with
  | none => s.refuse .badValue
  | some (p, e) => (s.writeStation p e).done

/-- WRITE_STATION (R10). -/
def execWriteStation (o : Origin) (body : List Byte) (s : State) : Result :=
  serve o ReqKind.writeStation.code body
    (decideBody .writeStation o (readWriteStation body) fun f s => s.decideWriteStation f) s

/-- What a WRITE_INTERLOCK body asks of a place: the good values of R160, with the place's new contents (R161). -/
def interlockEntry (f : InterlockFields) : Option (PlaceNo × Option Interlock) :=
  if hi : f.index < 16 then
    if f.present then
      if h : f.subject < 3 ∧ f.condition < 3 then
        if f.condition = f.subject ∨ (f.relation ≠ .notParked ∧ 16383 < f.threshold) then none
        else
          some (⟨f.index, hi⟩,
            some { subject := ⟨f.subject, h.1⟩, direction := f.direction, condition := ⟨f.condition, h.2⟩
                   relation := f.relation, threshold := if f.relation = .notParked then 0 else f.threshold })
      else none
    else some (⟨f.index, hi⟩, none)
  else none

/-- The subject of an entry is told of a block, and its own change is passed on (R141, R166). -/
def State.blockSubject (s : State) (e : Interlock) : State :=
  if s.entryStops e then (s.blockCore e.subject).tellInterlocks e.subject else s

/-- A place written, and a new present entry tested at once against its subject (R161). -/
def State.writeInterlock (s : State) (p : PlaceNo) (e : Option Interlock) : State :=
  let t := s.setInterlock p e
  match e with
  | some x => t.blockSubject x
  | none => t

/-- WRITE_INTERLOCK at the Interlock Table (R160). -/
def State.decideWriteInterlock (s : State) (f : InterlockFields) : Decision :=
  match interlockEntry f with
  | none => s.refuse .badValue
  | some (p, e) => (s.writeInterlock p e).done

/-- WRITE_INTERLOCK (R160). -/
def execWriteInterlock (o : Origin) (body : List Byte) (s : State) : Result :=
  serve o ReqKind.writeInterlock.code body
    (decideBody .writeInterlock o (readWriteInterlock body) fun f s => s.decideWriteInterlock f) s

/-- The values of a WRITE_SIGNAL are good (R174). -/
def patternOk (p : Pattern) : Bool :=
  decide (0 < p.primaryMark) && decide (0 < p.secondaryMark) && decide (p.gapCycles ≤ 15)

/-- WRITE_SIGNAL at the Signal Generator (R174). -/
def State.decideWriteSignal (s : State) (a : AxisNo) (p : Pattern) : Decision :=
  if patternOk p then (s.setChannel a ((s.channel a).write p)).done else s.refuse .badValue

/-- WRITE_SIGNAL (R174). -/
def execWriteSignal (o : Origin) (body : List Byte) (s : State) : Result :=
  serve o ReqKind.writeSignal.code body
    (decideTarget .writeSignal o (readWriteSignal body) fun t p s =>
      match t with | .axis a => s.decideWriteSignal a p | _ => s.refuse .badTarget) s

end Sys2Proof.Machine
end

