-- ==== Sys2Proof/Machine/Ports.lean ====
section
/-! DEFINITION. Machine/Ports.lean: replies leaving the two ports (R6), a request of an unlisted kind (R13), and frames that
are dropped (R1, R2, R6). -/

namespace Sys2Proof.Machine

/-- The oldest reply of the Cabin Bus queue goes out (R6); from an empty queue nothing is sent. -/
def State.sendReply (s : State) : State :=
  match s.busReplies with
  | r :: rest => { s with busReplies := rest, busTx := r.bytes }
  | [] => s

/-- REPLY_SENT (R6). -/
def execReplySent (s : State) : Result := s.sendReply.complete

/-- The reply in the slot of the Management Link has been clocked out whole (R6). -/
def State.readReply (s : State) : State :=
  match s.linkReply with
  | some r => { s with linkReply := none, linkTx := r.bytes }
  | none => s

/-- REPLY_READ (R6). -/
def execReplyRead (s : State) : Result := s.readReply.complete

/-- The meaning of a request by its kind (Table 1-3). -/
def execRequest (k : ReqKind) (o : Origin) (body : List Byte) (s : State) : Result :=
  match k with
  | .query => execQuery o body s
  | .setLevel => execSetLevel o body s
  | .recallScene => execRecallScene o body s
  | .returnScene => execReturnScene o body s
  | .claim => execClaim o body s
  | .renew => execRenew o body s
  | .release => execRelease o body s
  | .move => execMove o body s
  | .stop => execStop o body s
  | .writeStation => execWriteStation o body s
  | .writeLoad => execWriteLoad o body s
  | .writeAxis => execWriteAxis o body s
  | .writeInterlock => execWriteInterlock o body s
  | .writeSignal => execWriteSignal o body s
  | .takeScene => execTakeScene o body s
  | .writeScene => execWriteScene o body s
  | .giveScene => execGiveScene o body s
  | .setBudget => execSetBudget o body s
  | .clearLockout => execClearLockout o body s
  | .start => execStart o body s
  | .halt => execHalt o body s
  | .readNotice => execReadNotice o body s

/-- An unlisted kind is refused once the settle interval and the origin's admission have passed it (R12, R13). -/
def State.refuseKind (o : Origin) (s : State) : Decision :=
  match s.admission o with
  | some c => s.refuse c
  | none => s.refuse .badRequest

/-- UNKNOWN_KIND (R13). A frame whose kind byte Table 1-3 lists is the request it spells (log entry 13). -/
def execUnknownKind (o : Origin) (kind : Byte) (body : List Byte) (s : State) : Result :=
  match ReqKind.ofByte kind with
  | some k => execRequest k o body s
  | none => serve o kind body (State.refuseKind o) s

/-- The frame being received on a port is complete (R1). -/
def State.endFrame (s : State) (p : Port) : State :=
  match p with
  | .bus => { s with busRx := [] }
  | .link => { s with linkRx := [] }

/-- FRAME_DROPPED (R1, R2, R6): no record changes and no reply is sent. A frame that R1 and R2 pass is dropped where its
port has no room for the reply, and is else the request it spells (log entry 13). -/
def execFrameDropped (p : Port) (bytes : List Byte) (s : State) : Result :=
  match readFrame p bytes with
  | none => .next (s.endFrame p)
  | some r => execUnknownKind r.origin r.kind r.body s

end Sys2Proof.Machine
end

