-- ==== Sys2Proof/Machine/Resets.lean ====
section
/-! DEFINITION. Machine/Resets.lean: the resets and the end of a source that persists (R178), with the values each block
takes (R1, R6, R21, R45, R78, R79, R91, R100, R126, R168, R176, R181). -/

namespace Sys2Proof.Machine

/-- A source of a reset still persists (R178). -/
def State.sourceActive (s : State) : Bool := s.resetInput || s.supplyLow

/-- Length of the settle interval (R178). -/
def settleLength (k : SettleKind) : Nat := match k with | .powerOn => powerOnSettleMs | .warm => warmSettleMs

/-- The settle interval as a reset begins it: its timer waits while a source persists (R178; log entry 7 where two do). -/
def settleFor (k : SettleKind) (waiting : Bool) : Settle :=
  { kind := k, timer := if waiting then none else some (settleLength k) }

/-- The part after a power-on reset (R178): the input pins stay as they are driven (log entry 5), and the model's own
`pending` and `tieCount` are untouched. -/
def State.powerOn (s : State) (supplyLow : Bool) : State :=
  { State.reset with
    pending := s.pending, axisInputs := s.axisInputs, resetInput := s.resetInput, tieCount := s.tieCount
    supplyLow := supplyLow
    settle := some (settleFor .powerOn (s.resetInput || supplyLow)) }

/-- POWER_ON_RESET (R178). -/
def execPowerOnReset (supplyLow : Bool) (s : State) : Result := (s.powerOn supplyLow).complete

/-- A load after a warm reset (R45). -/
def LoadRec.warm (l : LoadRec) : LoadRec := { l with forced := false, fade := none, level := 0 }.retarget.recount

/-- An axis after a warm reset (R126). -/
def AxisRec.warm (ax : AxisRec) : AxisRec :=
  { ax.atRest (if ax.state = .lockout then .lockout else .parked) with
    endReason := match ax.state with | .warn | .run | .stopping | .rest => .reset | .parked | .lockout => ax.endReason
    pending := none, verified := false, runDistance := 0 }

/-- A scene after a warm reset (R79). -/
def Scene.warm (c : Scene) : Scene := { c with owner := .live }

/-- The budget after a warm reset, given the sum of the recomputed counted draws (R100). -/
def Budget.warm (b : Budget) (draw : Nat) : Budget :=
  { b with heldDemand := Vector.replicate 3 0, committed := draw, deficit := decide (b.available < draw) }

/-- An axis is in WARN, RUN or STOPPING (R126, R178). -/
def State.anyMotion (s : State) : Bool := allAxes.any fun a => (s.axis a).inMotion

/-- The reset cause of a warm reset (R178). -/
def WarmCause.resetCause (c : WarmCause) : ResetCause := match c with | .brownout => .brownout | .pin => .pin

/-- The device record after a warm reset, by the settle interval it arrives in, if any (R176, R178). -/
def Device.warm (d : Device) (within : Option SettleKind) (cause : ResetCause) (motion : Bool) : Device :=
  match within with
  | none => { d with resetCause := cause, motionAtReset := motion }
  | some .warm => { d with resetCause := cause }
  | some .powerOn => { d with resetCause := .powerOn, motionAtReset := motion }

/-- The kind of settle interval a warm reset begins: within that of a power-on reset it stays one (R178). -/
def warmKind (within : Option SettleKind) : SettleKind := if within = some .powerOn then .powerOn else .warm

/-- The pin of the source of a warm reset, as the reset finds it (R178). -/
def State.setSource (s : State) (cause : WarmCause) (persists : Bool) : State :=
  match cause with
  | .brownout => { s with supplyLow := persists }
  | .pin => { s with resetInput := persists }

/-- The records after a warm reset (R21, R45, R78, R79, R91, R126, R168, R181, and R1 and R6 for the ports). -/
def State.warmRecords (s : State) : State :=
  { s with
    busRx := [], linkRx := [], busReplies := [], linkReply := none, claims := []
    loads := mapTable LoadRec.warm s.loads
    outputs := Vector.replicate 96 Output.reset
    scenes := mapTable Scene.warm s.scenes
    returnStacks := Vector.replicate 16 []
    axes := mapTable AxisRec.warm s.axes
    channels := mapTable Channel.warm s.channels
    notices := Notices.reset }

/-- The part after a warm reset (R178). -/
def State.warmReset (s : State) (cause : WarmCause) (persists : Bool) : State :=
  let within := s.settle.map (·.kind)
  let t := s.warmRecords.setSource cause persists
  { t with
    budget := s.budget.warm t.totalDraw
    device := s.device.warm within (WarmCause.resetCause cause) s.anyMotion
    settle := some (settleFor (warmKind within) t.sourceActive) }

/-- WARM_RESET (R178). -/
def execWarmReset (cause : WarmCause) (persists : Bool) (s : State) : Result := (s.warmReset cause persists).complete

/-- The source of a reset ends (R178). -/
def State.endSource (s : State) (source : ResetSource) : State :=
  match source with
  | .supply => { s with supplyLow := false }
  | .pin => { s with resetInput := false }

/-- The settle timer starts if it waits and no source persists (R178). -/
def State.startSettle (s : State) : State :=
  match s.settle with
  | some { kind := k, timer := none } => { s with settle := some (settleFor k s.sourceActive) }
  | _ => s

/-- RESET_SOURCE_END (R178). -/
def execResetSourceEnd (source : ResetSource) (s : State) : Result := ((s.endSource source).startSettle).complete

end Sys2Proof.Machine
end

