-- ==== Sys2Proof/Machine/TimerEvents.lean ====
section
/-! DEFINITION. Machine/TimerEvents.lean: the expiries of the part's timers, but for the leases. A timer expires when it has
run out, and only then. One that waits behind an event that stopped the timer or set it afresh does not happen (R72, R158,
R175): as a command it finds the timer stopped, or with time left, and changes nothing (log entry 4). -/

namespace Sys2Proof.Machine

/-! ### Fades and outputs (chapter 4) -/

/-- The step timer of load n, if it has run out, brings one fade step, its level handed to the Load Table and its draw
reported (R64, R43). A fade that has replaced another has its first step 20 ms later (R72). -/
def State.fadeStep (s : State) (n : LoadNo) : State :=
  match (s.load n).fade with
  | some f => if f.stepTimer = 0 then s.reportLoad n ((s.load n).stepFade f).recount else s
  | none => s

/-- FADE_STEP (R64). -/
def execFadeStep (n : LoadNo) (s : State) : Result := (s.fadeStep n).complete

/-- The output at the end of its period: a staged duty becomes live, and the next period begins (R73, R76). -/
def Output.nextPeriod (x : Output) : Output :=
  { live := x.staged.getD x.live, staged := none, period := some outputPeriodMs }

/-- The end of the period of output n, if it has run out (R76). -/
def State.endPeriod (s : State) (n : LoadNo) : State :=
  if (s.output n).period = some 0 then s.setOutput n (s.output n).nextPeriod else s

/-- OUTPUT_PERIOD_END (R76). -/
def execOutputPeriodEnd (n : LoadNo) (s : State) : Result := (s.endPeriod n).complete

/-! ### Ramps and the brake settle (chapter 7) -/

/-- The speed limit in RUN (R132). -/
def AxisRec.speedLimit (ax : AxisRec) : Nat :=
  let near : Bool :=
    match ax.pending.bind (·.target) with
    | some t => decide ((t - ax.position) + (ax.position - t) ≤ ax.approach)
    | none => false
  if ax.verified = false ∨ near = true then ax.creepSpeed else ax.runSpeed

/-- The speed after a ramp expiry in RUN (R132). -/
def AxisRec.rampedSpeed (ax : AxisRec) : Nat :=
  if ax.speed < ax.speedLimit then min (ax.speed + ax.accelStep) ax.speedLimit
  else if ax.speedLimit < ax.speed then max (ax.speed - ax.decelStep) ax.speedLimit
  else ax.speed

/-- A ramp expiry in STOPPING (R136): SPEED falls, and at 0 the brake settle begins. -/
def AxisRec.slowed (ax : AxisRec) : AxisRec :=
  let v := ax.speed - ax.decelStep
  { ax with
    speed := v
    rampTimer := if v = 0 then none else some rampMs
    brakeTimer := if v = 0 then some brakeSettleMs else ax.brakeTimer }

/-- The ramp expiry of axis a (R132, R136, R149). -/
def State.ramp (s : State) (a : AxisNo) : State :=
  let ax := s.axis a
  match ax.rampTimer, ax.state with
  | some 0, .run => s.setAxis a { ax with speed := ax.rampedSpeed, rampTimer := some rampMs }.armWatch
  | some 0, .stopping => s.setAxis a ax.slowed
  | _, _ => s

/-- RAMP_EXPIRY (R132, R136). -/
def execRampExpiry (a : AxisNo) (s : State) : Result := (s.ramp a).complete

/-- The brake-settle expiry of axis a: PARKED with the END REASON it has (R136, R135). -/
def State.brakeSettled (s : State) (a : AxisNo) : State :=
  let ax := s.axis a
  if ax.brakeTimer = some 0 ∧ ax.state = .stopping then s.park a ax.endReason else s

/-- BRAKE_SETTLE_EXPIRY (R136). -/
def execBrakeSettleExpiry (a : AxisNo) (s : State) : Result := (s.brakeSettled a).complete

/-! ### Confirmation, stalls, rests (chapter 8) -/

/-- The load is confirmed and stall monitoring begins; `current` is the current sense input (R147, R149). -/
def AxisRec.confirmed (ax : AxisRec) (current : Nat) : AxisRec :=
  { ax with
    confirmTimer := none, monitoring := true
    overCurrentTimer := if ax.overCurrent < current then some overCurrentMs else none }.armWatch

/-- The confirm window of axis a expires (R147, R148). -/
def State.confirmWindow (s : State) (a : AxisNo) : State :=
  let ax := s.axis a
  if ax.confirmTimer = some 0 ∧ ax.state = .run then
    if ax.noLoad ≤ (s.axisIn a).current then s.setAxis a (ax.confirmed (s.axisIn a).current) else s.noLoadLockout a
  else s

/-- CONFIRM_WINDOW_EXPIRY (R147). -/
def execConfirmWindowExpiry (a : AxisNo) (s : State) : Result := (s.confirmWindow a).complete

/-- The pulse watch of axis a expires (R149, R150); a pulse taken first has restarted it, and there is no stall (R158). -/
def State.pulseWatchEnd (s : State) (a : AxisNo) : State :=
  if (s.axis a).pulseWatch = some 0 ∧ (s.axis a).state = .run then s.stall a else s

/-- PULSE_WATCH_EXPIRY (R149, R150). -/
def execPulseWatchExpiry (a : AxisNo) (s : State) : Result := (s.pulseWatchEnd a).complete

/-- The over-current timer of axis a expires (R149, R150). -/
def State.overCurrentEnd (s : State) (a : AxisNo) : State :=
  if (s.axis a).overCurrentTimer = some 0 ∧ (s.axis a).state = .run then s.stall a else s

/-- OVER_CURRENT_EXPIRY (R149, R150). -/
def execOverCurrentExpiry (a : AxisNo) (s : State) : Result := (s.overCurrentEnd a).complete

/-- What the five tests of a retry find (R152, R153). -/
inductive RetryResult
  /-- All five pass: the granted state and the motion retried. -/
  | retry (granted : State) (motion : Pending)
  /-- A test fails: the END REASON, none where it is left as it is. -/
  | fail (reason : Option EndReason)
  deriving DecidableEq, Repr

/-- The five tests of a retry, in order (R152). -/
def State.retryTests (s : State) (a : AxisNo) : RetryResult :=
  match (s.axis a).pending with
  | none => .fail none
  | some p =>
    if s.holdsAxis p.origin a = false then .fail none
    else if (s.axisIn a).edge then .fail (some .obstructed)
    else if s.blocked a p.direction then .fail (some .interlock)
    else
      match s.grant a with
      | none => .fail (some .noBudget)
      | some t => .retry t p

/-- The rest of axis a is over: REST REMAINING becomes absent, and the axis retries or parks (R152, R153). -/
def State.restOver (s : State) (a : AxisNo) : State :=
  let s1 := s.setAxis a { s.axis a with restRemaining := none }
  match s1.retryTests a with
  | .retry t p => t.enterWarn a p
  | .fail none => s1.park a (s1.axis a).endReason
  | .fail (some er) => if er = .obstructed then (s1.park a er).raiseAxisFault else s1.park a er

/-- The rest timer of axis a expires (R152). -/
def State.restEnd (s : State) (a : AxisNo) : State :=
  if (s.axis a).restRemaining = some 0 ∧ (s.axis a).state = .rest then s.restOver a else s

/-- REST_EXPIRY (R152, R153). -/
def execRestExpiry (a : AxisNo) (s : State) : Result := (s.restEnd a).complete

/-! ### Signal channels (chapter 10) -/

/-- The mark end of channel a (R170). -/
def State.markEnd (s : State) (a : AxisNo) : State :=
  if (s.channel a).markTimer = some 0 then s.setChannel a (s.channel a).endMark else s

/-- SIGNAL_MARK_END (R170). -/
def execSignalMarkEnd (a : AxisNo) (s : State) : Result := (s.markEnd a).complete

/-- The cycle end of channel a, and its report to its axis (R172, R173, R131). -/
def State.cycleEnd (s : State) (a : AxisNo) : State :=
  match (s.channel a).cycleTimer, (s.channel a).cycle with
  | some 0, some c =>
    let r := (s.channel a).endCycle c (s.axis a).warnCycles
    let t := s.setChannel a r.1
    if r.2 then t.enterRun a else t
  | _, _ => s

/-- SIGNAL_CYCLE_END (R172, R173). -/
def execSignalCycleEnd (a : AxisNo) (s : State) : Result := (s.cycleEnd a).complete

/-! ### The end of the settle interval (chapter 11) -/

/-- The warm-reset fade-in of a load (R45, R70). -/
def LoadRec.fadeIn (l : LoadRec) : LoadRec := ((l.startFade fadeInSteps).followSwitch).recount

/-- The fade-in of load n (R45). -/
def State.fadeInLoad (s : State) (n : LoadNo) : State := s.storeLoad n (s.load n).fadeIn

/-- The settle interval ends: each output begins its first period, and after a warm reset the fade-in starts (R179). -/
def State.endSettle (s : State) (k : SettleKind) : State :=
  let t := { s with settle := none, outputs := mapTable (fun x => { x with period := some outputPeriodMs }) s.outputs }
  match k with
  | .powerOn => t
  | .warm => allLoads.foldl State.fadeInLoad t

/-- The settle timer expires, if it has run out (R179). -/
def State.settleOver (s : State) : State :=
  match s.settle with
  | some { kind := k, timer := some 0 } => s.endSettle k
  | _ => s

/-- SETTLE_EXPIRY (R179). -/
def execSettleExpiry (s : State) : Result := s.settleOver.complete

end Sys2Proof.Machine
end

