-- ==== Sys2Proof/Machine/Dispatch.lean ====
section
/-! DEFINITION. Machine/Dispatch.lean: one arm for each command, a direct call of its meaning. -/

namespace Sys2Proof.Machine

/-- The effect of a command on everything but the queue. -/
def exec (i : Instr) (s : State) : Host.Outcome State Fault Refusal :=
  match i with
  | .query o body => Sys2Proof.Machine.execQuery o body s
  | .setLevel o body => Sys2Proof.Machine.execSetLevel o body s
  | .recallScene o body => Sys2Proof.Machine.execRecallScene o body s
  | .returnScene o body => Sys2Proof.Machine.execReturnScene o body s
  | .claim o body => Sys2Proof.Machine.execClaim o body s
  | .renew o body => Sys2Proof.Machine.execRenew o body s
  | .release o body => Sys2Proof.Machine.execRelease o body s
  | .move o body => Sys2Proof.Machine.execMove o body s
  | .stop o body => Sys2Proof.Machine.execStop o body s
  | .writeStation o body => Sys2Proof.Machine.execWriteStation o body s
  | .writeLoad o body => Sys2Proof.Machine.execWriteLoad o body s
  | .writeAxis o body => Sys2Proof.Machine.execWriteAxis o body s
  | .writeInterlock o body => Sys2Proof.Machine.execWriteInterlock o body s
  | .writeSignal o body => Sys2Proof.Machine.execWriteSignal o body s
  | .takeScene o body => Sys2Proof.Machine.execTakeScene o body s
  | .writeScene o body => Sys2Proof.Machine.execWriteScene o body s
  | .giveScene o body => Sys2Proof.Machine.execGiveScene o body s
  | .setBudget o body => Sys2Proof.Machine.execSetBudget o body s
  | .clearLockout o body => Sys2Proof.Machine.execClearLockout o body s
  | .start o body => Sys2Proof.Machine.execStart o body s
  | .halt o body => Sys2Proof.Machine.execHalt o body s
  | .readNotice o body => Sys2Proof.Machine.execReadNotice o body s
  | .unknownKind o kind body => Sys2Proof.Machine.execUnknownKind o kind body s
  | .frameDropped p bytes => Sys2Proof.Machine.execFrameDropped p bytes s
  | .replySent => Sys2Proof.Machine.execReplySent s
  | .replyRead => Sys2Proof.Machine.execReplyRead s
  | .leaseExpiry t => Sys2Proof.Machine.execLeaseExpiry t s
  | .fadeStep n => Sys2Proof.Machine.execFadeStep n s
  | .outputPeriodEnd n => Sys2Proof.Machine.execOutputPeriodEnd n s
  | .rampExpiry a => Sys2Proof.Machine.execRampExpiry a s
  | .brakeSettleExpiry a => Sys2Proof.Machine.execBrakeSettleExpiry a s
  | .confirmWindowExpiry a => Sys2Proof.Machine.execConfirmWindowExpiry a s
  | .pulseWatchExpiry a => Sys2Proof.Machine.execPulseWatchExpiry a s
  | .overCurrentExpiry a => Sys2Proof.Machine.execOverCurrentExpiry a s
  | .restExpiry a => Sys2Proof.Machine.execRestExpiry a s
  | .signalMarkEnd a => Sys2Proof.Machine.execSignalMarkEnd a s
  | .signalCycleEnd a => Sys2Proof.Machine.execSignalCycleEnd a s
  | .settleExpiry => Sys2Proof.Machine.execSettleExpiry s
  | .positionPulse a => Sys2Proof.Machine.execPositionPulse a s
  | .homeActive a => Sys2Proof.Machine.execHomeActive a s
  | .homeInactive a => Sys2Proof.Machine.execHomeInactive a s
  | .safetyEdgeActive a => Sys2Proof.Machine.execSafetyEdgeActive a s
  | .safetyEdgeInactive a => Sys2Proof.Machine.execSafetyEdgeInactive a s
  | .currentRise a current => Sys2Proof.Machine.execCurrentRise a current s
  | .currentFall a current => Sys2Proof.Machine.execCurrentFall a current s
  | .powerOnReset supplyLow => Sys2Proof.Machine.execPowerOnReset supplyLow s
  | .warmReset cause persists => Sys2Proof.Machine.execWarmReset cause persists s
  | .resetSourceEnd source => Sys2Proof.Machine.execResetSourceEnd source s

end Sys2Proof.Machine
end

