-- ==== Sys2Proof/Machine/Clock.lean ====
section
/-! DEFINITION. Machine/Clock.lean: what the part does with no command waiting (log entries 2 and 3): an expiry that is due
is taken, one at a time, and with none due one millisecond passes. -/

namespace Sys2Proof.Machine

/-- One millisecond less on a timer, if it runs. -/
def tickTimer (t : Option Nat) : Option Nat := t.map fun ms => ms - 1

/-- One millisecond less on a lease; PERMANENT does not run down (R24). -/
def Lease.tick (x : Lease) : Lease := match x with | .permanent => .permanent | .left ms => .left (ms - 1)

/-- One millisecond less on the step timer of a fading load. -/
def LoadRec.tick (l : LoadRec) : LoadRec := { l with fade := l.fade.map fun f => { f with stepTimer := f.stepTimer - 1 } }

/-- One millisecond less on every timer of an axis. -/
def AxisRec.tick (ax : AxisRec) : AxisRec :=
  { ax with
    restRemaining := tickTimer ax.restRemaining, rampTimer := tickTimer ax.rampTimer
    brakeTimer := tickTimer ax.brakeTimer, confirmTimer := tickTimer ax.confirmTimer
    pulseWatch := tickTimer ax.pulseWatch, overCurrentTimer := tickTimer ax.overCurrentTimer }

/-- One millisecond less on the timers of a channel. -/
def Channel.tick (ch : Channel) : Channel :=
  { ch with markTimer := tickTimer ch.markTimer, cycleTimer := tickTimer ch.cycleTimer }

/-- One millisecond passes on every timer of the part. -/
def State.tick (s : State) : State :=
  { s with
    claims := s.claims.map fun c => { c with lease := c.lease.tick }
    loads := mapTable LoadRec.tick s.loads
    outputs := mapTable (fun x => { x with period := tickTimer x.period }) s.outputs
    axes := mapTable AxisRec.tick s.axes
    channels := mapTable Channel.tick s.channels
    settle := s.settle.map fun x => { x with timer := tickTimer x.timer } }

/-- The expiry i, if its timer has run out. -/
def dueIf (timer : Option Nat) (i : Instr) : List Instr := if timer = some 0 then [i] else []

/-- The expiries of an axis and its channel that are due. -/
def State.dueOfAxis (s : State) (a : AxisNo) : List Instr :=
  let ax := s.axis a
  let ch := s.channel a
  dueIf ax.rampTimer (.rampExpiry a) ++ dueIf ax.brakeTimer (.brakeSettleExpiry a)
    ++ dueIf ax.confirmTimer (.confirmWindowExpiry a) ++ dueIf ax.pulseWatch (.pulseWatchExpiry a)
    ++ dueIf ax.overCurrentTimer (.overCurrentExpiry a) ++ dueIf ax.restRemaining (.restExpiry a)
    ++ dueIf ch.markTimer (.signalMarkEnd a) ++ dueIf ch.cycleTimer (.signalCycleEnd a)

/-- The expiries that are due. -/
def State.due (s : State) : List Instr :=
  (s.claims.flatMap fun c => if c.lease = .left 0 then [Instr.leaseExpiry c.target] else [])
    ++ (allLoads.flatMap fun n => dueIf ((s.load n).fade.map (·.stepTimer)) (.fadeStep n))
    ++ (allLoads.flatMap fun n => dueIf (s.output n).period (.outputPeriodEnd n))
    ++ allAxes.flatMap s.dueOfAxis
    ++ dueIf (s.settle.bind (·.timer)) .settleExpiry

/-- The expiry taken of those that are due together: a free choice (log entry 3). -/
def choose (first : Instr) (others : List Instr) (tie : Nat) : Instr :=
  (first :: others).getD (Config.tieBreak tie % (others.length + 1)) first

/-- A step with no command waiting. -/
def State.idle (s : State) : Result :=
  match s.due with
  | [] => .next s.tick
  | [i] => exec i s
  | i :: others => exec (choose i others s.tieCount) { s with tieCount := s.tieCount + 1 }

/-- The command at the front of the queue is taken, or the part runs on by itself. -/
def State.takeStep (s : State) : Result :=
  match s.pending with
  | c :: rest => exec c { s with pending := rest }
  | [] => s.idle

/-- The command put at the front of the queue. -/
def State.putFront (s : State) (c : Option Instr) : State :=
  match c with
  | some i => { s with pending := i :: s.pending }
  | none => s

end Sys2Proof.Machine
end

