-- ==== Sys2Proof/Machine/Step.lean ====
section
/-! DEFINITION. Machine/Step.lean: one step of the part, and the place where it takes its next command from. -/

namespace Sys2Proof.Machine

/-- One step: the command at the front of the queue, or, with no command waiting, the clock (log entries 1 and 2). -/
def step (s : State) : Host.Outcome State Fault Refusal := s.takeStep

/-- The command that a word of the table spells, put at the front of the queue. -/
def State.withFetchWord (s : State) (nbits w : Nat) : State := s.putFront (decodeTableWord nbits w)

end Sys2Proof.Machine
end

