-- ==== Sys2Proof/Safety.lean ====
section
/-! DEFINITION. Safety.lean: the laws of the part that the spec states over every load, claim, axis and record at once, the
premises under which a request is decided by its owner, and the frames that say what an event leaves alone. -/

namespace Sys2Proof

/-! ### Requests -/

/-- The command of a request of kind k. -/
def ReqKind.request (k : ReqKind) (o : Origin) (body : List Byte) : Instr :=
  match k with
  | .query => .query o body
  | .setLevel => .setLevel o body
  | .recallScene => .recallScene o body
  | .returnScene => .returnScene o body
  | .claim => .claim o body
  | .renew => .renew o body
  | .release => .release o body
  | .move => .move o body
  | .stop => .stop o body
  | .writeStation => .writeStation o body
  | .writeLoad => .writeLoad o body
  | .writeAxis => .writeAxis o body
  | .writeInterlock => .writeInterlock o body
  | .writeSignal => .writeSignal o body
  | .takeScene => .takeScene o body
  | .writeScene => .writeScene o body
  | .giveScene => .giveScene o body
  | .setBudget => .setBudget o body
  | .clearLockout => .clearLockout o body
  | .start => .start o body
  | .halt => .halt o body
  | .readNotice => .readNotice o body

/-- The body of a request of kind k keeps R4 and R5 on length, enumeration codes and listed classes (R13 check 3). -/
def ReqKind.bodyOk (k : ReqKind) (body : List Byte) : Bool :=
  match k with
  | .query | .release | .stop | .takeScene | .giveScene | .clearLockout => (readTargetBody body).isSome
  | .setLevel => (readSetLevel body).isSome
  | .recallScene | .returnScene | .renew => (readTargetWord body).isSome
  | .claim => (readClaim body).isSome
  | .move => (readMove body).isSome
  | .writeStation => (readWriteStation body).isSome
  | .writeLoad => (readWriteLoad body).isSome
  | .writeAxis => (readWriteAxis body).isSome
  | .writeInterlock => (readWriteInterlock body).isSome
  | .writeSignal => (readWriteSignal body).isSome
  | .writeScene => (readWriteScene body).isSome
  | .setBudget => (readSetBudget body).isSome
  | .start | .halt | .readNotice => (readEmpty body).isSome

/-- The target as a request carries it (Table 1-2); the value of ALL, BUDGET and DEVICE is not examined. -/
def Target.raw (t : Target) : RawTarget :=
  match t with
  | .load n => ⟨.load, n.val⟩
  | .group tag => ⟨.group, tag⟩
  | .space p => ⟨.space, p.val⟩
  | .all => ⟨.all, 0⟩
  | .axis a => ⟨.axis, a.val⟩
  | .scene v => ⟨.scene, v.val⟩
  | .budget => ⟨.budget, 0⟩
  | .device => ⟨.device, 0⟩

/-- The target a request carries is t; the value of ALL, BUDGET and DEVICE may be any 16-bit value (R4). -/
def RawTarget.Names (x : RawTarget) (t : Target) : Prop := x.value < 65536 ∧ x.typed = some t

/-- The three bytes of a target (R4). -/
def Target.bytes (t : Target) : List Byte := targetBytes t.raw

/-- What a claim may be on, as a request names it. -/
def ClaimTarget.target (t : ClaimTarget) : Target :=
  match t with
  | .load n => .load n
  | .space p => .space p
  | .axis a => .axis a

/-- The bytes of the configuration fields of a WRITE_LOAD, in the order of Table 1-3. -/
def loadConfigBytes (c : LoadConfig) : List Byte :=
  [match c.kind with | .none => 0 | .dim => 1 | .switch => 2, BitVec.ofNat 8 c.space.val]
    ++ ((List.range 8).map fun i => c.groupMask.extractLsb' (8 * i) 8)
    ++ [BitVec.ofNat 8 c.shedRank] ++ bytesOf c.shedLevel ++ bytesOf c.ratedPower ++ [BitVec.ofNat 8 c.minDuty]

/-- The bytes of the configuration fields of a WRITE_AXIS, in the order of Table 1-3; 255 for no courtesy load. -/
def axisConfigBytes (c : AxisConfig) : List Byte :=
  bytesOf c.demand
    ++ [match c.courtesy with | some n => BitVec.ofNat 8 n.val | none => 255, BitVec.ofNat 8 c.runSpeed,
        BitVec.ofNat 8 c.creepSpeed, BitVec.ofNat 8 c.accelStep, BitVec.ofNat 8 c.decelStep]
    ++ bytesOf c.approach ++ bytesOf c.softLow ++ bytesOf c.softHigh
    ++ [BitVec.ofNat 8 c.stallWindow, BitVec.ofNat 8 c.overCurrent, BitVec.ofNat 8 c.noLoad, BitVec.ofNat 8 c.warnCycles]

/-- The bytes of a signal pattern, in the order of Table 1-3. -/
def patternBytes (p : Pattern) : List Byte :=
  [BitVec.ofNat 8 p.primaryMark, BitVec.ofNat 8 p.primarySpace, BitVec.ofNat 8 p.secondaryMark,
   BitVec.ofNat 8 p.secondarySpace, match p.mode with | .single => 1 | .twoTone => 2, BitVec.ofNat 8 p.gapCycles]

/-- The body of WRITE_SCENE after its target: default fade, count, entries (Table 1-3). -/
def sceneBytes (fade : Nat) (es : List (Nat × Nat)) : List Byte :=
  bytesOf fade ++ BitVec.ofNat 8 es.length :: es.flatMap fun e => BitVec.ofNat 8 e.1 :: bytesOf e.2

end Sys2Proof

namespace Sys2Proof.Machine

/-! ### Premises of a request -/

/-- A request of kind k from origin o reaches its owner's checks: the settle interval is over, the port has room, the
origin is admitted, and neither the origin column of Table 1-3 nor the run state refuses the kind (R6, R12 to R14). -/
structure State.Takes (s : State) (k : ReqKind) (o : Origin) : Prop where
  settled : s.settle = none
  room : s.hasRoom o = true
  known : o = 0 ∨ s.station o ≠ none
  origin : k.managementOnly = true → o = 0
  halted : s.device.runState = .halted → o = 0 ∨ k = .query
  running : s.device.runState = .running → k.haltedOnly = false

/-- The origin is permitted what a claim may be on (R15). -/
def State.permitsTarget (s : State) (o : Origin) (t : ClaimTarget) : Prop :=
  match t with
  | .load n => s.permitsSpace o (s.load n).space = true
  | .space p => s.permitsSpace o p = true
  | .axis a => s.permitsAxis o a = true

/-- A live claim of another origin that conflicts with a CLAIM on t (R29). -/
def State.Conflict (s : State) (o : Origin) (t : ClaimTarget) (c : Claim) : Prop :=
  c ∈ s.claims ∧ c.holder ≠ o
    ∧ (c.target = t ∨ (∃ n, t = .load n ∧ c.target = .space (s.load n).space)
        ∨ ∃ n, t = .space (s.load n).space ∧ c.target = .load n)

/-- A live load claim of the requester in the space it claims (R31). -/
def State.Folded (s : State) (o : Origin) (t : ClaimTarget) (c : Claim) : Prop :=
  c ∈ s.claims ∧ c.holder = o ∧ ∃ n, t = .space (s.load n).space ∧ c.target = .load n

/-- The lease granted (Table 2-2): HOLD in 50 ms units, LOCK in seconds. -/
def ClaimTarget.lease (t : ClaimTarget) (rank : Rank) (asked : Nat) : Lease :=
  match t with
  | .axis _ => .left ((if asked = 0 then 10 else min asked 10) * 50)
  | .load _ | .space _ =>
    if asked = 0 then (match rank with | .officer | .management => .permanent | .guest | .crew => .left (43200 * 1000))
    else .left (min asked 43200 * 1000)

/-- The part as the owner of a request leaves it, `t`, once its reply has been put on the origin's port and the outputs
have been brought to the records (R6). -/
def State.answered (t : State) (o : Origin) (kind : Byte) (b : ReplyBody) : State := (t.postReply o kind b).driveOutputs

/-! ### Frames -/

/-- Of the records, only load records, outputs, the budget record and the edge notices may differ. -/
def OnlyLoads (s t : State) : Prop :=
  t = { s with loads := t.loads, outputs := t.outputs, budget := t.budget, notices := t.notices }

/-- Of the records, only load records, outputs, the budget record, the notices, axis records and signal channels may
differ. -/
def OnlyMachines (s t : State) : Prop :=
  t = { s with
    loads := t.loads, outputs := t.outputs, budget := t.budget, notices := t.notices, axes := t.axes
    channels := t.channels }

/-- As `OnlyMachines`, with the output pins and the NOTICE line that follow the records. -/
def OnlyMachinesDriven (s t : State) : Prop :=
  t = { s with
    loads := t.loads, outputs := t.outputs, budget := t.budget, notices := t.notices, axes := t.axes
    channels := t.channels, axisPins := t.axisPins, signalPins := t.signalPins, noticeLine := t.noticeLine }

/-- What no event but WRITE_LOAD and a reset changes in a load: its configuration (R40). -/
def SameConfigs (s t : State) : Prop := ∀ n, (t.load n).toLoadConfig = (s.load n).toLoadConfig

/-- Another axis is left as it was, or has been stopped by an interlock entry (R141, R165): then its configuration,
POSITION, VERIFIED flag, DIRECTION, JAM POSITION and RUN DISTANCE stand, and it has left WARN or RUN with INTERLOCK. -/
def KeptOrBlocked (before after : AxisRec) : Prop :=
  after = before
    ∨ ((before.state = .warn ∧ after.state = .parked ∨ before.state = .run ∧ after.state = .stopping)
        ∧ after.endReason = .interlock ∧ after.toAxisConfig = before.toAxisConfig ∧ after.position = before.position
        ∧ after.verified = before.verified ∧ after.direction = before.direction ∧ after.jam = before.jam
        ∧ after.runDistance = before.runDistance)

/-! ### What an event makes of an axis record -/

/-- PARKED with an END REASON (R135): SPEED 0, no PENDING MOTION, every timer stopped. -/
def AxisRec.parkedBy (ax : AxisRec) (er : EndReason) : AxisRec :=
  { ax with
    state := .parked, endReason := er, speed := 0, pending := none, restRemaining := none, rampTimer := none
    brakeTimer := none, confirmTimer := none, monitoring := false, pulseWatch := none, overCurrentTimer := none }

/-- STOPPING with an END REASON (R136, R138): the timers of RUN but the ramp stop, STALL COUNT returns to 0 after 64 counts of
travel, and at SPEED 0 the brake settle of 300 ms begins at once. -/
def AxisRec.stoppedBy (ax : AxisRec) (er : EndReason) : AxisRec :=
  { ax with
    state := .stopping, endReason := er, stallCount := if 64 ≤ ax.runDistance then 0 else ax.stallCount
    confirmTimer := none, monitoring := false, pulseWatch := none, overCurrentTimer := none
    rampTimer := if ax.speed = 0 then none else ax.rampTimer
    brakeTimer := if ax.speed = 0 then some 300 else none }

/-- The response to the end of the HOLD claim by state (R140). -/
def AxisRec.claimEndedBy (ax : AxisRec) (er : EndReason) : AxisRec :=
  match ax.state with
  | .warn => ax.parkedBy er
  | .run => ax.stoppedBy er
  | .rest => { ax with pending := none }
  | .parked | .stopping | .lockout => ax

/-- The first normal end of RUN that R134 finds for a record, the HOME end apart. -/
def AxisRec.endFound (ax : AxisRec) : Option EndReason :=
  if (∃ p ∈ ax.pending, ∃ t ∈ p.target,
      ax.direction = .extend ∧ t ≤ ax.position ∨ ax.direction = .retract ∧ ax.position ≤ t) then some .target
  else if ax.verified = true ∧ (ax.direction = .extend ∧ ax.softHigh ≤ ax.position
      ∨ ax.direction = .retract ∧ 0 < ax.softLow ∧ ax.position ≤ ax.softLow) then some .limit
  else none

/-- The frame of an event of axis a: of the records, only loads (their configuration and SET TARGET kept), outputs, the
budget (AVAILABLE kept), the edge notices, axis a, its channel, and axes that an interlock entry stops may differ; a
channel of another axis is told to finish where its axis is parked out of WARN. -/
structure AxisFrame (a : AxisNo) (s t : State) : Prop where
  only : OnlyMachines s t
  configs : SameConfigs s t
  targets : ∀ n, (t.load n).setTarget = (s.load n).setTarget
  available : t.budget.available = s.budget.available
  axes : ∀ b, b ≠ a → KeptOrBlocked (s.axis b) (t.axis b)
  channels : ∀ b, b ≠ a → t.channel b = s.channel b
    ∨ (s.axis b).state = .warn ∧ (t.axis b).state = .parked ∧ t.channel b = (s.channel b).finish

/-! ### What an event makes of the loads and the budget -/

/-- The part once load n has the record l': a new level is staged, but for the settle interval, as is any duty where `restage`
holds (R44, R78), and COMMITTED counts the new draw (R99). -/
def State.withLoad (s : State) (n : LoadNo) (l' : LoadRec) (restage : Bool := false) : State :=
  let t := s.setLoad n l'
  let staged := (restage = true ∨ l'.level ≠ (s.load n).level) ∧ s.settle = none
  { (if staged then t.setOutput n { s.output n with staged := some l'.duty } else t) with
    budget := { s.budget with committed := s.budget.committed + l'.countedDraw - (s.load n).countedDraw } }

/-- The response to a fall (R111, R119): in DEFICIT with COMMITTED still above AVAILABLE nothing further; else DEFICIT is clear
and the restore pass runs. -/
def State.afterFall (s : State) : State :=
  if s.budget.deficit = true ∧ s.budget.available < s.budget.committed then s
  else ({ s with budget := { s.budget with deficit := false } } : State).restorePass

/-- The part once axis a has left motion (R110, R135, R137): its demand is given back, its courtesy load is unforced unless
another axis in motion names it, and the fall these make, if any, is answered. -/
def State.afterMotion (s : State) (a : AxisNo) : State :=
  let freed : State := { s with
    budget := { s.budget with committed := s.budget.committed - s.held a, heldDemand := s.budget.heldDemand.set a.val 0 } }
  let dark : State := match (s.axis a).courtesy with
    | some n =>
      if ∃ b, b ≠ a ∧ (s.axis b).inMotion = true ∧ (s.axis b).courtesy = some n then freed
      else freed.withLoad n (s.load n).toUnforced
    | none => freed
  if 0 < s.held a ∨ dark.budget.committed < freed.budget.committed then dark.afterFall else dark

/-- No present entry of the Interlock Table watches axis a, so that its changes reach no other axis (R165). -/
def State.Unwatched (s : State) (a : AxisNo) : Prop := ∀ p e, s.interlock p = some e → e.condition ≠ a

/-- The loads, the outputs and the budget of u are those of t. -/
def SameLoads (t u : State) : Prop := u.loads = t.loads ∧ u.outputs = t.outputs ∧ u.budget = t.budget

/-- What the end of a motion of axis a makes of the loads, the outputs and the budget, where no entry watches the axis. -/
def GivesBack (a : AxisNo) (s u : State) : Prop := s.Unwatched a → SameLoads (s.afterMotion a) u

/-- Shed order: load m is shed before load n (R104). -/
def State.ShedsFirst (s : State) (m n : LoadNo) : Prop :=
  (s.load n).shedRank < (s.load m).shedRank ∨ (s.load n).shedRank = (s.load m).shedRank ∧ n < m

/-- The relief of the loads of a list together (R104). -/
def State.reliefOf (s : State) (shed : List LoadNo) : Nat := (shed.map fun n => (s.load n).relief).sum

/-- From s to t the loads of `shed` are shed, in shed order out of those that may be, none passed over, each appended to the shed
list; their relief makes up what is `short`, and would not without the last of them (R103, R104, R109, R114). -/
structure ShedsInOrder (may : LoadNo → Prop) (short : Nat) (shed : List LoadNo) (s t : State) : Prop where
  allowed : ∀ n ∈ shed, may n
  order : shed.Pairwise s.ShedsFirst
  first : ∀ m n, may m → n ∈ shed → s.ShedsFirst m n → m ∈ shed
  enough : short ≤ s.reliefOf shed
  needed : ∀ kept n, shed = kept ++ [n] → s.reliefOf kept < short
  loads : ∀ n, t.load n = if n ∈ shed then (s.load n).toShed else s.load n
  outputs : ∀ n, t.output n = if n ∈ shed ∧ (s.load n).toShed.level ≠ (s.load n).level ∧ s.settle = none then
    { s.output n with staged := some (s.load n).toShed.duty } else s.output n
  list : t.budget.shedList = s.budget.shedList ++ shed
  notice : t.notices = { s.notices with shedChange := s.notices.shedChange || !shed.isEmpty }

/-- From the granted state g to u, axis a enters WARN: its courtesy load is forced to full, and no other load, no output, nothing
of the shed list and no notice differs; COMMITTED rises by the courtesy increment (R58, R110, R129). -/
structure EntersWarn (a : AxisNo) (g u : State) : Prop where
  loads : ∀ n, u.load n = if (g.axis a).courtesy = some n then (g.load n).toForced else g.load n
  outputs : ∀ n, u.output n = if (g.axis a).courtesy = some n ∧ (g.load n).level ≠ 1000 ∧ g.settle = none then
    { g.output n with staged := some (g.load n).toForced.duty } else g.output n
  committed : u.budget.committed = g.budget.committed + (match (g.axis a).courtesy with
    | some n => (g.load n).toForced.countedDraw - (g.load n).countedDraw | none => 0)
  budget : u.budget = { g.budget with committed := u.budget.committed }
  notices : u.notices = g.notices

/-! ### Laws -/

/-- R6: the Cabin Bus reply queue holds up to 4 replies. -/
def State.QueueLaw (s : State) : Prop := s.busReplies.length ≤ 4

/-- R21: up to 32 claim records are in use. -/
def State.ClaimRoomLaw (s : State) : Prop := s.claims.length ≤ 32

/-- R22: no load is covered by more than one live claim, and no axis is the target of more than one; with it, what R27
and R29 keep: no two live claims have the same target. -/
def State.CoverageLaw (s : State) : Prop :=
  (∀ n, (s.claims.filter (s.coversLoad n)).length ≤ 1)
    ∧ (∀ a : AxisNo, (s.claims.filter fun c => c.target == .axis a).length ≤ 1)
    ∧ (s.claims.map Claim.target).Nodup

/-- R41: level, set target and effective target lie in 0 to 1000; with it the range of SHED LEVEL (Table 3-1). -/
def State.LevelLaw (s : State) : Prop :=
  ∀ n, (s.load n).level ≤ 1000 ∧ (s.load n).setTarget ≤ 1000 ∧ (s.load n).effTarget ≤ 1000 ∧ (s.load n).shedLevel ≤ 1000

/-- R42, R43: EFFECTIVE TARGET and COUNTED DRAW are what the other fields of the load give. -/
def State.DerivedLaw (s : State) : Prop :=
  ∀ n, (s.load n).effTarget = (s.load n).effectiveTarget
    ∧ (s.load n).countedDraw = (s.load n).drawAt (max (s.load n).level (s.load n).effTarget)

/-- R53, R48: the set target of a SWITCH load is 0 or 1000 and its level is its effective target, or 0 in the settle interval of a
warm reset (R45); a NONE load is dark; and in the settle interval of a power-on reset every load is NONE (R178). -/
def State.KindLaw (s : State) : Prop :=
  (∀ n, (s.load n).kind = .switch →
    ((s.load n).setTarget = 0 ∨ (s.load n).setTarget = 1000)
      ∧ ((s.load n).level = (s.load n).effTarget
          ∨ (s.load n).level = 0 ∧ ∃ timer, s.settle = some { kind := .warm, timer := timer }))
    ∧ (∀ n, (s.load n).kind = .none → (s.load n).setTarget = 0 ∧ (s.load n).level = 0)
    ∧ ∀ timer, s.settle = some { kind := .powerOn, timer := timer } → ∀ n, (s.load n).kind = .none

/-- The level at which a fade record will end, undisturbed (R65). -/
def Fade.endLevel (f : Fade) (level : Nat) : Int :=
  let left : Nat := f.remaining * f.q + (f.acc + f.remaining * f.r) / f.n
  if f.rising then (level : Int) + left else (level : Int) - left

/-- A load after k steps on its own fade record, nothing else disturbing it (R64, R65). -/
def LoadRec.afterSteps : Nat → LoadRec → LoadRec
  | 0, l => l
  | k + 1, l =>
    match (l.afterSteps k).fade with
    | some f => (l.afterSteps k).stepFade f
    | none => l.afterSteps k

/-- R61, R65: a fade record stands on a DIM load that is not forced, R and ACC are below N, REMAINING is 1 to N, ACC stands
at N − REMAINING steps of R, and the steps left end at EFFECTIVE TARGET exactly. -/
def LoadRec.FadeSound (l : LoadRec) : Prop :=
  ∀ f, l.fade = some f →
    l.kind = .dim ∧ l.forced = false ∧ f.r < f.n ∧ f.acc < f.n ∧ 1 ≤ f.remaining ∧ f.remaining ≤ f.n
      ∧ (f.acc + f.remaining * f.r) % f.n = 0 ∧ f.endLevel l.level = l.effTarget

def State.FadeLaw (s : State) : Prop := ∀ n, (s.load n).FadeSound

/-- R80, R91: each scene names at most 12 loads, each once; each return stack holds 0 to 6 frames, and each frame names 1 to
12 distinct loads, all of that stack's space. -/
def State.StackLaw (s : State) : Prop :=
  (∀ v, (s.scene v).entries.length ≤ 12 ∧ ((s.scene v).entries.map Prod.fst).Nodup)
    ∧ ∀ p, (s.returnStack p).length ≤ 6
        ∧ ∀ f ∈ s.returnStack p,
            1 ≤ f.length ∧ f.length ≤ 12 ∧ (f.map Prod.fst).Nodup ∧ ∀ x ∈ f, (s.load x.1).space = p

/-- The demand of an axis in WARN, RUN or STOPPING, and 0 of any other (R99). -/
def AxisRec.movingDemand (ax : AxisRec) : Nat := if ax.inMotion then ax.demand else 0

/-- R99: COMMITTED is the sum of the counted draws of all loads plus the demands of the axes in WARN, RUN or STOPPING, and
HELD DEMAND is that demand. -/
def State.LedgerLaw (s : State) : Prop :=
  (∀ a, s.held a = (s.axis a).movingDemand) ∧ s.budget.committed = s.totalDraw + s.totalHeld

/-- R116: unless DEFICIT is set, COMMITTED does not exceed AVAILABLE. -/
def State.BudgetLaw (s : State) : Prop := s.budget.deficit = false → s.budget.committed ≤ s.budget.available

/-- R103: the shed list holds each load at most once, and exactly the loads whose SHED flag is set; these are not NONE and
have shed rank 1 to 7. -/
def State.ShedLaw (s : State) : Prop :=
  s.budget.shedList.Nodup ∧ (∀ n, n ∈ s.budget.shedList ↔ (s.load n).shed = true)
    ∧ ∀ n, (s.load n).shed = true → (s.load n).kind ≠ .none ∧ 1 ≤ (s.load n).shedRank ∧ (s.load n).shedRank ≤ 7

/-- Axis a is in WARN, RUN or STOPPING and names load n as its courtesy load (R137). -/
def State.Forces (s : State) (a : AxisNo) (n : LoadNo) : Prop :=
  (s.axis a).inMotion = true ∧ (s.axis a).courtesy = some n

/-- R137, R124: a load is forced exactly when it is the courtesy load of an axis in WARN, RUN or STOPPING, a forced load
stands at 1000, and a courtesy load is not of kind NONE. -/
def State.ForceLaw (s : State) : Prop :=
  (∀ n, (s.load n).forced = true ↔ ∃ a, s.Forces a n)
    ∧ (∀ n, (s.load n).forced = true → (s.load n).level = 1000 ∧ (s.load n).effTarget = 1000 ∧ (s.load n).fade = none)
    ∧ ∀ a n, (s.axis a).courtesy = some n → (s.load n).kind ≠ .none

/-- The axis is in WARN or RUN. -/
def AxisRec.driven (ax : AxisRec) : Bool := match ax.state with | .warn | .run => true | _ => false

/-- R140: an axis in WARN or RUN is the target of a live HOLD claim. -/
def State.HoldLaw (s : State) : Prop := ∀ a, (s.axis a).driven = true → ∃ c ∈ s.claims, c.target = .axis a

/-- R154: STALL COUNT lies in 0 to 8, and the axis is in LOCKOUT exactly when it is 8 or END REASON is NO_LOAD. -/
def AxisRec.LockoutSound (ax : AxisRec) : Prop :=
  ax.stallCount ≤ 8 ∧ (ax.state = .lockout ↔ ax.stallCount = 8 ∨ ax.endReason = .noLoad)

def State.LockoutLaw (s : State) : Prop := ∀ a, (s.axis a).LockoutSound

/-- R165: no axis is in WARN or RUN in a direction that a satisfied interlock entry blocks; and an axis in WARN has a
PENDING MOTION (Table 7-3). -/
def State.InterlockLaw (s : State) : Prop :=
  (∀ p e, s.interlock p = some e → s.entryStops e = false) ∧ ∀ a, (s.axis a).state = .warn → (s.axis a).pending.isSome

/-- R160: no entry watches its own subject. -/
def State.EntryLaw (s : State) : Prop := ∀ p e, s.interlock p = some e → e.condition ≠ e.subject

/-- Table 7-3: the signal channel of an axis is SOUNDING exactly in WARN. -/
def State.SoundingLaw (s : State) : Prop := ∀ a, (s.channel a).state = .sounding ↔ (s.axis a).state = .warn

/-- R121, R169, R179, R181: the level notices, the outputs of the axes and of the channels and the NOTICE line are what the
records give. -/
def State.OutputLaw (s : State) : Prop := s.driveOutputs = s

/-- Ranges of Table 7-1 and Table 7-2. -/
def AxisRec.InRange (ax : AxisRec) : Prop :=
  ax.demand ≤ 1500 ∧ 1 ≤ ax.creepSpeed ∧ ax.creepSpeed ≤ ax.runSpeed ∧ ax.runSpeed ≤ 255 ∧ ax.softHigh ≤ 16383
    ∧ ax.softLow < ax.softHigh ∧ 1 ≤ ax.warnCycles ∧ ax.warnCycles ≤ 15 ∧ ax.position ≤ 16383 ∧ ax.speed ≤ 255
    ∧ ax.runDistance ≤ 65535

def State.AxisRangeLaw (s : State) : Prop := ∀ a, (s.axis a).InRange

/-- The laws of the part, all together: what every step of the part keeps. -/
structure State.Lawful (s : State) : Prop where
  queue : s.QueueLaw
  claimRoom : s.ClaimRoomLaw
  coverage : s.CoverageLaw
  level : s.LevelLaw
  derived : s.DerivedLaw
  kind : s.KindLaw
  fade : s.FadeLaw
  stack : s.StackLaw
  ledger : s.LedgerLaw
  budget : s.BudgetLaw
  shed : s.ShedLaw
  force : s.ForceLaw
  hold : s.HoldLaw
  lockout : s.LockoutLaw
  interlock : s.InterlockLaw
  entry : s.EntryLaw
  sounding : s.SoundingLaw
  output : s.OutputLaw
  range : s.AxisRangeLaw

end Sys2Proof.Machine
end

