-- ==== Sys2Proof/Certificates/Slice0/Obligations.lean ====
section
/-! DEFINITION. Certificates/Slice0/Obligations.lean: the statements for the provers. A request is named by the bytes of its
body, so that each statement holds from the wire to the records; `State.Takes` says that the Dispatcher lets it through to
its owner, and `State.answered` that its one reply has been put on the port it came by. -/

open Sys2Proof Sys2Proof.Machine

/-! ### The queue and the clock -/

/-- One step takes the command at the front of the queue and does what `exec` says, the rest of the queue waiting. -/
def Obligations.step_takes_the_front_command : Prop :=
  ∀ (s : State) (c : Instr) (rest : List Instr), s.pending = c :: rest → step s = exec c { s with pending := rest }

/-- MODEL'S CHOICE (log entries 2 and 3). With no command waiting, an expiry whose timer has run out is taken, which one
being free; with none due, every running timer of the part loses one millisecond and nothing else changes. -/
def Obligations.step_with_no_command_runs_the_clock : Prop :=
  ∀ s : State, s.pending = [] →
    (s.due ≠ [] → ∃ i ∈ s.due, ∃ k, step s = exec i { s with tieCount := k })
      ∧ (s.due = [] → ∃ t, step s = .next t
          ∧ t = { s with
              claims := t.claims, loads := t.loads, outputs := t.outputs, axes := t.axes, channels := t.channels
              settle := t.settle }
          ∧ t.claims = s.claims.map (fun c =>
              { c with lease := match c.lease with | .permanent => .permanent | .left ms => .left (ms - 1) })
          ∧ (∀ n, t.load n = { s.load n with
              fade := (s.load n).fade.map fun f => { f with stepTimer := f.stepTimer - 1 } })
          ∧ (∀ n, t.output n = { s.output n with period := (s.output n).period.map (· - 1) })
          ∧ (∀ a, t.axis a = { s.axis a with
              restRemaining := (s.axis a).restRemaining.map (· - 1), rampTimer := (s.axis a).rampTimer.map (· - 1)
              brakeTimer := (s.axis a).brakeTimer.map (· - 1), confirmTimer := (s.axis a).confirmTimer.map (· - 1)
              pulseWatch := (s.axis a).pulseWatch.map (· - 1)
              overCurrentTimer := (s.axis a).overCurrentTimer.map (· - 1) })
          ∧ (∀ a, t.channel a = { s.channel a with
              markTimer := (s.channel a).markTimer.map (· - 1), cycleTimer := (s.channel a).cycleTimer.map (· - 1) })
          ∧ t.settle = s.settle.map fun x => { x with timer := x.timer.map (· - 1) })
      ∧ (∀ x, .leaseExpiry x ∈ s.due ↔ ∃ c ∈ s.claims, c.target = x ∧ c.lease = .left 0)
      ∧ (∀ n, .fadeStep n ∈ s.due ↔ ∃ f, (s.load n).fade = some f ∧ f.stepTimer = 0)
      ∧ (∀ n, .outputPeriodEnd n ∈ s.due ↔ (s.output n).period = some 0)
      ∧ (∀ a, (.rampExpiry a ∈ s.due ↔ (s.axis a).rampTimer = some 0)
          ∧ (.brakeSettleExpiry a ∈ s.due ↔ (s.axis a).brakeTimer = some 0)
          ∧ (.confirmWindowExpiry a ∈ s.due ↔ (s.axis a).confirmTimer = some 0)
          ∧ (.pulseWatchExpiry a ∈ s.due ↔ (s.axis a).pulseWatch = some 0)
          ∧ (.overCurrentExpiry a ∈ s.due ↔ (s.axis a).overCurrentTimer = some 0)
          ∧ (.restExpiry a ∈ s.due ↔ (s.axis a).restRemaining = some 0)
          ∧ (.signalMarkEnd a ∈ s.due ↔ (s.channel a).markTimer = some 0)
          ∧ (.signalCycleEnd a ∈ s.due ↔ (s.channel a).cycleTimer = some 0))
      ∧ (.settleExpiry ∈ s.due ↔ ∃ k, s.settle = some { kind := k, timer := some 0 })

/-! ### Frames and bodies -/

/-- Every request body, written byte by byte as Table 1-3 lays it out, is read back with every field at the value sent; and
a body of another length, or one with a class byte or an enumeration code that Tables 1-2 and 1-4 do not list, is not read. -/
def Obligations.bodies_read_back : Prop :=
  (∀ x : RawTarget, x.value < 65536 →
    readTargetBody (targetBytes x) = some (x, ())
      ∧ (∀ v, v < 65536 → readTargetWord (targetWordBody x v) = some (x, v))
      ∧ (∀ level fade, level < 65536 → fade < 65536 → readSetLevel (setLevelBody x level fade) = some (x, (level, fade)))
      ∧ (∀ k lease, lease < 65536 → readClaim (claimBody x k lease) = some (x, (k, lease)))
      ∧ (∀ d p, p < 65536 → readMove (moveBody x d p) = some (x, (d, p)))
      ∧ (∀ p : Pattern, p.primaryMark < 256 → p.primarySpace < 256 → p.secondaryMark < 256 → p.secondarySpace < 256 →
          p.gapCycles < 256 → readWriteSignal (targetBytes x ++ patternBytes p) = some (x, p))
      ∧ (∀ c : LoadConfig, c.shedRank < 256 → c.shedLevel < 65536 → c.ratedPower < 65536 → c.minDuty < 256 →
          readWriteLoad (targetBytes x ++ loadConfigBytes c)
            = some (x, ⟨c.kind, c.space.val, c.groupMask, c.shedRank, c.shedLevel, c.ratedPower, c.minDuty⟩))
      ∧ (∀ c : AxisConfig, c.demand < 65536 → c.runSpeed < 256 → c.creepSpeed < 256 → c.accelStep < 256 →
          c.decelStep < 256 → c.approach < 65536 → c.softLow < 65536 → c.softHigh < 65536 → c.stallWindow < 256 →
          c.overCurrent < 256 → c.noLoad < 256 → c.warnCycles < 256 →
          readWriteAxis (targetBytes x ++ axisConfigBytes c)
            = some (x, { courtesy := (c.courtesy.map (·.val)).getD 255, config := c }))
      ∧ ∀ fade (es : List (Nat × Nat)), fade < 65536 → es.length < 256 → (∀ e ∈ es, e.1 < 256 ∧ e.2 < 65536) →
          readWriteScene (targetBytes x ++ sceneBytes fade es) = some (x, ⟨fade, es⟩))
    ∧ (∀ v, v < 65536 → readSetBudget (bytesOf v) = some v)
    ∧ (∀ (a hi lo x : Byte) (present : Bool) (r : Rank),
        readWriteStation [a, if present then 1 else 0, BitVec.ofNat 8 r.code, hi, lo, x]
          = some ⟨a.toNat, present, r, hi ++ lo, x⟩)
    ∧ (∀ (i p s d c r t1 t0 : Byte) (present : Bool) (dir : BlockDir) (rel : Relation),
        p = (if present then 1 else 0) → d = (match dir with | .extend => 1 | .retract => 2 | .any => 3) →
        r = (match rel with | .below => 1 | .above => 2 | .notParked => 3) →
        readWriteInterlock [i, p, s, d, c, r, t1, t0]
          = some ⟨i.toNat, present, s.toNat, dir, c.toNat, rel, t1.toNat * 256 + t0.toNat⟩)
    ∧ (∀ c hi lo : Byte, readTarget c hi lo = none ↔ c = 0 ∨ 8 < c.toNat)
    ∧ (∀ b : Byte, readClaimKind b = none ↔ b ≠ 1 ∧ b ≠ 2)
    ∧ (∀ b : Byte, readDirection b = none ↔ b ≠ 1 ∧ b ≠ 2)
    ∧ (∀ b : Byte, readPresent b = none ↔ b ≠ 0 ∧ b ≠ 1)
    ∧ (∀ b : Byte, readRank b = none ↔ b = 0 ∨ 4 < b.toNat)
    ∧ (∀ b : Byte, readBlockDir b = none ↔ b = 0 ∨ 3 < b.toNat)
    ∧ (∀ b : Byte, readRelation b = none ↔ b = 0 ∨ 3 < b.toNat)
    ∧ (∀ b : Byte, readLoadKind b = none ↔ 2 < b.toNat)
    ∧ (∀ b : Byte, readMode b = none ↔ b ≠ 1 ∧ b ≠ 2)
    ∧ (∀ body : List Byte,
        (body.length ≠ 3 → readTargetBody body = none) ∧ (body.length ≠ 5 → readTargetWord body = none)
        ∧ (body.length ≠ 7 → readSetLevel body = none) ∧ (body.length ≠ 6 → readClaim body = none)
        ∧ (body.length ≠ 6 → readMove body = none) ∧ (body.length ≠ 6 → readWriteStation body = none)
        ∧ (body.length ≠ 19 → readWriteLoad body = none) ∧ (body.length ≠ 20 → readWriteAxis body = none)
        ∧ (body.length ≠ 8 → readWriteInterlock body = none) ∧ (body.length ≠ 9 → readWriteSignal body = none)
        ∧ (body.length ≠ 2 → readSetBudget body = none) ∧ (readEmpty body = none ↔ body ≠ [])
        ∧ ((∀ count, body[5]? = some count → body.length ≠ 6 + 3 * count.toNat) → readWriteScene body = none))
    ∧ (∀ (c : Byte) (rest : List Byte), c = 0 ∨ 8 < c.toNat →
        readTargetBody (c :: rest) = none ∧ readTargetWord (c :: rest) = none ∧ readSetLevel (c :: rest) = none
        ∧ readClaim (c :: rest) = none ∧ readMove (c :: rest) = none ∧ readWriteLoad (c :: rest) = none
        ∧ readWriteAxis (c :: rest) = none ∧ readWriteSignal (c :: rest) = none ∧ readWriteScene (c :: rest) = none)
    ∧ ∀ (b0 b1 b2 b : Byte) (rest : List Byte),
        (readClaimKind b = none → readClaim (b0 :: b1 :: b2 :: b :: rest) = none)
        ∧ (readDirection b = none → readMove (b0 :: b1 :: b2 :: b :: rest) = none)
        ∧ (readLoadKind b = none → readWriteLoad (b0 :: b1 :: b2 :: b :: rest) = none)
        ∧ (readPresent b = none →
            readWriteStation (b0 :: b :: rest) = none ∧ readWriteInterlock (b0 :: b :: rest) = none)
        ∧ (readRank b = none → readWriteStation (b0 :: b1 :: b :: rest) = none)
        ∧ (readBlockDir b = none → readWriteInterlock (b0 :: b1 :: b2 :: b :: rest) = none)
        ∧ (∀ b3 b4 : Byte, readRelation b = none → readWriteInterlock (b0 :: b1 :: b2 :: b3 :: b4 :: b :: rest) = none)
        ∧ ∀ b3 b4 b5 b6 : Byte, readMode b = none →
            readWriteSignal (b0 :: b1 :: b2 :: b3 :: b4 :: b5 :: b6 :: b :: rest) = none

/-- A frame laid out as Table 1-1, with the check of R2, is received; one of the wrong length, with a wrong check, or on the
bus with another destination or source, is dropped, and dropping it empties the receive buffer and does nothing else. -/
def Obligations.frames_are_received_or_dropped : Prop :=
  (∀ (d src kind : Byte) (body : List Byte), body.length ≤ 60 →
    readFrame .link (frameBytes d src kind body) = some ⟨0, kind, body⟩
      ∧ (∀ o : Origin, o ≠ 0 → src = BitVec.ofNat 8 o.val →
          readFrame .bus (frameBytes 63 src kind body) = some ⟨o, kind, body⟩)
      ∧ (d ≠ 63 ∨ src = 0 ∨ 62 < src.toNat → readFrame .bus (frameBytes d src kind body) = none))
    ∧ (∀ (p : Port) (bytes : List Byte), bytes.length < 6 ∨ 66 < bytes.length → readFrame p bytes = none)
    ∧ (∀ (p : Port) (d src kind length : Byte) (rest : List Byte),
        60 < length.toNat ∨ rest.length ≠ length.toNat + 2
          ∨ rest.drop length.toNat
              ≠ bytesOf (crc16 (d :: src :: kind :: length :: rest.take length.toNat)).toNat →
        readFrame p (d :: src :: kind :: length :: rest) = none)
    ∧ crc16 [0x31#8, 0x32#8, 0x33#8, 0x34#8, 0x35#8, 0x36#8, 0x37#8, 0x38#8, 0x39#8] = 0x29B1#16
    ∧ ∀ (s : State) (bytes : List Byte),
        (readFrame .bus bytes = none → exec (.frameDropped .bus bytes) s = .next { s with busRx := [] })
          ∧ (readFrame .link bytes = none → exec (.frameDropped .link bytes) s = .next { s with linkRx := [] })

/-! ### Deciding a request -/

/-- A request whose body fits a frame and whose port has room is decided in its event: one reply, of kind + 128, goes to the
port it arrived by, addressed to its origin, and the other port has none. Without room it is dropped and changes nothing. -/
def Obligations.a_decided_request_gets_one_reply : Prop :=
  ∀ (s : State) (k : ReqKind) (o : Origin) (body : List Byte),
    (s.hasRoom o = true → body.length ≤ 60 → ∃ b t, exec (k.request o body) s = .next t
      ∧ (o ≠ 0 → t.busReplies = s.busReplies
            ++ [{ destination := BitVec.ofNat 8 o.val, source := 63, kind := k.code + 128, body := b }]
          ∧ t.linkReply = s.linkReply)
      ∧ (o = 0 → t.linkReply = some { destination := 0, source := 0, kind := k.code + 128, body := b }
          ∧ t.busReplies = s.busReplies))
      ∧ (s.hasRoom o = false ∨ 60 < body.length → exec (k.request o body) s = .next (s.endReceipt o))
      ∧ (s.hasRoom o = true ↔ if o = 0 then s.linkReply = none else s.busReplies.length < 4)

/-- A request refused with a code from 16 to 32 changes no record: beside its own reply, the part is as it was. -/
def Obligations.a_refused_request_changes_no_record : Prop :=
  ∀ (s : State) (k : ReqKind) (o : Origin) (body : List Byte), s.OutputLaw → s.hasRoom o = true → body.length ≤ 60 →
    ∃ b t, exec (k.request o body) s = .next t ∧ (if o = 0 then t.linkReply else t.busReplies.getLast?) = some (replyTo o k.code b)
      ∧ (16 ≤ ReplyCode.number b.code → t = (s.endReceipt o).postReply o k.code b)

/-- The settle interval refuses every request, of a listed kind or not, with NOT_READY; after it a station with no entry in
the Station Table is refused with UNKNOWN_STATION, and the Management Link is admitted without a lookup. -/
def Obligations.settle_interval_and_admission : Prop :=
  ∀ (s : State) (o : Origin) (body : List Byte), s.hasRoom o = true → body.length ≤ 60 →
    (∀ k : ReqKind,
      (s.settle ≠ none →
        exec (k.request o body) s = .next ((s.endReceipt o).answered o k.code (.plain .notReady)))
      ∧ (s.settle = none → o ≠ 0 → s.station o = none →
        exec (k.request o body) s = .next ((s.endReceipt o).answered o k.code (.plain .unknownStation)))
      ∧ (s.settle = none → o = 0 → ∃ b t, exec (k.request o body) s = .next t
          ∧ t.linkReply = some (replyTo o k.code b) ∧ b.code ≠ .notReady ∧ b.code ≠ .unknownStation))
    ∧ ∀ kind : Byte, ReqKind.ofByte kind = none →
      (s.settle ≠ none →
        exec (.unknownKind o kind body) s = .next ((s.endReceipt o).answered o kind (.plain .notReady)))
      ∧ (s.settle = none → o ≠ 0 → s.station o = none →
        exec (.unknownKind o kind body) s = .next ((s.endReceipt o).answered o kind (.plain .unknownStation)))

/-- The checks of an admitted request up to its target, in their order: the kind, the origin, the body, the run state. -/
def Obligations.kind_origin_body_and_run_state : Prop :=
  ∀ (s : State) (o : Origin) (body : List Byte), s.settle = none → s.hasRoom o = true → body.length ≤ 60 →
    (o = 0 ∨ s.station o ≠ none) →
    (∀ kind : Byte, (∀ k : ReqKind, k.code ≠ kind) →
      exec (.unknownKind o kind body) s = .next ((s.endReceipt o).answered o kind (.plain .badRequest)))
    ∧ ∀ k : ReqKind,
      let refused := fun c : ReplyCode =>
        exec (k.request o body) s = .next ((s.endReceipt o).answered o k.code (.plain c))
      if 16 ≤ k.code.toNat ∧ o ≠ 0 then refused .notPermitted
      else if k.bodyOk body = false then refused .badRequest
      else if s.device.runState = .halted ∧ o ≠ 0 ∧ k ≠ .query then refused .notReady
      else if s.device.runState = .running ∧ (k = .writeLoad ∨ k = .writeAxis ∨ k = .writeInterlock) then
        refused .wrongState
      else ∃ b t, exec (k.request o body) s = .next t
        ∧ (if o = 0 then t.linkReply else t.busReplies.getLast?) = some (replyTo o k.code b)
        ∧ b.code ≠ .notReady ∧ b.code ≠ .wrongState

/-- The checks of the target, in their order: its class, its value, an unconfigured load, the station's permission. -/
def Obligations.targets_are_checked : Prop :=
  ∀ (s : State) (k : ReqKind) (o : Origin) (body : List Byte) (x : RawTarget), s.Takes k o → body.length ≤ 60 →
    k.bodyOk body = true → k.classes ≠ [] → x.value < 65536 → body.take 3 = targetBytes x →
    let refused := fun c : ReplyCode =>
      exec (k.request o body) s = .next ((s.endReceipt o).answered o k.code (.plain c))
    (x.cls ∉ k.classes → refused .badTarget)
      ∧ (x.cls ∈ k.classes →
          (x.typed = none → refused .badTarget)
          ∧ (∀ n, x.typed = some (.load n) →
              ((s.load n).kind = .none → k ≠ .writeLoad → k ≠ .renew → k ≠ .release → refused .badTarget)
              ∧ ((s.load n).kind ≠ .none ∨ k = .renew ∨ k = .release → s.permitsSpace o (s.load n).space = false →
                  refused .notPermitted))
          ∧ (∀ p, x.typed = some (.space p) → k ≠ .setLevel → s.permitsSpace o p = false → refused .notPermitted)
          ∧ (∀ v : SceneNo, x.typed = some (.scene v) → ∀ p : SpaceNo, p.val = v.val / 8 → s.permitsSpace o p = false →
              refused .notPermitted)
          ∧ (∀ a, x.typed = some (.axis a) → s.permitsAxis o a = false → refused .notPermitted))

/-- The oldest reply of the Cabin Bus queue goes out when the line is idle; the reply in the slot of the Management Link
leaves when it has been read; with nothing waiting nothing is sent. -/
def Obligations.replies_leave_their_ports : Prop :=
  ∀ s : State, s.OutputLaw →
    (∀ r rest, s.busReplies = r :: rest → exec .replySent s
        = .next { s with busReplies := rest, busTx := frameBytes r.destination r.source r.kind r.body.bytes })
      ∧ (s.busReplies = [] → exec .replySent s = .next s)
      ∧ (∀ r, s.linkReply = some r → exec .replyRead s
          = .next { s with linkReply := none, linkTx := frameBytes r.destination r.source r.kind r.body.bytes })
      ∧ (s.linkReply = none → exec .replyRead s = .next s)

/-- LOAD, SPACE, ALL and GROUP targets resolve to their loads, each once in ascending number, a group by the one slot of its
tag; a SPACE, ALL or GROUP target of SET_LEVEL that resolves to no load is refused with BAD_TARGET. -/
def Obligations.targets_resolve_to_loads : Prop :=
  ∀ s : State,
    (∀ n, s.resolve (.load n) = [n])
      ∧ (∀ p n, n ∈ s.resolve (.space p) ↔ (s.load n).space = p ∧ (s.load n).kind ≠ .none)
      ∧ (∀ n, n ∈ s.resolve .all ↔ (s.load n).kind ≠ .none)
      ∧ (∀ tag n, n ∈ s.resolve (.group tag)
          ↔ (s.load n).kind ≠ .none ∧ (s.load n).groupMask.getLsbD (tag * 40503 % 65536 / 1024) = true)
      ∧ (∀ tag : Nat, tag * 40503 % 65536 / 1024 ≤ 63)
      ∧ (∀ t, (s.resolve t).Pairwise (· < ·))
      ∧ ∀ (o : Origin) (x : RawTarget) (t : Target) (level fade : Nat), level < 65536 → fade < 65536 →
          s.Takes .setLevel o → x.Names t → x.cls = .space ∨ x.cls = .all ∨ x.cls = .group → s.resolve t = [] →
          exec (.setLevel o (setLevelBody x level fade)) s
            = .next ((s.endReceipt o).answered o ReqKind.setLevel.code (.plain .badTarget))

/-! ### Loads, fades, outputs -/

/-- EFFECTIVE TARGET and COUNTED DRAW by the tables of R42 and R43; the draw of a DIM load is rounded up. -/
def Obligations.effective_target_and_counted_draw : Prop :=
  ∀ l : LoadRec,
    (l.kind = .none → l.effectiveTarget = 0)
      ∧ (l.kind ≠ .none → l.forced = true → l.effectiveTarget = 1000)
      ∧ (l.kind = .dim → l.forced = false → l.shed = true → l.effectiveTarget = min l.setTarget l.shedLevel)
      ∧ (l.kind = .switch → l.forced = false → l.shed = true →
          l.effectiveTarget = if min l.setTarget l.shedLevel = 1000 then 1000 else 0)
      ∧ (l.kind ≠ .none → l.forced = false → l.shed = false → l.effectiveTarget = l.setTarget)
      ∧ ∀ m,
          (l.kind = .none → l.drawAt m = 0)
          ∧ (l.kind = .switch → l.drawAt m = if 0 < m then l.ratedPower else 0)
          ∧ (l.kind = .dim → l.ratedPower * m ≤ 1000 * l.drawAt m ∧ 1000 * l.drawAt m < l.ratedPower * m + 1000)

/-- What a new SET TARGET, with a fade of N steps, makes of a load's record: a SWITCH load follows at once, a FORCED load
stays as it stands, a DIM load fades from its present level, at once where N is 0; and nothing else of the record changes. -/
def Obligations.a_new_set_target_in_the_record : Prop :=
  ∀ (l : LoadRec) (target steps : Nat),
    let e := ({ l with setTarget := target } : LoadRec).effectiveTarget
    let distance := if l.level < e then e - l.level else l.level - e
    let record := fun (level : Nat) (fade : Option Fade) =>
      { l with setTarget := target, effTarget := e, level := level, fade := fade, countedDraw := l.drawAt (max level e) }
    (l.kind = .switch → l.withSetTarget target steps = record e l.fade)
      ∧ (l.kind = .none ∨ l.kind = .dim ∧ l.forced = true → l.withSetTarget target steps = record l.level l.fade)
      ∧ (l.kind = .dim → l.forced = false →
          (e = l.level → l.withSetTarget target steps = record l.level none)
          ∧ (e ≠ l.level → steps = 0 → l.withSetTarget target steps = record e none)
          ∧ (e ≠ l.level → 0 < steps → l.withSetTarget target steps = record l.level (some
              { rising := decide (l.level < e), q := distance / steps, r := distance % steps, n := steps
                remaining := steps, acc := 0, stepTimer := 20 })))

/-- SET_LEVEL on one load. Where another origin's claim of equal or higher rank covers the load, it is refused with CLAIMED and
the rank recorded in the claim. Else the level asked, clamped, is limited by HEADROOM if it is a raise and
never below the present SET TARGET; the reply counts the load; where the draw does not fall, or no load is shed, nothing else
of the loads and the budget moves, and DEFICIT is left only by a fall within AVAILABLE. Where the draw falls, the restore pass runs
unless DEFICIT stands (R111). -/
def Obligations.set_level_on_one_load : Prop :=
  ∀ (s : State) (o : Origin) (n : LoadNo) (level fade : Nat), level < 65536 → fade < 65536 → s.Takes .setLevel o →
    (s.load n).kind ≠ .none → s.permitsSpace o (s.load n).space = true →
    (s.CoverageLaw → ∀ c ∈ s.claims, (c.target = .load n ∨ c.target = .space (s.load n).space) → c.holder ≠ o →
      (s.rankOf o).code ≤ c.rank.code →
      exec (.setLevel o (setLevelBody (Target.load n).raw level fade)) s
        = .next ((s.endReceipt o).answered o ReqKind.setLevel.code (.claimed c.rank)))
    ∧ ((∀ c ∈ s.claims, (c.target = .load n ∨ c.target = .space (s.load n).space) →
        c.holder = o ∨ c.rank.code < (s.rankOf o).code) →
    let l := s.load n
    let asked := if l.kind = .switch then (if 0 < level then 1000 else 0) else min level 1000
    let allowed := l.countedDraw + (if s.budget.deficit then 0 else s.budget.available - s.budget.committed)
    let limit :=
      if l.kind = .switch then (if l.ratedPower ≤ allowed then 1000 else l.setTarget)
      else if l.ratedPower = 0 then asked else min asked (allowed * 1000 / l.ratedPower)
    let target := if l.setTarget < asked then max limit l.setTarget else asked
    let l' := l.withSetTarget target (min fade 600 * 5)
    ∃ t, exec (.setLevel o (setLevelBody (Target.load n).raw level fade)) s
        = .next (t.answered o ReqKind.setLevel.code
            (if target = asked then .counts .done 1 0 0 else .counts .doneLimited 0 1 0))
      ∧ OnlyLoads (s.endReceipt o) t ∧ SameConfigs s t
      ∧ (∀ m, (t.load m).setTarget = if m = n then target else (s.load m).setTarget)
      ∧ (∀ m, (t.load m).forced = (s.load m).forced)
      ∧ (l.countedDraw ≤ l'.countedDraw ∨ s.budget.shedList = [] →
          (∀ m, t.load m = if m = n then l' else s.load m)
          ∧ (∀ m, t.output m = if m = n ∧ l'.level ≠ l.level then { s.output m with staged := some l'.duty } else s.output m)
          ∧ t.notices = s.notices
          ∧ let c := s.budget.committed + l'.countedDraw - l.countedDraw
            t.budget = { s.budget with
              committed := c
              deficit := s.budget.deficit && !(decide (l'.countedDraw < l.countedDraw) && decide (c ≤ s.budget.available)) })
      ∧ (l'.countedDraw < l.countedDraw → t = ((s.endReceipt o).withLoad n l').afterFall))

/-- SET_LEVEL on a GROUP, SPACE or ALL target: locked loads are skipped, each other load of the filtered set takes the level
asked or is limited between its old SET TARGET and that level, the three counts add up, and no other load's SET TARGET moves. -/
def Obligations.set_level_on_many_loads : Prop :=
  ∀ (s : State) (o : Origin) (x : RawTarget) (t : Target) (level fade : Nat), level < 65536 → fade < 65536 →
    s.Takes .setLevel o → x.Names t → x.cls = .space ∨ x.cls = .all ∨ x.cls = .group →
    let chosen := (s.resolve t).filter fun n => s.permitsSpace o (s.load n).space
    let reached := chosen.filter fun n => (s.lockAgainst o n).isNone
    let asked := fun n => if (s.load n).kind = .switch then (if 0 < level then 1000 else 0) else min level 1000
    (chosen = [] → exec (.setLevel o (setLevelBody x level fade)) s
        = .next ((s.endReceipt o).answered o ReqKind.setLevel.code (.plain .badTarget)))
      ∧ (chosen ≠ [] → ∃ u,
          let applied := (reached.filter fun n => (u.load n).setTarget == asked n).length
          let limited := reached.length - applied
          let skipped := chosen.length - reached.length
          exec (.setLevel o (setLevelBody x level fade)) s
            = .next (u.answered o ReqKind.setLevel.code (.counts
                (if 0 < skipped then .donePartial else if 0 < limited then .doneLimited else .done) applied limited skipped))
          ∧ OnlyLoads (s.endReceipt o) u ∧ SameConfigs s u ∧ (∀ n, (u.load n).forced = (s.load n).forced)
          ∧ (∀ n, n ∉ reached → (u.load n).setTarget = (s.load n).setTarget)
          ∧ ∀ n ∈ reached, (u.load n).setTarget = asked n
              ∨ (s.load n).setTarget ≤ (u.load n).setTarget ∧ (u.load n).setTarget < asked n)

/-- A fade of N steps that no event disturbs: after k steps ACC, REMAINING and LEVEL are where R65 places them, each step moves
the level by Q or Q + 1 toward EFFECTIVE TARGET, at k = N the level is there exactly, and no record is left. -/
def Obligations.a_fade_lands_on_its_target : Prop :=
  ∀ (l : LoadRec) (steps : Nat), l.kind = .dim → l.forced = false → l.level ≠ l.effTarget → 0 < steps →
    let rising := decide (l.level < l.effTarget)
    let distance := if l.level < l.effTarget then l.effTarget - l.level else l.level - l.effTarget
    let q := distance / steps
    let r := distance - q * steps
    let record := fun (k : Nat) =>
      ({ rising := rising, q := q, r := r, n := steps, remaining := steps - k, acc := k * r % steps, stepTimer := 20 } : Fade)
    l.startFade steps = { l with fade := some (record 0) }
      ∧ (∀ k, 1 ≤ k → k ≤ steps →
          ((l.startFade steps).afterSteps k).level
            = (if l.level < l.effTarget then l.level + (k * q + k * r / steps) else l.level - (k * q + k * r / steps)))
      ∧ (∀ k, k < steps → ((l.startFade steps).afterSteps k).fade = some (record k))
      ∧ (∀ k, k < steps →
          let a := ((l.startFade steps).afterSteps k).level
          let b := ((l.startFade steps).afterSteps (k + 1)).level
          let move := if l.level < l.effTarget then b - a else a - b
          (if l.level < l.effTarget then a ≤ b ∧ b ≤ l.effTarget else b ≤ a ∧ l.effTarget ≤ b)
            ∧ (move = q ∨ move = q + 1) ∧ move ≤ (distance + steps - 1) / steps)
      ∧ (l.startFade steps).afterSteps steps = { l with level := l.effTarget, fade := none }

/-- FADE_STEP: the level moves by Q, and by one more where ACC carries, REMAINING falls, the record goes with its last step, the
duty is staged where the level moved, and the draw is counted afresh; a rising step leaves COMMITTED as it was, and after a step
that lowers it the restore pass runs unless DEFICIT stands (R111). Without a
fade record, or with time left on its step timer, nothing happens; so the expiry taken after an event that started a fade on a DIM
load does not happen (R72).
Model's choice (log entry 4): the expiry command of a timer with time left changes nothing. -/
def Obligations.fade_step_event : Prop :=
  ∀ (s : State) (n : LoadNo),
    ((∀ f, (s.load n).fade = some f → f.stepTimer ≠ 0) → exec (.fadeStep n) s = .next s.driveOutputs)
      ∧ (∀ (l : LoadRec) (steps : Nat), l.kind = .dim → l.forced = false → s.load n = l.startFade steps →
          exec (.fadeStep n) s = .next s.driveOutputs)
      ∧ ∀ f, (s.load n).fade = some f → f.stepTimer = 0 → (s.load n).FadeSound →
          (s.load n).countedDraw = (s.load n).drawAt (max (s.load n).level (s.load n).effTarget) →
          let l := s.load n
          let carry := f.n ≤ f.acc + f.r
          let move := f.q + (if carry then 1 else 0)
          let level := if f.rising then l.level + move else l.level - move
          let l' : LoadRec := { l with
            level := level
            fade := if f.remaining = 1 then none else some { f with
              acc := if carry then f.acc + f.r - f.n else f.acc + f.r, remaining := f.remaining - 1, stepTimer := 20 }
            countedDraw := l.drawAt (max level l.effTarget) }
          ∃ t, exec (.fadeStep n) s = .next t.driveOutputs ∧ OnlyLoads s t ∧ SameConfigs s t
            ∧ (∀ m, (t.load m).setTarget = (s.load m).setTarget ∧ (t.load m).forced = (s.load m).forced)
            ∧ (f.rising = true → t.budget = s.budget ∧ l'.countedDraw = l.countedDraw)
            ∧ (l'.countedDraw < l.countedDraw → t = (s.withLoad n l').afterFall)
            ∧ (f.rising = true ∨ l'.countedDraw = l.countedDraw ∨ s.budget.shedList = [] →
                (∀ m, t.load m = if m = n then l' else s.load m)
                ∧ t.notices = s.notices ∧ t.budget.committed = s.budget.committed + l'.countedDraw - l.countedDraw
                ∧ ∀ m, t.output m
                    = if m = n ∧ level ≠ l.level ∧ s.settle = none then { s.output m with staged := some l'.duty }
                      else s.output m)

/-- The duty of a level by Table 4-3, its base rounded to the nearest whole number with a half up, never above 4095; and the end
of an output period, where it has run out, makes the staged duty live.
Model's choice (log entry 4): the end of a period that does not run, or that has time left, changes nothing. -/
def Obligations.output_duty_and_period : Prop :=
  (∀ l : LoadRec,
    (l.kind = .none → l.duty = 0) ∧ (l.kind = .switch → l.level = 0 → l.duty = 0)
      ∧ (l.kind = .switch → l.level = 1000 → l.duty = 4095) ∧ (l.kind = .dim → l.level = 0 → l.duty = 0)
      ∧ (l.kind = .dim → 1 ≤ l.level → l.level ≤ 1000 →
          let d := (l.level * l.level * 4095 + 500000) / 1000000
          l.duty = (if l.minDuty ≤ d then d else l.minDuty) ∧ d ≤ 4095 ∧ (d = 0 ↔ l.level ≤ 11) ∧ (l.level = 1000 → d = 4095)
            ∧ ∀ m, l.level ≤ m → m ≤ 1000 → l.duty ≤ ({ l with level := m } : LoadRec).duty))
    ∧ ∀ (s : State) (n : LoadNo),
        exec (.outputPeriodEnd n) s
          = .next (State.driveOutputs (
              if (s.output n).period ≠ some 0 then s
              else s.setOutput n
                { live := (match (s.output n).staged with | some d => d | none => (s.output n).live)
                  staged := none, period := some 1 }))

/-- What a shed, a restore, a force and an unforce make of a load's record: a shed cuts a level above the new effective target at
once and refades a rise over its remaining steps; a restore and the unforce of a load not shed fade over 50 steps; a force holds
the load at 1000; a SWITCH load follows at once; COUNTED DRAW is counted afresh. With them, relief and what makes a load
sheddable (R104). -/
def Obligations.shed_restore_force_unforce_in_the_record : Prop :=
  ∀ l : LoadRec,
    let counted := fun x : LoadRec => { x with countedDraw := x.drawAt (max x.level x.effTarget) }
    let fading := fun (x : LoadRec) (steps : Nat) => x.startFade steps
    let shed := { l with shed := true, effTarget := ({ l with shed := true } : LoadRec).effectiveTarget }
    let restored := { l with shed := false, effTarget := ({ l with shed := false } : LoadRec).effectiveTarget }
    let freed := { l with forced := false, effTarget := ({ l with forced := false } : LoadRec).effectiveTarget }
    (l.kind = .dim →
      (shed.effTarget < l.effTarget → shed.effTarget < l.level →
        l.toShed = counted { shed with level := shed.effTarget, fade := none })
      ∧ (shed.effTarget < l.effTarget → l.level ≤ shed.effTarget → ∀ f, l.fade = some f → l.forced = false →
        l.toShed = counted (fading shed f.remaining))
      ∧ (shed.effTarget = l.effTarget → l.toShed = counted shed)
      ∧ (l.forced = false → l.toRestored = counted (fading restored 50))
      ∧ (l.forced = true → l.toRestored = counted restored)
      ∧ (l.forced = true → l.shed = true → l.toUnforced = counted { freed with level := freed.effTarget, fade := none })
      ∧ (l.forced = true → l.shed = false → l.toUnforced = counted (fading freed 50)))
    ∧ (l.kind = .switch →
      l.toShed = counted { shed with level := shed.effTarget } ∧ l.toRestored = counted { restored with level := restored.effTarget }
      ∧ (l.forced = true → l.toUnforced = counted { freed with level := freed.effTarget }))
    ∧ (l.kind ≠ .none → l.forced = false →
      l.toForced = { l with forced := true, effTarget := 1000, level := 1000, fade := none, countedDraw := l.drawAt 1000 })
    ∧ (l.forced = true → l.toForced = l) ∧ (l.forced = false → l.toUnforced = l)
    ∧ l.relief = (if shed.effTarget < l.effTarget then l.countedDraw - l.drawAt shed.effTarget else 0)
    ∧ (l.sheddable = true ↔
        l.kind ≠ .none ∧ 1 ≤ l.shedRank ∧ l.shedRank ≤ 7 ∧ l.shed = false ∧ l.forced = false ∧ 0 < l.relief)

/-! ### Scenes and return stacks -/

/-- TAKE_SCENE and GIVE_SCENE set the OWNER and nothing else. A recall of a scene owned by MANAGEMENT is refused, whoever asks.
WRITE_SCENE is refused SCENE_LIVE on a LIVE scene and BAD_VALUE for each value R83 lists; else the entries and the default fade are
replaced as a whole and the return stack of the scene's space is cleared. No load and no other record is touched. -/
def Obligations.scenes_are_taken_written_and_given : Prop :=
  ∀ (s : State) (o : Origin) (v : SceneNo),
    (s.Takes .takeScene o → exec (.takeScene o (Target.scene v).bytes) s
      = .next (((s.endReceipt o).setScene v { s.scene v with owner := .management }).answered o ReqKind.takeScene.code
          (.plain .done)))
    ∧ (s.Takes .giveScene o → exec (.giveScene o (Target.scene v).bytes) s
      = .next (((s.endReceipt o).setScene v { s.scene v with owner := .live }).answered o ReqKind.giveScene.code
          (.plain .done)))
    ∧ (∀ fade, fade < 65536 → s.Takes .recallScene o → s.permitsSpace o (sceneSpace v) = true →
        (s.scene v).owner = .management →
        exec (.recallScene o (targetWordBody (Target.scene v).raw fade)) s
          = .next ((s.endReceipt o).answered o ReqKind.recallScene.code (.plain .sceneOwned)))
    ∧ ∀ (fade : Nat) (es : List (Nat × Nat)), s.Takes .writeScene o → fade < 65536 → es.length ≤ 18 →
      (∀ e ∈ es, e.1 < 256 ∧ e.2 < 65536) →
      let answer := fun (t : State) (code : ReplyCode) =>
        exec (.writeScene o ((Target.scene v).bytes ++ sceneBytes fade es)) s
          = .next (t.answered o ReqKind.writeScene.code (.plain code))
      let bad := 12 < es.length ∨ 600 < fade ∨ (∃ e ∈ es, 95 < e.1 ∨ 1000 < e.2) ∨ ¬ (es.map Prod.fst).Nodup
        ∨ ∃ e ∈ es, ∃ n : LoadNo, n.val = e.1 ∧ (s.load n).space.val ≠ v.val / 8
      ((s.scene v).owner = .live → answer (s.endReceipt o) .sceneLive)
      ∧ ((s.scene v).owner = .management → bad → answer (s.endReceipt o) .badValue)
      ∧ ((s.scene v).owner = .management → ¬ bad → ∃ list : List (LoadNo × Nat),
          list.map (fun x => (x.1.val, x.2)) = es
          ∧ answer (((s.endReceipt o).setScene v
              { owner := .management, defaultFade := fade, entries := list }).setReturnStack (sceneSpace v) []) .done)

/-- RECALL_SCENE of a LIVE scene: an entry whose load is NONE, is of another space or is locked against the requester is skipped;
each other entry is one SET_LEVEL with the fade of the request, or the scene's where it carries 65535; the counts take in every
entry; and, where at least one entry was reached, the set targets the reached loads had are pushed as one frame, at most six
frames being kept. -/
def Obligations.recall_applies_entries_and_pushes : Prop :=
  ∀ (s : State) (o : Origin) (v : SceneNo) (fade : Nat), s.StackLaw → s.Takes .recallScene o → fade < 65536 →
    s.permitsSpace o (sceneSpace v) = true → (s.scene v).owner = .live →
    let entries := (s.scene v).entries
    let steps := min (if fade = 65535 then (s.scene v).defaultFade else fade) 600 * 5
    let reached := entries.filter fun e =>
      (s.load e.1).kind != .none && (s.load e.1).space == sceneSpace v && (s.lockAgainst o e.1).isNone
    let asked := fun e : LoadNo × Nat =>
      if (s.load e.1).kind = .switch then (if 0 < e.2 then 1000 else 0) else min e.2 1000
    let stack := if reached = [] then s.returnStack (sceneSpace v)
      else ((reached.map fun e => (e.1, (s.load e.1).setTarget)) :: s.returnStack (sceneSpace v)).take 6
    ∃ u,
      let applied := (reached.filter fun e => (u.load e.1).setTarget == asked e).length
      let limited := reached.length - applied
      let skipped := entries.length - reached.length
      exec (.recallScene o (targetWordBody (Target.scene v).raw fade)) s
        = .next (u.answered o ReqKind.recallScene.code (.counts
            (if 0 < skipped then .donePartial else if 0 < limited then .doneLimited else .done) applied limited skipped))
      ∧ OnlyLoads ((s.endReceipt o).setReturnStack (sceneSpace v) stack) u ∧ SameConfigs s u
      ∧ (∀ n, n ∉ reached.map Prod.fst → (u.load n).setTarget = (s.load n).setTarget)
      ∧ (∀ e ∈ reached, (u.load e.1).setTarget = asked e
          ∨ (s.load e.1).setTarget ≤ (u.load e.1).setTarget ∧ (u.load e.1).setTarget < asked e)
      ∧ (s.budget.shedList = [] →
          ∀ e ∈ reached, u.load e.1 = (s.load e.1).withSetTarget (u.load e.1).setTarget steps)

/-- RETURN_SCENE: EMPTY, with nothing changed, on an empty stack; else the newest frame is popped, whatever becomes of its pairs,
and each pair not skipped is one SET_LEVEL to the set target it holds; nothing is pushed. -/
def Obligations.return_pops_one_frame : Prop :=
  ∀ (s : State) (o : Origin) (p : SpaceNo) (fade : Nat), s.StackLaw → s.Takes .returnScene o → fade < 65536 →
    s.permitsSpace o p = true →
    (s.returnStack p = [] → exec (.returnScene o (targetWordBody (Target.space p).raw fade)) s
        = .next ((s.endReceipt o).answered o ReqKind.returnScene.code (.plain .empty)))
    ∧ ∀ frame rest, s.returnStack p = frame :: rest →
        let reached := frame.filter fun e =>
          (s.load e.1).kind != .none && (s.load e.1).space == p && (s.lockAgainst o e.1).isNone
        let asked := fun e : LoadNo × Nat =>
          if (s.load e.1).kind = .switch then (if 0 < e.2 then 1000 else 0) else min e.2 1000
        ∃ u,
          let applied := (reached.filter fun e => (u.load e.1).setTarget == asked e).length
          let limited := reached.length - applied
          let skipped := frame.length - reached.length
          exec (.returnScene o (targetWordBody (Target.space p).raw fade)) s
            = .next (u.answered o ReqKind.returnScene.code (.counts
                (if 0 < skipped then .donePartial else if 0 < limited then .doneLimited else .done) applied limited skipped))
          ∧ OnlyLoads ((s.endReceipt o).setReturnStack p rest) u ∧ SameConfigs s u
          ∧ (∀ n, n ∉ reached.map Prod.fst → (u.load n).setTarget = (s.load n).setTarget)
          ∧ (∀ e ∈ reached, (u.load e.1).setTarget = asked e
              ∨ (s.load e.1).setTarget ≤ (u.load e.1).setTarget ∧ (u.load e.1).setTarget < asked e)
          ∧ (s.budget.shedList = [] →
              ∀ e ∈ reached, u.load e.1 = (s.load e.1).withSetTarget (u.load e.1).setTarget (min fade 600 * 5))

/-! ### Views -/

/-- QUERY of a load, an axis, a scene or the budget replies with the fields of its view, 24, 29, 28 or 29 of them, as the records
stand, an absent value as 65535, and changes nothing.
Deduced: the HEADROOM of the budget view is 0 while DEFICIT is set (log entry 16), and a rest that has run to 0 and whose expiry
has not been taken shows 1 in the axis view (log entry 17). -/
def Obligations.query_shows_the_records : Prop :=
  ∀ (s : State) (o : Origin), s.Takes .query o → s.CoverageLaw →
    let opt := fun x : Option Nat => match x with | some v => v | none => 65535
    let flag := fun b : Bool => if b then 1 else 0
    let shows := fun (x : RawTarget) (fields : List Nat) =>
      exec (.query o (targetBytes x)) s = .next ((s.endReceipt o).answered o ReqKind.query.code (.view fields))
    (∀ n, s.permitsSpace o (s.load n).space = true → (s.load n).kind ≠ .none → ∃ cover : Option Claim,
      (∀ c, cover = some c ↔ c ∈ s.claims ∧ (c.target = .load n ∨ c.target = .space (s.load n).space))
      ∧ let l := s.load n
        shows (Target.load n).raw
          [match l.kind with | .none => 0 | .dim => 1 | .switch => 2, l.space.val,
           (l.groupMask.extractLsb' 0 16).toNat, (l.groupMask.extractLsb' 16 16).toNat,
           (l.groupMask.extractLsb' 32 16).toNat, (l.groupMask.extractLsb' 48 16).toNat,
           l.shedRank, l.shedLevel, l.ratedPower, l.minDuty, l.setTarget, l.effTarget, l.level,
           opt (l.fade.map (·.remaining)), opt (l.fade.map (·.n)), flag l.shed,
           opt (s.budget.shedList.findIdx? (· == n)), flag l.forced, l.countedDraw, (s.output n).live,
           opt (cover.map fun c => match c.target with | .load _ => 1 | .space _ => 3 | .axis _ => 5),
           opt (cover.map (·.holder.val)), opt (cover.map (·.rank.code)), opt (cover.map (·.leaseReported))])
    ∧ (∀ a, s.permitsAxis o a = true → ∃ cover : Option Claim,
      (∀ c, cover = some c ↔ c ∈ s.claims ∧ c.target = .axis a)
      ∧ let ax := s.axis a
        shows (Target.axis a).raw
          [ax.state.code, ax.position, flag ax.verified, ax.speed, ax.direction.code,
           opt (ax.pending.map (·.direction.code)), opt (ax.pending.bind (·.target)), opt (ax.pending.map (·.origin.val)),
           ax.stallCount, opt (ax.restRemaining.map fun ms => max 1 ((ms + 99) / 100)), opt ax.jam, ax.endReason.code,
           ax.runDistance, opt (cover.map (·.holder.val)), opt (cover.map (·.rank.code)), opt (cover.map (·.leaseReported)),
           flag (s.axisIn a).edge + 2 * flag (s.axisIn a).home, ax.demand, opt (ax.courtesy.map (·.val)), ax.runSpeed,
           ax.creepSpeed, ax.accelStep, ax.decelStep, ax.approach, ax.softLow, ax.softHigh, ax.stallWindow,
           ax.overCurrent * 256 + ax.noLoad, ax.warnCycles])
    ∧ (∀ v, s.permitsSpace o (sceneSpace v) = true → ∃ fields,
      shows (Target.scene v).raw fields ∧ fields.length = 28
      ∧ fields.take 4 = [match (s.scene v).owner with | .live => 1 | .management => 2, (s.scene v).defaultFade,
          (s.scene v).entries.length, (s.returnStack (sceneSpace v)).length]
      ∧ ∀ i, i < 12 → fields[4 + 2 * i]? = some (opt ((s.scene v).entries[i]?.map (·.1.val)))
          ∧ fields[5 + 2 * i]? = some (opt ((s.scene v).entries[i]?.map (·.2))))
    ∧ (∀ x : RawTarget, x.Names .budget → ∃ fields,
      shows x fields ∧ fields.length = 29
      ∧ fields.take 7 = [s.budget.available, s.budget.committed,
          if s.budget.deficit then 0 else s.budget.available - s.budget.committed, flag s.budget.deficit,
          ((List.finRange 96).map fun n => (s.load n).countedDraw).sum, s.held 0 + s.held 1 + s.held 2,
          s.budget.shedList.length]
      ∧ ∀ i, i < 22 → fields[7 + i]? = some (opt (s.budget.shedList.reverse[i]?.map (·.val))))
    ∧ (∀ c : Claim, c.lease = .permanent → c.leaseReported = 0)
    ∧ ∀ (c : Claim) (ms : Nat), c.lease = .left ms → 0 < ms →
        c.leaseReported = match c.target with | .axis _ => (ms + 49) / 50 | _ => (ms + 999) / 1000

/-- QUERY of the device replies with the five fields of R180, eleven bytes of body, and changes nothing; it needs no permission. -/
def Obligations.query_shows_the_device : Prop :=
  ∀ (s : State) (o : Origin) (x : RawTarget), s.Takes .query o → x.Names .device →
    let bit := fun (b : Bool) (value : Nat) => if b then value else 0
    let fields : List Nat :=
      [match s.device.runState with | .halted => 1 | .running => 2,
       match s.device.resetCause with | .powerOn => 1 | .brownout => 2 | .pin => 3,
       bit s.device.motionAtReset 1,
       bit s.notices.axisLockout (2 ^ 0) + bit s.notices.deficit (2 ^ 1) + bit s.notices.axisFault (2 ^ 2)
         + bit s.notices.motionLeaseLost (2 ^ 3) + bit s.notices.shedChange (2 ^ 4) + bit s.notices.resetNotice (2 ^ 5),
       s.claims.length]
    exec (.query o (targetBytes x)) s = .next ((s.endReceipt o).answered o ReqKind.query.code (.view fields))
      ∧ (ReplyBody.view fields).bytes.length = 11

/-! ### Claims and stations -/

/-- CLAIM is refused with BAD_REQUEST where its kind does not go with its target, with CLAIMED and the highest rank in the way where
some conflicting claim is not outranked, and with TABLE_FULL where all 32 records are in use and nothing is to be retired. -/
def Obligations.a_claim_is_refused : Prop :=
  ∀ (s : State) (o : Origin) (t : ClaimTarget) (k : ClaimKind) (lease : Nat), lease < 65536 → s.Takes .claim o →
    s.permitsTarget o t → (∀ n, t = .load n → (s.load n).kind ≠ .none) →
    let refused := fun b : ReplyBody =>
      exec (.claim o (claimBody (ClaimTarget.target t).raw k lease)) s
        = .next ((s.endReceipt o).answered o ReqKind.claim.code b)
    let matching := match t with | .axis _ => ClaimKind.hold | .load _ | .space _ => ClaimKind.lock
    (k ≠ matching → refused (.plain .badRequest))
    ∧ (k = matching → (∀ c ∈ s.claims, c.target = t → c.holder ≠ o) →
        (∀ n, t = .load n → ∀ c ∈ s.claims, c.target = .space (s.load n).space → c.holder ≠ o) →
        (∀ c, s.Conflict o t c → (s.rankOf o).code ≤ c.rank.code → ∀ high, s.Conflict o t high →
          (∀ d, s.Conflict o t d → d.rank.code ≤ high.rank.code) → refused (.claimed high.rank))
        ∧ ((∀ c, ¬ s.Conflict o t c) → (∀ c, ¬ s.Folded o t c) → s.claims.length = 32 → refused (.plain .tableFull)))

/-- CLAIM of what the requester already claims, and RENEW, set the LEASE of that claim afresh by its HOLDER RANK, a PERMANENT one
staying so, and nothing else; CLAIM of a load that the requester's space claim covers changes nothing; RENEW by one who holds no
such claim is refused with NOT_HOLDER. -/
def Obligations.a_claim_is_renewed : Prop :=
  ∀ (s : State) (o : Origin) (t : ClaimTarget) (lease : Nat), lease < 65536 → s.permitsTarget o t →
    let claimed := claimBody (ClaimTarget.target t).raw (match t with | .axis _ => .hold | .load _ | .space _ => .lock) lease
    let renewed := targetWordBody (ClaimTarget.target t).raw lease
    let afresh := (s.endReceipt o).setClaims (s.claims.map fun c =>
      if c.target = t ∧ c.holder = o then
        { c with lease := match c.lease with | .permanent => .permanent | .left _ => ClaimTarget.lease t c.rank lease }
      else c)
    (s.Takes .claim o → (∀ n, t = .load n → (s.load n).kind ≠ .none) →
      ((∃ c ∈ s.claims, c.target = t ∧ c.holder = o) →
        exec (.claim o claimed) s = .next (afresh.answered o ReqKind.claim.code (.plain .done)))
      ∧ ((∀ c ∈ s.claims, c.target = t → c.holder ≠ o) →
          (∃ n, t = .load n ∧ ∃ c ∈ s.claims, c.target = .space (s.load n).space ∧ c.holder = o) →
          exec (.claim o claimed) s = .next ((s.endReceipt o).answered o ReqKind.claim.code (.plain .done))))
    ∧ (s.Takes .renew o →
      ((∃ c ∈ s.claims, c.target = t ∧ c.holder = o) →
        exec (.renew o renewed) s = .next (afresh.answered o ReqKind.renew.code (.plain .done)))
      ∧ ((∀ c ∈ s.claims, c.target = t → c.holder ≠ o) →
          exec (.renew o renewed) s = .next ((s.endReceipt o).answered o ReqKind.renew.code (.plain .notHolder))))

/-- CLAIM of a load or a space, every conflicting claim being outranked and a record being free or freed: the conflicting claims and
the requester's own load claims in a claimed space are retired, the new claim is recorded with the requester's rank and the
lease of Table 2-2, and no load and no other record changes. -/
def Obligations.a_lock_is_claimed : Prop :=
  ∀ (s : State) (o : Origin) (t : ClaimTarget) (lease : Nat), lease < 65536 → s.Takes .claim o → s.permitsTarget o t →
    (∀ a, t ≠ .axis a) → (∀ n, t = .load n → (s.load n).kind ≠ .none) →
    (∀ c ∈ s.claims, c.target = t → c.holder ≠ o) →
    (∀ n, t = .load n → ∀ c ∈ s.claims, c.target = .space (s.load n).space → c.holder ≠ o) →
    (∀ c, s.Conflict o t c → c.rank.code < (s.rankOf o).code) →
    ((∃ c, s.Conflict o t c ∨ s.Folded o t c) ∨ s.claims.length < 32) →
    ∃ kept : List Claim, kept.Sublist s.claims
      ∧ (∀ c, c ∈ kept ↔ c ∈ s.claims ∧ ¬ s.Conflict o t c ∧ ¬ s.Folded o t c)
      ∧ exec (.claim o (claimBody (ClaimTarget.target t).raw .lock lease)) s
          = .next (((s.endReceipt o).setClaims (kept
              ++ [{ target := t, holder := o, rank := s.rankOf o, lease := ClaimTarget.lease t (s.rankOf o) lease }])).answered
                o ReqKind.claim.code (.plain .done))

/-- CLAIM of an axis: without a conflict the claim is added and nothing else changes; a lower-ranked holder's claim is retired, the
axis responds to PRE_EMPTED by its state, and the new claim is recorded. -/
def Obligations.an_axis_is_claimed : Prop :=
  ∀ (s : State) (o : Origin) (a : AxisNo) (lease : Nat), lease < 65536 → s.Takes .claim o → s.permitsAxis o a = true →
    (∀ c ∈ s.claims, c.target = .axis a → c.holder ≠ o ∧ c.rank.code < (s.rankOf o).code) →
    ((∃ c ∈ s.claims, c.target = .axis a) ∨ s.claims.length < 32) →
    let kept := s.claims.filter fun c => c.target != .axis a
    let claims := kept ++ [{ target := .axis a, holder := o, rank := s.rankOf o, lease := ClaimTarget.lease (.axis a) (s.rankOf o) lease }]
    ∃ u, exec (.claim o (claimBody (Target.axis a).raw .hold lease)) s
        = .next (u.answered o ReqKind.claim.code (.plain .done))
      ∧ ((∀ c ∈ s.claims, c.target ≠ .axis a) → u = (s.endReceipt o).setClaims claims)
      ∧ ((∃ c ∈ s.claims, c.target = .axis a) →
          AxisFrame a ((s.endReceipt o).setClaims claims) u ∧ u.axis a = (s.axis a).claimEndedBy .preEmpted
          ∧ u.channel a = (if (s.axis a).state = .warn then (s.channel a).finish else s.channel a)
          ∧ u.notices = { s.notices with shedChange := u.notices.shedChange })

/-- RELEASE of a LOCK claim, and the expiry of its lease, retire the claim and leave the loads and every other record as they were;
RELEASE by one who holds no such claim is refused with NOT_HOLDER. An expiry takes a claim only once its lease has run to zero: a
PERMANENT lease does not expire, and an expiry taken after the RENEW or the CLAIM by which the requester has its claim does not
happen.
Model's choice (log entry 4): the expiry command of a lease with time left changes nothing. -/
def Obligations.a_lock_ends : Prop :=
  ∀ (s : State) (o : Origin) (t : ClaimTarget),
    (s.Takes .release o → s.permitsTarget o t →
      ((∀ c ∈ s.claims, c.target = t → c.holder ≠ o) → exec (.release o (ClaimTarget.target t).bytes) s
        = .next ((s.endReceipt o).answered o ReqKind.release.code (.plain .notHolder)))
      ∧ ((∀ a, t ≠ .axis a) → (∃ c ∈ s.claims, c.target = t ∧ c.holder = o) →
          exec (.release o (ClaimTarget.target t).bytes) s
            = .next (((s.endReceipt o).setClaims (s.claims.filter fun c => !(c.target == t && c.holder == o))).answered o
                ReqKind.release.code (.plain .done))))
    ∧ ((∀ a, t ≠ .axis a) → (∃ c ∈ s.claims, c.target = t ∧ c.lease = .left 0) →
        exec (.leaseExpiry t) s = .next (s.setClaims (s.claims.filter fun c => c.target != t)).driveOutputs)
    ∧ ((∀ c ∈ s.claims, c.target = t → c.lease ≠ .left 0) → exec (.leaseExpiry t) s = .next s.driveOutputs)
    ∧ ∀ lease, lease < 65536 → s.CoverageLaw → s.permitsTarget o t →
        let claimed := claimBody (ClaimTarget.target t).raw (match t with | .axis _ => .hold | .load _ | .space _ => .lock) lease
        let renewed := targetWordBody (ClaimTarget.target t).raw lease
        let spared := fun i : Instr =>
          ∃ u, exec i s = .next u ∧ ((∃ c ∈ u.claims, c.target = t ∧ c.holder = o) → exec (.leaseExpiry t) u = .next u)
        (s.Takes .renew o → spared (.renew o renewed))
        ∧ (s.Takes .claim o → (∀ n, t = .load n → (s.load n).kind ≠ .none) → spared (.claim o claimed))

/-- The end of the HOLD claim on an axis by RELEASE and by the expiry of its lease: the claim is retired, and the axis responds by
its state with STOP_REQUEST or LEASE_LOST; MOTION_LEASE_LOST is raised by an expiry that ends a warning, a run, or the pending
motion of a rest, and only then. Where no entry watches an axis parked from WARN, the loads and the budget are those of a motion's
end, its fall answered (R110, R111). -/
def Obligations.a_hold_ends : Prop :=
  ∀ (s : State) (o : Origin) (a : AxisNo), s.CoverageLaw →
    let kept := s.claims.filter fun c => c.target != .axis a
    let lost := (s.axis a).state = .warn ∨ (s.axis a).state = .run ∨ (s.axis a).state = .rest ∧ (s.axis a).pending ≠ none
    let channel := if (s.axis a).state = .warn then (s.channel a).finish else s.channel a
    (s.Takes .release o → s.permitsAxis o a = true → (∃ c ∈ s.claims, c.target = .axis a ∧ c.holder = o) →
      ∃ u, exec (.release o (Target.axis a).bytes) s = .next (u.answered o ReqKind.release.code (.plain .done))
        ∧ AxisFrame a ((s.endReceipt o).setClaims kept) u ∧ u.axis a = (s.axis a).claimEndedBy .stopRequest
        ∧ ((s.axis a).state = .warn → GivesBack a s u) ∧ u.channel a = channel ∧ u.notices = { s.notices with shedChange := u.notices.shedChange })
    ∧ ((∃ c ∈ s.claims, c.target = .axis a ∧ c.lease = .left 0) →
      ∃ u, exec (.leaseExpiry (.axis a)) s = .next u.driveOutputs
        ∧ AxisFrame a (s.setClaims kept) u ∧ u.axis a = (s.axis a).claimEndedBy .leaseLost
        ∧ ((s.axis a).state = .warn → GivesBack a s u) ∧ u.channel a = channel
        ∧ u.notices = { s.notices with
            shedChange := u.notices.shedChange, motionLeaseLost := u.notices.motionLeaseLost }
        ∧ (lost → u.notices.motionLeaseLost = true)
        ∧ (¬ lost → u.notices.motionLeaseLost = s.notices.motionLeaseLost))

/-- WRITE_STATION: a bad address, a rank of MANAGEMENT or an axis flag above axis 2 is refused with BAD_VALUE; else the entry is
written or removed, the claims of that station on what it lost are retired and no other, and each axis that lost its HOLD claim
responds as to pre-emption, every other axis and every load's SET TARGET and configuration standing. -/
def Obligations.write_station_takes_permissions_away : Prop :=
  ∀ (s : State) (o : Origin) (address : Byte) (present : Bool) (rank : Rank) (spaces : BitVec 16) (axes : Byte),
    s.Takes .writeStation o →
    let body : List Byte :=
      [address, if present then 1 else 0, BitVec.ofNat 8 rank.code, spaces.extractLsb' 8 8, spaces.extractLsb' 0 8, axes]
    ((address = 0 ∨ 62 < address.toNat ∨ present = true ∧ (rank = .management ∨ 8 ≤ axes.toNat)) →
      exec (.writeStation o body) s = .next ((s.endReceipt o).answered o ReqKind.writeStation.code (.plain .badValue)))
    ∧ ∀ p : Fin 62, address.toNat = p.val + 1 → (present = true → rank ≠ .management ∧ axes.toNat < 8) → s.InterlockLaw →
      let station : Origin := ⟨p.val + 1, by omega⟩
      let entry : Option Station :=
        if present then some { rank := rank, spaceMask := spaces, axisMask := axes.setWidth 3 } else none
      let after := { s.endReceipt o with stations := s.stations.set p entry }
      let lostSpace := fun p : SpaceNo => s.permitsSpace station p = true ∧ after.permitsSpace station p = false
      let lostAxis := fun a : AxisNo => s.permitsAxis station a = true ∧ after.permitsAxis station a = false
      let lost := fun c : Claim => c.holder = station ∧ match c.target with
        | .axis a => lostAxis a
        | .space p => lostSpace p
        | .load n => lostSpace (s.load n).space
      ∃ u, exec (.writeStation o body) s = .next (u.answered o ReqKind.writeStation.code (.plain .done))
        ∧ u.claims.Sublist s.claims ∧ (∀ c, c ∈ u.claims ↔ c ∈ s.claims ∧ ¬ lost c)
        ∧ OnlyMachines { after with claims := u.claims } u ∧ SameConfigs s u
        ∧ (∀ n, (u.load n).setTarget = (s.load n).setTarget)
        ∧ (∀ a, (∃ c ∈ s.claims, c.target = .axis a ∧ lost c) → u.axis a = (s.axis a).claimEndedBy .preEmpted)
        ∧ (∀ a, (∀ c ∈ s.claims, c.target = .axis a → ¬ lost c) → u.axis a = s.axis a ∧ u.channel a = s.channel a)
        ∧ ((∀ a, ∀ c ∈ s.claims, c.target = .axis a → ¬ lost c) → u = { after with claims := u.claims })

/-! ### Configuring a load -/

/-- What a WRITE_LOAD makes of the live fields: a change to NONE darkens the load and takes it off the shed list; DIM to SWITCH
switches it to 0 or full; other changes of KIND keep the fields; on a shed load a SHED RANK of 0 restores it, and a new SHED LEVEL
cuts it, refades it over 50 steps or leaves it, as its new effective target is below, above or equal.
Deduced (log entry 10): SWITCH to DIM on a load that is on the shed list, whose level is kept or moved as R50 says of its new
effective target. DIM to SWITCH on a shed load whose shedding fields change in the same write is left out. -/
def Obligations.write_load_in_the_record : Prop :=
  ∀ (l : LoadRec) (c : LoadConfig),
    let w : LoadRec := { l with toLoadConfig := c }
    let e := w.effectiveTarget
    let counted := fun x : LoadRec => { x with countedDraw := x.drawAt (max x.level x.effTarget) }
    (c.kind = .none → l.kind ≠ .none → l.rewritten c
      = { w with setTarget := 0, effTarget := 0, level := 0, fade := none, shed := false, countedDraw := 0 })
    ∧ (l.kind = .dim → c.kind = .switch → l.shed = false ∨ c.shedRank = l.shedRank ∧ c.shedLevel = l.shedLevel →
        let v := if 0 < l.setTarget then 1000 else 0
        let lit := ({ w with setTarget := v } : LoadRec).effectiveTarget
        l.rewritten c = counted { w with setTarget := v, effTarget := lit, level := lit, fade := none })
    ∧ (l.kind = .switch → c.kind = .switch → l.shed = true → (c.shedRank ≠ l.shedRank ∨ c.shedLevel ≠ l.shedLevel) →
        (c.shedRank = 0 → l.forced = false →
          l.rewritten c = counted { w with shed := false, effTarget := l.setTarget, level := l.setTarget })
        ∧ (c.shedRank ≠ 0 → e ≠ l.effTarget → l.rewritten c = counted { w with effTarget := e, level := e }))
    ∧ (c.kind = l.kind ∨ c.kind = .dim ∨ l.kind = .none →
        (l.shed = false ∨ c.shedRank = l.shedRank ∧ c.shedLevel = l.shedLevel →
          l.rewritten c = counted { w with effTarget := e })
        ∧ (c.kind = .dim → l.forced = false → l.shed = true → (c.shedRank ≠ l.shedRank ∨ c.shedLevel ≠ l.shedLevel) →
            (c.shedRank = 0 → l.rewritten c
              = counted (({ w with shed := false, effTarget := l.setTarget } : LoadRec).startFade 50))
            ∧ (c.shedRank ≠ 0 →
              (e < l.effTarget → e < l.level →
                l.rewritten c = counted { w with effTarget := e, level := e, fade := none })
              ∧ (e < l.effTarget → l.level ≤ e → ∀ f, l.fade = some f →
                l.rewritten c = counted (({ w with effTarget := e } : LoadRec).startFade f.remaining))
              ∧ (l.effTarget < e → l.rewritten c = counted (({ w with effTarget := e } : LoadRec).startFade 50))
              ∧ (e = l.effTarget → l.rewritten c = counted { w with effTarget := e }))))

/-- WRITE_LOAD: BUSY on a forced load, BAD_VALUE for each value out of range; else all seven fields are written, every return stack is
cleared, a load moved into a claimed space loses its own claim, and a load made NONE is no axis's courtesy load; where the draw does
not change, or rises within AVAILABLE with DEFICIT clear, or falls with no load shed, no other load moves. Where the draw falls, the
restore pass runs unless DEFICIT stands (R111). An axis in WARN may be abandoned; no other axis changes.
Deduced (log entries 8, 10 and 18): the response to the falls of an abandonment, a change of KIND on a shed load, and the claim
of a load that one write both sets to NONE and moves into a claimed space. -/
def Obligations.write_load_writes_the_configuration : Prop :=
  ∀ (s : State) (o : Origin) (n : LoadNo), s.Takes .writeLoad o →
    (∀ body f, body.length ≤ 60 → readWriteLoad body = some ((Target.load n).raw, f) →
      ((s.load n).forced = true →
        exec (.writeLoad o body) s = .next ((s.endReceipt o).answered o ReqKind.writeLoad.code (.plain .busy)))
      ∧ ((s.load n).forced = false →
          15 < f.space ∨ 7 < f.shedRank ∨ 1000 < f.shedLevel ∨ 400 < f.ratedPower ∨ 64 < f.minDuty →
          exec (.writeLoad o body) s = .next ((s.endReceipt o).answered o ReqKind.writeLoad.code (.plain .badValue))))
    ∧ ∀ c : LoadConfig, (s.load n).forced = false → c.shedRank ≤ 7 → c.shedLevel ≤ 1000 → c.ratedPower ≤ 400 →
        c.minDuty ≤ 64 → s.InterlockLaw →
        let l := s.load n
        let l' := l.rewritten c
        let r := s.endReceipt o
        let moved := c.space ≠ l.space ∧ (∃ x ∈ s.claims, x.target = .load n) ∧ ∃ x ∈ s.claims, x.target = .space c.space
        ∃ u : State, exec (.writeLoad o ((Target.load n).bytes ++ loadConfigBytes c)) s
            = .next (u.answered o ReqKind.writeLoad.code (.plain .done))
          ∧ u = { r with
              loads := u.loads, outputs := u.outputs, budget := u.budget, notices := u.notices, claims := u.claims
              returnStacks := Vector.replicate 16 [], axes := u.axes, channels := u.channels }
          ∧ (∀ m, (u.load m).toLoadConfig = if m = n then c else (s.load m).toLoadConfig)
          ∧ (∀ m, m ≠ n → (u.load m).setTarget = (s.load m).setTarget)
          ∧ (s.budget.deficit = false ∨ l'.countedDraw ≤ l.countedDraw → (u.load n).setTarget = l'.setTarget)
          ∧ (moved → u.claims = s.claims.filter fun x => x.target != .load n) ∧ (¬ moved → u.claims = s.claims)
          ∧ (∀ a, let ax := { s.axis a with
                courtesy := if c.kind = LoadKind.none ∧ (s.axis a).courtesy = some n then none else (s.axis a).courtesy }
              u.axis a = ax ∧ u.channel a = s.channel a
                ∨ (s.axis a).state = .warn ∧ u.axis a = ax.parkedBy .noBudget ∧ u.channel a = (s.channel a).finish)
          ∧ (l'.countedDraw = l.countedDraw
              ∨ l.countedDraw < l'.countedDraw ∧ s.budget.deficit = false
                  ∧ s.budget.committed + l'.countedDraw - l.countedDraw ≤ s.budget.available
              ∨ l'.countedDraw < l.countedDraw 
                  ∧ (s.budget.shedList = [] ∨ s.budget.shedList = [n] ∧ l.shed = true ∧ l'.shed = false) →
              (∀ m, u.load m = if m = n then l' else s.load m)
              ∧ (∀ m, u.output m
                  = if m = n ∧ (l'.level ≠ l.level ∨ c.kind ≠ l.kind ∨ c.minDuty ≠ l.minDuty) then
                      { s.output m with staged := some l'.duty }
                    else s.output m)
              ∧ u.budget.committed = s.budget.committed + l'.countedDraw - l.countedDraw
              ∧ u.budget.shedList = (if l.shed = true ∧ l'.shed = false then s.budget.shedList.erase n else s.budget.shedList)
              ∧ ∀ a, u.axis a = { s.axis a with
                  courtesy := if c.kind = LoadKind.none ∧ (s.axis a).courtesy = some n then none else (s.axis a).courtesy })
          ∧ (l'.countedDraw < l.countedDraw →
              let freed : Bool := l.shed && !l'.shed
              let w := s.withLoad n l' (decide (c.kind ≠ l.kind) || decide (c.minDuty ≠ l.minDuty))
              let x : State := { w with
                budget := { w.budget with shedList := if freed then s.budget.shedList.erase n else s.budget.shedList }
                notices := { s.notices with shedChange := s.notices.shedChange || freed } }
              SameLoads x.afterFall u ∧ u.notices = x.afterFall.notices
                ∧ ∀ a, u.axis a = { s.axis a with
                    courtesy := if c.kind = LoadKind.none ∧ (s.axis a).courtesy = some n then none else (s.axis a).courtesy })

/-! ### The power budget -/

/-- SET_BUDGET: a value above 20000 is refused with BAD_VALUE. Else AVAILABLE takes it. At or above COMMITTED, DEFICIT is cleared and
the restore pass runs, no axis changing; below it, loads are shed in shed order, no more than it takes; where all their relief is
too little the axes in WARN are parked with NO_BUDGET, after which the restore pass runs if that suffices; and DEFICIT stands
exactly where COMMITTED is still above AVAILABLE. -/
def Obligations.set_budget_restores_or_reduces : Prop :=
  ∀ (s : State) (o : Origin) (v : Nat), v < 65536 → s.Takes .setBudget o →
    (20000 < v → exec (.setBudget o (bytesOf v)) s
        = .next ((s.endReceipt o).answered o ReqKind.setBudget.code (.plain .badValue)))
    ∧ (v ≤ 20000 → s.Lawful → ∃ u,
        let relief := ((List.finRange 96).map fun n => if (s.load n).sheddable then (s.load n).relief else 0).sum
        exec (.setBudget o (bytesOf v)) s = .next (u.answered o ReqKind.setBudget.code (.plain .done))
          ∧ OnlyMachines (s.endReceipt o) u ∧ SameConfigs s u ∧ (∀ n, (u.load n).setTarget = (s.load n).setTarget)
          ∧ u.budget.available = v ∧ (u.budget.deficit = true ↔ v < u.budget.committed)
          ∧ (s.budget.committed ≤ v →
              u = ({ s.endReceipt o with budget := { s.budget with available := v, deficit := false } } : State).restorePass)
          ∧ (s.budget.committed ≤ v → u.axes = s.axes ∧ u.channels = s.channels
              ∧ ∀ n, u.load n = s.load n ∨ (s.load n).shed = true ∧ u.load n = (s.load n).toRestored)
          ∧ (v < s.budget.committed → s.budget.committed ≤ v + relief → u.axes = s.axes ∧ u.channels = s.channels
              ∧ u.budget.committed ≤ v
              ∧ (∃ shed, ShedsInOrder (fun n => (s.load n).sheddable = true) (s.budget.committed - v) shed s u
                  ∧ u.budget.committed + s.reliefOf shed = s.budget.committed)
              ∧ (∀ n, u.load n = s.load n ∨ (s.load n).sheddable = true ∧ u.load n = (s.load n).toShed)
              ∧ ∀ m n, (u.load n).shed = true → (s.load m).sheddable = true → (s.load n).sheddable = true →
                  ((s.load n).shedRank < (s.load m).shedRank ∨ (s.load n).shedRank = (s.load m).shedRank ∧ n < m) →
                  (u.load m).shed = true)
          ∧ (v + relief < s.budget.committed → ∀ a,
              if (s.axis a).state = .warn then
                u.axis a = (s.axis a).parkedBy .noBudget ∧ u.channel a = (s.channel a).finish ∧ u.held a = 0
              else u.axis a = s.axis a ∧ u.channel a = s.channel a ∧ u.held a = s.held a)
          ∧ (v + relief < s.budget.committed →
              ((∀ a, (s.axis a).state ≠ .warn) → ∃ shed,
                ShedsInOrder (fun n => (s.load n).sheddable = true) relief shed s u
                  ∧ u.budget.committed + s.reliefOf shed = s.budget.committed)
              ∧ (u.budget.deficit = false → ∀ n, u.budget.shedList.getLast? = some n →
                  v < u.budget.committed + ((u.load n).toRestored.countedDraw - (u.load n).countedDraw))))

/-- The motion grant is all or nothing: refused in DEFICIT exactly where D is above 0, and else where HEADROOM and the relief of the
sheddable loads, the axis's own courtesy load left out, are below D; with D within HEADROOM nothing is shed; else loads are shed in
shed order, no more than it takes; DEMAND is held and committed, and the courtesy load's rise still fits. -/
def Obligations.the_motion_grant_is_all_or_nothing : Prop :=
  ∀ (s : State) (a : AxisNo), s.Lawful →
    let rise := match (s.axis a).courtesy with
      | none => 0
      | some n => if (s.load n).forced then 0 else (s.load n).ratedPower - (s.load n).countedDraw
    let need := (s.axis a).demand + rise
    let free := s.budget.available - s.budget.committed
    let may := fun n => (s.load n).sheddable = true ∧ (s.axis a).courtesy ≠ some n
    let relief := ((List.finRange 96).map fun n =>
      if (s.load n).sheddable && (s.axis a).courtesy != some n then (s.load n).relief else 0).sum
    (s.grant a = none ↔ if s.budget.deficit then 0 < need else free + relief < need)
    ∧ ∀ t, s.grant a = some t →
        OnlyLoads s t ∧ SameConfigs s t
        ∧ (∀ b, t.held b = if b = a then s.held a + (s.axis a).demand else s.held b)
        ∧ (∀ n, t.load n = s.load n ∨ may n ∧ t.load n = (s.load n).toShed ∧ n ∈ t.budget.shedList)
        ∧ (need ≤ free ∨ s.budget.deficit = true → t = s.addDemand a)
        ∧ (s.budget.deficit = false → t.budget.committed + rise ≤ t.budget.available)
        ∧ t.budget.available = s.budget.available ∧ t.budget.deficit = s.budget.deficit
        ∧ (∃ shed, ShedsInOrder may (need - free) shed s t
            ∧ t.budget.committed + s.reliefOf shed = s.budget.committed + (s.axis a).demand)
        ∧ ∀ m n, may m → may n → (t.load n).shed = true →
            ((s.load n).shedRank < (s.load m).shedRank ∨ (s.load n).shedRank = (s.load m).shedRank ∧ n < m) →
            (t.load m).shed = true

/-- The restore pass restores strictly from the newest end of the shed list, as long as the increase of the newest entry fits HEADROOM,
and ends at the first that does not; SHED_CHANGE is raised where at least one load was restored. The increase is that of R113. The
hypotheses are laws of the records alone, which hold within an event too. -/
def Obligations.the_restore_pass_runs_from_the_newest : Prop :=
  ∀ s : State, s.ShedLaw → s.DerivedLaw → s.KindLaw → s.budget.committed ≤ s.budget.available → s.budget.deficit = false →
    (∀ n, (s.load n).shed = true →
      ((s.load n).kind = .dim → (s.load n).forced = false →
        (s.load n).toRestored.countedDraw = (s.load n).drawAt (max (s.load n).level (s.load n).setTarget))
      ∧ ((s.load n).kind = .switch → (s.load n).forced = false →
        (s.load n).toRestored.countedDraw = if (s.load n).setTarget = 1000 then (s.load n).ratedPower else 0)
      ∧ ((s.load n).forced = true → (s.load n).toRestored.countedDraw = (s.load n).countedDraw)
      ∧ (s.load n).countedDraw ≤ (s.load n).toRestored.countedDraw)
    ∧ ∃ kept restored : List LoadNo, s.budget.shedList = kept ++ restored
        ∧ s.restorePass.budget.shedList = kept
        ∧ OnlyLoads s s.restorePass
        ∧ (∀ n, s.restorePass.load n = if n ∈ restored then (s.load n).toRestored else s.load n)
        ∧ s.restorePass.budget.committed ≤ s.restorePass.budget.available
        ∧ (∀ n, kept.getLast? = some n →
            s.restorePass.budget.available
              < s.restorePass.budget.committed + ((s.load n).toRestored.countedDraw - (s.load n).countedDraw))
        ∧ s.restorePass.notices = { s.notices with shedChange := s.notices.shedChange || !restored.isEmpty }

/-! ### Axes -/

/-- WRITE_AXIS: BUSY in WARN, RUN, STOPPING and REST, BAD_VALUE for each value R123 lists, and else all thirteen fields are written
and nothing else changes. -/
def Obligations.write_axis_writes_the_configuration : Prop :=
  ∀ (s : State) (o : Origin) (a : AxisNo) (body : List Byte) (f : AxisFields), s.Takes .writeAxis o →
    readWriteAxis body = some ((Target.axis a).raw, f) →
    let c := f.config
    let answer := fun (t : State) (code : ReplyCode) =>
      exec (.writeAxis o body) s = .next (t.answered o ReqKind.writeAxis.code (.plain code))
    let bad := 1500 < c.demand ∨ (95 < f.courtesy ∧ f.courtesy ≠ 255)
      ∨ (∃ n, c.courtesy = some n ∧ (s.load n).kind = .none)
      ∨ c.runSpeed = 0 ∨ c.creepSpeed = 0 ∨ c.accelStep = 0 ∨ c.decelStep = 0 ∨ c.runSpeed < c.creepSpeed
      ∨ 1023 < c.approach ∨ 16383 < c.softHigh ∨ c.softHigh ≤ c.softLow ∨ c.stallWindow < 10 ∨ 200 < c.stallWindow
      ∨ c.overCurrent ≤ c.noLoad ∨ c.warnCycles = 0 ∨ 15 < c.warnCycles
    if (s.axis a).state = .parked ∨ (s.axis a).state = .lockout then
      (bad → answer (s.endReceipt o) .badValue)
        ∧ (¬ bad → answer ((s.endReceipt o).setAxis a { s.axis a with toAxisConfig := c }) .done)
    else answer (s.endReceipt o) .busy

/-- MOVE by the holder of a PARKED axis that no edge obstructs, no satisfied entry blocks and the budget grants: ACCEPTED; the axis
enters WARN with its PENDING MOTION, its demand held, its courtesy load forced to full, and its channel started; POSITION,
DIRECTION, END REASON and the stall count stand. Where no entry watches the axis, the other loads, the shed list and SHED_CHANGE are
those of the state the grant leaves. -/
def Obligations.move_begins_a_warning : Prop :=
  ∀ (s : State) (o : Origin) (a : AxisNo) (d : Direction) (position : Nat), position < 65536 → s.Takes .move o →
    s.permitsAxis o a = true → s.Lawful → (∃ c ∈ s.claims, c.target = .axis a ∧ c.holder = o) →
    (s.axis a).state = .parked → (s.axisIn a).edge = false →
    (∀ p e, s.interlock p = some e → e.subject = a → (e.direction = .any ∨ e.direction = (match d with
      | .extend => .extend | .retract => .retract)) → s.satisfied e = false) →
    ∀ g, s.grant a = some g →
    let ax := s.axis a
    let ch := s.channel a
    ∃ u, exec (.move o (moveBody (Target.axis a).raw d position)) s
        = .next (u.answered o ReqKind.move.code (.plain .accepted))
      ∧ AxisFrame a (s.endReceipt o) u
      ∧ u.axis a = { ax with
          state := .warn, speed := 0, restRemaining := none
          pending := some { direction := d, origin := o, target :=
            if ax.verified = true ∧ position ≠ 65535 then some (max ax.softLow (min position ax.softHigh)) else none } }
      ∧ u.held a = ax.demand
      ∧ (∀ n, ax.courtesy = some n →
          (u.load n).forced = true ∧ (u.load n).level = 1000 ∧ (u.load n).effTarget = 1000 ∧ (u.load n).fade = none)
      ∧ (ch.state = .idle → u.channel a = { ch with
          state := .sounding, cycle := some .primary, phase := some .mark, gapLeft := 0, warnCount := 0, discard := false
          markTimer := if ch.live.primarySpace = 0 then none else some (ch.live.primaryMark * 10)
          cycleTimer := some ((ch.live.primaryMark + ch.live.primarySpace) * 10) })
      ∧ (ch.state = .finishing → u.channel a = { ch with state := .sounding, warnCount := 0, discard := true })
      ∧ u.notices = { s.notices with shedChange := u.notices.shedChange }
      ∧ (s.Unwatched a → EntersWarn a g u)
      ∧ ((∀ p e, s.interlock p = some e → e.condition ≠ a) → s.motionNeed a ≤ s.headroom →
          u.budget.committed = s.budget.committed + s.motionNeed a)

/-- The other outcomes of MOVE, in the order of its checks: NOT_HOLDER, LOCKED_OUT, BUSY; in WARN and RUN a motion of the same
direction has its target replaced, which may end the run in this event; OBSTRUCTED, INTERLOCKED, NO_BUDGET. -/
def Obligations.move_is_refused_or_retargets : Prop :=
  ∀ (s : State) (o : Origin) (a : AxisNo) (d : Direction) (position : Nat), position < 65536 → s.Takes .move o →
    s.permitsAxis o a = true → s.CoverageLaw →
    let ax := s.axis a
    let answer := fun (t : State) (code : ReplyCode) =>
      exec (.move o (moveBody (Target.axis a).raw d position)) s = .next (t.answered o ReqKind.move.code (.plain code))
    let refused := answer (s.endReceipt o)
    let target := if ax.verified = true ∧ position ≠ 65535 then some (max ax.softLow (min position ax.softHigh)) else none
    ((∀ c ∈ s.claims, c.target = .axis a → c.holder ≠ o) → refused .notHolder)
    ∧ ((∃ c ∈ s.claims, c.target = .axis a ∧ c.holder = o) →
      (ax.state = .lockout → refused .lockedOut)
      ∧ (ax.state = .stopping ∨ ax.state = .rest → refused .busy)
      ∧ (ax.state = .warn ∨ ax.state = .run → ∀ p, ax.pending = some p →
          (p.direction ≠ d → refused .busy)
          ∧ (p.direction = d →
              let x := { ax with pending := some { p with target := target } }
              (ax.state = .warn ∨ x.endFound = none → answer ((s.endReceipt o).setAxis a x) .done)
              ∧ (ax.state = .run → ∀ er, x.endFound = some er →
                  ∃ u, answer u .done ∧ AxisFrame a (s.endReceipt o) u ∧ u.axis a = x.stoppedBy er
                    ∧ u.channel a = s.channel a ∧ u.held a = s.held a)))
      ∧ (ax.state = .parked →
          ((s.axisIn a).edge = true → refused .obstructed)
          ∧ ((s.axisIn a).edge = false →
              (s.blocked a d = true → refused .interlocked)
              ∧ (s.blocked a d = false → s.grant a = none → refused .noBudget))))
    ∧ (s.blocked a d = true ↔ ∃ p e, s.interlock p = some e ∧ e.subject = a ∧ s.satisfied e = true
        ∧ (e.direction = .any ∨ e.direction = (match d with | .extend => .extend | .retract => .retract)))

/-- STOP, from any permitted origin whatever claim is live, is DONE in every state: WARN parks, RUN decelerates, REST loses its
PENDING MOTION, and nothing changes in any other state. Where no entry watches an axis parked from WARN, the loads and the budget are
those of a motion's end, its fall answered (R110, R111). -/
def Obligations.stop_acts_by_state : Prop :=
  ∀ (s : State) (o : Origin) (a : AxisNo), s.Takes .stop o → s.permitsAxis o a = true →
    let r := s.endReceipt o
    let done := fun t : State =>
      exec (.stop o (Target.axis a).bytes) s = .next (t.answered o ReqKind.stop.code (.plain .done))
    match (s.axis a).state with
    | .warn => ∃ u, done u ∧ AxisFrame a r u ∧ u.axis a = (s.axis a).parkedBy .stopRequest
        ∧ u.channel a = (s.channel a).finish ∧ u.held a = 0 ∧ GivesBack a s u
    | .run => ∃ u, done u ∧ AxisFrame a r u ∧ u.axis a = (s.axis a).stoppedBy .stopRequest
        ∧ u.channel a = s.channel a ∧ u.held a = s.held a
    | .rest => done (r.setAxis a { s.axis a with pending := none })
    | .parked | .stopping | .lockout => done r

/-- RAMP_EXPIRY in RUN moves SPEED toward its limit, never past it, and arms the pulse watch of a monitored run at CREEP SPEED; in
STOPPING SPEED falls, and at 0 the brake settle of 300 ms begins. The drive follows SPEED. BRAKE_SETTLE_EXPIRY parks the axis with
its END REASON kept, its demand given back and its courtesy load freed, the fall answered by the restore pass (R111). A timer that does not run does nothing.
Model's choice (log entry 4): the expiry command of a timer with time left changes nothing. -/
def Obligations.ramps_and_the_brake_settle : Prop :=
  ∀ (s : State) (a : AxisNo),
    let ax := s.axis a
    let limit :=
      if ax.verified = false then ax.creepSpeed
      else match ax.pending with
        | some { target := some t, .. } =>
          if (if t ≤ ax.position then ax.position - t else t - ax.position) ≤ ax.approach then ax.creepSpeed else ax.runSpeed
        | _ => ax.runSpeed
    let v := if ax.speed < limit then min (ax.speed + ax.accelStep) limit
      else if limit < ax.speed then max (ax.speed - ax.decelStep) limit else ax.speed
    let slow := ax.speed - ax.decelStep
    let ramped := s.setAxis a { ax with
      speed := v, rampTimer := some 10
      pulseWatch :=
        if ax.monitoring = true ∧ ax.pulseWatch = none ∧ ax.creepSpeed ≤ v then some (ax.stallWindow * 10) else ax.pulseWatch }
    let slowed := s.setAxis a { ax with
      speed := slow, rampTimer := if slow = 0 then none else some 10
      brakeTimer := if slow = 0 then some 300 else ax.brakeTimer }
    (ax.rampTimer = some 0 → ax.state = .run → exec (.rampExpiry a) s = .next ramped.driveOutputs
      ∧ (s.settle = none → ramped.driveOutputs.axisPins.get a
          = { direction := ax.direction == .extend, drive := v * 16, brake := true }))
    ∧ (ax.rampTimer = some 0 → ax.state = .stopping → exec (.rampExpiry a) s = .next slowed.driveOutputs
      ∧ (s.settle = none → slowed.driveOutputs.axisPins.get a
          = { direction := ax.direction == .extend, drive := slow * 16, brake := decide (0 < slow) }))
    ∧ (ax.rampTimer ≠ some 0 ∨ ax.state ≠ .run ∧ ax.state ≠ .stopping → exec (.rampExpiry a) s = .next s.driveOutputs)
    ∧ (ax.brakeTimer = some 0 → ax.state = .stopping → ∃ u, exec (.brakeSettleExpiry a) s = .next u.driveOutputs
      ∧ AxisFrame a s u ∧ u.axis a = ax.parkedBy ax.endReason ∧ u.channel a = (s.channel a).finish ∧ u.held a = 0
      ∧ GivesBack a s u
      ∧ u.notices = { s.notices with shedChange := u.notices.shedChange }
      ∧ ∀ n, ax.courtesy = some n → (∀ b, b ≠ a → ¬ s.Forces b n) → (u.load n).forced = false)
    ∧ (ax.brakeTimer ≠ some 0 ∨ ax.state ≠ .stopping → exec (.brakeSettleExpiry a) s = .next s.driveOutputs)

/-- CONFIRM_WINDOW_EXPIRY: at or above the NO-LOAD THRESHOLD the load is confirmed and stall monitoring begins; below it the axis
is locked out for NO_LOAD at once, its stall count kept and no jam position recorded.
Where no entry watches the axis, the loads and the budget are those of a motion's end, its fall answered (R110, R111).
Model's choice (log entry 4): the expiry command of a timer with time left changes nothing. -/
def Obligations.the_confirm_window : Prop :=
  ∀ (s : State) (a : AxisNo),
    let ax := s.axis a
    let current := (s.axisIn a).current
    (ax.confirmTimer ≠ some 0 ∨ ax.state ≠ .run → exec (.confirmWindowExpiry a) s = .next s.driveOutputs)
    ∧ (ax.confirmTimer = some 0 → ax.state = .run → ax.noLoad ≤ current →
        exec (.confirmWindowExpiry a) s = .next (s.setAxis a { ax with
          confirmTimer := none, monitoring := true
          overCurrentTimer := if ax.overCurrent < current then some 100 else none
          pulseWatch :=
            if ax.pulseWatch = none ∧ ax.creepSpeed ≤ ax.speed then some (ax.stallWindow * 10) else ax.pulseWatch }).driveOutputs)
    ∧ (ax.confirmTimer = some 0 → ax.state = .run → current < ax.noLoad →
        ∃ u, exec (.confirmWindowExpiry a) s = .next u.driveOutputs ∧ AxisFrame a s u
          ∧ u.axis a = { ax.parkedBy .noLoad with state := .lockout } ∧ u.channel a = (s.channel a).finish ∧ u.held a = 0
          ∧ GivesBack a s u
          ∧ u.notices = { s.notices with axisFault := true, shedChange := u.notices.shedChange }
          ∧ u.driveOutputs.notices.axisLockout = true)

/-- A stall, by the pulse watch or the over-current timer: STALL COUNT rises by one; up to seven the axis rests, twice as long each
time from 2 s to 32 s, its PENDING MOTION kept; at eight it is locked out with its JAM POSITION. AXIS_FAULT is raised. The pulse watch expiry
taken after a pulse of the monitored axis does not happen (R158).
Where no entry watches the axis, the loads and the budget are those of a motion's end, its fall answered (R110, R111).
Model's choice (log entry 4): the expiry command of a timer with time left changes nothing. -/
def Obligations.a_stall_rests_or_locks_out : Prop :=
  ∀ (s : State) (a : AxisNo) (event : Instr),
    let ax := s.axis a
    let timer := if event = .pulseWatchExpiry a then ax.pulseWatch else ax.overCurrentTimer
    event = .pulseWatchExpiry a ∨ event = .overCurrentExpiry a →
    (timer ≠ some 0 ∨ ax.state ≠ .run → exec event s = .next s.driveOutputs)
    ∧ (ax.monitoring = true → 0 < ax.stallWindow →
        ∃ u, exec (.positionPulse a) s = .next u ∧ exec (.pulseWatchExpiry a) u = .next u)
    ∧ (timer = some 0 → ax.state = .run → ∃ u, exec event s = .next u.driveOutputs ∧ AxisFrame a s u
        ∧ u.channel a = (s.channel a).finish ∧ u.held a = 0 ∧ GivesBack a s u
        ∧ u.notices = { s.notices with axisFault := true, shedChange := u.notices.shedChange }
        ∧ (∀ n, ax.courtesy = some n → (∀ b, b ≠ a → ¬ s.Forces b n) → (u.load n).forced = false)
        ∧ (ax.stallCount < 7 → u.axis a = { ax.parkedBy .stall with
            state := .rest, stallCount := ax.stallCount + 1, pending := ax.pending
            restRemaining := some (2 * 2 ^ min ax.stallCount 4 * 1000) })
        ∧ (7 ≤ ax.stallCount → u.axis a = { ax.parkedBy .stall with
            state := .lockout, stallCount := 8, jam := some ax.position } ∧ u.driveOutputs.notices.axisLockout = true))

/-- REST_EXPIRY: the first of five tests that fails parks the axis, with its END REASON kept, OBSTRUCTED, INTERLOCK or NO_BUDGET;
where all pass the axis re-enters WARN with its PENDING MOTION as it stands, a fresh grant, and its channel started. Where no entry
watches the axis, a retry leaves the other loads, the shed list and SHED_CHANGE as the grant does, and a parking changes no load.
Model's choice (log entry 4): the expiry command of a timer with time left changes nothing. -/
def Obligations.a_rest_ends_in_a_retry_or_parks : Prop :=
  ∀ (s : State) (a : AxisNo),
    let ax := s.axis a
    (ax.restRemaining ≠ some 0 ∨ ax.state ≠ .rest → exec (.restExpiry a) s = .next s.driveOutputs)
    ∧ (ax.restRemaining = some 0 → ax.state = .rest → s.Lawful →
      let parks := fun (er : EndReason) (fault : Bool) => ∃ u, exec (.restExpiry a) s = .next u.driveOutputs
        ∧ AxisFrame a s u ∧ u.axis a = ax.parkedBy er ∧ u.channel a = (s.channel a).finish ∧ GivesBack a s u
        ∧ u.notices = { s.notices with axisFault := s.notices.axisFault || fault, shedChange := u.notices.shedChange }
      (ax.pending = none → parks ax.endReason false)
      ∧ ∀ p, ax.pending = some p →
        ((∀ c ∈ s.claims, c.target = .axis a → c.holder ≠ p.origin) → parks ax.endReason false)
        ∧ ((∃ c ∈ s.claims, c.target = .axis a ∧ c.holder = p.origin) →
          ((s.axisIn a).edge = true → parks .obstructed true)
          ∧ ((s.axisIn a).edge = false →
            (s.blocked a p.direction = true → parks .interlock false)
            ∧ (s.blocked a p.direction = false →
              (s.grant a = none → parks .noBudget false)
              ∧ ∀ g, s.grant a = some g → ∃ u, exec (.restExpiry a) s = .next u.driveOutputs ∧ AxisFrame a s u
                ∧ u.axis a = { ax with state := .warn, speed := 0, restRemaining := none } ∧ u.held a = ax.demand
                ∧ (∀ n, ax.courtesy = some n → (u.load n).forced = true ∧ (u.load n).level = 1000)
                ∧ (s.Unwatched a → EntersWarn a g u)
                ∧ (u.channel a).state = .sounding ∧ (u.channel a).warnCount = 0
                ∧ ((s.channel a).state = .finishing → u.channel a
                    = { s.channel a with state := .sounding, warnCount := 0, discard := true })
                ∧ u.notices = { s.notices with shedChange := u.notices.shedChange }))))

/-- POSITION_PULSE: POSITION moves by one in DIRECTION, stopping at 0 and at 16383. In RUN it also counts RUN DISTANCE, restarts an
armed pulse watch and tests the normal ends; in any other state nothing else of the axis changes. -/
def Obligations.a_pulse_counts_position : Prop :=
  ∀ (s : State) (a : AxisNo), s.InterlockLaw → s.EntryLaw →
    let ax := s.axis a
    let position := match ax.direction with
      | .extend => if ax.position < 16383 then ax.position + 1 else ax.position
      | .retract => if 0 < ax.position then ax.position - 1 else 0
    let x := { ax with
      position := position, runDistance := if ax.runDistance < 65535 then ax.runDistance + 1 else 65535
      pulseWatch :=
        if ax.monitoring = true ∧ ax.pulseWatch ≠ none then some (ax.stallWindow * 10) else ax.pulseWatch }
    (ax.state ≠ .run → position = ax.position → exec (.positionPulse a) s = .next s.driveOutputs)
    ∧ ∃ u, exec (.positionPulse a) s = .next u.driveOutputs ∧ AxisFrame a s u
        ∧ u.channel a = s.channel a ∧ u.notices = { s.notices with shedChange := u.notices.shedChange }
        ∧ (ax.state ≠ .run → u.axis a = { ax with position := position })
        ∧ (ax.state = .run → u.axis a = match x.endFound with | some er => x.stoppedBy er | none => x)

/-- HOME_ACTIVE: in every state POSITION becomes 0 and VERIFIED is set; a retracting run ends with HOME. The home and edge inputs
becoming inactive change the input alone. The current sense starts the over-current timer as it rises above the threshold in
monitored RUN and stops it as it falls back.
Model's choice (log entries 12 and 17): the two current events carry the new current, and an input event is taken whatever level the pin held. -/
def Obligations.home_and_the_quiet_inputs : Prop :=
  ∀ (s : State) (a : AxisNo),
    let ax := s.axis a
    let i := s.axisIn a
    let x := { ax with position := 0, verified := true }
    (s.InterlockLaw → s.EntryLaw → ∃ u, exec (.homeActive a) s = .next u.driveOutputs
      ∧ AxisFrame a (s.setAxisIn a { i with home := true }) u
      ∧ u.channel a = s.channel a ∧ u.notices = { s.notices with shedChange := u.notices.shedChange }
      ∧ u.axis a =
          if ax.state = .run then
            (if ax.direction = .retract then x.stoppedBy .home
              else match x.endFound with | some er => x.stoppedBy er | none => x)
          else x)
    ∧ exec (.homeInactive a) s = .next (s.setAxisIn a { i with home := false }).driveOutputs
    ∧ exec (.safetyEdgeInactive a) s = .next (s.setAxisIn a { i with edge := false }).driveOutputs
    ∧ ∀ current : Byte,
        let timer :=
          if ax.monitoring = true ∧ ax.state = .run then
            (if ax.overCurrent < current.toNat then (if i.current ≤ ax.overCurrent then some 100 else ax.overCurrentTimer)
              else none)
          else ax.overCurrentTimer
        let t := (s.setAxisIn a { i with current := current.toNat }).setAxis a { ax with overCurrentTimer := timer }
        exec (.currentRise a current) s = .next t.driveOutputs ∧ exec (.currentFall a current) s = .next t.driveOutputs

/-- SAFETY_EDGE_ACTIVE by state: WARN parks with OBSTRUCTED; RUN stops at once with OBSTRUCTED, its PENDING MOTION removed and its
brake settle begun; both raise AXIS_FAULT; STOPPING at speed stops at once, END REASON kept; otherwise only the input changes.
Where no entry watches an axis parked from WARN, the loads and the budget are those of a motion's end, its fall answered (R110, R111).
Model's choice (log entry 17): the event is taken whatever level the pin held. -/
def Obligations.the_safety_edge : Prop :=
  ∀ (s : State) (a : AxisNo),
    let ax := s.axis a
    let r := s.setAxisIn a { s.axisIn a with edge := true }
    let faulted := fun u : State => u.notices = { s.notices with axisFault := true, shedChange := u.notices.shedChange }
    match ax.state with
    | .warn => ∃ u, exec (.safetyEdgeActive a) s = .next u.driveOutputs ∧ AxisFrame a r u
        ∧ u.axis a = ax.parkedBy .obstructed ∧ u.channel a = (s.channel a).finish ∧ u.held a = 0 ∧ faulted u ∧ GivesBack a s u
    | .run => ∃ u, exec (.safetyEdgeActive a) s = .next u.driveOutputs ∧ AxisFrame a r u
        ∧ u.axis a = ({ ax with speed := 0, pending := none } : AxisRec).stoppedBy .obstructed ∧ u.channel a = s.channel a
        ∧ u.held a = s.held a ∧ faulted u
    | .stopping => exec (.safetyEdgeActive a) s = .next (State.driveOutputs
        (if 0 < ax.speed then r.setAxis a { ax with speed := 0, rampTimer := none, brakeTimer := some 300 } else r))
    | .rest | .parked | .lockout => exec (.safetyEdgeActive a) s = .next r.driveOutputs

/-- WRITE_INTERLOCK: BAD_VALUE for each value R160 lists; else the place is emptied or takes the entry, whose subject is stopped in the
same event if it moves in a direction the satisfied entry blocks. -/
def Obligations.write_interlock_is_tested_at_once : Prop :=
  ∀ (s : State) (o : Origin) (index subject condition hi lo : Byte) (present : Bool) (dir : BlockDir) (rel : Relation),
    s.Takes .writeInterlock o →
    let threshold := hi.toNat * 256 + lo.toNat
    let body : List Byte :=
      [index, if present then 1 else 0, subject, match dir with | .extend => 1 | .retract => 2 | .any => 3, condition,
       match rel with | .below => 1 | .above => 2 | .notParked => 3, hi, lo]
    let answer := fun (t : State) (code : ReplyCode) =>
      exec (.writeInterlock o body) s = .next (t.answered o ReqKind.writeInterlock.code (.plain code))
    let bad := 15 < index.toNat ∨ present = true ∧ (2 < subject.toNat ∨ 2 < condition.toNat ∨ condition = subject
      ∨ (rel = .below ∨ rel = .above) ∧ 16383 < threshold)
    (bad → answer (s.endReceipt o) .badValue)
    ∧ ∀ place : PlaceNo, place.val = index.toNat →
      (present = false → answer ((s.endReceipt o).setInterlock place none) .done)
      ∧ (present = true → ¬ bad → ∀ a c : AxisNo, a.val = subject.toNat → c.val = condition.toNat →
          let e : Interlock := { subject := a, direction := dir, condition := c, relation := rel
                                 threshold := if rel = .notParked then 0 else threshold }
          let r := (s.endReceipt o).setInterlock place (some e)
          let blocks := fun d : Direction =>
            s.satisfied e = true ∧ (dir = .any ∨ dir = (match d with | .extend => .extend | .retract => .retract))
          ((s.axis a).state = .warn → ∀ p, (s.axis a).pending = some p → blocks p.direction →
            ∃ u, answer u .done ∧ AxisFrame a r u ∧ u.axis a = (s.axis a).parkedBy .interlock
              ∧ u.channel a = (s.channel a).finish ∧ u.held a = 0)
          ∧ ((s.axis a).state = .run → blocks (s.axis a).direction →
            ∃ u, answer u .done ∧ AxisFrame a r u ∧ u.axis a = (s.axis a).stoppedBy .interlock
              ∧ u.channel a = s.channel a ∧ u.held a = s.held a)
          ∧ ((s.axis a).state = .warn → ∀ p, (s.axis a).pending = some p → ¬ blocks p.direction → answer r .done)
          ∧ ((s.axis a).state = .run → ¬ blocks (s.axis a).direction → answer r .done)
          ∧ ((s.axis a).state ≠ .warn → (s.axis a).state ≠ .run → answer r .done))

/-! ### Signals -/

/-- WRITE_SIGNAL: BAD_VALUE for a mark of 0 or more than 15 gap cycles; else the pattern is live at once on an IDLE channel, and
staged, in place of any staged before, on another; nothing else changes. -/
def Obligations.write_signal_is_live_or_staged : Prop :=
  ∀ (s : State) (o : Origin) (a : AxisNo) (p : Pattern), s.Takes .writeSignal o → p.primaryMark < 256 →
    p.primarySpace < 256 → p.secondaryMark < 256 → p.secondarySpace < 256 → p.gapCycles < 256 →
    let answer := fun (t : State) (code : ReplyCode) =>
      exec (.writeSignal o ((Target.axis a).bytes ++ patternBytes p)) s
        = .next (t.answered o ReqKind.writeSignal.code (.plain code))
    if p.primaryMark = 0 ∨ p.secondaryMark = 0 ∨ 15 < p.gapCycles then answer (s.endReceipt o) .badValue
    else if (s.channel a).state = .idle then
      answer ((s.endReceipt o).setChannel a { s.channel a with live := p, staged := none }) .done
    else answer ((s.endReceipt o).setChannel a { s.channel a with staged := some p }) .done

/-- The mark end and the cycle end of a channel. A staged pattern becomes live; a discarded cycle is not counted and a PRIMARY cycle
follows; a sounded cycle is counted, and the one that reaches WARN CYCLES makes the channel IDLE and carries its axis from WARN into
RUN; else the next cycle is that of R170's table. A FINISHING channel goes IDLE. A timer that does not run does nothing.
Model's choice (log entry 4): the expiry command of a timer with time left changes nothing. -/
def Obligations.signal_cycles_lead_to_run : Prop :=
  ∀ (s : State) (a : AxisNo), s.Lawful →
    let ax := s.axis a
    let ch := s.channel a
    let live := match ch.staged with | some p => p | none => ch.live
    let base := { ch with live := live, staged := none }
    let starts := fun (x : Channel) (c : Cycle) => { x with
      cycle := some c, phase := if c = .gap then none else some .mark
      markTimer := match c with
        | .primary => if live.primarySpace = 0 then none else some (live.primaryMark * 10)
        | .secondary => if live.secondarySpace = 0 then none else some (live.secondaryMark * 10)
        | .gap => none
      cycleTimer := match c with
        | .secondary => some ((live.secondaryMark + live.secondarySpace) * 10)
        | .primary | .gap => some ((live.primaryMark + live.primarySpace) * 10) }
    let idle := { base with
      state := .idle, cycle := none, phase := none, gapLeft := 0, warnCount := 0, discard := false
      markTimer := none, cycleTimer := none }
    let becomes := fun x : Channel => exec (.signalCycleEnd a) s = .next (s.setChannel a x).driveOutputs
    (exec (.signalMarkEnd a) s = .next (State.driveOutputs
      (if ch.markTimer ≠ some 0 then s else s.setChannel a { ch with phase := some .space, markTimer := none })))
    ∧ (ch.cycleTimer ≠ some 0 ∨ ch.cycle = none → exec (.signalCycleEnd a) s = .next s.driveOutputs)
    ∧ ∀ c, ch.cycleTimer = some 0 → ch.cycle = some c →
      (ch.state = .finishing → becomes idle)
      ∧ (ch.state = .sounding →
        (ch.discard = true → becomes (starts { base with discard := false, gapLeft := 0 } .primary))
        ∧ (ch.discard = false →
          let counted := { base with warnCount := if c = .gap then ch.warnCount else ch.warnCount + 1 }
          (c ≠ .gap → ch.warnCount + 1 = ax.warnCycles → ∀ p, ax.pending = some p →
            let x := { ax with
              state := .run, direction := p.direction, runDistance := 0, speed := 0, rampTimer := some 10
              confirmTimer := some 200, brakeTimer := none, monitoring := false, pulseWatch := none, overCurrentTimer := none }
            ∃ u, exec (.signalCycleEnd a) s = .next u.driveOutputs ∧ AxisFrame a (s.setChannel a idle) u
              ∧ u.channel a = idle ∧ u.held a = s.held a ∧ u.notices = { s.notices with shedChange := u.notices.shedChange }
              ∧ u.axis a =
                  if p.direction = .retract ∧ (s.axisIn a).home = true then
                    ({ x with position := 0, verified := true } : AxisRec).stoppedBy .home
                  else match x.endFound with | some er => x.stoppedBy er | none => x)
          ∧ (c = .gap ∨ ch.warnCount + 1 ≠ ax.warnCycles → becomes
              (match c with
                | .primary =>
                  if live.mode = .twoTone then starts counted .secondary
                  else if live.gapCycles = 0 then starts counted .primary
                  else starts { counted with gapLeft := live.gapCycles - 1 } .gap
                | .secondary =>
                  if live.gapCycles = 0 then starts counted .primary
                  else starts { counted with gapLeft := live.gapCycles - 1 } .gap
                | .gap =>
                  if 0 < ch.gapLeft ∧ 0 < live.gapCycles then starts { counted with gapLeft := ch.gapLeft - 1 } .gap
                  else starts { counted with gapLeft := 0 } .primary))))

/-! ### Run state, notices, lockout, resets -/

/-- START makes the part RUNNING and nothing else. HALT parks axes in WARN and REST, stops those in RUN, their PENDING MOTION
removed, and leaves the others; every claim is retired and every stack cleared, and the part is HALTED.
Deduced (log entry 9): R138 holds at HALT as at any end but STALL, NO_LOAD and RESET. -/
def Obligations.start_and_halt : Prop :=
  ∀ (s : State) (o : Origin),
    (s.Takes .start o → exec (.start o []) s
      = .next ({ s.endReceipt o with device := { s.device with runState := .running } }.answered o ReqKind.start.code
          (.plain .done)))
    ∧ (s.Takes .halt o → s.InterlockLaw → ∃ u, exec (.halt o []) s = .next (u.answered o ReqKind.halt.code (.plain .done))
        ∧ OnlyMachines { s.endReceipt o with
            claims := [], returnStacks := Vector.replicate 16 [], device := { s.device with runState := .halted } } u
        ∧ SameConfigs s u ∧ (∀ n, (u.load n).setTarget = (s.load n).setTarget)
        ∧ u.budget.available = s.budget.available ∧ u.notices = { s.notices with shedChange := u.notices.shedChange }
        ∧ (∀ a, match (s.axis a).state with
            | .warn | .rest => u.axis a = (s.axis a).parkedBy .halt ∧ u.channel a = (s.channel a).finish ∧ u.held a = 0
            | .run => u.axis a = ({ s.axis a with pending := none } : AxisRec).stoppedBy .halt
                ∧ u.channel a = s.channel a ∧ u.held a = s.held a
            | .parked | .stopping | .lockout => u.axis a = s.axis a ∧ u.channel a = s.channel a ∧ u.held a = s.held a)
        ∧ ((∀ a, (s.axis a).state ≠ .warn ∧ (s.axis a).state ≠ .rest) → ∀ n, u.load n = s.load n))

/-- READ_NOTICE returns the pending condition of highest priority, clears it where it is an edge condition, leaves it pending where it
is a level condition, and returns NONE where nothing is pending; nothing else changes but the NOTICE line. -/
def Obligations.read_notice_returns_the_highest : Prop :=
  ∀ (s : State) (o : Origin), s.Takes .readNotice o → s.OutputLaw →
    let returns := fun (code : Nat) (left : Notices) =>
      exec (.readNotice o []) s = .next
        ({ s.endReceipt o with
            notices := left
            noticeLine := left.axisLockout || left.deficit || left.axisFault || left.motionLeaseLost || left.shedChange
              || left.resetNotice }.postReply o ReqKind.readNotice.code (.condition code))
    let p := s.notices
    if p.axisLockout then returns 1 p
    else if p.deficit then returns 2 p
    else if p.axisFault then returns 3 { p with axisFault := false }
    else if p.motionLeaseLost then returns 4 { p with motionLeaseLost := false }
    else if p.shedChange then returns 5 { p with shedChange := false }
    else if p.resetNotice then returns 6 { p with resetNotice := false }
    else returns 0 p

/-- CLEAR_LOCKOUT, from the Management Link in both run states, parks an axis in LOCKOUT with its stall count 0, its jam position absent
and END REASON CLEARED, and changes nothing of an axis in any other state; the reply is DONE in every state. -/
def Obligations.clear_lockout_parks_the_axis : Prop :=
  ∀ (s : State) (o : Origin) (a : AxisNo), s.Takes .clearLockout o → s.InterlockLaw →
    exec (.clearLockout o (Target.axis a).bytes) s = .next (State.answered
      (if (s.axis a).state = .lockout then
        (s.endReceipt o).setAxis a { s.axis a with state := .parked, stallCount := 0, jam := none, endReason := .cleared }
      else s.endReceipt o) o ReqKind.clearLockout.code (.plain .done))

/-- SETTLE_EXPIRY ends the settle interval: every output begins its first period; after a power-on reset nothing else changes; after a
warm reset each DIM load with an effective target above 0 starts a fade of 100 steps from level 0, and each SWITCH load to be on is
set to 1000 at once, no counted draw changing. A settle timer that does not run does nothing.
Model's choice (log entry 4): the expiry command of a timer with time left changes nothing. -/
def Obligations.the_settle_interval_ends : Prop :=
  ∀ s : State,
    ((∀ k, s.settle ≠ some { kind := k, timer := some 0 }) → exec .settleExpiry s = .next s.driveOutputs)
    ∧ (s.settle = some { kind := .powerOn, timer := some 0 } → ∃ t : State, exec .settleExpiry s = .next t.driveOutputs
        ∧ t = { s with settle := none, outputs := t.outputs } ∧ ∀ n, t.output n = { s.output n with period := some 1 })
    ∧ (s.settle = some { kind := .warm, timer := some 0 } → s.DerivedLaw →
        (∀ n, (s.load n).level = 0 ∧ (s.load n).fade = none ∧ (s.load n).forced = false) → ∃ t : State,
        exec .settleExpiry s = .next t.driveOutputs
        ∧ t = { s with settle := none, outputs := t.outputs, loads := t.loads }
        ∧ (∀ n,
            let e := (s.load n).effTarget
            let fade : Fade := { rising := true, q := e / 100, r := e % 100, n := 100, remaining := 100, acc := 0, stepTimer := 20 }
            t.load n = match (s.load n).kind with
              | .none => s.load n
              | .switch => { s.load n with level := e }
              | .dim => { s.load n with fade := if e = 0 then none else some fade })
        ∧ ∀ n, t.output n = { s.output n with
            period := some 1
            staged := if (s.load n).kind = LoadKind.switch ∧ 0 < (s.load n).effTarget then some 4095 else (s.output n).staged })

/-- A power-on reset leaves every record at its power-on value, whatever it held: the part is `State.reset` but for its input pins,
the supply and the queue; a persisting source holds the settle timer back.
Model's choice (log entries 3, 5 and 6): the input pins, the free-choice counter and the bytes last put out. -/
def Obligations.power_on_reset : Prop :=
  (∀ (s : State) (low : Bool), exec (.powerOnReset low) s = .next { State.reset with
      pending := s.pending, axisInputs := s.axisInputs, resetInput := s.resetInput, tieCount := s.tieCount, supplyLow := low
      settle := some { kind := .powerOn, timer := if s.resetInput = true ∨ low = true then none else some 250 } })
    ∧ (∀ n, State.reset.load n = {
        kind := .none, space := 0, groupMask := 0, shedRank := 0, shedLevel := 0, ratedPower := 0, minDuty := 0, setTarget := 0
        effTarget := 0, level := 0, fade := none, shed := false, forced := false, countedDraw := 0 })
    ∧ (∀ n, State.reset.output n = { live := 0, staged := none, period := none })
    ∧ (∀ v, State.reset.scene v = { owner := .live, defaultFade := 0, entries := [] })
    ∧ (∀ p, State.reset.returnStack p = []) ∧ (∀ o, State.reset.station o = none) ∧ State.reset.claims = []
    ∧ (∀ a, (State.reset.axis a).state = .parked ∧ (State.reset.axis a).position = 0
        ∧ (State.reset.axis a).verified = false ∧ (State.reset.axis a).endReason = .none
        ∧ (State.reset.axis a).softHigh = 16383 ∧ (State.reset.axis a).stallCount = 0 ∧ State.reset.held a = 0)
    ∧ (∀ p, State.reset.interlock p = none)
    ∧ (∀ a, (State.reset.channel a).live = { primaryMark := 30, primarySpace := 20, secondaryMark := 15, secondarySpace := 10
                                             mode := .twoTone, gapCycles := 0 } ∧ (State.reset.channel a).state = .idle)
    ∧ State.reset.device = { runState := .halted, resetCause := .powerOn, motionAtReset := false }
    ∧ State.reset.notices.resetNotice = true ∧ State.reset.noticeLine = false ∧ State.reset.budget.available = 0
    ∧ State.reset.budget.committed = 0 ∧ State.reset.budget.deficit = false ∧ State.reset.budget.shedList = []

/-- A warm reset keeps configurations, set targets, sheds, AVAILABLE, stations, interlock entries, scenes and the run state, and takes
every other record to its value after a warm reset; within the settle interval of an earlier reset the device record is kept as R178
says. The end of the last persisting source starts the settle timer.
Model's choice (log entries 5 and 7): the input pins are kept, and the settle timer starts when the last of two persisting sources has ended. -/
def Obligations.warm_reset_and_source_end : Prop :=
  ∀ s : State,
    (∀ (cause : WarmCause) (persists : Bool), ∃ t, exec (.warmReset cause persists) s = .next t
      ∧ t.pending = s.pending ∧ t.busRx = [] ∧ t.linkRx = [] ∧ t.busReplies = [] ∧ t.linkReply = none
      ∧ t.stations = s.stations ∧ t.claims = [] ∧ t.interlocks = s.interlocks ∧ t.axisInputs = s.axisInputs
      ∧ (∀ n, let l := ({ s.load n with forced := false } : LoadRec)
          t.load n = { l with
            fade := none, level := 0, effTarget := l.effectiveTarget, countedDraw := l.drawAt l.effectiveTarget })
      ∧ (∀ n, t.output n = { live := 0, staged := none, period := none })
      ∧ (∀ v, t.scene v = { s.scene v with owner := .live }) ∧ (∀ p, t.returnStack p = [])
      ∧ t.budget.available = s.budget.available ∧ t.budget.shedList = s.budget.shedList ∧ (∀ a, t.held a = 0)
      ∧ t.budget.committed = ((List.finRange 96).map fun n => (t.load n).countedDraw).sum
      ∧ (t.budget.deficit = true ↔ t.budget.available < t.budget.committed)
      ∧ (∀ a, let ax := s.axis a
          let out := { ax with
            speed := 0, pending := none, restRemaining := none, verified := false, runDistance := 0, rampTimer := none
            brakeTimer := none, confirmTimer := none, monitoring := false, pulseWatch := none, overCurrentTimer := none }
          t.axis a = match ax.state with
            | .warn | .run | .stopping | .rest => { out with state := .parked, endReason := .reset }
            | .parked | .lockout => out)
      ∧ (∀ a, t.channel a = { s.channel a with
            live := match (s.channel a).staged with | some p => p | none => (s.channel a).live
            staged := none, state := .idle, cycle := none, phase := none, gapLeft := 0, warnCount := 0, discard := false
            markTimer := none, cycleTimer := none })
      ∧ (∀ a, t.axisPins.get a = { direction := false, drive := 0, brake := false }
          ∧ t.signalPins.get a = { beacon := false, tone := false })
      ∧ t.notices = { axisLockout := t.anyLockout, deficit := t.budget.deficit, axisFault := false, motionLeaseLost := false
                      shedChange := false, resetNotice := true }
      ∧ t.noticeLine = false
      ∧ t.device.runState = s.device.runState
      ∧ t.device.resetCause = (match s.settle with
          | some { kind := .powerOn, .. } => .powerOn
          | _ => match cause with | .brownout => .brownout | .pin => .pin)
      ∧ (∀ timer, s.settle = some { kind := .warm, timer := timer } → t.device.motionAtReset = s.device.motionAtReset)
      ∧ ((∀ timer, s.settle ≠ some { kind := .warm, timer := timer }) → (t.device.motionAtReset = true
          ↔ ∃ a, (s.axis a).state = .warn ∨ (s.axis a).state = .run ∨ (s.axis a).state = .stopping))
      ∧ t.supplyLow = (if cause = .brownout then persists else s.supplyLow)
      ∧ t.resetInput = (if cause = .pin then persists else s.resetInput)
      ∧ t.settle = some (match s.settle with
          | some { kind := .powerOn, .. } =>
            { kind := .powerOn, timer := if t.supplyLow = true ∨ t.resetInput = true then none else some 250 }
          | _ => { kind := .warm, timer := if t.supplyLow = true ∨ t.resetInput = true then none else some 100 }))
    ∧ ∀ source : ResetSource,
        let t := match source with | .supply => { s with supplyLow := false } | .pin => { s with resetInput := false }
        let ended := (t.supplyLow = false ∧ t.resetInput = false)
        (∀ k, s.settle = some { kind := k, timer := none } → ended →
          exec (.resetSourceEnd source) s = .next (State.driveOutputs { t with
            settle := some { kind := k, timer := some (match k with | .powerOn => 250 | .warm => 100) } }))
        ∧ (¬ ended ∨ (∀ k, s.settle ≠ some { kind := k, timer := none }) →
            exec (.resetSourceEnd source) s = .next t.driveOutputs)

/-! ### Laws of the part -/

/-- Right after reset every law of the part holds; and a power-on reset in any state leaves a state in which they hold. -/
def Obligations.reset_is_lawful : Prop :=
  State.reset.Lawful ∧ ∀ (s : State) (low : Bool) (t : State), exec (.powerOnReset low) s = .next t → t.Lawful

/-- Every step from a lawful state keeps the laws of ports, claims, scenes and interlock entries: the reply queue holds at most 4, at
most 32 claims are live, no load is covered twice, scenes and stacks keep their bounds, and no entry watches its own subject. -/
def Obligations.every_step_keeps_claims_and_scenes : Prop :=
  ∀ s t : State, s.Lawful → step s = .next t →
    t.QueueLaw ∧ t.ClaimRoomLaw ∧ t.CoverageLaw ∧ t.StackLaw ∧ t.EntryLaw

/-- Every step from a lawful state keeps the laws of loads and budget: levels in range, derived values, sound fades, the shed list,
COMMITTED equal to the sum of draws and demands and within AVAILABLE unless DEFICIT is set; and while DEFICIT stays set COMMITTED
does not rise. -/
def Obligations.every_step_keeps_loads_and_budget : Prop :=
  ∀ s t : State, s.Lawful → step s = .next t →
    t.LevelLaw ∧ t.DerivedLaw ∧ t.KindLaw ∧ t.FadeLaw ∧ t.ShedLaw ∧ t.LedgerLaw ∧ t.BudgetLaw
      ∧ (s.budget.deficit = true → t.budget.deficit = true → t.budget.committed ≤ s.budget.committed)

/-- Every step from a lawful state keeps the laws of axes, channels and outputs: a load is forced exactly by an axis in motion, an axis
in WARN or RUN is held and not blocked, LOCKOUT goes with a stall count of 8 or NO_LOAD, a channel sounds exactly in WARN, and the
notices and output pins are what the records give. -/
def Obligations.every_step_keeps_axes_and_outputs : Prop :=
  ∀ s t : State, s.Lawful → step s = .next t →
    t.ForceLaw ∧ t.HoldLaw ∧ t.LockoutLaw ∧ t.InterlockLaw ∧ t.SoundingLaw ∧ t.OutputLaw ∧ t.AxisRangeLaw
end

