-- ==== Sys2Proof/Laws/State.lean ====
section
/-! SUPPORT. Laws/State.lean: what each update of the state leaves in each field. -/

namespace Sys2Proof.Machine

variable (s : State)

/-! ### setLoad -/

@[simp] theorem State.setLoad_pending (n : LoadNo) (l : LoadRec) : (s.setLoad n l).pending = s.pending := rfl
@[simp] theorem State.setLoad_busRx (n : LoadNo) (l : LoadRec) : (s.setLoad n l).busRx = s.busRx := rfl
@[simp] theorem State.setLoad_linkRx (n : LoadNo) (l : LoadRec) : (s.setLoad n l).linkRx = s.linkRx := rfl
@[simp] theorem State.setLoad_busReplies (n : LoadNo) (l : LoadRec) : (s.setLoad n l).busReplies = s.busReplies := rfl
@[simp] theorem State.setLoad_linkReply (n : LoadNo) (l : LoadRec) : (s.setLoad n l).linkReply = s.linkReply := rfl
@[simp] theorem State.setLoad_busTx (n : LoadNo) (l : LoadRec) : (s.setLoad n l).busTx = s.busTx := rfl
@[simp] theorem State.setLoad_linkTx (n : LoadNo) (l : LoadRec) : (s.setLoad n l).linkTx = s.linkTx := rfl
@[simp] theorem State.setLoad_stations (n : LoadNo) (l : LoadRec) : (s.setLoad n l).stations = s.stations := rfl
@[simp] theorem State.setLoad_claims (n : LoadNo) (l : LoadRec) : (s.setLoad n l).claims = s.claims := rfl
@[simp] theorem State.setLoad_loads (n : LoadNo) (l : LoadRec) : (s.setLoad n l).loads = s.loads.set n l := rfl
@[simp] theorem State.setLoad_outputs (n : LoadNo) (l : LoadRec) : (s.setLoad n l).outputs = s.outputs := rfl
@[simp] theorem State.setLoad_scenes (n : LoadNo) (l : LoadRec) : (s.setLoad n l).scenes = s.scenes := rfl
@[simp] theorem State.setLoad_returnStacks (n : LoadNo) (l : LoadRec) : (s.setLoad n l).returnStacks = s.returnStacks := rfl
@[simp] theorem State.setLoad_budget (n : LoadNo) (l : LoadRec) : (s.setLoad n l).budget = s.budget := rfl
@[simp] theorem State.setLoad_axes (n : LoadNo) (l : LoadRec) : (s.setLoad n l).axes = s.axes := rfl
@[simp] theorem State.setLoad_axisInputs (n : LoadNo) (l : LoadRec) : (s.setLoad n l).axisInputs = s.axisInputs := rfl
@[simp] theorem State.setLoad_axisPins (n : LoadNo) (l : LoadRec) : (s.setLoad n l).axisPins = s.axisPins := rfl
@[simp] theorem State.setLoad_interlocks (n : LoadNo) (l : LoadRec) : (s.setLoad n l).interlocks = s.interlocks := rfl
@[simp] theorem State.setLoad_channels (n : LoadNo) (l : LoadRec) : (s.setLoad n l).channels = s.channels := rfl
@[simp] theorem State.setLoad_signalPins (n : LoadNo) (l : LoadRec) : (s.setLoad n l).signalPins = s.signalPins := rfl
@[simp] theorem State.setLoad_device (n : LoadNo) (l : LoadRec) : (s.setLoad n l).device = s.device := rfl
@[simp] theorem State.setLoad_settle (n : LoadNo) (l : LoadRec) : (s.setLoad n l).settle = s.settle := rfl
@[simp] theorem State.setLoad_resetInput (n : LoadNo) (l : LoadRec) : (s.setLoad n l).resetInput = s.resetInput := rfl
@[simp] theorem State.setLoad_supplyLow (n : LoadNo) (l : LoadRec) : (s.setLoad n l).supplyLow = s.supplyLow := rfl
@[simp] theorem State.setLoad_notices (n : LoadNo) (l : LoadRec) : (s.setLoad n l).notices = s.notices := rfl
@[simp] theorem State.setLoad_noticeLine (n : LoadNo) (l : LoadRec) : (s.setLoad n l).noticeLine = s.noticeLine := rfl
@[simp] theorem State.setLoad_tieCount (n : LoadNo) (l : LoadRec) : (s.setLoad n l).tieCount = s.tieCount := rfl

/-! ### setOutput -/

@[simp] theorem State.setOutput_pending (n : LoadNo) (x : Output) : (s.setOutput n x).pending = s.pending := rfl
@[simp] theorem State.setOutput_busRx (n : LoadNo) (x : Output) : (s.setOutput n x).busRx = s.busRx := rfl
@[simp] theorem State.setOutput_linkRx (n : LoadNo) (x : Output) : (s.setOutput n x).linkRx = s.linkRx := rfl
@[simp] theorem State.setOutput_busReplies (n : LoadNo) (x : Output) : (s.setOutput n x).busReplies = s.busReplies := rfl
@[simp] theorem State.setOutput_linkReply (n : LoadNo) (x : Output) : (s.setOutput n x).linkReply = s.linkReply := rfl
@[simp] theorem State.setOutput_busTx (n : LoadNo) (x : Output) : (s.setOutput n x).busTx = s.busTx := rfl
@[simp] theorem State.setOutput_linkTx (n : LoadNo) (x : Output) : (s.setOutput n x).linkTx = s.linkTx := rfl
@[simp] theorem State.setOutput_stations (n : LoadNo) (x : Output) : (s.setOutput n x).stations = s.stations := rfl
@[simp] theorem State.setOutput_claims (n : LoadNo) (x : Output) : (s.setOutput n x).claims = s.claims := rfl
@[simp] theorem State.setOutput_loads (n : LoadNo) (x : Output) : (s.setOutput n x).loads = s.loads := rfl
@[simp] theorem State.setOutput_outputs (n : LoadNo) (x : Output) : (s.setOutput n x).outputs = s.outputs.set n x := rfl
@[simp] theorem State.setOutput_scenes (n : LoadNo) (x : Output) : (s.setOutput n x).scenes = s.scenes := rfl
@[simp] theorem State.setOutput_returnStacks (n : LoadNo) (x : Output) : (s.setOutput n x).returnStacks = s.returnStacks := rfl
@[simp] theorem State.setOutput_budget (n : LoadNo) (x : Output) : (s.setOutput n x).budget = s.budget := rfl
@[simp] theorem State.setOutput_axes (n : LoadNo) (x : Output) : (s.setOutput n x).axes = s.axes := rfl
@[simp] theorem State.setOutput_axisInputs (n : LoadNo) (x : Output) : (s.setOutput n x).axisInputs = s.axisInputs := rfl
@[simp] theorem State.setOutput_axisPins (n : LoadNo) (x : Output) : (s.setOutput n x).axisPins = s.axisPins := rfl
@[simp] theorem State.setOutput_interlocks (n : LoadNo) (x : Output) : (s.setOutput n x).interlocks = s.interlocks := rfl
@[simp] theorem State.setOutput_channels (n : LoadNo) (x : Output) : (s.setOutput n x).channels = s.channels := rfl
@[simp] theorem State.setOutput_signalPins (n : LoadNo) (x : Output) : (s.setOutput n x).signalPins = s.signalPins := rfl
@[simp] theorem State.setOutput_device (n : LoadNo) (x : Output) : (s.setOutput n x).device = s.device := rfl
@[simp] theorem State.setOutput_settle (n : LoadNo) (x : Output) : (s.setOutput n x).settle = s.settle := rfl
@[simp] theorem State.setOutput_resetInput (n : LoadNo) (x : Output) : (s.setOutput n x).resetInput = s.resetInput := rfl
@[simp] theorem State.setOutput_supplyLow (n : LoadNo) (x : Output) : (s.setOutput n x).supplyLow = s.supplyLow := rfl
@[simp] theorem State.setOutput_notices (n : LoadNo) (x : Output) : (s.setOutput n x).notices = s.notices := rfl
@[simp] theorem State.setOutput_noticeLine (n : LoadNo) (x : Output) : (s.setOutput n x).noticeLine = s.noticeLine := rfl
@[simp] theorem State.setOutput_tieCount (n : LoadNo) (x : Output) : (s.setOutput n x).tieCount = s.tieCount := rfl

/-! ### setAxis -/

@[simp] theorem State.setAxis_pending (a : AxisNo) (x : AxisRec) : (s.setAxis a x).pending = s.pending := rfl
@[simp] theorem State.setAxis_busRx (a : AxisNo) (x : AxisRec) : (s.setAxis a x).busRx = s.busRx := rfl
@[simp] theorem State.setAxis_linkRx (a : AxisNo) (x : AxisRec) : (s.setAxis a x).linkRx = s.linkRx := rfl
@[simp] theorem State.setAxis_busReplies (a : AxisNo) (x : AxisRec) : (s.setAxis a x).busReplies = s.busReplies := rfl
@[simp] theorem State.setAxis_linkReply (a : AxisNo) (x : AxisRec) : (s.setAxis a x).linkReply = s.linkReply := rfl
@[simp] theorem State.setAxis_busTx (a : AxisNo) (x : AxisRec) : (s.setAxis a x).busTx = s.busTx := rfl
@[simp] theorem State.setAxis_linkTx (a : AxisNo) (x : AxisRec) : (s.setAxis a x).linkTx = s.linkTx := rfl
@[simp] theorem State.setAxis_stations (a : AxisNo) (x : AxisRec) : (s.setAxis a x).stations = s.stations := rfl
@[simp] theorem State.setAxis_claims (a : AxisNo) (x : AxisRec) : (s.setAxis a x).claims = s.claims := rfl
@[simp] theorem State.setAxis_loads (a : AxisNo) (x : AxisRec) : (s.setAxis a x).loads = s.loads := rfl
@[simp] theorem State.setAxis_outputs (a : AxisNo) (x : AxisRec) : (s.setAxis a x).outputs = s.outputs := rfl
@[simp] theorem State.setAxis_scenes (a : AxisNo) (x : AxisRec) : (s.setAxis a x).scenes = s.scenes := rfl
@[simp] theorem State.setAxis_returnStacks (a : AxisNo) (x : AxisRec) : (s.setAxis a x).returnStacks = s.returnStacks := rfl
@[simp] theorem State.setAxis_budget (a : AxisNo) (x : AxisRec) : (s.setAxis a x).budget = s.budget := rfl
@[simp] theorem State.setAxis_axes (a : AxisNo) (x : AxisRec) : (s.setAxis a x).axes = s.axes.set a x := rfl
@[simp] theorem State.setAxis_axisInputs (a : AxisNo) (x : AxisRec) : (s.setAxis a x).axisInputs = s.axisInputs := rfl
@[simp] theorem State.setAxis_axisPins (a : AxisNo) (x : AxisRec) : (s.setAxis a x).axisPins = s.axisPins := rfl
@[simp] theorem State.setAxis_interlocks (a : AxisNo) (x : AxisRec) : (s.setAxis a x).interlocks = s.interlocks := rfl
@[simp] theorem State.setAxis_channels (a : AxisNo) (x : AxisRec) : (s.setAxis a x).channels = s.channels := rfl
@[simp] theorem State.setAxis_signalPins (a : AxisNo) (x : AxisRec) : (s.setAxis a x).signalPins = s.signalPins := rfl
@[simp] theorem State.setAxis_device (a : AxisNo) (x : AxisRec) : (s.setAxis a x).device = s.device := rfl
@[simp] theorem State.setAxis_settle (a : AxisNo) (x : AxisRec) : (s.setAxis a x).settle = s.settle := rfl
@[simp] theorem State.setAxis_resetInput (a : AxisNo) (x : AxisRec) : (s.setAxis a x).resetInput = s.resetInput := rfl
@[simp] theorem State.setAxis_supplyLow (a : AxisNo) (x : AxisRec) : (s.setAxis a x).supplyLow = s.supplyLow := rfl
@[simp] theorem State.setAxis_notices (a : AxisNo) (x : AxisRec) : (s.setAxis a x).notices = s.notices := rfl
@[simp] theorem State.setAxis_noticeLine (a : AxisNo) (x : AxisRec) : (s.setAxis a x).noticeLine = s.noticeLine := rfl
@[simp] theorem State.setAxis_tieCount (a : AxisNo) (x : AxisRec) : (s.setAxis a x).tieCount = s.tieCount := rfl

/-! ### setAxisIn -/

@[simp] theorem State.setAxisIn_pending (a : AxisNo) (x : AxisInputs) : (s.setAxisIn a x).pending = s.pending := rfl
@[simp] theorem State.setAxisIn_busRx (a : AxisNo) (x : AxisInputs) : (s.setAxisIn a x).busRx = s.busRx := rfl
@[simp] theorem State.setAxisIn_linkRx (a : AxisNo) (x : AxisInputs) : (s.setAxisIn a x).linkRx = s.linkRx := rfl
@[simp] theorem State.setAxisIn_busReplies (a : AxisNo) (x : AxisInputs) : (s.setAxisIn a x).busReplies = s.busReplies := rfl
@[simp] theorem State.setAxisIn_linkReply (a : AxisNo) (x : AxisInputs) : (s.setAxisIn a x).linkReply = s.linkReply := rfl
@[simp] theorem State.setAxisIn_busTx (a : AxisNo) (x : AxisInputs) : (s.setAxisIn a x).busTx = s.busTx := rfl
@[simp] theorem State.setAxisIn_linkTx (a : AxisNo) (x : AxisInputs) : (s.setAxisIn a x).linkTx = s.linkTx := rfl
@[simp] theorem State.setAxisIn_stations (a : AxisNo) (x : AxisInputs) : (s.setAxisIn a x).stations = s.stations := rfl
@[simp] theorem State.setAxisIn_claims (a : AxisNo) (x : AxisInputs) : (s.setAxisIn a x).claims = s.claims := rfl
@[simp] theorem State.setAxisIn_loads (a : AxisNo) (x : AxisInputs) : (s.setAxisIn a x).loads = s.loads := rfl
@[simp] theorem State.setAxisIn_outputs (a : AxisNo) (x : AxisInputs) : (s.setAxisIn a x).outputs = s.outputs := rfl
@[simp] theorem State.setAxisIn_scenes (a : AxisNo) (x : AxisInputs) : (s.setAxisIn a x).scenes = s.scenes := rfl
@[simp] theorem State.setAxisIn_returnStacks (a : AxisNo) (x : AxisInputs) : (s.setAxisIn a x).returnStacks = s.returnStacks := rfl
@[simp] theorem State.setAxisIn_budget (a : AxisNo) (x : AxisInputs) : (s.setAxisIn a x).budget = s.budget := rfl
@[simp] theorem State.setAxisIn_axes (a : AxisNo) (x : AxisInputs) : (s.setAxisIn a x).axes = s.axes := rfl
@[simp] theorem State.setAxisIn_axisInputs (a : AxisNo) (x : AxisInputs) : (s.setAxisIn a x).axisInputs = s.axisInputs.set a x := rfl
@[simp] theorem State.setAxisIn_axisPins (a : AxisNo) (x : AxisInputs) : (s.setAxisIn a x).axisPins = s.axisPins := rfl
@[simp] theorem State.setAxisIn_interlocks (a : AxisNo) (x : AxisInputs) : (s.setAxisIn a x).interlocks = s.interlocks := rfl
@[simp] theorem State.setAxisIn_channels (a : AxisNo) (x : AxisInputs) : (s.setAxisIn a x).channels = s.channels := rfl
@[simp] theorem State.setAxisIn_signalPins (a : AxisNo) (x : AxisInputs) : (s.setAxisIn a x).signalPins = s.signalPins := rfl
@[simp] theorem State.setAxisIn_device (a : AxisNo) (x : AxisInputs) : (s.setAxisIn a x).device = s.device := rfl
@[simp] theorem State.setAxisIn_settle (a : AxisNo) (x : AxisInputs) : (s.setAxisIn a x).settle = s.settle := rfl
@[simp] theorem State.setAxisIn_resetInput (a : AxisNo) (x : AxisInputs) : (s.setAxisIn a x).resetInput = s.resetInput := rfl
@[simp] theorem State.setAxisIn_supplyLow (a : AxisNo) (x : AxisInputs) : (s.setAxisIn a x).supplyLow = s.supplyLow := rfl
@[simp] theorem State.setAxisIn_notices (a : AxisNo) (x : AxisInputs) : (s.setAxisIn a x).notices = s.notices := rfl
@[simp] theorem State.setAxisIn_noticeLine (a : AxisNo) (x : AxisInputs) : (s.setAxisIn a x).noticeLine = s.noticeLine := rfl
@[simp] theorem State.setAxisIn_tieCount (a : AxisNo) (x : AxisInputs) : (s.setAxisIn a x).tieCount = s.tieCount := rfl

/-! ### setChannel -/

@[simp] theorem State.setChannel_pending (a : AxisNo) (x : Channel) : (s.setChannel a x).pending = s.pending := rfl
@[simp] theorem State.setChannel_busRx (a : AxisNo) (x : Channel) : (s.setChannel a x).busRx = s.busRx := rfl
@[simp] theorem State.setChannel_linkRx (a : AxisNo) (x : Channel) : (s.setChannel a x).linkRx = s.linkRx := rfl
@[simp] theorem State.setChannel_busReplies (a : AxisNo) (x : Channel) : (s.setChannel a x).busReplies = s.busReplies := rfl
@[simp] theorem State.setChannel_linkReply (a : AxisNo) (x : Channel) : (s.setChannel a x).linkReply = s.linkReply := rfl
@[simp] theorem State.setChannel_busTx (a : AxisNo) (x : Channel) : (s.setChannel a x).busTx = s.busTx := rfl
@[simp] theorem State.setChannel_linkTx (a : AxisNo) (x : Channel) : (s.setChannel a x).linkTx = s.linkTx := rfl
@[simp] theorem State.setChannel_stations (a : AxisNo) (x : Channel) : (s.setChannel a x).stations = s.stations := rfl
@[simp] theorem State.setChannel_claims (a : AxisNo) (x : Channel) : (s.setChannel a x).claims = s.claims := rfl
@[simp] theorem State.setChannel_loads (a : AxisNo) (x : Channel) : (s.setChannel a x).loads = s.loads := rfl
@[simp] theorem State.setChannel_outputs (a : AxisNo) (x : Channel) : (s.setChannel a x).outputs = s.outputs := rfl
@[simp] theorem State.setChannel_scenes (a : AxisNo) (x : Channel) : (s.setChannel a x).scenes = s.scenes := rfl
@[simp] theorem State.setChannel_returnStacks (a : AxisNo) (x : Channel) : (s.setChannel a x).returnStacks = s.returnStacks := rfl
@[simp] theorem State.setChannel_budget (a : AxisNo) (x : Channel) : (s.setChannel a x).budget = s.budget := rfl
@[simp] theorem State.setChannel_axes (a : AxisNo) (x : Channel) : (s.setChannel a x).axes = s.axes := rfl
@[simp] theorem State.setChannel_axisInputs (a : AxisNo) (x : Channel) : (s.setChannel a x).axisInputs = s.axisInputs := rfl
@[simp] theorem State.setChannel_axisPins (a : AxisNo) (x : Channel) : (s.setChannel a x).axisPins = s.axisPins := rfl
@[simp] theorem State.setChannel_interlocks (a : AxisNo) (x : Channel) : (s.setChannel a x).interlocks = s.interlocks := rfl
@[simp] theorem State.setChannel_channels (a : AxisNo) (x : Channel) : (s.setChannel a x).channels = s.channels.set a x := rfl
@[simp] theorem State.setChannel_signalPins (a : AxisNo) (x : Channel) : (s.setChannel a x).signalPins = s.signalPins := rfl
@[simp] theorem State.setChannel_device (a : AxisNo) (x : Channel) : (s.setChannel a x).device = s.device := rfl
@[simp] theorem State.setChannel_settle (a : AxisNo) (x : Channel) : (s.setChannel a x).settle = s.settle := rfl
@[simp] theorem State.setChannel_resetInput (a : AxisNo) (x : Channel) : (s.setChannel a x).resetInput = s.resetInput := rfl
@[simp] theorem State.setChannel_supplyLow (a : AxisNo) (x : Channel) : (s.setChannel a x).supplyLow = s.supplyLow := rfl
@[simp] theorem State.setChannel_notices (a : AxisNo) (x : Channel) : (s.setChannel a x).notices = s.notices := rfl
@[simp] theorem State.setChannel_noticeLine (a : AxisNo) (x : Channel) : (s.setChannel a x).noticeLine = s.noticeLine := rfl
@[simp] theorem State.setChannel_tieCount (a : AxisNo) (x : Channel) : (s.setChannel a x).tieCount = s.tieCount := rfl

/-! ### setScene -/

@[simp] theorem State.setScene_pending (v : SceneNo) (x : Scene) : (s.setScene v x).pending = s.pending := rfl
@[simp] theorem State.setScene_busRx (v : SceneNo) (x : Scene) : (s.setScene v x).busRx = s.busRx := rfl
@[simp] theorem State.setScene_linkRx (v : SceneNo) (x : Scene) : (s.setScene v x).linkRx = s.linkRx := rfl
@[simp] theorem State.setScene_busReplies (v : SceneNo) (x : Scene) : (s.setScene v x).busReplies = s.busReplies := rfl
@[simp] theorem State.setScene_linkReply (v : SceneNo) (x : Scene) : (s.setScene v x).linkReply = s.linkReply := rfl
@[simp] theorem State.setScene_busTx (v : SceneNo) (x : Scene) : (s.setScene v x).busTx = s.busTx := rfl
@[simp] theorem State.setScene_linkTx (v : SceneNo) (x : Scene) : (s.setScene v x).linkTx = s.linkTx := rfl
@[simp] theorem State.setScene_stations (v : SceneNo) (x : Scene) : (s.setScene v x).stations = s.stations := rfl
@[simp] theorem State.setScene_claims (v : SceneNo) (x : Scene) : (s.setScene v x).claims = s.claims := rfl
@[simp] theorem State.setScene_loads (v : SceneNo) (x : Scene) : (s.setScene v x).loads = s.loads := rfl
@[simp] theorem State.setScene_outputs (v : SceneNo) (x : Scene) : (s.setScene v x).outputs = s.outputs := rfl
@[simp] theorem State.setScene_scenes (v : SceneNo) (x : Scene) : (s.setScene v x).scenes = s.scenes.set v x := rfl
@[simp] theorem State.setScene_returnStacks (v : SceneNo) (x : Scene) : (s.setScene v x).returnStacks = s.returnStacks := rfl
@[simp] theorem State.setScene_budget (v : SceneNo) (x : Scene) : (s.setScene v x).budget = s.budget := rfl
@[simp] theorem State.setScene_axes (v : SceneNo) (x : Scene) : (s.setScene v x).axes = s.axes := rfl
@[simp] theorem State.setScene_axisInputs (v : SceneNo) (x : Scene) : (s.setScene v x).axisInputs = s.axisInputs := rfl
@[simp] theorem State.setScene_axisPins (v : SceneNo) (x : Scene) : (s.setScene v x).axisPins = s.axisPins := rfl
@[simp] theorem State.setScene_interlocks (v : SceneNo) (x : Scene) : (s.setScene v x).interlocks = s.interlocks := rfl
@[simp] theorem State.setScene_channels (v : SceneNo) (x : Scene) : (s.setScene v x).channels = s.channels := rfl
@[simp] theorem State.setScene_signalPins (v : SceneNo) (x : Scene) : (s.setScene v x).signalPins = s.signalPins := rfl
@[simp] theorem State.setScene_device (v : SceneNo) (x : Scene) : (s.setScene v x).device = s.device := rfl
@[simp] theorem State.setScene_settle (v : SceneNo) (x : Scene) : (s.setScene v x).settle = s.settle := rfl
@[simp] theorem State.setScene_resetInput (v : SceneNo) (x : Scene) : (s.setScene v x).resetInput = s.resetInput := rfl
@[simp] theorem State.setScene_supplyLow (v : SceneNo) (x : Scene) : (s.setScene v x).supplyLow = s.supplyLow := rfl
@[simp] theorem State.setScene_notices (v : SceneNo) (x : Scene) : (s.setScene v x).notices = s.notices := rfl
@[simp] theorem State.setScene_noticeLine (v : SceneNo) (x : Scene) : (s.setScene v x).noticeLine = s.noticeLine := rfl
@[simp] theorem State.setScene_tieCount (v : SceneNo) (x : Scene) : (s.setScene v x).tieCount = s.tieCount := rfl

/-! ### setReturnStack -/

@[simp] theorem State.setReturnStack_pending (p : SpaceNo) (x : List StackFrame) : (s.setReturnStack p x).pending = s.pending := rfl
@[simp] theorem State.setReturnStack_busRx (p : SpaceNo) (x : List StackFrame) : (s.setReturnStack p x).busRx = s.busRx := rfl
@[simp] theorem State.setReturnStack_linkRx (p : SpaceNo) (x : List StackFrame) : (s.setReturnStack p x).linkRx = s.linkRx := rfl
@[simp] theorem State.setReturnStack_busReplies (p : SpaceNo) (x : List StackFrame) : (s.setReturnStack p x).busReplies = s.busReplies := rfl
@[simp] theorem State.setReturnStack_linkReply (p : SpaceNo) (x : List StackFrame) : (s.setReturnStack p x).linkReply = s.linkReply := rfl
@[simp] theorem State.setReturnStack_busTx (p : SpaceNo) (x : List StackFrame) : (s.setReturnStack p x).busTx = s.busTx := rfl
@[simp] theorem State.setReturnStack_linkTx (p : SpaceNo) (x : List StackFrame) : (s.setReturnStack p x).linkTx = s.linkTx := rfl
@[simp] theorem State.setReturnStack_stations (p : SpaceNo) (x : List StackFrame) : (s.setReturnStack p x).stations = s.stations := rfl
@[simp] theorem State.setReturnStack_claims (p : SpaceNo) (x : List StackFrame) : (s.setReturnStack p x).claims = s.claims := rfl
@[simp] theorem State.setReturnStack_loads (p : SpaceNo) (x : List StackFrame) : (s.setReturnStack p x).loads = s.loads := rfl
@[simp] theorem State.setReturnStack_outputs (p : SpaceNo) (x : List StackFrame) : (s.setReturnStack p x).outputs = s.outputs := rfl
@[simp] theorem State.setReturnStack_scenes (p : SpaceNo) (x : List StackFrame) : (s.setReturnStack p x).scenes = s.scenes := rfl
@[simp] theorem State.setReturnStack_returnStacks (p : SpaceNo) (x : List StackFrame) : (s.setReturnStack p x).returnStacks = s.returnStacks.set p x := rfl
@[simp] theorem State.setReturnStack_budget (p : SpaceNo) (x : List StackFrame) : (s.setReturnStack p x).budget = s.budget := rfl
@[simp] theorem State.setReturnStack_axes (p : SpaceNo) (x : List StackFrame) : (s.setReturnStack p x).axes = s.axes := rfl
@[simp] theorem State.setReturnStack_axisInputs (p : SpaceNo) (x : List StackFrame) : (s.setReturnStack p x).axisInputs = s.axisInputs := rfl
@[simp] theorem State.setReturnStack_axisPins (p : SpaceNo) (x : List StackFrame) : (s.setReturnStack p x).axisPins = s.axisPins := rfl
@[simp] theorem State.setReturnStack_interlocks (p : SpaceNo) (x : List StackFrame) : (s.setReturnStack p x).interlocks = s.interlocks := rfl
@[simp] theorem State.setReturnStack_channels (p : SpaceNo) (x : List StackFrame) : (s.setReturnStack p x).channels = s.channels := rfl
@[simp] theorem State.setReturnStack_signalPins (p : SpaceNo) (x : List StackFrame) : (s.setReturnStack p x).signalPins = s.signalPins := rfl
@[simp] theorem State.setReturnStack_device (p : SpaceNo) (x : List StackFrame) : (s.setReturnStack p x).device = s.device := rfl
@[simp] theorem State.setReturnStack_settle (p : SpaceNo) (x : List StackFrame) : (s.setReturnStack p x).settle = s.settle := rfl
@[simp] theorem State.setReturnStack_resetInput (p : SpaceNo) (x : List StackFrame) : (s.setReturnStack p x).resetInput = s.resetInput := rfl
@[simp] theorem State.setReturnStack_supplyLow (p : SpaceNo) (x : List StackFrame) : (s.setReturnStack p x).supplyLow = s.supplyLow := rfl
@[simp] theorem State.setReturnStack_notices (p : SpaceNo) (x : List StackFrame) : (s.setReturnStack p x).notices = s.notices := rfl
@[simp] theorem State.setReturnStack_noticeLine (p : SpaceNo) (x : List StackFrame) : (s.setReturnStack p x).noticeLine = s.noticeLine := rfl
@[simp] theorem State.setReturnStack_tieCount (p : SpaceNo) (x : List StackFrame) : (s.setReturnStack p x).tieCount = s.tieCount := rfl

/-! ### setInterlock -/

@[simp] theorem State.setInterlock_pending (p : PlaceNo) (x : Option Interlock) : (s.setInterlock p x).pending = s.pending := rfl
@[simp] theorem State.setInterlock_busRx (p : PlaceNo) (x : Option Interlock) : (s.setInterlock p x).busRx = s.busRx := rfl
@[simp] theorem State.setInterlock_linkRx (p : PlaceNo) (x : Option Interlock) : (s.setInterlock p x).linkRx = s.linkRx := rfl
@[simp] theorem State.setInterlock_busReplies (p : PlaceNo) (x : Option Interlock) : (s.setInterlock p x).busReplies = s.busReplies := rfl
@[simp] theorem State.setInterlock_linkReply (p : PlaceNo) (x : Option Interlock) : (s.setInterlock p x).linkReply = s.linkReply := rfl
@[simp] theorem State.setInterlock_busTx (p : PlaceNo) (x : Option Interlock) : (s.setInterlock p x).busTx = s.busTx := rfl
@[simp] theorem State.setInterlock_linkTx (p : PlaceNo) (x : Option Interlock) : (s.setInterlock p x).linkTx = s.linkTx := rfl
@[simp] theorem State.setInterlock_stations (p : PlaceNo) (x : Option Interlock) : (s.setInterlock p x).stations = s.stations := rfl
@[simp] theorem State.setInterlock_claims (p : PlaceNo) (x : Option Interlock) : (s.setInterlock p x).claims = s.claims := rfl
@[simp] theorem State.setInterlock_loads (p : PlaceNo) (x : Option Interlock) : (s.setInterlock p x).loads = s.loads := rfl
@[simp] theorem State.setInterlock_outputs (p : PlaceNo) (x : Option Interlock) : (s.setInterlock p x).outputs = s.outputs := rfl
@[simp] theorem State.setInterlock_scenes (p : PlaceNo) (x : Option Interlock) : (s.setInterlock p x).scenes = s.scenes := rfl
@[simp] theorem State.setInterlock_returnStacks (p : PlaceNo) (x : Option Interlock) : (s.setInterlock p x).returnStacks = s.returnStacks := rfl
@[simp] theorem State.setInterlock_budget (p : PlaceNo) (x : Option Interlock) : (s.setInterlock p x).budget = s.budget := rfl
@[simp] theorem State.setInterlock_axes (p : PlaceNo) (x : Option Interlock) : (s.setInterlock p x).axes = s.axes := rfl
@[simp] theorem State.setInterlock_axisInputs (p : PlaceNo) (x : Option Interlock) : (s.setInterlock p x).axisInputs = s.axisInputs := rfl
@[simp] theorem State.setInterlock_axisPins (p : PlaceNo) (x : Option Interlock) : (s.setInterlock p x).axisPins = s.axisPins := rfl
@[simp] theorem State.setInterlock_interlocks (p : PlaceNo) (x : Option Interlock) : (s.setInterlock p x).interlocks = s.interlocks.set p x := rfl
@[simp] theorem State.setInterlock_channels (p : PlaceNo) (x : Option Interlock) : (s.setInterlock p x).channels = s.channels := rfl
@[simp] theorem State.setInterlock_signalPins (p : PlaceNo) (x : Option Interlock) : (s.setInterlock p x).signalPins = s.signalPins := rfl
@[simp] theorem State.setInterlock_device (p : PlaceNo) (x : Option Interlock) : (s.setInterlock p x).device = s.device := rfl
@[simp] theorem State.setInterlock_settle (p : PlaceNo) (x : Option Interlock) : (s.setInterlock p x).settle = s.settle := rfl
@[simp] theorem State.setInterlock_resetInput (p : PlaceNo) (x : Option Interlock) : (s.setInterlock p x).resetInput = s.resetInput := rfl
@[simp] theorem State.setInterlock_supplyLow (p : PlaceNo) (x : Option Interlock) : (s.setInterlock p x).supplyLow = s.supplyLow := rfl
@[simp] theorem State.setInterlock_notices (p : PlaceNo) (x : Option Interlock) : (s.setInterlock p x).notices = s.notices := rfl
@[simp] theorem State.setInterlock_noticeLine (p : PlaceNo) (x : Option Interlock) : (s.setInterlock p x).noticeLine = s.noticeLine := rfl
@[simp] theorem State.setInterlock_tieCount (p : PlaceNo) (x : Option Interlock) : (s.setInterlock p x).tieCount = s.tieCount := rfl

/-! ### setBudget -/

@[simp] theorem State.setBudget_pending (b : Budget) : (s.setBudget b).pending = s.pending := rfl
@[simp] theorem State.setBudget_busRx (b : Budget) : (s.setBudget b).busRx = s.busRx := rfl
@[simp] theorem State.setBudget_linkRx (b : Budget) : (s.setBudget b).linkRx = s.linkRx := rfl
@[simp] theorem State.setBudget_busReplies (b : Budget) : (s.setBudget b).busReplies = s.busReplies := rfl
@[simp] theorem State.setBudget_linkReply (b : Budget) : (s.setBudget b).linkReply = s.linkReply := rfl
@[simp] theorem State.setBudget_busTx (b : Budget) : (s.setBudget b).busTx = s.busTx := rfl
@[simp] theorem State.setBudget_linkTx (b : Budget) : (s.setBudget b).linkTx = s.linkTx := rfl
@[simp] theorem State.setBudget_stations (b : Budget) : (s.setBudget b).stations = s.stations := rfl
@[simp] theorem State.setBudget_claims (b : Budget) : (s.setBudget b).claims = s.claims := rfl
@[simp] theorem State.setBudget_loads (b : Budget) : (s.setBudget b).loads = s.loads := rfl
@[simp] theorem State.setBudget_outputs (b : Budget) : (s.setBudget b).outputs = s.outputs := rfl
@[simp] theorem State.setBudget_scenes (b : Budget) : (s.setBudget b).scenes = s.scenes := rfl
@[simp] theorem State.setBudget_returnStacks (b : Budget) : (s.setBudget b).returnStacks = s.returnStacks := rfl
@[simp] theorem State.setBudget_budget (b : Budget) : (s.setBudget b).budget = b := rfl
@[simp] theorem State.setBudget_axes (b : Budget) : (s.setBudget b).axes = s.axes := rfl
@[simp] theorem State.setBudget_axisInputs (b : Budget) : (s.setBudget b).axisInputs = s.axisInputs := rfl
@[simp] theorem State.setBudget_axisPins (b : Budget) : (s.setBudget b).axisPins = s.axisPins := rfl
@[simp] theorem State.setBudget_interlocks (b : Budget) : (s.setBudget b).interlocks = s.interlocks := rfl
@[simp] theorem State.setBudget_channels (b : Budget) : (s.setBudget b).channels = s.channels := rfl
@[simp] theorem State.setBudget_signalPins (b : Budget) : (s.setBudget b).signalPins = s.signalPins := rfl
@[simp] theorem State.setBudget_device (b : Budget) : (s.setBudget b).device = s.device := rfl
@[simp] theorem State.setBudget_settle (b : Budget) : (s.setBudget b).settle = s.settle := rfl
@[simp] theorem State.setBudget_resetInput (b : Budget) : (s.setBudget b).resetInput = s.resetInput := rfl
@[simp] theorem State.setBudget_supplyLow (b : Budget) : (s.setBudget b).supplyLow = s.supplyLow := rfl
@[simp] theorem State.setBudget_notices (b : Budget) : (s.setBudget b).notices = s.notices := rfl
@[simp] theorem State.setBudget_noticeLine (b : Budget) : (s.setBudget b).noticeLine = s.noticeLine := rfl
@[simp] theorem State.setBudget_tieCount (b : Budget) : (s.setBudget b).tieCount = s.tieCount := rfl

/-! ### setClaims -/

@[simp] theorem State.setClaims_pending (c : List Claim) : (s.setClaims c).pending = s.pending := rfl
@[simp] theorem State.setClaims_busRx (c : List Claim) : (s.setClaims c).busRx = s.busRx := rfl
@[simp] theorem State.setClaims_linkRx (c : List Claim) : (s.setClaims c).linkRx = s.linkRx := rfl
@[simp] theorem State.setClaims_busReplies (c : List Claim) : (s.setClaims c).busReplies = s.busReplies := rfl
@[simp] theorem State.setClaims_linkReply (c : List Claim) : (s.setClaims c).linkReply = s.linkReply := rfl
@[simp] theorem State.setClaims_busTx (c : List Claim) : (s.setClaims c).busTx = s.busTx := rfl
@[simp] theorem State.setClaims_linkTx (c : List Claim) : (s.setClaims c).linkTx = s.linkTx := rfl
@[simp] theorem State.setClaims_stations (c : List Claim) : (s.setClaims c).stations = s.stations := rfl
@[simp] theorem State.setClaims_claims (c : List Claim) : (s.setClaims c).claims = c := rfl
@[simp] theorem State.setClaims_loads (c : List Claim) : (s.setClaims c).loads = s.loads := rfl
@[simp] theorem State.setClaims_outputs (c : List Claim) : (s.setClaims c).outputs = s.outputs := rfl
@[simp] theorem State.setClaims_scenes (c : List Claim) : (s.setClaims c).scenes = s.scenes := rfl
@[simp] theorem State.setClaims_returnStacks (c : List Claim) : (s.setClaims c).returnStacks = s.returnStacks := rfl
@[simp] theorem State.setClaims_budget (c : List Claim) : (s.setClaims c).budget = s.budget := rfl
@[simp] theorem State.setClaims_axes (c : List Claim) : (s.setClaims c).axes = s.axes := rfl
@[simp] theorem State.setClaims_axisInputs (c : List Claim) : (s.setClaims c).axisInputs = s.axisInputs := rfl
@[simp] theorem State.setClaims_axisPins (c : List Claim) : (s.setClaims c).axisPins = s.axisPins := rfl
@[simp] theorem State.setClaims_interlocks (c : List Claim) : (s.setClaims c).interlocks = s.interlocks := rfl
@[simp] theorem State.setClaims_channels (c : List Claim) : (s.setClaims c).channels = s.channels := rfl
@[simp] theorem State.setClaims_signalPins (c : List Claim) : (s.setClaims c).signalPins = s.signalPins := rfl
@[simp] theorem State.setClaims_device (c : List Claim) : (s.setClaims c).device = s.device := rfl
@[simp] theorem State.setClaims_settle (c : List Claim) : (s.setClaims c).settle = s.settle := rfl
@[simp] theorem State.setClaims_resetInput (c : List Claim) : (s.setClaims c).resetInput = s.resetInput := rfl
@[simp] theorem State.setClaims_supplyLow (c : List Claim) : (s.setClaims c).supplyLow = s.supplyLow := rfl
@[simp] theorem State.setClaims_notices (c : List Claim) : (s.setClaims c).notices = s.notices := rfl
@[simp] theorem State.setClaims_noticeLine (c : List Claim) : (s.setClaims c).noticeLine = s.noticeLine := rfl
@[simp] theorem State.setClaims_tieCount (c : List Claim) : (s.setClaims c).tieCount = s.tieCount := rfl

/-! ### setHeld -/

@[simp] theorem State.setHeld_pending (a : AxisNo) (d : Nat) : (s.setHeld a d).pending = s.pending := rfl
@[simp] theorem State.setHeld_busRx (a : AxisNo) (d : Nat) : (s.setHeld a d).busRx = s.busRx := rfl
@[simp] theorem State.setHeld_linkRx (a : AxisNo) (d : Nat) : (s.setHeld a d).linkRx = s.linkRx := rfl
@[simp] theorem State.setHeld_busReplies (a : AxisNo) (d : Nat) : (s.setHeld a d).busReplies = s.busReplies := rfl
@[simp] theorem State.setHeld_linkReply (a : AxisNo) (d : Nat) : (s.setHeld a d).linkReply = s.linkReply := rfl
@[simp] theorem State.setHeld_busTx (a : AxisNo) (d : Nat) : (s.setHeld a d).busTx = s.busTx := rfl
@[simp] theorem State.setHeld_linkTx (a : AxisNo) (d : Nat) : (s.setHeld a d).linkTx = s.linkTx := rfl
@[simp] theorem State.setHeld_stations (a : AxisNo) (d : Nat) : (s.setHeld a d).stations = s.stations := rfl
@[simp] theorem State.setHeld_claims (a : AxisNo) (d : Nat) : (s.setHeld a d).claims = s.claims := rfl
@[simp] theorem State.setHeld_loads (a : AxisNo) (d : Nat) : (s.setHeld a d).loads = s.loads := rfl
@[simp] theorem State.setHeld_outputs (a : AxisNo) (d : Nat) : (s.setHeld a d).outputs = s.outputs := rfl
@[simp] theorem State.setHeld_scenes (a : AxisNo) (d : Nat) : (s.setHeld a d).scenes = s.scenes := rfl
@[simp] theorem State.setHeld_returnStacks (a : AxisNo) (d : Nat) : (s.setHeld a d).returnStacks = s.returnStacks := rfl
@[simp] theorem State.setHeld_budget (a : AxisNo) (d : Nat) : (s.setHeld a d).budget = { s.budget with heldDemand := s.budget.heldDemand.set a d } := rfl
@[simp] theorem State.setHeld_axes (a : AxisNo) (d : Nat) : (s.setHeld a d).axes = s.axes := rfl
@[simp] theorem State.setHeld_axisInputs (a : AxisNo) (d : Nat) : (s.setHeld a d).axisInputs = s.axisInputs := rfl
@[simp] theorem State.setHeld_axisPins (a : AxisNo) (d : Nat) : (s.setHeld a d).axisPins = s.axisPins := rfl
@[simp] theorem State.setHeld_interlocks (a : AxisNo) (d : Nat) : (s.setHeld a d).interlocks = s.interlocks := rfl
@[simp] theorem State.setHeld_channels (a : AxisNo) (d : Nat) : (s.setHeld a d).channels = s.channels := rfl
@[simp] theorem State.setHeld_signalPins (a : AxisNo) (d : Nat) : (s.setHeld a d).signalPins = s.signalPins := rfl
@[simp] theorem State.setHeld_device (a : AxisNo) (d : Nat) : (s.setHeld a d).device = s.device := rfl
@[simp] theorem State.setHeld_settle (a : AxisNo) (d : Nat) : (s.setHeld a d).settle = s.settle := rfl
@[simp] theorem State.setHeld_resetInput (a : AxisNo) (d : Nat) : (s.setHeld a d).resetInput = s.resetInput := rfl
@[simp] theorem State.setHeld_supplyLow (a : AxisNo) (d : Nat) : (s.setHeld a d).supplyLow = s.supplyLow := rfl
@[simp] theorem State.setHeld_notices (a : AxisNo) (d : Nat) : (s.setHeld a d).notices = s.notices := rfl
@[simp] theorem State.setHeld_noticeLine (a : AxisNo) (d : Nat) : (s.setHeld a d).noticeLine = s.noticeLine := rfl
@[simp] theorem State.setHeld_tieCount (a : AxisNo) (d : Nat) : (s.setHeld a d).tieCount = s.tieCount := rfl

/-! ### setCommitted -/

@[simp] theorem State.setCommitted_pending (c : Nat) : (s.setCommitted c).pending = s.pending := rfl
@[simp] theorem State.setCommitted_busRx (c : Nat) : (s.setCommitted c).busRx = s.busRx := rfl
@[simp] theorem State.setCommitted_linkRx (c : Nat) : (s.setCommitted c).linkRx = s.linkRx := rfl
@[simp] theorem State.setCommitted_busReplies (c : Nat) : (s.setCommitted c).busReplies = s.busReplies := rfl
@[simp] theorem State.setCommitted_linkReply (c : Nat) : (s.setCommitted c).linkReply = s.linkReply := rfl
@[simp] theorem State.setCommitted_busTx (c : Nat) : (s.setCommitted c).busTx = s.busTx := rfl
@[simp] theorem State.setCommitted_linkTx (c : Nat) : (s.setCommitted c).linkTx = s.linkTx := rfl
@[simp] theorem State.setCommitted_stations (c : Nat) : (s.setCommitted c).stations = s.stations := rfl
@[simp] theorem State.setCommitted_claims (c : Nat) : (s.setCommitted c).claims = s.claims := rfl
@[simp] theorem State.setCommitted_loads (c : Nat) : (s.setCommitted c).loads = s.loads := rfl
@[simp] theorem State.setCommitted_outputs (c : Nat) : (s.setCommitted c).outputs = s.outputs := rfl
@[simp] theorem State.setCommitted_scenes (c : Nat) : (s.setCommitted c).scenes = s.scenes := rfl
@[simp] theorem State.setCommitted_returnStacks (c : Nat) : (s.setCommitted c).returnStacks = s.returnStacks := rfl
@[simp] theorem State.setCommitted_budget (c : Nat) : (s.setCommitted c).budget = { s.budget with committed := c } := rfl
@[simp] theorem State.setCommitted_axes (c : Nat) : (s.setCommitted c).axes = s.axes := rfl
@[simp] theorem State.setCommitted_axisInputs (c : Nat) : (s.setCommitted c).axisInputs = s.axisInputs := rfl
@[simp] theorem State.setCommitted_axisPins (c : Nat) : (s.setCommitted c).axisPins = s.axisPins := rfl
@[simp] theorem State.setCommitted_interlocks (c : Nat) : (s.setCommitted c).interlocks = s.interlocks := rfl
@[simp] theorem State.setCommitted_channels (c : Nat) : (s.setCommitted c).channels = s.channels := rfl
@[simp] theorem State.setCommitted_signalPins (c : Nat) : (s.setCommitted c).signalPins = s.signalPins := rfl
@[simp] theorem State.setCommitted_device (c : Nat) : (s.setCommitted c).device = s.device := rfl
@[simp] theorem State.setCommitted_settle (c : Nat) : (s.setCommitted c).settle = s.settle := rfl
@[simp] theorem State.setCommitted_resetInput (c : Nat) : (s.setCommitted c).resetInput = s.resetInput := rfl
@[simp] theorem State.setCommitted_supplyLow (c : Nat) : (s.setCommitted c).supplyLow = s.supplyLow := rfl
@[simp] theorem State.setCommitted_notices (c : Nat) : (s.setCommitted c).notices = s.notices := rfl
@[simp] theorem State.setCommitted_noticeLine (c : Nat) : (s.setCommitted c).noticeLine = s.noticeLine := rfl
@[simp] theorem State.setCommitted_tieCount (c : Nat) : (s.setCommitted c).tieCount = s.tieCount := rfl

/-! ### setDeficit -/

@[simp] theorem State.setDeficit_pending (d : Bool) : (s.setDeficit d).pending = s.pending := rfl
@[simp] theorem State.setDeficit_busRx (d : Bool) : (s.setDeficit d).busRx = s.busRx := rfl
@[simp] theorem State.setDeficit_linkRx (d : Bool) : (s.setDeficit d).linkRx = s.linkRx := rfl
@[simp] theorem State.setDeficit_busReplies (d : Bool) : (s.setDeficit d).busReplies = s.busReplies := rfl
@[simp] theorem State.setDeficit_linkReply (d : Bool) : (s.setDeficit d).linkReply = s.linkReply := rfl
@[simp] theorem State.setDeficit_busTx (d : Bool) : (s.setDeficit d).busTx = s.busTx := rfl
@[simp] theorem State.setDeficit_linkTx (d : Bool) : (s.setDeficit d).linkTx = s.linkTx := rfl
@[simp] theorem State.setDeficit_stations (d : Bool) : (s.setDeficit d).stations = s.stations := rfl
@[simp] theorem State.setDeficit_claims (d : Bool) : (s.setDeficit d).claims = s.claims := rfl
@[simp] theorem State.setDeficit_loads (d : Bool) : (s.setDeficit d).loads = s.loads := rfl
@[simp] theorem State.setDeficit_outputs (d : Bool) : (s.setDeficit d).outputs = s.outputs := rfl
@[simp] theorem State.setDeficit_scenes (d : Bool) : (s.setDeficit d).scenes = s.scenes := rfl
@[simp] theorem State.setDeficit_returnStacks (d : Bool) : (s.setDeficit d).returnStacks = s.returnStacks := rfl
@[simp] theorem State.setDeficit_budget (d : Bool) : (s.setDeficit d).budget = { s.budget with deficit := d } := rfl
@[simp] theorem State.setDeficit_axes (d : Bool) : (s.setDeficit d).axes = s.axes := rfl
@[simp] theorem State.setDeficit_axisInputs (d : Bool) : (s.setDeficit d).axisInputs = s.axisInputs := rfl
@[simp] theorem State.setDeficit_axisPins (d : Bool) : (s.setDeficit d).axisPins = s.axisPins := rfl
@[simp] theorem State.setDeficit_interlocks (d : Bool) : (s.setDeficit d).interlocks = s.interlocks := rfl
@[simp] theorem State.setDeficit_channels (d : Bool) : (s.setDeficit d).channels = s.channels := rfl
@[simp] theorem State.setDeficit_signalPins (d : Bool) : (s.setDeficit d).signalPins = s.signalPins := rfl
@[simp] theorem State.setDeficit_device (d : Bool) : (s.setDeficit d).device = s.device := rfl
@[simp] theorem State.setDeficit_settle (d : Bool) : (s.setDeficit d).settle = s.settle := rfl
@[simp] theorem State.setDeficit_resetInput (d : Bool) : (s.setDeficit d).resetInput = s.resetInput := rfl
@[simp] theorem State.setDeficit_supplyLow (d : Bool) : (s.setDeficit d).supplyLow = s.supplyLow := rfl
@[simp] theorem State.setDeficit_notices (d : Bool) : (s.setDeficit d).notices = s.notices := rfl
@[simp] theorem State.setDeficit_noticeLine (d : Bool) : (s.setDeficit d).noticeLine = s.noticeLine := rfl
@[simp] theorem State.setDeficit_tieCount (d : Bool) : (s.setDeficit d).tieCount = s.tieCount := rfl

/-! ### setShedList -/

@[simp] theorem State.setShedList_pending (l : List LoadNo) : (s.setShedList l).pending = s.pending := rfl
@[simp] theorem State.setShedList_busRx (l : List LoadNo) : (s.setShedList l).busRx = s.busRx := rfl
@[simp] theorem State.setShedList_linkRx (l : List LoadNo) : (s.setShedList l).linkRx = s.linkRx := rfl
@[simp] theorem State.setShedList_busReplies (l : List LoadNo) : (s.setShedList l).busReplies = s.busReplies := rfl
@[simp] theorem State.setShedList_linkReply (l : List LoadNo) : (s.setShedList l).linkReply = s.linkReply := rfl
@[simp] theorem State.setShedList_busTx (l : List LoadNo) : (s.setShedList l).busTx = s.busTx := rfl
@[simp] theorem State.setShedList_linkTx (l : List LoadNo) : (s.setShedList l).linkTx = s.linkTx := rfl
@[simp] theorem State.setShedList_stations (l : List LoadNo) : (s.setShedList l).stations = s.stations := rfl
@[simp] theorem State.setShedList_claims (l : List LoadNo) : (s.setShedList l).claims = s.claims := rfl
@[simp] theorem State.setShedList_loads (l : List LoadNo) : (s.setShedList l).loads = s.loads := rfl
@[simp] theorem State.setShedList_outputs (l : List LoadNo) : (s.setShedList l).outputs = s.outputs := rfl
@[simp] theorem State.setShedList_scenes (l : List LoadNo) : (s.setShedList l).scenes = s.scenes := rfl
@[simp] theorem State.setShedList_returnStacks (l : List LoadNo) : (s.setShedList l).returnStacks = s.returnStacks := rfl
@[simp] theorem State.setShedList_budget (l : List LoadNo) : (s.setShedList l).budget = { s.budget with shedList := l } := rfl
@[simp] theorem State.setShedList_axes (l : List LoadNo) : (s.setShedList l).axes = s.axes := rfl
@[simp] theorem State.setShedList_axisInputs (l : List LoadNo) : (s.setShedList l).axisInputs = s.axisInputs := rfl
@[simp] theorem State.setShedList_axisPins (l : List LoadNo) : (s.setShedList l).axisPins = s.axisPins := rfl
@[simp] theorem State.setShedList_interlocks (l : List LoadNo) : (s.setShedList l).interlocks = s.interlocks := rfl
@[simp] theorem State.setShedList_channels (l : List LoadNo) : (s.setShedList l).channels = s.channels := rfl
@[simp] theorem State.setShedList_signalPins (l : List LoadNo) : (s.setShedList l).signalPins = s.signalPins := rfl
@[simp] theorem State.setShedList_device (l : List LoadNo) : (s.setShedList l).device = s.device := rfl
@[simp] theorem State.setShedList_settle (l : List LoadNo) : (s.setShedList l).settle = s.settle := rfl
@[simp] theorem State.setShedList_resetInput (l : List LoadNo) : (s.setShedList l).resetInput = s.resetInput := rfl
@[simp] theorem State.setShedList_supplyLow (l : List LoadNo) : (s.setShedList l).supplyLow = s.supplyLow := rfl
@[simp] theorem State.setShedList_notices (l : List LoadNo) : (s.setShedList l).notices = s.notices := rfl
@[simp] theorem State.setShedList_noticeLine (l : List LoadNo) : (s.setShedList l).noticeLine = s.noticeLine := rfl
@[simp] theorem State.setShedList_tieCount (l : List LoadNo) : (s.setShedList l).tieCount = s.tieCount := rfl

/-! ### clearStacks -/

@[simp] theorem State.clearStacks_pending : (s.clearStacks).pending = s.pending := rfl
@[simp] theorem State.clearStacks_busRx : (s.clearStacks).busRx = s.busRx := rfl
@[simp] theorem State.clearStacks_linkRx : (s.clearStacks).linkRx = s.linkRx := rfl
@[simp] theorem State.clearStacks_busReplies : (s.clearStacks).busReplies = s.busReplies := rfl
@[simp] theorem State.clearStacks_linkReply : (s.clearStacks).linkReply = s.linkReply := rfl
@[simp] theorem State.clearStacks_busTx : (s.clearStacks).busTx = s.busTx := rfl
@[simp] theorem State.clearStacks_linkTx : (s.clearStacks).linkTx = s.linkTx := rfl
@[simp] theorem State.clearStacks_stations : (s.clearStacks).stations = s.stations := rfl
@[simp] theorem State.clearStacks_claims : (s.clearStacks).claims = s.claims := rfl
@[simp] theorem State.clearStacks_loads : (s.clearStacks).loads = s.loads := rfl
@[simp] theorem State.clearStacks_outputs : (s.clearStacks).outputs = s.outputs := rfl
@[simp] theorem State.clearStacks_scenes : (s.clearStacks).scenes = s.scenes := rfl
@[simp] theorem State.clearStacks_returnStacks : (s.clearStacks).returnStacks = Vector.replicate 16 [] := rfl
@[simp] theorem State.clearStacks_budget : (s.clearStacks).budget = s.budget := rfl
@[simp] theorem State.clearStacks_axes : (s.clearStacks).axes = s.axes := rfl
@[simp] theorem State.clearStacks_axisInputs : (s.clearStacks).axisInputs = s.axisInputs := rfl
@[simp] theorem State.clearStacks_axisPins : (s.clearStacks).axisPins = s.axisPins := rfl
@[simp] theorem State.clearStacks_interlocks : (s.clearStacks).interlocks = s.interlocks := rfl
@[simp] theorem State.clearStacks_channels : (s.clearStacks).channels = s.channels := rfl
@[simp] theorem State.clearStacks_signalPins : (s.clearStacks).signalPins = s.signalPins := rfl
@[simp] theorem State.clearStacks_device : (s.clearStacks).device = s.device := rfl
@[simp] theorem State.clearStacks_settle : (s.clearStacks).settle = s.settle := rfl
@[simp] theorem State.clearStacks_resetInput : (s.clearStacks).resetInput = s.resetInput := rfl
@[simp] theorem State.clearStacks_supplyLow : (s.clearStacks).supplyLow = s.supplyLow := rfl
@[simp] theorem State.clearStacks_notices : (s.clearStacks).notices = s.notices := rfl
@[simp] theorem State.clearStacks_noticeLine : (s.clearStacks).noticeLine = s.noticeLine := rfl
@[simp] theorem State.clearStacks_tieCount : (s.clearStacks).tieCount = s.tieCount := rfl

/-! ### setRunState -/

@[simp] theorem State.setRunState_pending (r : RunState) : (s.setRunState r).pending = s.pending := rfl
@[simp] theorem State.setRunState_busRx (r : RunState) : (s.setRunState r).busRx = s.busRx := rfl
@[simp] theorem State.setRunState_linkRx (r : RunState) : (s.setRunState r).linkRx = s.linkRx := rfl
@[simp] theorem State.setRunState_busReplies (r : RunState) : (s.setRunState r).busReplies = s.busReplies := rfl
@[simp] theorem State.setRunState_linkReply (r : RunState) : (s.setRunState r).linkReply = s.linkReply := rfl
@[simp] theorem State.setRunState_busTx (r : RunState) : (s.setRunState r).busTx = s.busTx := rfl
@[simp] theorem State.setRunState_linkTx (r : RunState) : (s.setRunState r).linkTx = s.linkTx := rfl
@[simp] theorem State.setRunState_stations (r : RunState) : (s.setRunState r).stations = s.stations := rfl
@[simp] theorem State.setRunState_claims (r : RunState) : (s.setRunState r).claims = s.claims := rfl
@[simp] theorem State.setRunState_loads (r : RunState) : (s.setRunState r).loads = s.loads := rfl
@[simp] theorem State.setRunState_outputs (r : RunState) : (s.setRunState r).outputs = s.outputs := rfl
@[simp] theorem State.setRunState_scenes (r : RunState) : (s.setRunState r).scenes = s.scenes := rfl
@[simp] theorem State.setRunState_returnStacks (r : RunState) : (s.setRunState r).returnStacks = s.returnStacks := rfl
@[simp] theorem State.setRunState_budget (r : RunState) : (s.setRunState r).budget = s.budget := rfl
@[simp] theorem State.setRunState_axes (r : RunState) : (s.setRunState r).axes = s.axes := rfl
@[simp] theorem State.setRunState_axisInputs (r : RunState) : (s.setRunState r).axisInputs = s.axisInputs := rfl
@[simp] theorem State.setRunState_axisPins (r : RunState) : (s.setRunState r).axisPins = s.axisPins := rfl
@[simp] theorem State.setRunState_interlocks (r : RunState) : (s.setRunState r).interlocks = s.interlocks := rfl
@[simp] theorem State.setRunState_channels (r : RunState) : (s.setRunState r).channels = s.channels := rfl
@[simp] theorem State.setRunState_signalPins (r : RunState) : (s.setRunState r).signalPins = s.signalPins := rfl
@[simp] theorem State.setRunState_device (r : RunState) : (s.setRunState r).device = { s.device with runState := r } := rfl
@[simp] theorem State.setRunState_settle (r : RunState) : (s.setRunState r).settle = s.settle := rfl
@[simp] theorem State.setRunState_resetInput (r : RunState) : (s.setRunState r).resetInput = s.resetInput := rfl
@[simp] theorem State.setRunState_supplyLow (r : RunState) : (s.setRunState r).supplyLow = s.supplyLow := rfl
@[simp] theorem State.setRunState_notices (r : RunState) : (s.setRunState r).notices = s.notices := rfl
@[simp] theorem State.setRunState_noticeLine (r : RunState) : (s.setRunState r).noticeLine = s.noticeLine := rfl
@[simp] theorem State.setRunState_tieCount (r : RunState) : (s.setRunState r).tieCount = s.tieCount := rfl

/-! ### raiseAxisFault -/

@[simp] theorem State.raiseAxisFault_pending : (s.raiseAxisFault).pending = s.pending := rfl
@[simp] theorem State.raiseAxisFault_busRx : (s.raiseAxisFault).busRx = s.busRx := rfl
@[simp] theorem State.raiseAxisFault_linkRx : (s.raiseAxisFault).linkRx = s.linkRx := rfl
@[simp] theorem State.raiseAxisFault_busReplies : (s.raiseAxisFault).busReplies = s.busReplies := rfl
@[simp] theorem State.raiseAxisFault_linkReply : (s.raiseAxisFault).linkReply = s.linkReply := rfl
@[simp] theorem State.raiseAxisFault_busTx : (s.raiseAxisFault).busTx = s.busTx := rfl
@[simp] theorem State.raiseAxisFault_linkTx : (s.raiseAxisFault).linkTx = s.linkTx := rfl
@[simp] theorem State.raiseAxisFault_stations : (s.raiseAxisFault).stations = s.stations := rfl
@[simp] theorem State.raiseAxisFault_claims : (s.raiseAxisFault).claims = s.claims := rfl
@[simp] theorem State.raiseAxisFault_loads : (s.raiseAxisFault).loads = s.loads := rfl
@[simp] theorem State.raiseAxisFault_outputs : (s.raiseAxisFault).outputs = s.outputs := rfl
@[simp] theorem State.raiseAxisFault_scenes : (s.raiseAxisFault).scenes = s.scenes := rfl
@[simp] theorem State.raiseAxisFault_returnStacks : (s.raiseAxisFault).returnStacks = s.returnStacks := rfl
@[simp] theorem State.raiseAxisFault_budget : (s.raiseAxisFault).budget = s.budget := rfl
@[simp] theorem State.raiseAxisFault_axes : (s.raiseAxisFault).axes = s.axes := rfl
@[simp] theorem State.raiseAxisFault_axisInputs : (s.raiseAxisFault).axisInputs = s.axisInputs := rfl
@[simp] theorem State.raiseAxisFault_axisPins : (s.raiseAxisFault).axisPins = s.axisPins := rfl
@[simp] theorem State.raiseAxisFault_interlocks : (s.raiseAxisFault).interlocks = s.interlocks := rfl
@[simp] theorem State.raiseAxisFault_channels : (s.raiseAxisFault).channels = s.channels := rfl
@[simp] theorem State.raiseAxisFault_signalPins : (s.raiseAxisFault).signalPins = s.signalPins := rfl
@[simp] theorem State.raiseAxisFault_device : (s.raiseAxisFault).device = s.device := rfl
@[simp] theorem State.raiseAxisFault_settle : (s.raiseAxisFault).settle = s.settle := rfl
@[simp] theorem State.raiseAxisFault_resetInput : (s.raiseAxisFault).resetInput = s.resetInput := rfl
@[simp] theorem State.raiseAxisFault_supplyLow : (s.raiseAxisFault).supplyLow = s.supplyLow := rfl
@[simp] theorem State.raiseAxisFault_notices : (s.raiseAxisFault).notices = { s.notices with axisFault := true } := rfl
@[simp] theorem State.raiseAxisFault_noticeLine : (s.raiseAxisFault).noticeLine = s.noticeLine := rfl
@[simp] theorem State.raiseAxisFault_tieCount : (s.raiseAxisFault).tieCount = s.tieCount := rfl

/-! ### raiseMotionLeaseLost -/

@[simp] theorem State.raiseMotionLeaseLost_pending : (s.raiseMotionLeaseLost).pending = s.pending := rfl
@[simp] theorem State.raiseMotionLeaseLost_busRx : (s.raiseMotionLeaseLost).busRx = s.busRx := rfl
@[simp] theorem State.raiseMotionLeaseLost_linkRx : (s.raiseMotionLeaseLost).linkRx = s.linkRx := rfl
@[simp] theorem State.raiseMotionLeaseLost_busReplies : (s.raiseMotionLeaseLost).busReplies = s.busReplies := rfl
@[simp] theorem State.raiseMotionLeaseLost_linkReply : (s.raiseMotionLeaseLost).linkReply = s.linkReply := rfl
@[simp] theorem State.raiseMotionLeaseLost_busTx : (s.raiseMotionLeaseLost).busTx = s.busTx := rfl
@[simp] theorem State.raiseMotionLeaseLost_linkTx : (s.raiseMotionLeaseLost).linkTx = s.linkTx := rfl
@[simp] theorem State.raiseMotionLeaseLost_stations : (s.raiseMotionLeaseLost).stations = s.stations := rfl
@[simp] theorem State.raiseMotionLeaseLost_claims : (s.raiseMotionLeaseLost).claims = s.claims := rfl
@[simp] theorem State.raiseMotionLeaseLost_loads : (s.raiseMotionLeaseLost).loads = s.loads := rfl
@[simp] theorem State.raiseMotionLeaseLost_outputs : (s.raiseMotionLeaseLost).outputs = s.outputs := rfl
@[simp] theorem State.raiseMotionLeaseLost_scenes : (s.raiseMotionLeaseLost).scenes = s.scenes := rfl
@[simp] theorem State.raiseMotionLeaseLost_returnStacks : (s.raiseMotionLeaseLost).returnStacks = s.returnStacks := rfl
@[simp] theorem State.raiseMotionLeaseLost_budget : (s.raiseMotionLeaseLost).budget = s.budget := rfl
@[simp] theorem State.raiseMotionLeaseLost_axes : (s.raiseMotionLeaseLost).axes = s.axes := rfl
@[simp] theorem State.raiseMotionLeaseLost_axisInputs : (s.raiseMotionLeaseLost).axisInputs = s.axisInputs := rfl
@[simp] theorem State.raiseMotionLeaseLost_axisPins : (s.raiseMotionLeaseLost).axisPins = s.axisPins := rfl
@[simp] theorem State.raiseMotionLeaseLost_interlocks : (s.raiseMotionLeaseLost).interlocks = s.interlocks := rfl
@[simp] theorem State.raiseMotionLeaseLost_channels : (s.raiseMotionLeaseLost).channels = s.channels := rfl
@[simp] theorem State.raiseMotionLeaseLost_signalPins : (s.raiseMotionLeaseLost).signalPins = s.signalPins := rfl
@[simp] theorem State.raiseMotionLeaseLost_device : (s.raiseMotionLeaseLost).device = s.device := rfl
@[simp] theorem State.raiseMotionLeaseLost_settle : (s.raiseMotionLeaseLost).settle = s.settle := rfl
@[simp] theorem State.raiseMotionLeaseLost_resetInput : (s.raiseMotionLeaseLost).resetInput = s.resetInput := rfl
@[simp] theorem State.raiseMotionLeaseLost_supplyLow : (s.raiseMotionLeaseLost).supplyLow = s.supplyLow := rfl
@[simp] theorem State.raiseMotionLeaseLost_notices : (s.raiseMotionLeaseLost).notices = { s.notices with motionLeaseLost := true } := rfl
@[simp] theorem State.raiseMotionLeaseLost_noticeLine : (s.raiseMotionLeaseLost).noticeLine = s.noticeLine := rfl
@[simp] theorem State.raiseMotionLeaseLost_tieCount : (s.raiseMotionLeaseLost).tieCount = s.tieCount := rfl

/-! ### raiseShedChange -/

@[simp] theorem State.raiseShedChange_pending : (s.raiseShedChange).pending = s.pending := rfl
@[simp] theorem State.raiseShedChange_busRx : (s.raiseShedChange).busRx = s.busRx := rfl
@[simp] theorem State.raiseShedChange_linkRx : (s.raiseShedChange).linkRx = s.linkRx := rfl
@[simp] theorem State.raiseShedChange_busReplies : (s.raiseShedChange).busReplies = s.busReplies := rfl
@[simp] theorem State.raiseShedChange_linkReply : (s.raiseShedChange).linkReply = s.linkReply := rfl
@[simp] theorem State.raiseShedChange_busTx : (s.raiseShedChange).busTx = s.busTx := rfl
@[simp] theorem State.raiseShedChange_linkTx : (s.raiseShedChange).linkTx = s.linkTx := rfl
@[simp] theorem State.raiseShedChange_stations : (s.raiseShedChange).stations = s.stations := rfl
@[simp] theorem State.raiseShedChange_claims : (s.raiseShedChange).claims = s.claims := rfl
@[simp] theorem State.raiseShedChange_loads : (s.raiseShedChange).loads = s.loads := rfl
@[simp] theorem State.raiseShedChange_outputs : (s.raiseShedChange).outputs = s.outputs := rfl
@[simp] theorem State.raiseShedChange_scenes : (s.raiseShedChange).scenes = s.scenes := rfl
@[simp] theorem State.raiseShedChange_returnStacks : (s.raiseShedChange).returnStacks = s.returnStacks := rfl
@[simp] theorem State.raiseShedChange_budget : (s.raiseShedChange).budget = s.budget := rfl
@[simp] theorem State.raiseShedChange_axes : (s.raiseShedChange).axes = s.axes := rfl
@[simp] theorem State.raiseShedChange_axisInputs : (s.raiseShedChange).axisInputs = s.axisInputs := rfl
@[simp] theorem State.raiseShedChange_axisPins : (s.raiseShedChange).axisPins = s.axisPins := rfl
@[simp] theorem State.raiseShedChange_interlocks : (s.raiseShedChange).interlocks = s.interlocks := rfl
@[simp] theorem State.raiseShedChange_channels : (s.raiseShedChange).channels = s.channels := rfl
@[simp] theorem State.raiseShedChange_signalPins : (s.raiseShedChange).signalPins = s.signalPins := rfl
@[simp] theorem State.raiseShedChange_device : (s.raiseShedChange).device = s.device := rfl
@[simp] theorem State.raiseShedChange_settle : (s.raiseShedChange).settle = s.settle := rfl
@[simp] theorem State.raiseShedChange_resetInput : (s.raiseShedChange).resetInput = s.resetInput := rfl
@[simp] theorem State.raiseShedChange_supplyLow : (s.raiseShedChange).supplyLow = s.supplyLow := rfl
@[simp] theorem State.raiseShedChange_notices : (s.raiseShedChange).notices = { s.notices with shedChange := true } := rfl
@[simp] theorem State.raiseShedChange_noticeLine : (s.raiseShedChange).noticeLine = s.noticeLine := rfl
@[simp] theorem State.raiseShedChange_tieCount : (s.raiseShedChange).tieCount = s.tieCount := rfl

/-! ### setHome -/

@[simp] theorem State.setHome_pending (a : AxisNo) (x : Bool) : (s.setHome a x).pending = s.pending := rfl
@[simp] theorem State.setHome_busRx (a : AxisNo) (x : Bool) : (s.setHome a x).busRx = s.busRx := rfl
@[simp] theorem State.setHome_linkRx (a : AxisNo) (x : Bool) : (s.setHome a x).linkRx = s.linkRx := rfl
@[simp] theorem State.setHome_busReplies (a : AxisNo) (x : Bool) : (s.setHome a x).busReplies = s.busReplies := rfl
@[simp] theorem State.setHome_linkReply (a : AxisNo) (x : Bool) : (s.setHome a x).linkReply = s.linkReply := rfl
@[simp] theorem State.setHome_busTx (a : AxisNo) (x : Bool) : (s.setHome a x).busTx = s.busTx := rfl
@[simp] theorem State.setHome_linkTx (a : AxisNo) (x : Bool) : (s.setHome a x).linkTx = s.linkTx := rfl
@[simp] theorem State.setHome_stations (a : AxisNo) (x : Bool) : (s.setHome a x).stations = s.stations := rfl
@[simp] theorem State.setHome_claims (a : AxisNo) (x : Bool) : (s.setHome a x).claims = s.claims := rfl
@[simp] theorem State.setHome_loads (a : AxisNo) (x : Bool) : (s.setHome a x).loads = s.loads := rfl
@[simp] theorem State.setHome_outputs (a : AxisNo) (x : Bool) : (s.setHome a x).outputs = s.outputs := rfl
@[simp] theorem State.setHome_scenes (a : AxisNo) (x : Bool) : (s.setHome a x).scenes = s.scenes := rfl
@[simp] theorem State.setHome_returnStacks (a : AxisNo) (x : Bool) : (s.setHome a x).returnStacks = s.returnStacks := rfl
@[simp] theorem State.setHome_budget (a : AxisNo) (x : Bool) : (s.setHome a x).budget = s.budget := rfl
@[simp] theorem State.setHome_axes (a : AxisNo) (x : Bool) : (s.setHome a x).axes = s.axes := rfl
@[simp] theorem State.setHome_axisInputs (a : AxisNo) (x : Bool) : (s.setHome a x).axisInputs = s.axisInputs.set a { s.axisIn a with home := x } := rfl
@[simp] theorem State.setHome_axisPins (a : AxisNo) (x : Bool) : (s.setHome a x).axisPins = s.axisPins := rfl
@[simp] theorem State.setHome_interlocks (a : AxisNo) (x : Bool) : (s.setHome a x).interlocks = s.interlocks := rfl
@[simp] theorem State.setHome_channels (a : AxisNo) (x : Bool) : (s.setHome a x).channels = s.channels := rfl
@[simp] theorem State.setHome_signalPins (a : AxisNo) (x : Bool) : (s.setHome a x).signalPins = s.signalPins := rfl
@[simp] theorem State.setHome_device (a : AxisNo) (x : Bool) : (s.setHome a x).device = s.device := rfl
@[simp] theorem State.setHome_settle (a : AxisNo) (x : Bool) : (s.setHome a x).settle = s.settle := rfl
@[simp] theorem State.setHome_resetInput (a : AxisNo) (x : Bool) : (s.setHome a x).resetInput = s.resetInput := rfl
@[simp] theorem State.setHome_supplyLow (a : AxisNo) (x : Bool) : (s.setHome a x).supplyLow = s.supplyLow := rfl
@[simp] theorem State.setHome_notices (a : AxisNo) (x : Bool) : (s.setHome a x).notices = s.notices := rfl
@[simp] theorem State.setHome_noticeLine (a : AxisNo) (x : Bool) : (s.setHome a x).noticeLine = s.noticeLine := rfl
@[simp] theorem State.setHome_tieCount (a : AxisNo) (x : Bool) : (s.setHome a x).tieCount = s.tieCount := rfl

/-! ### setEdge -/

@[simp] theorem State.setEdge_pending (a : AxisNo) (x : Bool) : (s.setEdge a x).pending = s.pending := rfl
@[simp] theorem State.setEdge_busRx (a : AxisNo) (x : Bool) : (s.setEdge a x).busRx = s.busRx := rfl
@[simp] theorem State.setEdge_linkRx (a : AxisNo) (x : Bool) : (s.setEdge a x).linkRx = s.linkRx := rfl
@[simp] theorem State.setEdge_busReplies (a : AxisNo) (x : Bool) : (s.setEdge a x).busReplies = s.busReplies := rfl
@[simp] theorem State.setEdge_linkReply (a : AxisNo) (x : Bool) : (s.setEdge a x).linkReply = s.linkReply := rfl
@[simp] theorem State.setEdge_busTx (a : AxisNo) (x : Bool) : (s.setEdge a x).busTx = s.busTx := rfl
@[simp] theorem State.setEdge_linkTx (a : AxisNo) (x : Bool) : (s.setEdge a x).linkTx = s.linkTx := rfl
@[simp] theorem State.setEdge_stations (a : AxisNo) (x : Bool) : (s.setEdge a x).stations = s.stations := rfl
@[simp] theorem State.setEdge_claims (a : AxisNo) (x : Bool) : (s.setEdge a x).claims = s.claims := rfl
@[simp] theorem State.setEdge_loads (a : AxisNo) (x : Bool) : (s.setEdge a x).loads = s.loads := rfl
@[simp] theorem State.setEdge_outputs (a : AxisNo) (x : Bool) : (s.setEdge a x).outputs = s.outputs := rfl
@[simp] theorem State.setEdge_scenes (a : AxisNo) (x : Bool) : (s.setEdge a x).scenes = s.scenes := rfl
@[simp] theorem State.setEdge_returnStacks (a : AxisNo) (x : Bool) : (s.setEdge a x).returnStacks = s.returnStacks := rfl
@[simp] theorem State.setEdge_budget (a : AxisNo) (x : Bool) : (s.setEdge a x).budget = s.budget := rfl
@[simp] theorem State.setEdge_axes (a : AxisNo) (x : Bool) : (s.setEdge a x).axes = s.axes := rfl
@[simp] theorem State.setEdge_axisInputs (a : AxisNo) (x : Bool) : (s.setEdge a x).axisInputs = s.axisInputs.set a { s.axisIn a with edge := x } := rfl
@[simp] theorem State.setEdge_axisPins (a : AxisNo) (x : Bool) : (s.setEdge a x).axisPins = s.axisPins := rfl
@[simp] theorem State.setEdge_interlocks (a : AxisNo) (x : Bool) : (s.setEdge a x).interlocks = s.interlocks := rfl
@[simp] theorem State.setEdge_channels (a : AxisNo) (x : Bool) : (s.setEdge a x).channels = s.channels := rfl
@[simp] theorem State.setEdge_signalPins (a : AxisNo) (x : Bool) : (s.setEdge a x).signalPins = s.signalPins := rfl
@[simp] theorem State.setEdge_device (a : AxisNo) (x : Bool) : (s.setEdge a x).device = s.device := rfl
@[simp] theorem State.setEdge_settle (a : AxisNo) (x : Bool) : (s.setEdge a x).settle = s.settle := rfl
@[simp] theorem State.setEdge_resetInput (a : AxisNo) (x : Bool) : (s.setEdge a x).resetInput = s.resetInput := rfl
@[simp] theorem State.setEdge_supplyLow (a : AxisNo) (x : Bool) : (s.setEdge a x).supplyLow = s.supplyLow := rfl
@[simp] theorem State.setEdge_notices (a : AxisNo) (x : Bool) : (s.setEdge a x).notices = s.notices := rfl
@[simp] theorem State.setEdge_noticeLine (a : AxisNo) (x : Bool) : (s.setEdge a x).noticeLine = s.noticeLine := rfl
@[simp] theorem State.setEdge_tieCount (a : AxisNo) (x : Bool) : (s.setEdge a x).tieCount = s.tieCount := rfl

/-! ### driveOutputs -/

@[simp] theorem State.driveOutputs_pending : (s.driveOutputs).pending = s.pending := rfl
@[simp] theorem State.driveOutputs_busRx : (s.driveOutputs).busRx = s.busRx := rfl
@[simp] theorem State.driveOutputs_linkRx : (s.driveOutputs).linkRx = s.linkRx := rfl
@[simp] theorem State.driveOutputs_busReplies : (s.driveOutputs).busReplies = s.busReplies := rfl
@[simp] theorem State.driveOutputs_linkReply : (s.driveOutputs).linkReply = s.linkReply := rfl
@[simp] theorem State.driveOutputs_busTx : (s.driveOutputs).busTx = s.busTx := rfl
@[simp] theorem State.driveOutputs_linkTx : (s.driveOutputs).linkTx = s.linkTx := rfl
@[simp] theorem State.driveOutputs_stations : (s.driveOutputs).stations = s.stations := rfl
@[simp] theorem State.driveOutputs_claims : (s.driveOutputs).claims = s.claims := rfl
@[simp] theorem State.driveOutputs_loads : (s.driveOutputs).loads = s.loads := rfl
@[simp] theorem State.driveOutputs_outputs : (s.driveOutputs).outputs = s.outputs := rfl
@[simp] theorem State.driveOutputs_scenes : (s.driveOutputs).scenes = s.scenes := rfl
@[simp] theorem State.driveOutputs_returnStacks : (s.driveOutputs).returnStacks = s.returnStacks := rfl
@[simp] theorem State.driveOutputs_budget : (s.driveOutputs).budget = s.budget := rfl
@[simp] theorem State.driveOutputs_axes : (s.driveOutputs).axes = s.axes := rfl
@[simp] theorem State.driveOutputs_axisInputs : (s.driveOutputs).axisInputs = s.axisInputs := rfl
@[simp] theorem State.driveOutputs_axisPins : (s.driveOutputs).axisPins = mapTable (fun ax => ax.pins s.inSettle) s.axes := rfl
@[simp] theorem State.driveOutputs_interlocks : (s.driveOutputs).interlocks = s.interlocks := rfl
@[simp] theorem State.driveOutputs_channels : (s.driveOutputs).channels = s.channels := rfl
@[simp] theorem State.driveOutputs_signalPins : (s.driveOutputs).signalPins = mapTable (fun ch => ch.pins s.inSettle) s.channels := rfl
@[simp] theorem State.driveOutputs_device : (s.driveOutputs).device = s.device := rfl
@[simp] theorem State.driveOutputs_settle : (s.driveOutputs).settle = s.settle := rfl
@[simp] theorem State.driveOutputs_resetInput : (s.driveOutputs).resetInput = s.resetInput := rfl
@[simp] theorem State.driveOutputs_supplyLow : (s.driveOutputs).supplyLow = s.supplyLow := rfl
@[simp] theorem State.driveOutputs_notices : (s.driveOutputs).notices = s.levelNotices := rfl
@[simp] theorem State.driveOutputs_noticeLine : (s.driveOutputs).noticeLine = s.noticeLevel := rfl
@[simp] theorem State.driveOutputs_tieCount : (s.driveOutputs).tieCount = s.tieCount := rfl

end Sys2Proof.Machine
end

