-- ==== Sys2Proof/Laws/Records.lean ====
section
/-! SUPPORT. Laws/Records.lean: what reading one record gives after one record is written. -/

namespace Sys2Proof

theorem get_set {α : Type} {n : Nat} (v : Vector α n) (i j : Fin n) (x : α) :
    (v.set i x).get j = if j = i then x else v.get j := by
  have h : (v.set i x).get j = if (i : Nat) = j then x else v.get j := by
    simp only [Vector.get_eq_getElem, Vector.getElem_set]
  rw [h]
  by_cases e : j = i
  · simp [e]
  · have : (i : Nat) ≠ j := fun h => e (Fin.ext h.symm)
    simp [e, this]

@[simp] theorem get_set_self {α : Type} {n : Nat} (v : Vector α n) (i : Fin n) (x : α) : (v.set i x).get i = x := by
  simp [get_set]

theorem get_set_ne {α : Type} {n : Nat} (v : Vector α n) {i j : Fin n} (x : α) (h : j ≠ i) :
    (v.set i x).get j = v.get j := by
  simp [get_set, h]

@[simp] theorem get_replicate {α : Type} {n : Nat} (x : α) (i : Fin n) : (Vector.replicate n x).get i = x := by
  simp [Vector.get_eq_getElem]

@[simp] theorem get_mapTable {α β : Type} {n : Nat} (f : α → β) (v : Vector α n) (i : Fin n) :
    (mapTable f v).get i = f (v.get i) := by
  simp only [Vector.get_eq_getElem, mapTable]
  simp [Vector.getElem_mk]

theorem vector_ext_get {α : Type} {n : Nat} {v w : Vector α n} (h : ∀ i, v.get i = w.get i) : v = w := by
  ext i hi
  simpa [Vector.get_eq_getElem] using h ⟨i, hi⟩

@[simp] theorem set_get_self {α : Type} {n : Nat} (v : Vector α n) (i : Fin n) : v.set i (v.get i) = v := by
  apply vector_ext_get
  intro j
  by_cases h : j = i
  · simp [h]
  · simp [get_set_ne, h]

namespace Machine

variable (s : State)

@[simp] theorem State.load_setLoad_self (n : LoadNo) (l : LoadRec) : (s.setLoad n l).load n = l := by
  simp [State.load]
theorem State.load_setLoad (n m : LoadNo) (l : LoadRec) :
    (s.setLoad n l).load m = if m = n then l else s.load m := by simp [State.load, get_set]
@[simp] theorem State.axis_setAxis_self (a : AxisNo) (x : AxisRec) : (s.setAxis a x).axis a = x := by
  simp [State.axis]
theorem State.axis_setAxis (a b : AxisNo) (x : AxisRec) :
    (s.setAxis a x).axis b = if b = a then x else s.axis b := by simp [State.axis, get_set]
@[simp] theorem State.axisIn_setAxisIn_self (a : AxisNo) (x : AxisInputs) : (s.setAxisIn a x).axisIn a = x := by
  simp [State.axisIn]
theorem State.axisIn_setAxisIn (a b : AxisNo) (x : AxisInputs) :
    (s.setAxisIn a x).axisIn b = if b = a then x else s.axisIn b := by simp [State.axisIn, get_set]
@[simp] theorem State.channel_setChannel_self (a : AxisNo) (x : Channel) : (s.setChannel a x).channel a = x := by
  simp [State.channel]
theorem State.channel_setChannel (a b : AxisNo) (x : Channel) :
    (s.setChannel a x).channel b = if b = a then x else s.channel b := by simp [State.channel, get_set]
theorem State.output_setOutput (n m : LoadNo) (x : Output) :
    (s.setOutput n x).output m = if m = n then x else s.output m := by simp [State.output, get_set]
theorem State.scene_setScene (v w : SceneNo) (x : Scene) :
    (s.setScene v x).scene w = if w = v then x else s.scene w := by simp [State.scene, get_set]
theorem State.returnStack_setReturnStack (p q : SpaceNo) (x : List StackFrame) :
    (s.setReturnStack p x).returnStack q = if q = p then x else s.returnStack q := by simp [State.returnStack, get_set]
theorem State.interlock_setInterlock (p q : PlaceNo) (x : Option Interlock) :
    (s.setInterlock p x).interlock q = if q = p then x else s.interlock q := by simp [State.interlock, get_set]
theorem State.held_setHeld (a b : AxisNo) (d : Nat) :
    (s.setHeld a d).held b = if b = a then d else s.held b := by simp [State.held, get_set]

/-- An accessor reads one field alone: two states with that field equal give it the same answer. -/
theorem State.load_congr {s t : State} (h : t.loads = s.loads) (n : LoadNo) : t.load n = s.load n := by
  simp [State.load, h]
theorem State.axis_congr {s t : State} (h : t.axes = s.axes) (a : AxisNo) : t.axis a = s.axis a := by
  simp [State.axis, h]
theorem State.channel_congr {s t : State} (h : t.channels = s.channels) (a : AxisNo) : t.channel a = s.channel a := by
  simp [State.channel, h]
theorem State.axisIn_congr {s t : State} (h : t.axisInputs = s.axisInputs) (a : AxisNo) : t.axisIn a = s.axisIn a := by
  simp [State.axisIn, h]
theorem State.interlock_congr {s t : State} (h : t.interlocks = s.interlocks) (p : PlaceNo) :
    t.interlock p = s.interlock p := by simp [State.interlock, h]
theorem State.held_congr {s t : State} (h : t.budget = s.budget) (a : AxisNo) : t.held a = s.held a := by
  simp [State.held, h]

theorem allAxes_complete (a : AxisNo) : a ∈ allAxes := by
  revert a; decide

theorem allPlaces_complete (p : PlaceNo) : p ∈ allPlaces := List.mem_finRange p

theorem allLoads_complete (n : LoadNo) : n ∈ allLoads := List.mem_finRange n

end Machine
end Sys2Proof
end

