-- ==== Sys2Proof/Laws/LoadRecords.lean ====
section
/-! SUPPORT. Laws/LoadRecords.lean: what each operation on one load record leaves alone and what it brings about. -/

namespace Sys2Proof.Machine

/-! ### The parts of a load record that the fade and level operations do not touch -/

section
variable (l : LoadRec) (k : Nat)

@[simp] theorem LoadRec.startFade_config : (l.startFade k).toLoadConfig = l.toLoadConfig := by
  simp only [LoadRec.startFade]; split <;> (try split) <;> (try split) <;> rfl
@[simp] theorem LoadRec.startFade_setTarget : (l.startFade k).setTarget = l.setTarget := by
  simp only [LoadRec.startFade]; split <;> (try split) <;> (try split) <;> rfl
@[simp] theorem LoadRec.startFade_effTarget : (l.startFade k).effTarget = l.effTarget := by
  simp only [LoadRec.startFade]; split <;> (try split) <;> (try split) <;> rfl
@[simp] theorem LoadRec.startFade_shed : (l.startFade k).shed = l.shed := by
  simp only [LoadRec.startFade]; split <;> (try split) <;> (try split) <;> rfl
@[simp] theorem LoadRec.startFade_forced : (l.startFade k).forced = l.forced := by
  simp only [LoadRec.startFade]; split <;> (try split) <;> (try split) <;> rfl
@[simp] theorem LoadRec.startFade_countedDraw : (l.startFade k).countedDraw = l.countedDraw := by
  simp only [LoadRec.startFade]; split <;> (try split) <;> (try split) <;> rfl

@[simp] theorem LoadRec.followSwitch_config : l.followSwitch.toLoadConfig = l.toLoadConfig := by
  simp only [LoadRec.followSwitch]; split <;> rfl
@[simp] theorem LoadRec.followSwitch_setTarget : l.followSwitch.setTarget = l.setTarget := by
  simp only [LoadRec.followSwitch]; split <;> rfl
@[simp] theorem LoadRec.followSwitch_effTarget : l.followSwitch.effTarget = l.effTarget := by
  simp only [LoadRec.followSwitch]; split <;> rfl
@[simp] theorem LoadRec.followSwitch_shed : l.followSwitch.shed = l.shed := by
  simp only [LoadRec.followSwitch]; split <;> rfl
@[simp] theorem LoadRec.followSwitch_forced : l.followSwitch.forced = l.forced := by
  simp only [LoadRec.followSwitch]; split <;> rfl
@[simp] theorem LoadRec.followSwitch_fade : l.followSwitch.fade = l.fade := by
  simp only [LoadRec.followSwitch]; split <;> rfl

@[simp] theorem LoadRec.retarget_config : l.retarget.toLoadConfig = l.toLoadConfig := rfl
@[simp] theorem LoadRec.retarget_setTarget : l.retarget.setTarget = l.setTarget := rfl
@[simp] theorem LoadRec.retarget_effTarget : l.retarget.effTarget = l.effectiveTarget := rfl
@[simp] theorem LoadRec.retarget_level : l.retarget.level = l.level := rfl
@[simp] theorem LoadRec.retarget_fade : l.retarget.fade = l.fade := rfl
@[simp] theorem LoadRec.retarget_shed : l.retarget.shed = l.shed := rfl
@[simp] theorem LoadRec.retarget_forced : l.retarget.forced = l.forced := rfl
@[simp] theorem LoadRec.retarget_countedDraw : l.retarget.countedDraw = l.countedDraw := rfl

@[simp] theorem LoadRec.recount_config : l.recount.toLoadConfig = l.toLoadConfig := rfl
@[simp] theorem LoadRec.recount_setTarget : l.recount.setTarget = l.setTarget := rfl
@[simp] theorem LoadRec.recount_effTarget : l.recount.effTarget = l.effTarget := rfl
@[simp] theorem LoadRec.recount_level : l.recount.level = l.level := rfl
@[simp] theorem LoadRec.recount_fade : l.recount.fade = l.fade := rfl
@[simp] theorem LoadRec.recount_shed : l.recount.shed = l.shed := rfl
@[simp] theorem LoadRec.recount_forced : l.recount.forced = l.forced := rfl
@[simp] theorem LoadRec.recount_countedDraw : l.recount.countedDraw = l.drawAt (max l.level l.effTarget) := rfl

@[simp] theorem LoadRec.stepFade_config (f : Fade) : (l.stepFade f).toLoadConfig = l.toLoadConfig := rfl
@[simp] theorem LoadRec.stepFade_setTarget (f : Fade) : (l.stepFade f).setTarget = l.setTarget := rfl
@[simp] theorem LoadRec.stepFade_effTarget (f : Fade) : (l.stepFade f).effTarget = l.effTarget := rfl
@[simp] theorem LoadRec.stepFade_shed (f : Fade) : (l.stepFade f).shed = l.shed := rfl
@[simp] theorem LoadRec.stepFade_forced (f : Fade) : (l.stepFade f).forced = l.forced := rfl

@[simp] theorem LoadRec.dropToTarget_config (old : Nat) : (l.dropToTarget old).toLoadConfig = l.toLoadConfig := by
  simp only [LoadRec.dropToTarget]
  split <;> (try split) <;> (try split) <;> (try split) <;> simp
@[simp] theorem LoadRec.dropToTarget_setTarget (old : Nat) : (l.dropToTarget old).setTarget = l.setTarget := by
  simp only [LoadRec.dropToTarget]
  split <;> (try split) <;> (try split) <;> (try split) <;> simp
@[simp] theorem LoadRec.dropToTarget_effTarget (old : Nat) : (l.dropToTarget old).effTarget = l.effTarget := by
  simp only [LoadRec.dropToTarget]
  split <;> (try split) <;> (try split) <;> (try split) <;> simp
@[simp] theorem LoadRec.dropToTarget_shed (old : Nat) : (l.dropToTarget old).shed = l.shed := by
  simp only [LoadRec.dropToTarget]
  split <;> (try split) <;> (try split) <;> (try split) <;> simp
@[simp] theorem LoadRec.dropToTarget_forced (old : Nat) : (l.dropToTarget old).forced = l.forced := by
  simp only [LoadRec.dropToTarget]
  split <;> (try split) <;> (try split) <;> (try split) <;> simp
end

/-- The kind, rating and shed level of a record are its configuration's. -/
theorem LoadRec.kind_of_config {l l' : LoadRec} (h : l'.toLoadConfig = l.toLoadConfig) : l'.kind = l.kind := by rw [h]

/-- R42 depends on the kind, the flags, SET TARGET and SHED LEVEL alone. -/
theorem LoadRec.effectiveTarget_congr {l l' : LoadRec} (hc : l'.toLoadConfig = l.toLoadConfig)
    (ht : l'.setTarget = l.setTarget) (hs : l'.shed = l.shed) (hf : l'.forced = l.forced) :
    l'.effectiveTarget = l.effectiveTarget := by
  simp only [LoadRec.effectiveTarget, hc, ht, hs, hf]

/-- R43 depends on the configuration alone. -/
theorem LoadRec.drawAt_congr {l l' : LoadRec} (hc : l'.toLoadConfig = l.toLoadConfig) (m : Nat) :
    l'.drawAt m = l.drawAt m := by
  simp only [LoadRec.drawAt, hc]

theorem LoadRec.drawAt_mono (l : LoadRec) {m m' : Nat} (h : m ≤ m') : l.drawAt m ≤ l.drawAt m' := by
  simp only [LoadRec.drawAt]
  split
  · exact Nat.le_refl _
  · split <;> split <;> omega
  · exact Nat.div_le_div_right (by have := Nat.mul_le_mul_left l.ratedPower h; omega)

/-! ### The changes of one load record -/

/-- The changes that events make to one load record, WRITE_LOAD and the resets apart. -/
inductive LoadRec.Change : LoadRec → LoadRec → Prop
  | shed (l : LoadRec) : l.shed = false → l.forced = false → Change l l.toShed
  | restored (l : LoadRec) : Change l l.toRestored
  | forced (l : LoadRec) : Change l l.toForced
  | unforced (l : LoadRec) : Change l l.toUnforced
  | target (l : LoadRec) (v k : Nat) : v ≤ 1000 ∨ v = l.setTarget → Change l (l.withSetTarget v k)
  | step (l : LoadRec) (f : Fade) : l.fade = some f → Change l (l.stepFade f).recount
  | fadeIn (l : LoadRec) : Change l l.fadeIn

/-- Any number of such changes. -/
abbrev LoadRec.Changes : LoadRec → LoadRec → Prop := Relation.ReflTransGen LoadRec.Change

theorem LoadRec.toShed_config (l : LoadRec) : l.toShed.toLoadConfig = l.toLoadConfig := by simp [LoadRec.toShed]
theorem LoadRec.toRestored_config (l : LoadRec) : l.toRestored.toLoadConfig = l.toLoadConfig := by
  simp [LoadRec.toRestored]
theorem LoadRec.toForced_config (l : LoadRec) : l.toForced.toLoadConfig = l.toLoadConfig := by
  simp only [LoadRec.toForced]; split <;> rfl
theorem LoadRec.toUnforced_config (l : LoadRec) : l.toUnforced.toLoadConfig = l.toLoadConfig := by
  simp only [LoadRec.toUnforced]
  split
  · simp only [LoadRec.recount_config]
    split
    · rfl
    · simp
    · split <;> simp
  · rfl
theorem LoadRec.withSetTarget_config (l : LoadRec) (v k : Nat) :
    (l.withSetTarget v k).toLoadConfig = l.toLoadConfig := by simp [LoadRec.withSetTarget]
theorem LoadRec.fadeIn_config (l : LoadRec) : l.fadeIn.toLoadConfig = l.toLoadConfig := by simp [LoadRec.fadeIn]

/-- No change of Table 3-1's fields but by WRITE_LOAD (R40). -/
theorem LoadRec.Change.config {l l' : LoadRec} (h : LoadRec.Change l l') : l'.toLoadConfig = l.toLoadConfig := by
  cases h with
  | shed => exact l.toShed_config
  | restored => exact l.toRestored_config
  | forced => exact l.toForced_config
  | unforced => exact l.toUnforced_config
  | target v k _ => exact l.withSetTarget_config v k
  | step f _ => rfl
  | fadeIn => exact l.fadeIn_config

theorem LoadRec.Changes.config {l l' : LoadRec} (h : LoadRec.Changes l l') : l'.toLoadConfig = l.toLoadConfig := by
  induction h with
  | refl => rfl
  | tail _ c ih => rw [c.config, ih]

/-! ### The derived values (R42, R43) -/

/-- EFFECTIVE TARGET and COUNTED DRAW of one load are what its other fields give (R42, R43). -/
def LoadRec.Derived (l : LoadRec) : Prop :=
  l.effTarget = l.effectiveTarget ∧ l.countedDraw = l.drawAt (max l.level l.effTarget)

theorem LoadRec.derived_recount {l : LoadRec} (h : l.effTarget = l.effectiveTarget) : l.recount.Derived :=
  ⟨by rw [l.recount_effTarget, h]; exact (LoadRec.effectiveTarget_congr rfl rfl rfl rfl).symm,
   by rw [l.recount_countedDraw]; exact (LoadRec.drawAt_congr l.recount_config _).symm⟩

/-- A record whose effective target has just been derived keeps it through operations on its level and fade. -/
theorem LoadRec.effTarget_derived {l u : LoadRec} (he : u.effTarget = l.effectiveTarget)
    (hc : u.toLoadConfig = l.toLoadConfig) (ht : u.setTarget = l.setTarget) (hs : u.shed = l.shed)
    (hf : u.forced = l.forced) : u.effTarget = u.effectiveTarget :=
  he.trans (LoadRec.effectiveTarget_congr hc ht hs hf).symm

theorem LoadRec.Change.derived {l l' : LoadRec} (h : LoadRec.Change l l') (hl : l.Derived) : l'.Derived := by
  cases h with
  | shed _ _ =>
    exact LoadRec.derived_recount (LoadRec.effTarget_derived (l := { l with shed := true }) (by simp) (by simp) (by simp)
      (by simp) (by simp))
  | restored =>
    exact LoadRec.derived_recount (LoadRec.effTarget_derived (l := { l with shed := false }) (by simp) (by simp) (by simp)
      (by simp) (by simp))
  | forced =>
    simp only [LoadRec.toForced]
    split
    · exact hl
    · rename_i h
      apply LoadRec.derived_recount
      simp only [LoadRec.effectiveTarget]
      split <;> simp_all
  | unforced =>
    simp only [LoadRec.toUnforced]
    split
    · apply LoadRec.derived_recount
      apply LoadRec.effTarget_derived (l := { l with forced := false })
      all_goals (split <;> (try split) <;> simp)
    · exact hl
  | target v k _ =>
    exact LoadRec.derived_recount (LoadRec.effTarget_derived (l := { l with setTarget := v }) (by simp) (by simp) (by simp)
      (by simp) (by simp))
  | step f _ => exact LoadRec.derived_recount (hl.1.trans (LoadRec.effectiveTarget_congr rfl rfl rfl rfl).symm)
  | fadeIn =>
    exact LoadRec.derived_recount (LoadRec.effTarget_derived (l := l) (by simpa using hl.1) (by simp) (by simp)
      (by simp) (by simp))

theorem LoadRec.Changes.derived {l l' : LoadRec} (h : LoadRec.Changes l l') (hl : l.Derived) : l'.Derived := by
  induction h with
  | refl => exact hl
  | tail _ c ih => exact c.derived ih

end Sys2Proof.Machine
end

