-- ==== Sys2Proof/Laws/Fades.lean ====
section
/-! SUPPORT. Laws/Fades.lean: fade records stay sound, levels stay in range, and counted draws rise only where they may. -/

namespace Sys2Proof.Machine

/-- The ranges of the live fields of one load, and of its SHED LEVEL (R41, Table 3-1). -/
def LoadRec.InRange (l : LoadRec) : Prop :=
  l.level ≤ 1000 ∧ l.setTarget ≤ 1000 ∧ l.effTarget ≤ 1000 ∧ l.shedLevel ≤ 1000

/-- Only a DIM load that is not forced has a fade record (R61). -/
def LoadRec.FadePlaced (l : LoadRec) : Prop := ∀ f, l.fade = some f → l.kind = .dim ∧ l.forced = false

theorem LoadRec.FadeSound.placed {l : LoadRec} (h : l.FadeSound) : l.FadePlaced :=
  fun f hf => ⟨(h f hf).1, (h f hf).2.1⟩

theorem LoadRec.fadeSound_none {l : LoadRec} (h : l.fade = none) : l.FadeSound := by
  intro f hf; rw [h] at hf; cases hf

/-- Soundness of a fade record looks at the kind, the force, the level and the effective target alone. -/
theorem LoadRec.FadeSound.congr {l l' : LoadRec} (h : l.FadeSound) (hc : l'.kind = l.kind)
    (hf : l'.forced = l.forced) (hd : l'.fade = l.fade) (hl : l'.level = l.level) (he : l'.effTarget = l.effTarget) :
    l'.FadeSound := by
  intro f e; rw [hd] at e; rw [hc, hf, hl, he]; exact h f e

/-- A fade set up by R62 is sound. -/
theorem LoadRec.startFade_sound {l : LoadRec} (k : Nat) (h : l.FadePlaced) : (l.startFade k).FadeSound := by
  intro f hf
  simp only [LoadRec.startFade] at hf ⊢
  split at hf
  · rename_i hk
    split at hf
    · cases hf
    · split at hf
      · cases hf
      · rename_i hd hz
        simp only [hk, and_self, if_true, hd, hz, if_false]
        simp only [Option.some.injEq] at hf
        subst hf
        have hk0 : 0 < k := Nat.pos_of_ne_zero hz
        generalize hde : l.effTarget - l.level + (l.level - l.effTarget) = d at *
        have hr : d - d / k * k < k := by
          have := Nat.mod_lt d hk0
          have e := Nat.div_add_mod d k
          rw [Nat.mul_comm] at e; omega
        have hsum : k * (d / k) + k * (d - d / k * k) / k = d := by
          rw [Nat.mul_div_cancel_left _ hk0]
          have e := Nat.div_add_mod d k
          have e2 : d / k * k = k * (d / k) := Nat.mul_comm _ _
          omega
        refine ⟨trivial, trivial, hr, hk0, hk0, Nat.le_refl _, ?_, ?_⟩
        · simp
        · simp only [Fade.endLevel, Nat.zero_add]
          rw [hsum]
          by_cases hlt : l.level < l.effTarget
          · simp [hlt]; omega
          · simp [hlt]; omega
  · rename_i hk
    exact absurd (h f hf) hk

theorem LoadRec.followSwitch_sound {l : LoadRec} (h : l.FadeSound) : l.followSwitch.FadeSound := by
  simp only [LoadRec.followSwitch]
  split
  · rename_i hk
    apply LoadRec.fadeSound_none
    rcases hf : l.fade with _ | f
    · rfl
    · have := (h f hf).1; rw [hk] at this; cases this
  · exact h

theorem LoadRec.recount_sound {l : LoadRec} (h : l.FadeSound) : l.recount.FadeSound := h.congr rfl rfl rfl rfl rfl

theorem LoadRec.dropToTarget_sound {l : LoadRec} (old : Nat) (h : l.FadePlaced)
    (hk : ¬ l.effTarget < old → l.FadeSound) : (l.dropToTarget old).FadeSound := by
  have none_of : l.kind ≠ .dim → l.fade = none := by
    intro hn
    rcases hf : l.fade with _ | f
    · rfl
    · exact absurd (h f hf).1 hn
  simp only [LoadRec.dropToTarget]
  split
  · rename_i e; exact LoadRec.fadeSound_none (none_of (by simp [e]))
  · rename_i e; exact LoadRec.followSwitch_sound (LoadRec.fadeSound_none (none_of (by simp [e])))
  · split
    · split
      · exact LoadRec.fadeSound_none rfl
      · split
        · exact LoadRec.startFade_sound _ h
        · rename_i e; exact LoadRec.fadeSound_none e
    · rename_i e; exact hk e

/-- A shed caps EFFECTIVE TARGET: it never raises it (R42, R56). -/
theorem LoadRec.shed_effectiveTarget_le (l : LoadRec) (hs : l.shed = false) (hf : l.forced = false) :
    ({ l with shed := true } : LoadRec).effectiveTarget ≤ l.effectiveTarget := by
  cases hk : l.kind <;> simp only [LoadRec.effectiveTarget, hs, hf, hk] <;> simp
  split <;> omega

/-- A step of a sound fade (R64, R65): still sound, nearer to the target, and never past it. -/
theorem LoadRec.stepFade_sound {l : LoadRec} {f : Fade} (h : l.FadeSound) (hf : l.fade = some f) :
    (l.stepFade f).FadeSound
      ∧ (f.rising = true → l.level ≤ (l.stepFade f).level ∧ (l.stepFade f).level ≤ l.effTarget)
      ∧ (f.rising = false → l.effTarget ≤ (l.stepFade f).level ∧ (l.stepFade f).level ≤ l.level) := by
  obtain ⟨hk, hfo, hr, ha, h1, hn, hm, he⟩ := h f hf
  -- what is left of the fade after this step
  have hrem : f.remaining = f.remaining - 1 + 1 := by omega
  have hsplit : f.remaining * f.q = (f.remaining - 1) * f.q + f.q := by
    conv_lhs => rw [hrem, Nat.add_mul, Nat.one_mul]
  have hsplitr : f.remaining * f.r = (f.remaining - 1) * f.r + f.r := by
    conv_lhs => rw [hrem, Nat.add_mul, Nat.one_mul]
  set c : Bool := decide (f.n ≤ f.acc + f.r) with hc
  set acc' := if c then f.acc + f.r - f.n else f.acc + f.r with hacc
  set move := f.q + (if c then 1 else 0) with hmove
  have hn0 : 0 < f.n := by omega
  have hcar : (f.acc + f.remaining * f.r) / f.n = (if c then 1 else 0) + (acc' + (f.remaining - 1) * f.r) / f.n := by
    by_cases hcc : f.n ≤ f.acc + f.r
    · have : c = true := by simp [hc, hcc]
      simp only [hacc, this, if_true]
      rw [hsplitr]
      have e : f.acc + ((f.remaining - 1) * f.r + f.r) = (f.acc + f.r - f.n + (f.remaining - 1) * f.r) + f.n := by omega
      rw [e, Nat.add_div_right _ hn0]; omega
    · have : c = false := by simp [hc]; omega
      simp only [hacc, this, hsplitr]
      simp
      congr 1
      omega
  have hmod : (acc' + (f.remaining - 1) * f.r) % f.n = 0 := by
    by_cases hcc : f.n ≤ f.acc + f.r
    · have : c = true := by simp [hc, hcc]
      simp only [hacc, this, if_true]
      rw [hsplitr] at hm
      have e : f.acc + ((f.remaining - 1) * f.r + f.r) = (f.acc + f.r - f.n + (f.remaining - 1) * f.r) + f.n := by omega
      rw [e, Nat.add_mod_right] at hm; exact hm
    · have : c = false := by simp [hc]; omega
      simp only [hacc, this]
      rw [hsplitr] at hm
      simpa [Nat.add_assoc, Nat.add_comm, Nat.add_left_comm] using hm
  have hacc_lt : acc' < f.n := by
    by_cases hcc : f.n ≤ f.acc + f.r
    · have : c = true := by simp [hc, hcc]
      simp only [hacc, this, if_true]; omega
    · have : c = false := by simp [hc]; omega
      simp only [hacc, this]; simp; omega
  have hleft : f.remaining * f.q + (f.acc + f.remaining * f.r) / f.n
      = move + ((f.remaining - 1) * f.q + (acc' + (f.remaining - 1) * f.r) / f.n) := by
    rw [hcar, hsplit, hmove]; omega
  simp only [Fade.endLevel] at he
  rw [hleft] at he
  set rest := (f.remaining - 1) * f.q + (acc' + (f.remaining - 1) * f.r) / f.n with hrest
  have hlev : (l.stepFade f).level = if f.rising then l.level + move else l.level - move := rfl
  have hfade : (l.stepFade f).fade
      = if f.remaining ≤ 1 then none
        else some { f with acc := acc', remaining := f.remaining - 1, stepTimer := fadeStepMs } := rfl
  clear_value rest move acc'
  have up : f.rising = true → l.level + (move + rest) = l.effTarget := by
    intro hri; simp only [hri, if_true] at he; omega
  have down : f.rising = false → l.level = l.effTarget + (move + rest) := by
    intro hri; simp only [hri, Bool.false_eq_true, if_false] at he; omega
  refine ⟨?_, ?_, ?_⟩
  · intro g hg
    rw [hfade] at hg
    split at hg
    · cases hg
    · rename_i hr1
      simp only [Option.some.injEq] at hg
      subst hg
      refine ⟨hk, hfo, hr, hacc_lt, by simp only; omega, by simp only; omega, hmod, ?_⟩
      simp only [Fade.endLevel, hlev]
      rw [← hrest]
      show (if f.rising then ((if f.rising then l.level + move else l.level - move : Nat) : Int) + rest
        else ((if f.rising then l.level + move else l.level - move : Nat) : Int) - rest) = (l.effTarget : Int)
      cases hri : f.rising
      · have := down hri; simp only [Bool.false_eq_true, if_false]; omega
      · have := up hri; simp only [if_true]; omega
  · intro hri
    have := up hri
    simp only [hlev, hri, if_true]; omega
  · intro hri
    have := down hri
    simp only [hlev, hri, Bool.false_eq_true, if_false]; omega

/-- A fade whose last step is taken stands at its target (R65). -/
theorem LoadRec.stepFade_last {l : LoadRec} {f : Fade} (h : l.FadeSound) (hf : l.fade = some f)
    (h1 : f.remaining = 1) : (l.stepFade f).level = l.effTarget ∧ (l.stepFade f).fade = none := by
  obtain ⟨hk, hfo, hr, ha, _, hn, hm, he⟩ := h f hf
  have hn0 : 0 < f.n := by omega
  simp only [h1, Nat.one_mul] at he hm
  refine ⟨?_, by simp [LoadRec.stepFade, h1]⟩
  simp only [Fade.endLevel, h1, Nat.one_mul] at he
  by_cases hc : f.n ≤ f.acc + f.r
  · have e : (f.acc + f.r) / f.n = 1 := by
      rw [Nat.div_eq_iff hn0]; omega
    rw [e] at he
    simp only [LoadRec.stepFade, hc, decide_true]
    cases hri : f.rising <;> simp [hri] at he ⊢ <;> omega
  · have e : (f.acc + f.r) / f.n = 0 := Nat.div_eq_of_lt (by omega)
    rw [e] at he
    simp only [LoadRec.stepFade, hc, decide_false]
    cases hri : f.rising <;> simp [hri] at he ⊢ <;> omega

/-! ### Levels -/

theorem LoadRec.startFade_level (l : LoadRec) (k : Nat) :
    (l.startFade k).level = l.level ∨ (l.startFade k).level = l.effTarget := by
  simp only [LoadRec.startFade]; split <;> (try split) <;> (try split) <;> simp

theorem LoadRec.startFade_level_pos (l : LoadRec) {k : Nat} (hk : k ≠ 0) : (l.startFade k).level = l.level := by
  simp only [LoadRec.startFade, hk, if_false]; split <;> (try split) <;> rfl

theorem LoadRec.followSwitch_level (l : LoadRec) :
    l.followSwitch.level = l.level ∨ l.followSwitch.level = l.effTarget := by
  simp only [LoadRec.followSwitch]; split <;> simp

theorem LoadRec.dropToTarget_level (l : LoadRec) (old : Nat) :
    (l.dropToTarget old).level = l.level ∨ (l.dropToTarget old).level = l.effTarget := by
  simp only [LoadRec.dropToTarget]
  split
  · simp
  · exact l.followSwitch_level
  · split
    · split
      · simp
      · split
        · exact l.startFade_level _
        · simp
    · simp

theorem LoadRec.effectiveTarget_le {l : LoadRec} (h : l.setTarget ≤ 1000) : l.effectiveTarget ≤ 1000 := by
  simp only [LoadRec.effectiveTarget]
  cases l.kind <;> simp only
  · omega
  · split
    · exact Nat.le_refl _
    · split <;> omega
  · split
    · exact Nat.le_refl _
    · split
      · split <;> omega
      · exact h

/-- The invariants of one load record together; `full` is R137's "a forced load's level is 1000". -/
structure LoadRec.Sound (l : LoadRec) : Prop where
  derived : l.Derived
  fades : l.FadeSound
  range : l.InRange
  full : l.forced = true → l.kind ≠ .none → l.level = 1000

theorem LoadRec.Change.range {l l' : LoadRec} (h : LoadRec.Change l l') (hl : l.Sound) : l'.InRange := by
  obtain ⟨h1, h2, h3, h4⟩ := hl.range
  have hsl : l'.shedLevel ≤ 1000 := by rw [show l'.shedLevel = l.shedLevel by rw [h.config]]; exact h4
  have lev : ∀ u v w : LoadRec, u.level ≤ 1000 → u.effTarget ≤ 1000 → (v.level = u.level ∨ v.level = u.effTarget) →
      v.effTarget = u.effTarget → (w.level = v.level ∨ w.level = v.effTarget) → w.level ≤ 1000 := by
    intro u v w a b c d e
    rcases c with c | c <;> rcases e with e | e <;> omega
  cases h with
  | shed hs hf =>
    have he : ({ l with shed := true } : LoadRec).effectiveTarget ≤ 1000 := LoadRec.effectiveTarget_le h2
    refine ⟨?_, by simpa [LoadRec.toShed] using h2, by simpa [LoadRec.toShed] using he, hsl⟩
    rcases LoadRec.dropToTarget_level ({ l with shed := true } : LoadRec).retarget l.effTarget with e | e
    · simp only [LoadRec.toShed, LoadRec.recount_level, e]; exact h1
    · simp only [LoadRec.toShed, LoadRec.recount_level, e]; exact he
  | restored =>
    have he : ({ l with shed := false } : LoadRec).effectiveTarget ≤ 1000 := LoadRec.effectiveTarget_le h2
    refine ⟨?_, by simpa [LoadRec.toRestored] using h2, by simpa [LoadRec.toRestored] using he, hsl⟩
    exact lev _ _ _ (by simpa using h1) (by simpa using he) (LoadRec.startFade_level _ _) (by simp)
      (LoadRec.followSwitch_level _)
  | forced =>
    refine ⟨?_, ?_, ?_, hsl⟩ <;> simp only [LoadRec.toForced] <;> split <;> first | assumption | simp
  | unforced =>
    have he : ({ l with forced := false } : LoadRec).effectiveTarget ≤ 1000 := LoadRec.effectiveTarget_le h2
    refine ⟨?_, ?_, ?_, hsl⟩ <;> simp only [LoadRec.toUnforced] <;> split
    · simp only [LoadRec.recount_level]
      split
      · exact h1
      · rcases LoadRec.followSwitch_level ({ l with forced := false } : LoadRec).retarget with e | e
        · rw [e]; exact h1
        · rw [e]; exact he
      · split
        · exact he
        · rcases LoadRec.startFade_level ({ l with forced := false } : LoadRec).retarget restoreSteps with e | e
          · rw [e]; exact h1
          · rw [e]; exact he
    · exact h1
    · simp only [LoadRec.recount_setTarget]
      split <;> (try split) <;> simpa using h2
    · exact h2
    · simp only [LoadRec.recount_effTarget]
      split <;> (try split) <;> simpa using he
    · exact h3
  | target v k hv =>
    have hv' : v ≤ 1000 := by rcases hv with hv | hv <;> omega
    have he : ({ l with setTarget := v } : LoadRec).effectiveTarget ≤ 1000 := LoadRec.effectiveTarget_le hv'
    refine ⟨?_, by simpa [LoadRec.withSetTarget] using hv', by simpa [LoadRec.withSetTarget] using he, hsl⟩
    exact lev _ _ _ (by simpa using h1) (by simpa using he) (LoadRec.startFade_level _ _) (by simp)
      (LoadRec.followSwitch_level _)
  | step f hf =>
    obtain ⟨_, hr, hfl⟩ := LoadRec.stepFade_sound hl.fades hf
    refine ⟨?_, by simpa using h2, by simpa using h3, hsl⟩
    simp only [LoadRec.recount_level]
    cases hri : f.rising
    · have := hfl hri; omega
    · have := hr hri; omega
  | fadeIn =>
    refine ⟨?_, by simpa [LoadRec.fadeIn] using h2, by simpa [LoadRec.fadeIn] using h3, hsl⟩
    exact lev l _ _ h1 h3 (LoadRec.startFade_level _ _) (by simp) (LoadRec.followSwitch_level _)

theorem LoadRec.Change.fades {l l' : LoadRec} (h : LoadRec.Change l l') (hl : l.Sound) : l'.FadeSound := by
  have hp := hl.fades.placed
  cases h with
  | shed hs hf =>
    apply LoadRec.recount_sound
    apply LoadRec.dropToTarget_sound
    · exact hp
    · intro hn
      have hle := LoadRec.shed_effectiveTarget_le l hs hf
      have hd := hl.derived.1
      exact hl.fades.congr rfl rfl rfl rfl (by simp at hn ⊢; omega)
  | restored =>
    exact LoadRec.recount_sound (LoadRec.followSwitch_sound (LoadRec.startFade_sound _ hp))
  | forced =>
    simp only [LoadRec.toForced]
    split
    · exact hl.fades
    · exact LoadRec.fadeSound_none rfl
  | unforced =>
    simp only [LoadRec.toUnforced]
    split
    · rename_i hfo
      have hn : l.fade = none := by
        rcases hf : l.fade with _ | f
        · rfl
        · have := (hp f hf).2; rw [hfo] at this; cases this
      apply LoadRec.recount_sound
      have hp' : ({ l with forced := false } : LoadRec).retarget.FadePlaced := by
        intro f hf; simp [hn] at hf
      split
      · exact LoadRec.fadeSound_none hn
      · exact LoadRec.followSwitch_sound (LoadRec.fadeSound_none hn)
      · split
        · exact LoadRec.fadeSound_none rfl
        · exact LoadRec.startFade_sound _ hp'
    · exact hl.fades
  | target v k _ =>
    exact LoadRec.recount_sound (LoadRec.followSwitch_sound (LoadRec.startFade_sound _ hp))
  | step f hf => exact LoadRec.recount_sound (LoadRec.stepFade_sound hl.fades hf).1
  | fadeIn =>
    exact LoadRec.recount_sound (LoadRec.followSwitch_sound (LoadRec.startFade_sound _ hp))

/-- A forced load that is not NONE has effective target 1000 (R42). -/
theorem LoadRec.forced_effectiveTarget {l : LoadRec} (hf : l.forced = true) (hk : l.kind ≠ .none) :
    l.effectiveTarget = 1000 := by
  cases h : l.kind <;> simp_all [LoadRec.effectiveTarget]

theorem LoadRec.Change.full {l l' : LoadRec} (h : LoadRec.Change l l') (hl : l.Sound) :
    l'.forced = true → l'.kind ≠ .none → l'.level = 1000 := by
  have hk : l'.kind = l.kind := by rw [h.config]
  intro hf hn
  rw [hk] at hn
  have key : ∀ u : LoadRec, u.forced = true → u.kind ≠ .none → u.level = 1000 → ∀ k,
      ((u.retarget.startFade k).followSwitch).level = 1000 := by
    intro u h1 h2 h3 k
    have e : u.retarget.startFade k = u.retarget := by simp [LoadRec.startFade, h1]
    rw [e]
    rcases u.retarget.followSwitch_level with e | e
    · rw [e]; exact h3
    · rw [e]; exact LoadRec.forced_effectiveTarget h1 h2
  cases h with
  | shed hs h0 => simp [LoadRec.toShed, h0] at hf
  | restored =>
    have hfo : l.forced = true := by simpa [LoadRec.toRestored] using hf
    exact key { l with shed := false } hfo hn (hl.full hfo hn) _
  | forced =>
    simp only [LoadRec.toForced] at hf ⊢
    split
    · rename_i h
      rcases h with h | h
      · exact hl.full h hn
      · exact absurd h hn
    · rfl
  | unforced =>
    exfalso
    simp only [LoadRec.toUnforced] at hf
    split at hf
    · simp only [LoadRec.recount_forced] at hf
      split at hf <;> (try split at hf) <;> simp at hf
    · rename_i h; exact h hf
  | target v k _ =>
    have hfo : l.forced = true := by simpa [LoadRec.withSetTarget] using hf
    exact key { l with setTarget := v } hfo hn (hl.full hfo hn) _
  | step f h =>
    have := (hl.fades f h).2.1
    simp only [LoadRec.recount_forced, LoadRec.stepFade_forced] at hf
    rw [hf] at this; cases this
  | fadeIn =>
    have hfo : l.forced = true := by simpa [LoadRec.fadeIn] using hf
    have e : l.startFade fadeInSteps = l := by simp [LoadRec.startFade, hfo]
    simp only [LoadRec.fadeIn, e, LoadRec.recount_level]
    rcases l.followSwitch_level with e | e
    · rw [e]; exact hl.full hfo hn
    · rw [e, hl.derived.1]; exact LoadRec.forced_effectiveTarget hfo hn

/-- Every change of a load record keeps it sound (R41, R42, R43, R61, R65, R137). -/
theorem LoadRec.Change.sound {l l' : LoadRec} (h : LoadRec.Change l l') (hl : l.Sound) : l'.Sound :=
  ⟨h.derived hl.derived, h.fades hl, h.range hl, h.full hl⟩

theorem LoadRec.Changes.sound {l l' : LoadRec} (h : LoadRec.Changes l l') (hl : l.Sound) : l'.Sound := by
  induction h with
  | refl => exact hl
  | tail _ c ih => exact c.sound ih

end Sys2Proof.Machine
end

