-- ==== Sys2Proof/Laws/Loads.lean ====
section
/-! SUPPORT. Laws/Loads.lean: counted draws and COMMITTED, and what the Power Budget Monitor's operations can do to the part. -/

namespace Sys2Proof.Machine

/-! ### Counted draws of one load -/

theorem LoadRec.drawAt_of_config {l l' : LoadRec} (h : l'.toLoadConfig = l.toLoadConfig) : l'.drawAt = l.drawAt :=
  funext fun m => LoadRec.drawAt_congr h m

/-- A shed never raises the counted draw, and lowers it by the relief at least (R104). -/
theorem LoadRec.toShed_draw {l : LoadRec} (h : l.Derived) (hs : l.shed = false) (hf : l.forced = false) :
    l.toShed.countedDraw + l.relief ≤ l.countedDraw := by
  have hle := l.shed_effectiveTarget_le hs hf
  rw [← h.1] at hle
  set u := ({ l with shed := true } : LoadRec) with hu
  have hdu : l.toShed.countedDraw
      = l.drawAt (max ((u.retarget).dropToTarget l.effTarget).level u.effectiveTarget) := by
    simp only [LoadRec.toShed, LoadRec.recount_countedDraw, LoadRec.dropToTarget_effTarget, LoadRec.retarget_effTarget]
    exact LoadRec.drawAt_congr (by simp) _
  have hc : l.countedDraw = l.drawAt (max l.level l.effTarget) := h.2
  simp only [LoadRec.relief]
  rw [← hu, hdu]
  by_cases hlt : u.effectiveTarget < l.effTarget
  · simp only [hlt, if_true]
    have hlev : max ((u.retarget).dropToTarget l.effTarget).level u.effectiveTarget = u.effectiveTarget := by
      apply Nat.max_eq_right
      cases hk : l.kind
      · exfalso
        have : l.effTarget = 0 := by rw [h.1]; simp [LoadRec.effectiveTarget, hk]
        omega
      · simp only [LoadRec.dropToTarget, LoadRec.retarget_config, hu, hk]
        simp only [← hu, LoadRec.retarget_effTarget, hlt, if_true, LoadRec.retarget_level]
        have : u.level = l.level := rfl
        split
        · simp
        · split
          · rcases LoadRec.startFade_level u.retarget (by assumption : Fade).remaining with e | e
            · rw [e]; simp; omega
            · rw [e]; simp
          · simp; omega
      · simp only [LoadRec.dropToTarget, LoadRec.retarget_config, hu, hk]
        simp only [LoadRec.followSwitch, LoadRec.retarget_config, hk, if_true]
        simp
    rw [hlev, hc]
    have := l.drawAt_mono (m := u.effectiveTarget) (m' := max l.level l.effTarget) (by omega)
    omega
  · simp only [hlt, if_false, Nat.add_zero]
    have he : u.effectiveTarget = l.effTarget := by omega
    rw [hc]
    apply LoadRec.drawAt_mono
    have hd := LoadRec.dropToTarget_level u.retarget l.effTarget
    have hl : u.retarget.level = l.level := rfl
    have hr : u.retarget.effTarget = u.effectiveTarget := rfl
    rcases hd with e | e <;> omega

/-- The record an unforce leaves counts no more than the forced one (R59). -/
theorem LoadRec.toUnforced_draw {l : LoadRec} (h : l.Derived) (hr : l.InRange) :
    l.toUnforced.countedDraw ≤ l.countedDraw := by
  obtain ⟨h1, h2, h3, _⟩ := hr
  simp only [LoadRec.toUnforced]
  split
  · rename_i hf
    have he : ({ l with forced := false } : LoadRec).effectiveTarget ≤ 1000 := LoadRec.effectiveTarget_le h2
    cases hk : l.kind
    · simp [LoadRec.drawAt, hk]
    · have hle : l.effTarget = 1000 := by rw [h.1]; simp [LoadRec.effectiveTarget, hk, hf]
      refine Nat.le_trans ?_ (Nat.le_of_eq h.2.symm)
      rw [LoadRec.recount_countedDraw, LoadRec.drawAt_congr (l := l) (by split <;> (try split) <;> simp)]
      apply LoadRec.drawAt_mono
      simp only [LoadRec.retarget_config, hk]
      have := LoadRec.startFade_level ({ l with forced := false } : LoadRec).retarget restoreSteps
      have hl : (({ l with forced := false } : LoadRec).retarget).level = l.level := rfl
      have hr' : (({ l with forced := false } : LoadRec).retarget).effTarget
        = ({ l with forced := false } : LoadRec).effectiveTarget := rfl
      split
      · simp only []; omega
      · simp only [LoadRec.startFade_effTarget]; omega
    · have hle : l.effTarget = 1000 := by rw [h.1]; simp [LoadRec.effectiveTarget, hk, hf]
      refine Nat.le_trans ?_ (Nat.le_of_eq h.2.symm)
      rw [LoadRec.recount_countedDraw, LoadRec.drawAt_congr (l := l) (by split <;> (try split) <;> simp)]
      apply LoadRec.drawAt_mono
      simp only [LoadRec.retarget_config, hk, LoadRec.followSwitch_effTarget]
      have := LoadRec.followSwitch_level ({ l with forced := false } : LoadRec).retarget
      have hl : (({ l with forced := false } : LoadRec).retarget).level = l.level := rfl
      have hr' : (({ l with forced := false } : LoadRec).retarget).effTarget
        = ({ l with forced := false } : LoadRec).effectiveTarget := rfl
      omega
  · exact Nat.le_refl _

/-- A fade step never raises the counted draw (R66). -/
theorem LoadRec.stepFade_draw {l : LoadRec} {f : Fade} (h : l.Derived) (hs : l.FadeSound) (hf : l.fade = some f) :
    (l.stepFade f).recount.countedDraw ≤ l.countedDraw := by
  obtain ⟨_, hr, hd⟩ := LoadRec.stepFade_sound hs hf
  rw [h.2, LoadRec.recount_countedDraw, LoadRec.drawAt_congr (l := l) rfl, LoadRec.stepFade_effTarget]
  apply LoadRec.drawAt_mono
  cases hri : f.rising
  · have := hd hri; omega
  · have := hr hri; omega

/-- A rising step leaves the counted draw as it is (R66). -/
theorem LoadRec.stepFade_draw_rising {l : LoadRec} {f : Fade} (h : l.Derived) (hs : l.FadeSound)
    (hf : l.fade = some f) (hri : f.rising = true) : (l.stepFade f).recount.countedDraw = l.countedDraw := by
  obtain ⟨_, hr, _⟩ := LoadRec.stepFade_sound hs hf
  have := hr hri
  rw [h.2, LoadRec.recount_countedDraw, LoadRec.stepFade_effTarget, Nat.max_eq_right this.2,
    Nat.max_eq_right (by omega)]
  exact LoadRec.drawAt_congr rfl _

/-- The warm-reset fade-in raises no counted draw (R45). -/
theorem LoadRec.fadeIn_draw {l : LoadRec} (h : l.Derived) : l.fadeIn.countedDraw ≤ l.countedDraw := by
  rw [h.2, LoadRec.fadeIn, LoadRec.recount_countedDraw, LoadRec.drawAt_congr (l := l) (by simp)]
  apply LoadRec.drawAt_mono
  have h1 := LoadRec.followSwitch_level (l.startFade fadeInSteps)
  have h2 := LoadRec.startFade_level l fadeInSteps
  simp only [LoadRec.startFade_effTarget, LoadRec.followSwitch_effTarget] at h1 ⊢
  omega

/-! ### Totals (R99) -/

theorem State.totalDraw_eq (s : State) : s.totalDraw = ∑ n : LoadNo, (s.load n).countedDraw := by
  have h : ∀ (l : List LoadNo) (z : Nat), l.foldl (fun sum n => sum + (s.load n).countedDraw) z
      = z + (l.map fun n => (s.load n).countedDraw).sum := by
    intro l
    induction l with
    | nil => intro z; simp
    | cons a l ih => intro z; simp only [List.foldl_cons, ih, List.map_cons, List.sum_cons]; omega
  rw [Fin.sum_univ_def, State.totalDraw, allLoads, h, Nat.zero_add]

theorem State.totalHeld_eq (s : State) : s.totalHeld = s.held 0 + s.held 1 + s.held 2 := by
  simp [State.totalHeld, allAxes]

/-- Writing one load moves the sum of the counted draws by that load's change. -/
theorem State.totalDraw_setLoad (s : State) (n : LoadNo) (l : LoadRec) :
    (s.setLoad n l).totalDraw + (s.load n).countedDraw = s.totalDraw + l.countedDraw := by
  rw [State.totalDraw_eq, State.totalDraw_eq]
  rw [← Finset.add_sum_erase _ _ (Finset.mem_univ n), ← Finset.add_sum_erase (a := n) _ (fun m => (s.load m).countedDraw) (Finset.mem_univ n)]
  have : ∑ m ∈ Finset.univ.erase n, ((s.setLoad n l).load m).countedDraw
      = ∑ m ∈ Finset.univ.erase n, (s.load m).countedDraw := by
    apply Finset.sum_congr rfl
    intro m hm
    rw [State.load_setLoad, if_neg (Finset.ne_of_mem_erase hm)]
  rw [this]; simp; omega

theorem State.totalDraw_congr {s t : State} (h : t.loads = s.loads) : t.totalDraw = s.totalDraw := by
  simp only [State.totalDraw, State.load, h]

theorem State.le_totalDraw (s : State) (n : LoadNo) : (s.load n).countedDraw ≤ s.totalDraw := by
  rw [State.totalDraw_eq]
  exact Finset.single_le_sum (f := fun m => (s.load m).countedDraw) (fun _ _ => Nat.zero_le _) (Finset.mem_univ n)

/-! ### storeLoad -/

@[simp] theorem State.stageDuty_loads (s : State) (n : LoadNo) : (s.stageDuty n).loads = s.loads := by
  simp only [State.stageDuty]; split <;> rfl
@[simp] theorem State.stageDuty_budget (s : State) (n : LoadNo) : (s.stageDuty n).budget = s.budget := by
  simp only [State.stageDuty]; split <;> rfl
@[simp] theorem State.stageDuty_notices (s : State) (n : LoadNo) : (s.stageDuty n).notices = s.notices := by
  simp only [State.stageDuty]; split <;> rfl
theorem State.stageDuty_only (s : State) (n : LoadNo) : s.stageDuty n = { s with outputs := (s.stageDuty n).outputs } := by
  simp only [State.stageDuty]; split <;> rfl

/-- All that storing a load record does (R43, R44, R99). -/
theorem State.storeLoad_eq (s : State) (n : LoadNo) (l : LoadRec) (r : Bool) :
    s.storeLoad n l r
      = { s with
          loads := s.loads.set n l
          outputs := (s.storeLoad n l r).outputs
          budget := { s.budget with committed := s.budget.committed + l.countedDraw - (s.load n).countedDraw } } := by
  simp only [State.storeLoad]
  split
  · rw [State.stageDuty_only]; rfl
  · rfl

@[simp] theorem State.storeLoad_loads (s : State) (n : LoadNo) (l : LoadRec) (r : Bool) :
    (s.storeLoad n l r).loads = s.loads.set n l := by rw [State.storeLoad_eq]
@[simp] theorem State.storeLoad_budget (s : State) (n : LoadNo) (l : LoadRec) (r : Bool) :
    (s.storeLoad n l r).budget
      = { s.budget with committed := s.budget.committed + l.countedDraw - (s.load n).countedDraw } := by
  rw [State.storeLoad_eq]
@[simp] theorem State.storeLoad_notices (s : State) (n : LoadNo) (l : LoadRec) (r : Bool) :
    (s.storeLoad n l r).notices = s.notices := by rw [State.storeLoad_eq]

theorem State.load_storeLoad (s : State) (n m : LoadNo) (l : LoadRec) (r : Bool) :
    (s.storeLoad n l r).load m = if m = n then l else s.load m := by simp [State.load, get_set]

/-! ### Frames -/

theorem OnlyLoads.refl (s : State) : OnlyLoads s s := rfl
theorem OnlyLoads.trans {s t u : State} (h : OnlyLoads s t) (k : OnlyLoads t u) : OnlyLoads s u := by
  rw [OnlyLoads] at *; rw [h] at k; exact k

theorem State.storeLoad_only (s : State) (n : LoadNo) (l : LoadRec) (r : Bool) : OnlyLoads s (s.storeLoad n l r) := by
  rw [State.storeLoad_eq]; rfl

/-! ### Runs of load changes -/

/-- COMMITTED is the sum of the counted draws and `h` more (R99). -/
def State.Owes (s : State) (h : Nat) : Prop := s.budget.committed = s.totalDraw + h

/-- What any sequence of sheds, restores, forces, unforces, fade steps and new set targets can do to the part: only load
records, outputs, the budget and SHED_CHANGE differ, each load changes by those changes, COMMITTED follows the draws (R99),
the shed list follows the SHED flags (R103), and AVAILABLE and HELD DEMAND stand. -/
structure LoadRun (s t : State) : Prop where
  only : OnlyLoads s t
  changes : ∀ n, LoadRec.Changes (s.load n) (t.load n)
  owes : ∀ h, s.Owes h → t.Owes h
  available : t.budget.available = s.budget.available
  held : t.budget.heldDemand = s.budget.heldDemand
  notices : t.notices = { s.notices with shedChange := t.notices.shedChange }
  shedLaw : s.ShedLaw → t.ShedLaw

theorem LoadRun.refl (s : State) : LoadRun s s :=
  ⟨rfl, fun _ => .refl, fun _ h => h, rfl, rfl, rfl, fun h => h⟩

theorem LoadRun.trans {s t u : State} (a : LoadRun s t) (b : LoadRun t u) : LoadRun s u :=
  ⟨a.only.trans b.only, fun n => (a.changes n).trans (b.changes n), fun h x => b.owes h (a.owes h x),
   b.available.trans a.available, b.held.trans a.held, by have h1 := a.notices; have h2 := b.notices; rw [h1] at h2; exact h2,
   fun h => b.shedLaw (a.shedLaw h)⟩

theorem State.Owes.congr {s t : State} {h : Nat} (hs : s.Owes h) (hl : t.loads = s.loads)
    (hb : t.budget.committed = s.budget.committed) : t.Owes h := by
  rw [State.Owes, hb, State.totalDraw_congr hl]; exact hs

theorem State.storeLoad_owes {s : State} (n : LoadNo) (l : LoadRec) (r : Bool) {h : Nat} (hs : s.Owes h) :
    (s.storeLoad n l r).Owes h := by
  have e := State.totalDraw_setLoad s n l
  have c : (s.storeLoad n l r).totalDraw = (s.setLoad n l).totalDraw := State.totalDraw_congr (by simp)
  have d := s.le_totalDraw n
  simp only [State.Owes] at *
  rw [c]
  simp only [State.storeLoad_budget]
  omega

/-- A change of one load that leaves its SHED flag as it is. -/
theorem LoadRun.store {s : State} {n : LoadNo} {l : LoadRec} (h : LoadRec.Change (s.load n) l)
    (hs : l.shed = (s.load n).shed) : LoadRun s (s.storeLoad n l) where
  only := s.storeLoad_only n l false
  changes m := by
    rw [State.load_storeLoad]
    split
    · rename_i e; rw [e]; exact .single h
    · exact .refl
  owes _ := State.storeLoad_owes n l false
  available := by simp
  held := by simp
  notices := by simp
  shedLaw := by
    intro ⟨h1, h2, h3⟩
    have hc := h.config
    refine ⟨by simpa using h1, ?_, ?_⟩
    · intro m
      rw [State.load_storeLoad]
      have : (s.storeLoad n l).budget.shedList = s.budget.shedList := by simp
      rw [this, h2 m]
      split
      · rename_i e; rw [e, hs]
      · rfl
    · intro m
      rw [State.load_storeLoad]
      split
      · rw [hs, show l.kind = (s.load n).kind by rw [hc], show l.shedRank = (s.load n).shedRank by rw [hc]]
        exact h3 n
      · exact h3 m

theorem State.restoreOne_run {s : State} {n : LoadNo} : LoadRun s (s.restoreOne n) where
  only := by
    have h := State.storeLoad_eq (s.setShedList (s.budget.shedList.erase n)) n (s.load n).toRestored false
    simp only [State.restoreOne, OnlyLoads, State.raiseShedChange]
    rw [h]; rfl
  changes m := by
    have : (s.restoreOne n).load m = if m = n then (s.load n).toRestored else s.load m := by
      simp only [State.restoreOne, State.load_congr (State.raiseShedChange_loads _)]
      rw [State.load_storeLoad]; rfl
    rw [this]
    split
    · rename_i e; rw [e]; exact .single (.restored _)
    · exact .refl
  owes h hs := by
    have h0 : (s.setShedList (s.budget.shedList.erase n)).Owes h := hs.congr rfl rfl
    exact (State.storeLoad_owes n (s.load n).toRestored false h0).congr rfl rfl
  available := by simp [State.restoreOne]
  held := by simp [State.restoreOne]
  notices := by simp [State.restoreOne]
  shedLaw := by
    intro ⟨h1, h2, h3⟩
    have hl : ∀ m, (s.restoreOne n).load m = if m = n then (s.load n).toRestored else s.load m := by
      intro m
      simp only [State.restoreOne, State.load_congr (State.raiseShedChange_loads _)]
      rw [State.load_storeLoad]; rfl
    have hb : (s.restoreOne n).budget.shedList = s.budget.shedList.erase n := by simp [State.restoreOne]
    have hr : (s.load n).toRestored.shed = false := by simp [LoadRec.toRestored]
    refine ⟨by rw [hb]; exact h1.erase n, ?_, ?_⟩
    · intro m
      rw [hb, hl, h1.mem_erase_iff]
      by_cases e : m = n
      · simp [e, hr]
      · simp [e, h2]
    · intro m
      rw [hl]
      split
      · rw [hr]; simp
      · exact h3 m

theorem State.restoreAlong_run (l : List LoadNo) (s : State) : LoadRun s (State.restoreAlong l s) := by
  induction l generalizing s with
  | nil => exact .refl s
  | cons n l ih =>
    simp only [State.restoreAlong]
    split
    · exact State.restoreOne_run.trans (ih _)
    · exact .refl s

theorem State.restorePass_run (s : State) : LoadRun s s.restorePass := State.restoreAlong_run _ s

/-- A write of DEFICIT is no change to any load. -/
theorem State.setDeficit_run (s : State) (d : Bool) : LoadRun s (s.setDeficit d) :=
  ⟨rfl, fun _ => .refl, fun _ h => h.congr rfl rfl, rfl, rfl, rfl, fun h => h⟩

theorem State.answerFall_run (s : State) : LoadRun s s.answerFall := by
  simp only [State.answerFall]
  split
  · split
    · exact (s.setDeficit_run false).trans (State.restorePass_run _)
    · exact .refl s
  · exact s.restorePass_run

theorem State.reportLoad_run {s : State} {n : LoadNo} {l : LoadRec} (h : LoadRec.Change (s.load n) l)
    (hs : l.shed = (s.load n).shed) : LoadRun s (s.reportLoad n l) := by
  simp only [State.reportLoad]
  split
  · exact (LoadRun.store h hs).trans (State.answerFall_run _)
  · exact LoadRun.store h hs

theorem State.raiseLimit_le (s : State) (n : LoadNo) {v : Nat} (hv : v ≤ 1000) :
    s.raiseLimit n v ≤ 1000 ∨ s.raiseLimit n v = (s.load n).setTarget := by
  simp only [State.raiseLimit]
  split
  · split <;> simp
  · split
    · exact .inl hv
    · exact .inl (by omega)

theorem LoadRec.levelAsked_le (l : LoadRec) (v : Nat) : l.levelAsked v ≤ 1000 := by
  simp only [LoadRec.levelAsked]; split <;> (try split) <;> omega

theorem State.limitedTarget_ok (s : State) (n : LoadNo) (v : Nat) :
    s.limitedTarget n v ≤ 1000 ∨ s.limitedTarget n v = (s.load n).setTarget := by
  have h := (s.load n).levelAsked_le v
  simp only [State.limitedTarget]
  split
  · have := s.raiseLimit_le n h; omega
  · exact .inl h

theorem State.setLevelOn_run (s : State) (n : LoadNo) (v f : Nat) : LoadRun s (s.setLevelOn n v f).1 :=
  State.reportLoad_run (.target _ _ _ (s.limitedTarget_ok n v)) (by simp [LoadRec.withSetTarget])

theorem applyEntries_run (skip : State → LoadNo → Bool) (fade : Nat) (es : List (LoadNo × Nat)) (k : Tally)
    (s : State) : LoadRun s (applyEntries skip fade es k s).2 := by
  induction es generalizing k s with
  | nil => exact .refl s
  | cons e es ih =>
    obtain ⟨n, v⟩ := e
    simp only [applyEntries]
    split
    · exact ih _ _
    · exact (s.setLevelOn_run n v fade).trans (ih _ _)

theorem LoadRec.sheddable_spec {l : LoadRec} (h : l.sheddable = true) :
    l.kind ≠ .none ∧ 1 ≤ l.shedRank ∧ l.shedRank ≤ 7 ∧ l.shed = false ∧ l.forced = false ∧ 0 < l.relief := by
  simp only [LoadRec.sheddable, Bool.and_eq_true, bne_iff_ne, decide_eq_true_eq, Bool.not_eq_true'] at h
  tauto

/-- A shed replaces the record of its load alone. -/
theorem State.load_shedOne (s : State) (n m : LoadNo) :
    (s.shedOne n).load m = if m = n then (s.load n).toShed else s.load m := by
  rw [State.shedOne, State.load, State.raiseShedChange_loads, State.setShedList_loads]
  exact State.load_storeLoad s n m (s.load n).toShed false

theorem State.shedOne_run {s : State} {n : LoadNo} (hn : (s.load n).sheddable = true) : LoadRun s (s.shedOne n) where
  only := by
    have h := State.storeLoad_eq s n (s.load n).toShed false
    simp only [State.shedOne, OnlyLoads, State.raiseShedChange, State.setShedList]
    rw [h]
  changes m := by
    obtain ⟨_, _, _, hs, hf, _⟩ := LoadRec.sheddable_spec hn
    rw [State.load_shedOne]
    split
    · rename_i e; rw [e]; exact .single (.shed _ hs hf)
    · exact .refl
  owes h hs := (State.storeLoad_owes (s := s) n (s.load n).toShed false hs).congr rfl rfl
  available := by simp [State.shedOne]
  held := by simp [State.shedOne]
  notices := by simp [State.shedOne]
  shedLaw := by
    intro ⟨h1, h2, h3⟩
    obtain ⟨hk, hr1, hr7, hs, hf, _⟩ := LoadRec.sheddable_spec hn
    have hl := State.load_shedOne s n
    have hb : (s.shedOne n).budget.shedList = s.budget.shedList ++ [n] := by simp [State.shedOne]
    have hsh : (s.load n).toShed.shed = true := by simp [LoadRec.toShed]
    have hc := (s.load n).toShed_config
    have hnot : n ∉ s.budget.shedList := by rw [h2]; simp [hs]
    refine ⟨?_, ?_, ?_⟩
    · rw [hb]
      exact List.nodup_append.2 ⟨h1, by simp, by
        intro a ha b hb e
        rw [List.mem_singleton] at hb
        exact hnot (by rw [← hb, ← e]; exact ha)⟩
    · intro m
      rw [hb, hl, List.mem_append, h2]
      by_cases e : m = n
      · simp [e, hsh]
      · simp [e]
    · intro m
      rw [hl]
      split
      · intro _
        rw [show (s.load n).toShed.kind = (s.load n).kind by rw [hc],
          show (s.load n).toShed.shedRank = (s.load n).shedRank by rw [hc]]
        exact ⟨hk, hr1, hr7⟩
      · exact h3 m

theorem State.shedAlong_run (enough : State → Bool) (l : List LoadNo) (s : State) :
    LoadRun s (State.shedAlong enough l s) := by
  induction l generalizing s with
  | nil => exact .refl s
  | cons n l ih =>
    simp only [State.shedAlong]
    split
    · exact .refl s
    · split
      · rename_i h; exact (State.shedOne_run h).trans (ih _)
      · exact ih _

/-! ### FORCED changes only by force and unforce -/

/-- No load's FORCED flag differs. -/
def SameForced (s t : State) : Prop := ∀ n, (t.load n).forced = (s.load n).forced

theorem SameForced.trans {s t u : State} (a : SameForced s t) (b : SameForced t u) : SameForced s u :=
  fun n => (b n).trans (a n)

theorem SameForced.of_loads {s t : State} (h : t.loads = s.loads) : SameForced s t :=
  fun n => by rw [State.load_congr h]

theorem State.storeLoad_sameForced {s : State} {n : LoadNo} {l : LoadRec} {r : Bool}
    (h : l.forced = (s.load n).forced) : SameForced s (s.storeLoad n l r) := by
  intro m; rw [State.load_storeLoad]; split
  · rename_i e; rw [e, h]
  · rfl

theorem State.restoreAlong_sameForced (l : List LoadNo) (s : State) : SameForced s (State.restoreAlong l s) := by
  induction l generalizing s with
  | nil => exact fun _ => rfl
  | cons n l ih =>
    simp only [State.restoreAlong]
    split
    · refine SameForced.trans ?_ (ih _)
      intro m
      have : (s.restoreOne n).load m = ((s.setShedList (s.budget.shedList.erase n)).storeLoad n (s.load n).toRestored).load m := rfl
      rw [this, State.load_storeLoad]
      split
      · rename_i e; rw [e]; simp [LoadRec.toRestored]
      · rfl
    · exact fun _ => rfl

theorem State.answerFall_sameForced (s : State) : SameForced s s.answerFall := by
  simp only [State.answerFall]
  split
  · split
    · exact (SameForced.of_loads (by rfl : (s.setDeficit false).loads = s.loads)).trans (State.restoreAlong_sameForced _ _)
    · exact fun _ => rfl
  · exact State.restoreAlong_sameForced _ _

theorem State.reportLoad_sameForced {s : State} {n : LoadNo} {l : LoadRec} {r : Bool}
    (h : l.forced = (s.load n).forced) : SameForced s (s.reportLoad n l r) := by
  simp only [State.reportLoad]
  split
  · exact (State.storeLoad_sameForced h).trans (State.answerFall_sameForced _)
  · exact State.storeLoad_sameForced h

theorem applyEntries_sameForced (skip : State → LoadNo → Bool) (fade : Nat) (es : List (LoadNo × Nat)) (k : Tally)
    (s : State) : SameForced s (applyEntries skip fade es k s).2 := by
  induction es generalizing k s with
  | nil => exact fun _ => rfl
  | cons e es ih =>
    obtain ⟨n, v⟩ := e
    simp only [applyEntries]
    split
    · exact ih _ _
    · exact (State.reportLoad_sameForced (by simp [LoadRec.withSetTarget])).trans (ih _ _)

theorem State.shedAlong_sameForced (enough : State → Bool) (l : List LoadNo) (s : State) :
    SameForced s (State.shedAlong enough l s) := by
  induction l generalizing s with
  | nil => exact fun _ => rfl
  | cons n l ih =>
    simp only [State.shedAlong]
    split
    · exact fun _ => rfl
    · split
      · refine SameForced.trans ?_ (ih _)
        have h : SameForced s (s.storeLoad n (s.load n).toShed) := State.storeLoad_sameForced (by simp [LoadRec.toShed])
        have e : (s.shedOne n).loads = (s.storeLoad n (s.load n).toShed).loads := by
          simp only [State.shedOne, State.raiseShedChange_loads, State.setShedList_loads]
        intro m; rw [State.load_congr e]; exact h m
      · exact ih _

theorem State.fadeStep_sameForced (s : State) (n : LoadNo) : SameForced s (s.fadeStep n) := by
  simp only [State.fadeStep]
  split
  · split
    · exact State.reportLoad_sameForced (by simp)
    · exact fun _ => rfl
  · exact fun _ => rfl

theorem State.fadeInLoad_sameForced (s : State) (n : LoadNo) : SameForced s (s.fadeInLoad n) :=
  State.storeLoad_sameForced (by simp [LoadRec.fadeIn])

theorem LoadRec.toForced_shed (l : LoadRec) : l.toForced.shed = l.shed := by
  simp only [LoadRec.toForced]; split <;> rfl
theorem LoadRec.toUnforced_shed (l : LoadRec) : l.toUnforced.shed = l.shed := by
  simp only [LoadRec.toUnforced]
  split
  · simp only [LoadRec.recount_shed]; split <;> (try split) <;> simp
  · rfl

theorem State.forceCourtesy_run (s : State) (a : AxisNo) : LoadRun s (s.forceCourtesy a) := by
  simp only [State.forceCourtesy]
  split
  · exact .refl s
  · exact LoadRun.store (.forced _) (LoadRec.toForced_shed _)

theorem State.releaseCourtesy_run (s : State) (a : AxisNo) : LoadRun s (s.releaseCourtesy a) := by
  simp only [State.releaseCourtesy]
  split
  · exact .refl s
  · split
    · exact .refl s
    · exact LoadRun.store (.unforced _) (LoadRec.toUnforced_shed _)

theorem State.fadeStep_run (s : State) (n : LoadNo) : LoadRun s (s.fadeStep n) := by
  simp only [State.fadeStep]
  split
  · rename_i f hf
    split
    · exact State.reportLoad_run (.step _ f hf) (by simp)
    · exact .refl s
  · exact .refl s

theorem State.fadeInLoad_run (s : State) (n : LoadNo) : LoadRun s (s.fadeInLoad n) :=
  LoadRun.store (.fadeIn _) (by simp [LoadRec.fadeIn])

theorem LoadRun.foldl {α : Type} {f : State → α → State} (h : ∀ s a, LoadRun s (f s a)) (l : List α) (s : State) :
    LoadRun s (l.foldl f s) := by
  induction l generalizing s with
  | nil => exact .refl s
  | cons a l ih => exact (h s a).trans (ih _)

end Sys2Proof.Machine
end

