-- ==== Sys2Proof/Laws/Budget.lean ====
section
/-! SUPPORT. Laws/Budget.lean: COMMITTED stays within AVAILABLE unless DEFICIT is set (R105, R108 to R116). -/

namespace Sys2Proof.Machine

theorem State.headroom_add {s : State} (hd : s.budget.deficit = false) (h : s.budget.committed ≤ s.budget.available) :
    s.budget.committed + s.headroom = s.budget.available := by
  simp only [State.headroom, Budget.headroom, hd, Bool.false_eq_true, if_false]; omega

theorem State.headroom_deficit {s : State} (hd : s.budget.deficit = true) : s.headroom = 0 := by
  simp [State.headroom, Budget.headroom, hd]

theorem State.BudgetLaw.congr {s t : State} (h : s.BudgetLaw) (hb : t.budget = s.budget) : t.BudgetLaw := by
  rw [State.BudgetLaw, hb]; exact h

/-- Storing a load whose counted draw rises by no more than HEADROOM keeps the law. -/
theorem State.storeLoad_budgetLaw {s : State} {n : LoadNo} {l : LoadRec} {r : Bool} (h : s.BudgetLaw)
    (hl : l.countedDraw ≤ (s.load n).countedDraw + s.headroom) : (s.storeLoad n l r).BudgetLaw := by
  intro hd
  simp only [State.storeLoad_budget] at hd ⊢
  have := State.headroom_add hd (h hd)
  omega

theorem State.restoreOne_budgetLaw {s : State} {n : LoadNo} (h : s.BudgetLaw) (hf : s.restoreFits n = true) :
    (s.restoreOne n).BudgetLaw := by
  have hf' : (s.load n).toRestored.countedDraw ≤ (s.load n).countedDraw + s.headroom := by
    simpa [State.restoreFits] using hf
  have h0 : (s.setShedList (s.budget.shedList.erase n)).BudgetLaw := h
  exact (State.storeLoad_budgetLaw (n := n) (l := (s.load n).toRestored) (r := false) h0 hf').congr rfl

theorem State.restoreAlong_budgetLaw (l : List LoadNo) {s : State} (h : s.BudgetLaw) :
    (State.restoreAlong l s).BudgetLaw := by
  induction l generalizing s with
  | nil => exact h
  | cons n l ih =>
    simp only [State.restoreAlong]
    split
    · rename_i hf; exact ih (State.restoreOne_budgetLaw h hf)
    · exact h

theorem State.restorePass_budgetLaw {s : State} (h : s.BudgetLaw) : s.restorePass.BudgetLaw :=
  State.restoreAlong_budgetLaw _ h

theorem State.answerFall_budgetLaw {s : State} (h : s.BudgetLaw) : s.answerFall.BudgetLaw := by
  simp only [State.answerFall]
  split
  · split
    · rename_i hc; exact State.restorePass_budgetLaw (fun _ => hc)
    · exact h
  · exact State.restorePass_budgetLaw h

theorem State.reportLoad_budgetLaw {s : State} {n : LoadNo} {l : LoadRec} {r : Bool} (h : s.BudgetLaw)
    (hl : l.countedDraw ≤ (s.load n).countedDraw + s.headroom) : (s.reportLoad n l r).BudgetLaw := by
  simp only [State.reportLoad]
  split
  · exact State.answerFall_budgetLaw (State.storeLoad_budgetLaw h hl)
  · exact State.storeLoad_budgetLaw h hl

/-- EFFECTIVE TARGET rises with SET TARGET alone (R42). -/
theorem LoadRec.effectiveTarget_mono (l : LoadRec) {v : Nat} (h : v ≤ l.setTarget) (hr : l.setTarget ≤ 1000) :
    ({ l with setTarget := v } : LoadRec).effectiveTarget ≤ l.effectiveTarget := by
  simp only [LoadRec.effectiveTarget]
  cases l.kind <;> simp only
  · omega
  · split
    · omega
    · split <;> omega
  · split
    · omega
    · split
      · split <;> split <;> omega
      · omega

theorem LoadRec.effectiveTarget_le_setTarget (l : LoadRec) (hf : l.forced = false) (hk : l.kind = .dim) :
    l.effectiveTarget ≤ l.setTarget := by
  simp only [LoadRec.effectiveTarget, hk, hf]
  simp; split <;> omega

/-- The draw of a record given a new SET TARGET lies at its level or at its new effective target. -/
theorem LoadRec.withSetTarget_draw (l : LoadRec) (v k : Nat) :
    (l.withSetTarget v k).countedDraw ≤ max (l.drawAt l.level)
      (l.drawAt ({ l with setTarget := v } : LoadRec).effectiveTarget) := by
  set u := ({ l with setTarget := v } : LoadRec) with hu
  have h1 := LoadRec.followSwitch_level (u.retarget.startFade k)
  have h2 := LoadRec.startFade_level u.retarget k
  have hl : u.retarget.level = l.level := rfl
  have hr : u.retarget.effTarget = u.effectiveTarget := rfl
  have hd : (l.withSetTarget v k).countedDraw
      = l.drawAt (max (u.retarget.startFade k).followSwitch.level u.effectiveTarget) := by
    simp only [LoadRec.withSetTarget, LoadRec.recount_countedDraw, LoadRec.followSwitch_effTarget,
      LoadRec.startFade_effTarget, LoadRec.retarget_effTarget]
    exact LoadRec.drawAt_congr (by simp) _
  rw [hd]
  simp only [LoadRec.startFade_effTarget] at h1
  rcases Nat.le_total l.level u.effectiveTarget with hle | hle
  · exact Nat.le_trans (l.drawAt_mono (by omega)) (Nat.le_max_right _ _)
  · exact Nat.le_trans (l.drawAt_mono (by omega)) (Nat.le_max_left _ _)

/-- The budget limit (R54, R105, R106): a load given its limited set target counts at most HEADROOM more. -/
theorem State.limitedTarget_draw {s : State} (n : LoadNo) (v k : Nat) (h : (s.load n).Derived)
    (hr : (s.load n).InRange) : ((s.load n).withSetTarget (s.limitedTarget n v) k).countedDraw ≤ (s.load n).countedDraw + s.headroom := by
  set l := s.load n with hl
  refine Nat.le_trans (l.withSetTarget_draw _ k) ?_
  set t := s.limitedTarget n v with ht
  have hlev : l.drawAt l.level ≤ l.countedDraw := by rw [h.2]; exact l.drawAt_mono (Nat.le_max_left _ _)
  have heff : l.drawAt l.effTarget ≤ l.countedDraw := by rw [h.2]; exact l.drawAt_mono (Nat.le_max_right _ _)
  apply Nat.max_le.2
  refine ⟨by omega, ?_⟩
  by_cases hle : t ≤ l.setTarget
  · have := l.drawAt_mono (LoadRec.effectiveTarget_mono l hle hr.2.1)
    rw [← h.1] at this; omega
  · -- a raise
    have hraise : t = s.raiseLimit n (l.levelAsked v) := by
      simp only [State.limitedTarget, ← hl] at ht
      split at ht <;> omega
    cases hk : l.kind
    · simp [LoadRec.drawAt, hk]
    · by_cases hfo : l.forced = true
      · have e1 : ({ l with setTarget := t } : LoadRec).effectiveTarget = l.effTarget := by
          rw [h.1]; simp [LoadRec.effectiveTarget, hk, hfo]
        rw [e1]; omega
      · have hfo' : l.forced = false := by simpa using hfo
        have hte : ({ l with setTarget := t } : LoadRec).effectiveTarget ≤ t :=
          LoadRec.effectiveTarget_le_setTarget ({ l with setTarget := t } : LoadRec) hfo' hk
        refine Nat.le_trans (l.drawAt_mono hte) ?_
        simp only [State.raiseLimit, ← hl, hk] at hraise
        simp only [LoadRec.drawAt, hk]
        split at hraise
        · rename_i hz; rw [hz]; simp
        · rename_i hz
          have hq : l.ratedPower * t ≤ (l.countedDraw + s.headroom) * 1000 := by
            have h1 : t ≤ (l.countedDraw + s.headroom) * 1000 / l.ratedPower := by omega
            calc l.ratedPower * t ≤ l.ratedPower * ((l.countedDraw + s.headroom) * 1000 / l.ratedPower) :=
                  Nat.mul_le_mul_left _ h1
              _ ≤ _ := Nat.mul_div_le _ _
          omega
    · simp only [State.raiseLimit, ← hl, hk] at hraise
      simp only [LoadRec.drawAt, hk]
      split at hraise
      · split <;> omega
      · omega

theorem State.setLevelOn_budgetLaw {s : State} (n : LoadNo) (v f : Nat) (h : s.BudgetLaw) (hd : (s.load n).Sound) :
    (s.setLevelOn n v f).1.BudgetLaw :=
  State.reportLoad_budgetLaw h (State.limitedTarget_draw n v _ hd.derived hd.range)

/-! ### Sound loads along a run -/

/-- Every load is sound. -/
def State.LoadsSound (s : State) : Prop := ∀ n, (s.load n).Sound

theorem LoadRun.sound {s t : State} (h : LoadRun s t) (hs : s.LoadsSound) : t.LoadsSound :=
  fun n => (h.changes n).sound (hs n)

theorem applyEntries_budgetLaw (skip : State → LoadNo → Bool) (fade : Nat) (es : List (LoadNo × Nat)) (k : Tally)
    {s : State} (h : s.BudgetLaw) (hs : s.LoadsSound) : (applyEntries skip fade es k s).2.BudgetLaw := by
  induction es generalizing k s with
  | nil => exact h
  | cons e es ih =>
    obtain ⟨n, v⟩ := e
    simp only [applyEntries]
    split
    · exact ih _ h hs
    · exact ih _ (State.setLevelOn_budgetLaw n v fade h (hs n)) ((State.setLevelOn_run s n v fade).sound hs)

theorem State.fadeStep_budgetLaw {s : State} (n : LoadNo) (h : s.BudgetLaw) (hs : s.LoadsSound) :
    (s.fadeStep n).BudgetLaw := by
  simp only [State.fadeStep]
  split
  · rename_i f hf
    split
    · apply State.reportLoad_budgetLaw h
      have := LoadRec.stepFade_draw (hs n).derived (hs n).fades hf
      omega
    · exact h
  · exact h

/-! ### Sheds -/

/-- A shed frees the relief of the load at least, and touches no other load (R104, R109). -/
theorem State.shedOne_spec {s : State} {n : LoadNo} (hn : (s.load n).sheddable = true) (hd : (s.load n).Derived) :
    (s.shedOne n).budget.committed + (s.load n).relief ≤ max s.budget.committed (s.load n).countedDraw
      ∧ (s.shedOne n).budget.deficit = s.budget.deficit ∧ (s.shedOne n).budget.available = s.budget.available
      ∧ ∀ m, m ≠ n → (s.shedOne n).load m = s.load m := by
  obtain ⟨_, _, _, hs, hf, _⟩ := LoadRec.sheddable_spec hn
  have hr := LoadRec.toShed_draw hd hs hf
  refine ⟨?_, by simp [State.shedOne], by simp [State.shedOne], ?_⟩
  · have : (s.shedOne n).budget.committed = s.budget.committed + (s.load n).toShed.countedDraw - (s.load n).countedDraw := by
      simp [State.shedOne]
    omega
  · intro m hm
    rw [State.load_shedOne, if_neg hm]

/-- The relief still to be had along a list of loads (R108). -/
def State.reliefAlong (s : State) (l : List LoadNo) : Nat :=
  (l.map fun n => if (s.load n).sheddable then (s.load n).relief else 0).sum

theorem State.grantRelief_eq (s : State) (a : AxisNo) : s.grantRelief a = s.reliefAlong (s.grantOrder a) := by
  have h : ∀ (l : List LoadNo) (z : Nat),
      l.foldl (fun sum n => if (s.load n).sheddable then sum + (s.load n).relief else sum) z = z + s.reliefAlong l := by
    intro l
    induction l with
    | nil => intro z; simp [State.reliefAlong]
    | cons n l ih =>
      intro z
      rw [List.foldl_cons, ih]
      simp only [State.reliefAlong, List.map_cons, List.sum_cons]
      split <;> omega
  rw [State.grantRelief, h, Nat.zero_add]

theorem State.reliefAlong_congr {s t : State} {l : List LoadNo} (h : ∀ m ∈ l, t.load m = s.load m) :
    t.reliefAlong l = s.reliefAlong l := by
  simp only [State.reliefAlong]
  congr 1
  apply List.map_congr_left
  intro m hm; rw [h m hm]

/-- Loads outside the list are not touched, and along it nothing but sheds happens. -/
theorem State.shedAlong_load (enough : State → Bool) (l : List LoadNo) (s : State) (m : LoadNo) (hm : m ∉ l) :
    (State.shedAlong enough l s).load m = s.load m := by
  induction l generalizing s with
  | nil => rfl
  | cons n l ih =>
    simp only [List.mem_cons, not_or] at hm
    simp only [State.shedAlong]
    split
    · rfl
    · split
      · rw [ih _ hm.2]
        rw [State.load_shedOne, if_neg hm.1]
      · exact ih _ hm.2

theorem State.shedAlong_deficit (enough : State → Bool) (l : List LoadNo) (s : State) :
    (State.shedAlong enough l s).budget.deficit = s.budget.deficit := by
  induction l generalizing s with
  | nil => rfl
  | cons n l ih =>
    simp only [State.shedAlong]
    split
    · rfl
    · split
      · rw [ih]; simp [State.shedOne]
      · exact ih _

/-- Shedding along a list with relief enough reaches a HEADROOM of d (R109). -/
theorem State.shedAlong_reaches (d : Nat) (l : List LoadNo) {s : State} (hl : l.Nodup) (hs : s.LoadsSound)
    {h : Nat} (ho : s.Owes h) (hf : s.budget.deficit = false) (hc : s.budget.committed ≤ s.budget.available)
    (hr : d ≤ s.headroom + s.reliefAlong l) :
    d ≤ (State.shedAlong (fun t => decide (d ≤ t.headroom)) l s).headroom
      ∧ (State.shedAlong (fun t => decide (d ≤ t.headroom)) l s).budget.committed
          ≤ (State.shedAlong (fun t => decide (d ≤ t.headroom)) l s).budget.available := by
  induction l generalizing s with
  | nil => simp only [State.reliefAlong, List.map_nil, List.sum_nil, Nat.add_zero] at hr; exact ⟨hr, hc⟩
  | cons n l ih =>
    rw [List.nodup_cons] at hl
    simp only [State.shedAlong]
    split
    · rename_i hd; simp only [decide_eq_true_eq] at hd; exact ⟨hd, hc⟩
    · split
      · rename_i hn
        obtain ⟨h1, h2, h3, h4⟩ := State.shedOne_spec hn (hs n).derived
        have hdraw : (s.load n).countedDraw ≤ s.budget.committed := by
          have := s.le_totalDraw n; simp only [State.Owes] at ho; omega
        have hrun := State.shedOne_run (s := s) hn
        have hf' : (s.shedOne n).budget.deficit = false := by simpa [State.shedOne] using hf
        apply ih hl.2 (hrun.sound hs) (hrun.owes h ho) hf' (by omega)
        rw [State.reliefAlong_congr (s := s) (fun m hm => h4 m (fun e => hl.1 (e ▸ hm)))]
        simp only [State.reliefAlong, List.map_cons, List.sum_cons, hn, if_true] at hr
        simp only [State.reliefAlong, State.headroom, Budget.headroom, hf, hf', Bool.false_eq_true, if_false] at hr ⊢
        omega
      · rename_i hn
        apply ih hl.2 hs ho hf hc
        simp only [State.reliefAlong, List.map_cons, List.sum_cons, hn] at hr ⊢
        simpa using hr

theorem State.shedOrder_nodup (s : State) : s.shedOrder.Nodup := by
  simp only [State.shedOrder]
  rw [List.nodup_flatMap]
  refine ⟨fun r _ => (List.nodup_reverse.2 (List.nodup_finRange 96)).filter _, ?_⟩
  have : ∀ r r' : Nat, r ≠ r' → Function.onFun List.Disjoint
      (fun r => allLoads.reverse.filter fun n => (s.load n).shedRank == r) r r' := by
    intro r r' hne n h1 h2
    simp only [List.mem_filter, beq_iff_eq] at h1 h2
    exact hne (h1.2.symm.trans h2.2)
  simp only [List.pairwise_cons, List.mem_cons, List.not_mem_nil]
  refine ⟨?_, ?_, ?_, ?_, ?_, ?_, ?_, ?_⟩ <;> first | exact List.Pairwise.nil | skip
  all_goals (intro r hr; apply this; rintro rfl; simp at hr)

theorem State.grantOrder_nodup (s : State) (a : AxisNo) : (s.grantOrder a).Nodup := (s.shedOrder_nodup).filter _

theorem State.courtesy_not_in_grantOrder (s : State) (a : AxisNo) (n : LoadNo) (h : (s.axis a).courtesy = some n) :
    n ∉ s.grantOrder a := by
  simp [State.grantOrder, h]

/-- What a grant that is made has done (R108 to R110): sheds of loads other than the axis's courtesy load, and DEMAND
added to HELD DEMAND and to COMMITTED; with DEFICIT clear HEADROOM then stood at the need D or more. -/
theorem State.grant_spec {s t : State} {a : AxisNo} (h : s.grant a = some t) :
    ∃ u, LoadRun s u ∧ t = u.addDemand a ∧ u.axes = s.axes ∧ u.budget.deficit = s.budget.deficit
      ∧ (∀ n, (s.axis a).courtesy = some n → u.load n = s.load n)
      ∧ (s.budget.deficit = true → u = s ∧ s.motionNeed a = 0)
      ∧ (s.budget.deficit = false → s.LoadsSound → ∀ k, s.Owes k → s.BudgetLaw →
          s.motionNeed a ≤ u.headroom ∧ u.budget.committed ≤ u.budget.available) := by
  simp only [State.grant] at h
  split at h
  · rename_i hd
    split at h
    · rename_i h0
      cases h
      exact ⟨s, .refl s, rfl, rfl, rfl, fun _ _ => rfl, fun _ => ⟨rfl, h0⟩, fun hf => by simp [hd] at hf⟩
    · cases h
  · rename_i hd
    split at h
    · rename_i hle
      cases h
      exact ⟨s, .refl s, rfl, rfl, rfl, fun _ _ => rfl, fun hf => by simp [hf] at hd,
        fun hf _ _ _ hb => ⟨hle, hb hf⟩⟩
    · split at h
      · cases h
      · rename_i hle hrel
        cases h
        have hrun := State.shedAlong_run (fun t => decide (s.motionNeed a ≤ t.headroom)) (s.grantOrder a) s
        refine ⟨_, hrun, rfl, ?_, State.shedAlong_deficit _ _ _, ?_, fun hf => by simp [hf] at hd, ?_⟩
        · rw [hrun.only]
        · intro n hn
          exact State.shedAlong_load _ _ _ _ (s.courtesy_not_in_grantOrder a n hn)
        · intro hf hs k ho hb
          have := s.grantRelief_eq a
          exact State.shedAlong_reaches _ _ (s.grantOrder_nodup a) hs ho hf (hb hf) (by omega)

end Sys2Proof.Machine
end

