-- ==== Sys2Proof/Laws/Axes.lean ====
section
/-! SUPPORT. Laws/Axes.lean: the laws of loads, budget and axes held together, through every operation on an axis. -/

namespace Sys2Proof.Machine

/-- The laws of the loads, the budget and the axes (R41 to R43, R61, R65, R99, R103, R116, R137, R154). -/
structure Core (s : State) : Prop where
  loads : s.LoadsSound
  ledger : s.LedgerLaw
  budget : s.BudgetLaw
  shed : s.ShedLaw
  force : ∀ n, (s.load n).forced = true ↔ ∃ a, s.Forces a n
  courtesy : ∀ a n, (s.axis a).courtesy = some n → (s.load n).kind ≠ .none
  lockout : s.LockoutLaw

/-- `Core`, with what Table 7-3 says of the signal channel and of the PENDING MOTION in WARN. -/
structure Mach (s : State) : Prop extends Core s where
  sounding : s.SoundingLaw
  warned : ∀ a, (s.axis a).state = .warn → (s.axis a).pending.isSome = true

theorem State.totalHeld_congr {s t : State} (h : t.budget.heldDemand = s.budget.heldDemand) :
    t.totalHeld = s.totalHeld := by
  simp only [State.totalHeld_eq, State.held, h]

theorem State.LedgerLaw.owes {s : State} (h : s.LedgerLaw) : s.Owes s.totalHeld := h.2

/-- `Core` looks at the loads, the axes and the budget alone. -/
theorem Core.congr {s t : State} (h : Core s) (hl : t.loads = s.loads) (ha : t.axes = s.axes)
    (hb : t.budget = s.budget) : Core t where
  loads n := by rw [State.load_congr hl]; exact h.loads n
  ledger := by
    refine ⟨fun a => ?_, ?_⟩
    · rw [State.held_congr hb, State.axis_congr ha]; exact h.ledger.1 a
    · have e : t.totalHeld = s.totalHeld := State.totalHeld_congr (by rw [hb])
      rw [e, hb, State.totalDraw_congr hl]; exact h.ledger.2
  budget := h.budget.congr hb
  shed := by
    obtain ⟨h1, h2, h3⟩ := h.shed
    refine ⟨by rw [hb]; exact h1, fun n => by rw [hb, State.load_congr hl]; exact h2 n,
      fun n => by rw [State.load_congr hl]; exact h3 n⟩
  force n := by simp only [State.Forces, State.load_congr hl, State.axis_congr ha]; exact h.force n
  courtesy a n := by rw [State.axis_congr ha, State.load_congr hl]; exact h.courtesy a n
  lockout a := by rw [State.axis_congr ha]; exact h.lockout a

theorem Mach.congr {s t : State} (h : Mach s) (hl : t.loads = s.loads) (ha : t.axes = s.axes)
    (hb : t.budget = s.budget) (hc : t.channels = s.channels) : Mach t where
  toCore := h.toCore.congr hl ha hb
  sounding a := by rw [State.channel_congr hc, State.axis_congr ha]; exact h.sounding a
  warned a := by rw [State.axis_congr ha]; exact h.warned a

theorem OnlyLoads.axes {s t : State} (h : OnlyLoads s t) : t.axes = s.axes := by rw [h]
theorem OnlyLoads.channels {s t : State} (h : OnlyLoads s t) : t.channels = s.channels := by rw [h]
theorem OnlyLoads.claims {s t : State} (h : OnlyLoads s t) : t.claims = s.claims := by rw [h]
theorem OnlyLoads.interlocks {s t : State} (h : OnlyLoads s t) : t.interlocks = s.interlocks := by rw [h]

theorem Core.loadRun {s t : State} (h : Core s) (r : LoadRun s t) (f : SameForced s t) (b : t.BudgetLaw) : Core t where
  loads := r.sound h.loads
  ledger := by
    refine ⟨fun a => ?_, ?_⟩
    · rw [State.axis_congr r.only.axes]
      have : t.held a = s.held a := by simp only [State.held, r.held]
      rw [this]; exact h.ledger.1 a
    · have := r.owes _ h.ledger.owes
      rw [State.totalHeld_congr r.held]; exact this
  budget := b
  shed := r.shedLaw h.shed
  force n := by simp only [State.Forces, State.axis_congr r.only.axes, f n]; exact h.force n
  courtesy a n := by
    rw [State.axis_congr r.only.axes]
    intro e
    have : (t.load n).kind = (s.load n).kind := by rw [(r.changes n).config]
    rw [this]; exact h.courtesy a n e
  lockout a := by rw [State.axis_congr r.only.axes]; exact h.lockout a

theorem Mach.loadRun {s t : State} (h : Mach s) (r : LoadRun s t) (f : SameForced s t) (b : t.BudgetLaw) : Mach t where
  toCore := h.toCore.loadRun r f b
  sounding a := by rw [State.channel_congr r.only.channels, State.axis_congr r.only.axes]; exact h.sounding a
  warned a := by rw [State.axis_congr r.only.axes]; exact h.warned a

theorem AxisRec.inMotion_of_state {x y : AxisRec} (h : x.state = y.state) : x.inMotion = y.inMotion := by
  simp only [AxisRec.inMotion, h]

theorem AxisRec.movingDemand_congr {x y : AxisRec} (hm : x.inMotion = y.inMotion)
    (hc : x.toAxisConfig = y.toAxisConfig) : x.movingDemand = y.movingDemand := by
  simp only [AxisRec.movingDemand, hm, hc]

/-- An axis record rewritten with its configuration kept, in motion as it was. -/
theorem Core.setAxis {s : State} (h : Core s) (a : AxisNo) {x : AxisRec}
    (hc : x.toAxisConfig = (s.axis a).toAxisConfig) (hm : x.inMotion = (s.axis a).inMotion) (hl : x.LockoutSound) :
    Core (s.setAxis a x) where
  loads := h.loads
  ledger := by
    refine ⟨fun b => ?_, ?_⟩
    · rw [State.axis_setAxis]
      split
      · rename_i e; rw [AxisRec.movingDemand_congr hm hc, ← e]; exact h.ledger.1 b
      · exact h.ledger.1 b
    · have e1 : (s.setAxis a x).totalDraw = s.totalDraw := State.totalDraw_congr rfl
      have e2 : (s.setAxis a x).totalHeld = s.totalHeld := State.totalHeld_congr rfl
      rw [e1, e2]; exact h.ledger.2
  budget := h.budget
  shed := h.shed
  force n := by
    have : ∀ b, (s.setAxis a x).Forces b n ↔ s.Forces b n := by
      intro b
      simp only [State.Forces, State.axis_setAxis]
      split
      · rename_i e; rw [hm, show x.courtesy = (s.axis a).courtesy by rw [hc], e]
      · rfl
    simp only [this]
    exact h.force n
  courtesy b n := by
    rw [State.axis_setAxis]
    split
    · rw [show x.courtesy = (s.axis a).courtesy by rw [hc]]; exact h.courtesy a n
    · exact h.courtesy b n
  lockout b := by
    rw [State.axis_setAxis]
    split
    · exact hl
    · exact h.lockout b

theorem Mach.setAxis {s : State} (h : Mach s) (a : AxisNo) {x : AxisRec}
    (hc : x.toAxisConfig = (s.axis a).toAxisConfig) (hm : x.inMotion = (s.axis a).inMotion) (hl : x.LockoutSound)
    (hs : x.state = .warn ↔ (s.axis a).state = .warn) (hp : x.state = .warn → x.pending.isSome = true) :
    Mach (s.setAxis a x) where
  toCore := h.toCore.setAxis a hc hm hl
  sounding b := by
    rw [State.axis_setAxis]
    split
    · rename_i e; rw [hs, e]; exact h.sounding a
    · exact h.sounding b
  warned b := by
    rw [State.axis_setAxis]
    split
    · exact hp
    · exact h.warned b

/-! ### Leaving motion -/

theorem State.releaseDemand_budget (s : State) (a : AxisNo) :
    (s.releaseDemand a).budget
      = { s.budget with heldDemand := s.budget.heldDemand.set a 0, committed := s.budget.committed - s.held a } := rfl

theorem State.totalHeld_set (s : State) (a : AxisNo) (d : Nat) (t : State)
    (h : t.budget.heldDemand = s.budget.heldDemand.set a d) : t.totalHeld + s.held a = s.totalHeld + d := by
  have e : ∀ b, t.held b = if b = a then d else s.held b := by
    intro b; simp only [State.held, h, get_set]
  simp only [State.totalHeld_eq, e]
  fin_cases a <;> simp <;> omega

theorem State.le_totalHeld (s : State) (a : AxisNo) : s.held a ≤ s.totalHeld := by
  rw [State.totalHeld_eq]; fin_cases a <;> simp <;> omega

theorem LoadRec.toForced_forced {l : LoadRec} (hk : l.kind ≠ .none) : l.toForced.forced = true := by
  simp only [LoadRec.toForced]
  split
  · rename_i h; rcases h with h | h
    · exact h
    · exact absurd h hk
  · rfl
theorem LoadRec.toUnforced_forced (l : LoadRec) : l.toUnforced.forced = false := by
  simp only [LoadRec.toUnforced]
  split
  · simp only [LoadRec.recount_forced]; split <;> (try split) <;> simp
  · rename_i h; simpa using h

theorem State.otherForces_iff (s : State) (a : AxisNo) (n : LoadNo) :
    s.otherForces a n = true ↔ ∃ b, b ≠ a ∧ s.Forces b n := by
  simp only [State.otherForces, List.any_eq_true, Bool.and_eq_true, bne_iff_ne, beq_iff_eq, State.Forces]
  constructor
  · rintro ⟨b, _, ⟨h1, h2⟩, h3⟩; exact ⟨b, h1, h2, h3⟩
  · rintro ⟨b, h1, h2, h3⟩; exact ⟨b, allAxes_complete b, ⟨h1, h2⟩, h3⟩

theorem AxisRec.atRest_inMotion {x : AxisRec} {st : AxisState} (h : st = .parked ∨ st = .rest ∨ st = .lockout) :
    (x.atRest st).inMotion = false := by
  rcases h with h | h | h <;> subst h <;> rfl

/-- The part once an axis, its record rewritten as `y` out of motion, has given back its demand and its courtesy load. -/
theorem Core.released {s : State} (h : Core s) (a : AxisNo) {y : AxisRec}
    (hc : y.toAxisConfig = (s.axis a).toAxisConfig) (hm : y.inMotion = false) (hl : y.LockoutSound) :
    Core (((s.setAxis a y).releaseDemand a).releaseCourtesy a) := by
  set s1 := s.setAxis a y with hs1
  set s2 := s1.releaseDemand a with hs2
  have hax : ∀ b, s2.axis b = if b = a then y else s.axis b := by
    intro b; rw [← State.axis_setAxis]; rfl
  have hcy : y.courtesy = (s.axis a).courtesy := by rw [hc]
  have loads2 : s2.LoadsSound := h.loads
  have shed2 : s2.ShedLaw := h.shed
  have held2 : ∀ b, s2.held b = if b = a then 0 else s.held b := by
    intro b; simp only [State.held]; rw [hs2, State.releaseDemand_budget, get_set]; rfl
  have ledger2 : s2.LedgerLaw := by
    refine ⟨fun b => ?_, ?_⟩
    · rw [held2, hax]
      split
      · simp [AxisRec.movingDemand, hm]
      · exact h.ledger.1 b
    · have e1 : s2.totalDraw = s.totalDraw := State.totalDraw_congr rfl
      have e2 : s2.totalHeld + s.held a = s.totalHeld + 0 := State.totalHeld_set s a 0 s2 rfl
      have e3 : s2.budget.committed = s.budget.committed - s.held a := rfl
      have := h.ledger.2
      omega
  have budget2 : s2.BudgetLaw := by
    intro hd
    have e3 : s2.budget.committed = s.budget.committed - s.held a := rfl
    have := h.budget hd
    have e4 : s2.budget.available = s.budget.available := rfl
    omega
  have run := State.releaseCourtesy_run s2 a
  have forces2 : ∀ b n, s2.Forces b n ↔ b ≠ a ∧ s.Forces b n := by
    intro b n
    simp only [State.Forces, hax]
    split
    · rename_i e; simp [hm, e]
    · rename_i e; simp [e]
  have forced2 : ∀ n, (s2.load n).forced = (s.load n).forced := fun _ => rfl
  refine ⟨run.sound loads2, ?_, ?_, run.shedLaw shed2, ?_, ?_, ?_⟩
  · refine ⟨fun b => ?_, ?_⟩
    · rw [State.axis_congr run.only.axes]
      have : (s2.releaseCourtesy a).held b = s2.held b := by simp only [State.held, run.held]
      rw [this]; exact ledger2.1 b
    · have := run.owes _ ledger2.owes
      rw [State.totalHeld_congr run.held]; exact this
  · simp only [State.releaseCourtesy]
    split
    · exact budget2
    · split
      · exact budget2
      · apply State.storeLoad_budgetLaw budget2
        have := LoadRec.toUnforced_draw (loads2 (by assumption)).derived (loads2 (by assumption)).range
        omega
  · intro m
    have hf : ∀ b k, (s2.releaseCourtesy a).Forces b k ↔ s2.Forces b k := by
      intro b k; simp only [State.Forces, State.axis_congr run.only.axes]
    simp only [hf, forces2]
    have hya : (s2.axis a).courtesy = (s.axis a).courtesy := by rw [hax, if_pos rfl, hcy]
    have split_force : (∃ b, s.Forces b m) ↔ s.Forces a m ∨ ∃ b, b ≠ a ∧ s.Forces b m := by
      constructor
      · rintro ⟨b, hb⟩
        by_cases e : b = a
        · exact .inl (e ▸ hb)
        · exact .inr ⟨b, e, hb⟩
      · rintro (hb | ⟨b, _, hb⟩)
        · exact ⟨a, hb⟩
        · exact ⟨b, hb⟩
    simp only [State.releaseCourtesy, hya]
    rcases hco : (s.axis a).courtesy with _ | n
    · simp only
      rw [forced2, h.force, split_force]
      have : ¬ s.Forces a m := by simp [State.Forces, hco]
      tauto
    · simp only
      have ho := State.otherForces_iff s2 a n
      simp only [forces2, ne_eq, ← and_assoc, and_self] at ho
      split
      · rename_i hof
        rw [forced2, h.force, split_force]
        have hx : s.Forces a m → ∃ b, b ≠ a ∧ s.Forces b m := by
          intro hfa
          have : n = m := by have := hfa.2; rw [hco] at this; exact Option.some.inj this
          subst this
          exact ho.1 hof
        tauto
      · rename_i hof
        rw [State.load_storeLoad]
        split
        · rename_i e
          subst e
          have hno : ¬ ∃ b, b ≠ a ∧ s.Forces b m := fun hx => hof (ho.2 hx)
          simp only [LoadRec.toUnforced_forced, Bool.false_eq_true, false_iff]
          exact hno
        · rename_i e
          rw [forced2, h.force, split_force]
          have : ¬ s.Forces a m := by
            intro hfa
            have := hfa.2; rw [hco] at this
            exact e (Option.some.inj this).symm
          tauto
  · intro b n
    rw [State.axis_congr run.only.axes, hax]
    have hk : ((s2.releaseCourtesy a).load n).kind = (s.load n).kind := by
      have : (s2.load n) = s.load n := rfl
      rw [← this, (run.changes n).config]
    rw [hk]
    split
    · rw [hcy]; exact h.courtesy a n
    · exact h.courtesy b n
  · intro b
    rw [State.axis_congr run.only.axes, hax]
    split
    · exact hl
    · exact h.lockout b

theorem Channel.finish_state (ch : Channel) : ch.finish.state ≠ .sounding := by
  unfold Channel.finish
  split
  · simp
  · assumption

@[simp] theorem AxisRec.atRest_config (x : AxisRec) (st : AxisState) : (x.atRest st).toAxisConfig = x.toAxisConfig := rfl
@[simp] theorem AxisRec.atRest_state (x : AxisRec) (st : AxisState) : (x.atRest st).state = st := rfl

theorem State.giveBack_run (s : State) (a : AxisNo) (ex : Bool) :
    s.giveBack a ex = (s.releaseDemand a).releaseCourtesy a
      ∨ s.giveBack a ex = ((s.releaseDemand a).releaseCourtesy a).answerFall := by
  simp only [State.giveBack]; split <;> simp

theorem State.giveBack_only (s : State) (a : AxisNo) (ex : Bool) : OnlyLoads s (s.giveBack a ex) := by
  have h0 : OnlyLoads s (s.releaseDemand a) := rfl
  have h1 := h0.trans (State.releaseCourtesy_run (s.releaseDemand a) a).only
  rcases s.giveBack_run a ex with e | e
  · rw [e]; exact h1
  · rw [e]; exact h1.trans (State.answerFall_run _).only

theorem Core.giveBack {s : State} (h : Core s) (a : AxisNo) {y : AxisRec} {ex : Bool}
    (hc : y.toAxisConfig = (s.axis a).toAxisConfig) (hm : y.inMotion = false) (hl : y.LockoutSound) :
    Core ((s.setAxis a y).giveBack a ex) := by
  have hr := h.released a hc hm hl
  rcases (s.setAxis a y).giveBack_run a ex with e | e
  · rw [e]; exact hr
  · rw [e]
    exact hr.loadRun (State.answerFall_run _) (State.answerFall_sameForced _) (State.answerFall_budgetLaw hr.budget)

/-- An axis rewritten as `x` and taken out of motion (R135). -/
theorem Mach.leaveMotion {s : State} (h : Mach s) (a : AxisNo) {x : AxisRec} {st : AxisState} {ex : Bool}
    (hst : st = .parked ∨ st = .rest ∨ st = .lockout) (hc : x.toAxisConfig = (s.axis a).toAxisConfig)
    (hl : (x.atRest st).LockoutSound) : Mach ((s.setAxis a x).leaveMotion a st ex) := by
  have hss : (s.setAxis a x).setAxis a (x.atRest st) = s.setAxis a (x.atRest st) := by
    simp only [State.setAxis, Vector.set_set]
  simp only [State.leaveMotion, State.axis_setAxis_self, hss]
  have c4 : Core ((s.setAxis a (x.atRest st)).giveBack a ex) :=
    h.toCore.giveBack a (by simpa using hc) (AxisRec.atRest_inMotion hst) hl
  have o4 := (s.setAxis a (x.atRest st)).giveBack_only a ex
  set s4 := (s.setAxis a (x.atRest st)).giveBack a ex
  have hax : ∀ b, s4.axis b = if b = a then x.atRest st else s.axis b := by
    intro b; rw [State.axis_congr o4.axes, ← State.axis_setAxis]
  have hch : ∀ b, s4.channel b = s.channel b := by
    intro b; rw [State.channel_congr o4.channels]; rfl
  have hnw : st ≠ .warn := by rcases hst with e | e | e <;> rw [e] <;> simp
  have m5 : Mach (s4.setChannel a (s4.channel a).finish) := by
    refine ⟨c4.congr rfl rfl rfl, ?_, ?_⟩
    · intro b
      rw [State.axis_congr (State.setChannel_axes s4 a _), State.channel_setChannel, hax]
      split
      · simp only [AxisRec.atRest_state, hnw, iff_false]
        exact Channel.finish_state _
      · rw [hch]; exact h.sounding b
    · intro b
      rw [State.axis_congr (State.setChannel_axes s4 a _), hax]
      split
      · simp [hnw]
      · exact h.warned b
  simp only [State.endMotion]
  split
  · exact m5
  · have hxa : (s4.setChannel a (s4.channel a).finish).axis a = x.atRest st := by
      rw [State.axis_congr (State.setChannel_axes s4 a _), hax, if_pos rfl]
    rw [hxa]
    apply m5.setAxis a
    · rw [hxa]
    · rw [hxa]; rfl
    · exact hl
    · rw [hxa]
    · simp [hnw]

/-! ### Frames of axis operations -/

theorem OnlyMachines.refl (s : State) : OnlyMachines s s := rfl
theorem OnlyMachines.trans {s t u : State} (h : OnlyMachines s t) (k : OnlyMachines t u) : OnlyMachines s u := by
  rw [OnlyMachines] at *; rw [h] at k; exact k
theorem OnlyLoads.machines {s t : State} (h : OnlyLoads s t) : OnlyMachines s t := by
  rw [OnlyLoads] at h; rw [OnlyMachines, h]
theorem State.setAxis_only (s : State) (a : AxisNo) (x : AxisRec) : OnlyMachines s (s.setAxis a x) := rfl
theorem State.setChannel_only (s : State) (a : AxisNo) (x : Channel) : OnlyMachines s (s.setChannel a x) := rfl
theorem OnlyMachines.claims {s t : State} (h : OnlyMachines s t) : t.claims = s.claims := by rw [h]
theorem OnlyMachines.interlocks {s t : State} (h : OnlyMachines s t) : t.interlocks = s.interlocks := by rw [h]
theorem OnlyMachines.axisInputs {s t : State} (h : OnlyMachines s t) : t.axisInputs = s.axisInputs := by rw [h]
theorem OnlyMachines.settle {s t : State} (h : OnlyMachines s t) : t.settle = s.settle := by rw [h]

/-- What leaving motion does to the axis records and the channels, and what it leaves alone (R135). -/
theorem State.leaveMotion_spec (s : State) (a : AxisNo) (st : AxisState) (ex : Bool) :
    OnlyMachines s (s.leaveMotion a st ex)
      ∧ (∀ b, (s.leaveMotion a st ex).axis b
          = if b = a then
              { (s.axis a).atRest st with pending := if st = .rest then (s.axis a).pending else none }
            else s.axis b)
      ∧ ∀ b, (s.leaveMotion a st ex).channel b = if b = a then (s.channel a).finish else s.channel b := by
  have o4 := (s.setAxis a ((s.axis a).atRest st)).giveBack_only a ex
  simp only [State.leaveMotion]
  set s4 := (s.setAxis a ((s.axis a).atRest st)).giveBack a ex
  have hax : ∀ b, s4.axis b = if b = a then (s.axis a).atRest st else s.axis b := by
    intro b; rw [State.axis_congr o4.axes, ← State.axis_setAxis]
  have hch : ∀ b, s4.channel b = s.channel b := by
    intro b; rw [State.channel_congr o4.channels]; rfl
  have hax5 : ∀ b, (s4.setChannel a (s4.channel a).finish).axis b
      = if b = a then (s.axis a).atRest st else s.axis b := hax
  have hch5 : ∀ b, (s4.setChannel a (s4.channel a).finish).channel b
      = if b = a then (s.channel a).finish else s.channel b := by
    intro b; rw [State.channel_setChannel, hch, hch]
  have o5 : OnlyMachines s (s4.setChannel a (s4.channel a).finish) :=
    (s.setAxis_only a _).trans (o4.machines.trans (s4.setChannel_only a _))
  simp only [State.endMotion]
  split
  · rename_i hr
    refine ⟨o5, ?_, hch5⟩
    intro b
    rw [hax5]
    simp only [hr]
    rfl
  · rename_i hr
    refine ⟨o5.trans (State.setAxis_only _ a _), ?_, hch5⟩
    intro b
    rw [State.axis_setAxis, hax5, hax5, if_pos rfl]
    split <;> rfl

theorem KeptOrBlocked.refl (x : AxisRec) : KeptOrBlocked x x := .inl rfl

theorem KeptOrBlocked.trans {x y z : AxisRec} (h : KeptOrBlocked x y) (k : KeptOrBlocked y z) : KeptOrBlocked x z := by
  rcases h with h | h
  · rw [← h]; exact k
  · rcases k with k | k
    · rw [k]; exact .inr h
    · exfalso
      rcases h.1 with h1 | h1 <;> rcases k.1 with k1 | k1 <;> simp_all

/-- The record of an axis parked with an end reason (R135). -/
theorem State.parkCore_spec (s : State) (a : AxisNo) (er : EndReason) (ex : Bool) :
    OnlyMachines s (s.parkCore a er ex)
      ∧ (∀ b, (s.parkCore a er ex).axis b
          = if b = a then { (s.axis a).atRest .parked with endReason := er, pending := none } else s.axis b)
      ∧ ∀ b, (s.parkCore a er ex).channel b = if b = a then (s.channel a).finish else s.channel b := by
  obtain ⟨h1, h2, h3⟩ := (s.setAxis a { s.axis a with endReason := er }).leaveMotion_spec a .parked ex
  refine ⟨(s.setAxis_only a _).trans h1, ?_, h3⟩
  intro b
  have := h2 b
  rw [State.parkCore, this, State.axis_setAxis, State.axis_setAxis, if_pos rfl]
  split <;> rfl

theorem State.stopCore_axis (s : State) (a b : AxisNo) (er : EndReason) :
    (s.stopCore a er).axis b = if b = a then (s.axis a).toStopping er else s.axis b := by
  rw [State.stopCore, State.axis_setAxis]

theorem State.blockCore_spec (s : State) (a : AxisNo) :
    OnlyMachines s (s.blockCore a) ∧ ∀ b, KeptOrBlocked (s.axis b) ((s.blockCore a).axis b) := by
  simp only [State.blockCore]
  split
  · rename_i hw
    obtain ⟨h1, h2, _⟩ := s.parkCore_spec a .interlock false
    refine ⟨h1, fun b => ?_⟩
    rw [h2]
    split
    · rename_i e; subst e
      exact .inr ⟨.inl ⟨hw, rfl⟩, rfl, rfl, rfl, rfl, rfl, rfl, rfl⟩
    · exact .refl _
  · rename_i hw
    refine ⟨s.setAxis_only a _, fun b => ?_⟩
    rw [State.stopCore_axis]
    split
    · rename_i e; subst e
      exact .inr ⟨.inr ⟨hw, rfl⟩, rfl, rfl, rfl, rfl, rfl, rfl, rfl⟩
    · exact .refl _
  · exact ⟨.refl s, fun b => .refl _⟩

/-- A fold that does something or nothing at each place keeps whatever is reflexive, transitive and kept at each. -/
theorem foldl_rel {α β : Type} {R : β → β → Prop} (hr : ∀ x, R x x) (ht : ∀ {x y z}, R x y → R y z → R x z)
    {f : β → α → β} (hf : ∀ x a, R x (f x a)) (l : List α) (x : β) : R x (l.foldl f x) := by
  induction l generalizing x with
  | nil => exact hr x
  | cons a l ih => exact ht (hf x a) (ih _)

/-- What passing a change to the Interlock Table can do (R165, R166): axes in WARN or RUN may be blocked, and the budget
and loads follow; nothing else. -/
structure Blocked (s t : State) : Prop where
  only : OnlyMachines s t
  axes : ∀ b, KeptOrBlocked (s.axis b) (t.axis b)

theorem Blocked.refl (s : State) : Blocked s s := ⟨.refl s, fun _ => .refl _⟩
theorem Blocked.trans {s t u : State} (h : Blocked s t) (k : Blocked t u) : Blocked s u :=
  ⟨h.only.trans k.only, fun b => (h.axes b).trans (k.axes b)⟩

/-- The effect of one place on a pass. -/
theorem State.passChange_rel {R : State → State → Prop} (hr : ∀ s, R s s) (ht : ∀ {s t u}, R s t → R t u → R s u)
    (hb : ∀ s a, R s (s.blockCore a)) (depth : Nat) (c : AxisNo) (s : State) : R s (State.passChange depth c s) := by
  induction depth generalizing c s with
  | zero => exact hr s
  | succ d ih =>
    simp only [State.passChange]
    apply foldl_rel hr ht
    intro s p
    split
    · split
      · exact ht (hb s _) (ih _ _)
      · exact hr s
    · exact hr s

theorem State.tellInterlocks_blocked (s : State) (a : AxisNo) : Blocked s (s.tellInterlocks a) :=
  State.passChange_rel Blocked.refl Blocked.trans (fun s a => ⟨(s.blockCore_spec a).1, (s.blockCore_spec a).2⟩) 3 a s

/-! ### The laws through stops, parks and blocks -/

theorem AxisRec.LockoutSound.out {x : AxisRec} (h : x.LockoutSound) (hs : x.state ≠ .lockout) :
    x.stallCount < 8 ∧ x.endReason ≠ .noLoad := by
  obtain ⟨h1, h2⟩ := h
  have h3 : ¬ (x.stallCount = 8 ∨ x.endReason = .noLoad) := fun e => hs (h2.2 e)
  refine ⟨?_, fun e => h3 (.inr e)⟩
  have : x.stallCount ≠ 8 := fun e => h3 (.inl e)
  omega

theorem AxisRec.lockoutSound_of {x : AxisRec} (hs : x.state ≠ .lockout) (hc : x.stallCount < 8)
    (he : x.endReason ≠ .noLoad) : x.LockoutSound := by
  refine ⟨by omega, ⟨fun h => absurd h hs, ?_⟩⟩
  rintro (h | h)
  · omega
  · exact absurd h he

theorem Mach.parkCore {s : State} (h : Mach s) (a : AxisNo) {er : EndReason} {ex : Bool}
    (hs : (s.axis a).state ≠ .lockout) (he : er ≠ .noLoad) : Mach (s.parkCore a er ex) := by
  apply h.leaveMotion a (.inl rfl)
  · rfl
  · have := (h.lockout a).out hs
    exact AxisRec.lockoutSound_of (by simp) this.1 he

theorem AxisRec.toStopping_sound {x : AxisRec} {er : EndReason} (h : x.LockoutSound) (hs : x.state ≠ .lockout)
    (he : er ≠ .noLoad) : (x.toStopping er).LockoutSound := by
  have := h.out hs
  refine AxisRec.lockoutSound_of (by simp [AxisRec.toStopping]) ?_ he
  simp only [AxisRec.toStopping]; split <;> omega

theorem Mach.stopCore {s : State} (h : Mach s) (a : AxisNo) {er : EndReason}
    (hs : (s.axis a).state = .run) (he : er ≠ .noLoad) : Mach (s.stopCore a er) := by
  apply h.setAxis a
  · rfl
  · simp [AxisRec.inMotion, AxisRec.toStopping, hs]
  · exact AxisRec.toStopping_sound (h.lockout a) (by simp [hs]) he
  · simp [AxisRec.toStopping, hs]
  · simp [AxisRec.toStopping]

theorem Mach.blockCore {s : State} (h : Mach s) (a : AxisNo) : Mach (s.blockCore a) := by
  simp only [State.blockCore]
  split
  · rename_i hw; exact h.parkCore a (by simp [hw]) (by simp)
  · rename_i hw; exact h.stopCore a hw (by simp)
  · exact h

theorem Mach.passChange {s : State} (h : Mach s) (depth : Nat) (c : AxisNo) : Mach (State.passChange depth c s) :=
  State.passChange_rel (R := fun s t => Mach s → Mach t) (fun _ h => h) (fun f g h => g (f h))
    (fun _ a h => h.blockCore a) depth c s h

theorem Mach.tellInterlocks {s : State} (h : Mach s) (a : AxisNo) : Mach (s.tellInterlocks a) := h.passChange 3 a

theorem Mach.park {s : State} (h : Mach s) (a : AxisNo) {er : EndReason} {ex : Bool}
    (hs : (s.axis a).state ≠ .lockout) (he : er ≠ .noLoad) : Mach (s.park a er ex) := (h.parkCore a hs he).tellInterlocks a

theorem Mach.stopMotion {s : State} (h : Mach s) (a : AxisNo) {er : EndReason}
    (hs : (s.axis a).state = .run) (he : er ≠ .noLoad) : Mach (s.stopMotion a er) := (h.stopCore a hs he).tellInterlocks a

/-- A record that differs only where no law looks. -/
theorem Mach.tweak {s : State} (h : Mach s) (a : AxisNo) {x : AxisRec}
    (hc : x.toAxisConfig = (s.axis a).toAxisConfig) (hs : x.state = (s.axis a).state)
    (hn : x.stallCount = (s.axis a).stallCount) (he : x.endReason = (s.axis a).endReason)
    (hp : x.state = .warn → x.pending.isSome = true) : Mach (s.setAxis a x) := by
  apply h.setAxis a hc (AxisRec.inMotion_of_state hs) _ (by rw [hs]) hp
  have := h.lockout a
  simpa only [AxisRec.LockoutSound, hs, hn, he] using this

theorem Mach.notices {s : State} (h : Mach s) (p : Notices) : Mach { s with notices := p } := h.congr rfl rfl rfl rfl

theorem Mach.abandon {s : State} (h : Mach s) (a : AxisNo) : Mach (s.abandon a) := by
  simp only [State.abandon]
  split
  · rename_i hw; exact h.park a (by simp [hw]) (by simp)
  · exact h

theorem Mach.claimEnded {s : State} (h : Mach s) (a : AxisNo) {er : EndReason} (he : er ≠ .noLoad) :
    Mach (s.claimEnded a er) := by
  simp only [State.claimEnded]
  split
  · rename_i hw
    split
    · exact Mach.park (s := s.raiseMotionLeaseLost) (h.notices _) a (by show (s.axis a).state ≠ _; simp [hw]) he
    · exact h.park a (by simp [hw]) he
  · rename_i hw
    split
    · exact Mach.stopMotion (s := s.raiseMotionLeaseLost) (h.notices _) a hw he
    · exact h.stopMotion a hw he
  · rename_i hw
    have key : ∀ t : State, Mach t → t.axis a = s.axis a → Mach (t.setAxis a { t.axis a with pending := none }) := by
      intro t ht e
      exact ht.tweak a rfl rfl rfl rfl (by simp [e, hw])
    split
    · exact key _ (h.notices _) rfl
    · exact key _ h rfl
  · exact h

theorem Mach.axisHalt {s : State} (h : Mach s) (a : AxisNo) : Mach (s.axisHalt a) := by
  simp only [State.axisHalt]
  split
  · rename_i hw; exact h.park a (by simp [hw]) (by simp)
  · rename_i hw; exact h.park a (by simp [hw]) (by simp)
  · rename_i hw
    apply Mach.stopMotion _ a _ (by simp)
    · exact h.tweak a rfl rfl rfl rfl (by simp [hw])
    · simp [hw]
  · exact h

theorem Mach.quickStop {s : State} (h : Mach s) (a : AxisNo) {er : EndReason} (hs : (s.axis a).state = .run)
    (he : er ≠ .noLoad) : Mach (s.quickStop a er) := by
  apply Mach.stopMotion _ a _ he
  · exact h.tweak a rfl rfl rfl rfl (by simp [hs])
  · simp [hs]

theorem Mach.testEnds {s : State} (h : Mach s) (a : AxisNo) (e : Bool) : Mach (s.testEnds a e) := by
  simp only [State.testEnds]
  split
  case isFalse => exact h
  rename_i hs
  split
  · rename_i er her
    apply h.stopMotion a hs
    intro hc
    rw [hc] at her
    simp only [AxisRec.normalEnd] at her
    repeat' split at her
    all_goals simp at her
  · exact h

theorem Mach.noLoadLockout {s : State} (h : Mach s) (a : AxisNo) : Mach (s.noLoadLockout a) := by
  simp only [State.noLoadLockout]
  apply Mach.notices
  apply Mach.tellInterlocks
  apply h.leaveMotion (x := { s.axis a with endReason := .noLoad }) a (.inr (.inr rfl)) rfl
  exact ⟨(h.lockout a).1, by simp [AxisRec.atRest]⟩

theorem Mach.stall {s : State} (h : Mach s) (a : AxisNo) (hs : (s.axis a).state = .run) : Mach (s.stall a) := by
  simp only [State.stall]
  apply Mach.notices
  apply Mach.tellInterlocks
  have hl := (h.lockout a).out (by simp [hs])
  split
  · refine h.leaveMotion
      (x := { s.axis a with stallCount := 8, endReason := .stall, jam := some (s.axis a).position })
      a (.inr (.inr rfl)) rfl ?_
    exact ⟨by simp [AxisRec.atRest], by simp [AxisRec.atRest]⟩
  · refine h.leaveMotion
      (x := { s.axis a with
                stallCount := (s.axis a).stallCount + 1, endReason := .stall
                restRemaining := some (restMs ((s.axis a).stallCount + 1)) })
      a (.inr (.inl rfl)) rfl ?_
    exact AxisRec.lockoutSound_of (by simp) (by show (s.axis a).stallCount + 1 < 8; omega) (by simp [AxisRec.atRest])

end Sys2Proof.Machine
end

