-- ==== Sys2Proof/Laws/Timers.lean ====
section
/-! SUPPORT. Laws/Timers.lean: all that the expiry of each timer can do. Where the timer has run out it is the named operation;
where it is stopped, or was set afresh by the event taken first, it is nothing (R72, R158, R175). -/

namespace Sys2Proof.Machine

/-- The expiry of a step timer: one step of a fade whose timer has run out, else nothing (R64, R72). -/
theorem State.fadeStep_cases (s : State) (n : LoadNo) :
    ((∀ f, (s.load n).fade = some f → f.stepTimer ≠ 0) ∧ s.fadeStep n = s)
      ∨ ∃ f, (s.load n).fade = some f ∧ f.stepTimer = 0
        ∧ s.fadeStep n = s.reportLoad n ((s.load n).stepFade f).recount := by
  unfold State.fadeStep
  cases h : (s.load n).fade with
  | none => simp
  | some f => by_cases ht : f.stepTimer = 0 <;> simp [ht]

/-- The end of an output period (R76). -/
theorem State.endPeriod_cases (s : State) (n : LoadNo) :
    ((s.output n).period ≠ some 0 ∧ s.endPeriod n = s)
      ∨ (s.output n).period = some 0 ∧ s.endPeriod n = s.setOutput n (s.output n).nextPeriod := by
  by_cases h : (s.output n).period = some 0 <;> simp [State.endPeriod, h]

/-- The ramp expiry (R132, R136, R149). -/
theorem State.ramp_cases (s : State) (a : AxisNo) :
    (((s.axis a).rampTimer ≠ some 0 ∨ (s.axis a).state ≠ .run ∧ (s.axis a).state ≠ .stopping) ∧ s.ramp a = s)
      ∨ ((s.axis a).rampTimer = some 0 ∧ (s.axis a).state = .run
        ∧ s.ramp a = s.setAxis a { s.axis a with speed := (s.axis a).rampedSpeed, rampTimer := some rampMs }.armWatch)
      ∨ ((s.axis a).rampTimer = some 0 ∧ (s.axis a).state = .stopping ∧ s.ramp a = s.setAxis a (s.axis a).slowed) := by
  by_cases h : (s.axis a).rampTimer = some 0
  · cases hs : (s.axis a).state <;> simp [State.ramp, h, hs]
  · refine .inl ⟨.inl h, ?_⟩
    dsimp only [State.ramp]
    split <;> simp_all

/-- The brake-settle expiry (R136). -/
theorem State.brakeSettled_cases (s : State) (a : AxisNo) :
    (¬ ((s.axis a).brakeTimer = some 0 ∧ (s.axis a).state = .stopping) ∧ s.brakeSettled a = s)
      ∨ ((s.axis a).brakeTimer = some 0 ∧ (s.axis a).state = .stopping) ∧ s.brakeSettled a = s.park a (s.axis a).endReason := by
  by_cases h : (s.axis a).brakeTimer = some 0 ∧ (s.axis a).state = .stopping <;> simp [State.brakeSettled, h]

/-- The confirm-window expiry (R147, R148). -/
theorem State.confirmWindow_cases (s : State) (a : AxisNo) :
    (¬ ((s.axis a).confirmTimer = some 0 ∧ (s.axis a).state = .run) ∧ s.confirmWindow a = s)
      ∨ ((s.axis a).confirmTimer = some 0 ∧ (s.axis a).state = .run)
        ∧ s.confirmWindow a = if (s.axis a).noLoad ≤ (s.axisIn a).current
          then s.setAxis a ((s.axis a).confirmed (s.axisIn a).current) else s.noLoadLockout a := by
  by_cases h : (s.axis a).confirmTimer = some 0 ∧ (s.axis a).state = .run <;> simp [State.confirmWindow, h]

/-- The pulse watch expiry (R149, R150, R158). -/
theorem State.pulseWatchEnd_cases (s : State) (a : AxisNo) :
    (¬ ((s.axis a).pulseWatch = some 0 ∧ (s.axis a).state = .run) ∧ s.pulseWatchEnd a = s)
      ∨ ((s.axis a).pulseWatch = some 0 ∧ (s.axis a).state = .run) ∧ s.pulseWatchEnd a = s.stall a := by
  by_cases h : (s.axis a).pulseWatch = some 0 ∧ (s.axis a).state = .run <;> simp [State.pulseWatchEnd, h]

/-- The over-current expiry (R149, R150, R158). -/
theorem State.overCurrentEnd_cases (s : State) (a : AxisNo) :
    (¬ ((s.axis a).overCurrentTimer = some 0 ∧ (s.axis a).state = .run) ∧ s.overCurrentEnd a = s)
      ∨ ((s.axis a).overCurrentTimer = some 0 ∧ (s.axis a).state = .run) ∧ s.overCurrentEnd a = s.stall a := by
  by_cases h : (s.axis a).overCurrentTimer = some 0 ∧ (s.axis a).state = .run <;> simp [State.overCurrentEnd, h]

/-- The rest expiry (R152). -/
theorem State.restEnd_cases (s : State) (a : AxisNo) :
    (¬ ((s.axis a).restRemaining = some 0 ∧ (s.axis a).state = .rest) ∧ s.restEnd a = s)
      ∨ ((s.axis a).restRemaining = some 0 ∧ (s.axis a).state = .rest) ∧ s.restEnd a = s.restOver a := by
  by_cases h : (s.axis a).restRemaining = some 0 ∧ (s.axis a).state = .rest <;> simp [State.restEnd, h]

/-- The mark end (R170). -/
theorem State.markEnd_cases (s : State) (a : AxisNo) :
    ((s.channel a).markTimer ≠ some 0 ∧ s.markEnd a = s)
      ∨ (s.channel a).markTimer = some 0 ∧ s.markEnd a = s.setChannel a (s.channel a).endMark := by
  by_cases h : (s.channel a).markTimer = some 0 <;> simp [State.markEnd, h]

/-- The cycle end (R172, R173, R175). -/
theorem State.cycleEnd_cases (s : State) (a : AxisNo) :
    (((s.channel a).cycleTimer ≠ some 0 ∨ (s.channel a).cycle = none) ∧ s.cycleEnd a = s)
      ∨ ∃ c, (s.channel a).cycleTimer = some 0 ∧ (s.channel a).cycle = some c
        ∧ s.cycleEnd a =
          let r := (s.channel a).endCycle c (s.axis a).warnCycles
          let t := s.setChannel a r.1
          if r.2 then t.enterRun a else t := by
  by_cases h : (s.channel a).cycleTimer = some 0
  · cases hc : (s.channel a).cycle <;> simp [State.cycleEnd, h, hc]
  · refine .inl ⟨.inl h, ?_⟩
    unfold State.cycleEnd
    split <;> simp_all

/-- The settle expiry (R179). -/
theorem State.settleOver_cases (s : State) :
    ((∀ k, s.settle ≠ some { kind := k, timer := some 0 }) ∧ s.settleOver = s)
      ∨ ∃ k, s.settle = some { kind := k, timer := some 0 } ∧ s.settleOver = s.endSettle k := by
  unfold State.settleOver
  split
  · exact .inr ⟨_, ‹_›, rfl⟩
  · exact .inl ⟨fun k h => by simp_all, rfl⟩

end Sys2Proof.Machine
end

