-- ==== Sys2Proof/Laws/Falls.lean ====
section
/-! SUPPORT. Laws/Falls.lean: the model's reports and falls are those that Safety.lean states from the rules. -/

namespace Sys2Proof.Machine

/-- The duty of a load's new record is staged, but for the settle interval (R44, R78). -/
theorem State.stageDuty_setLoad (s : State) (n : LoadNo) (l' : LoadRec) :
    (s.setLoad n l').stageDuty n = if s.settle = none then
      (s.setLoad n l').setOutput n { s.output n with staged := some l'.duty } else s.setLoad n l' := by
  have hl : (s.setLoad n l').load n = l' := by rw [State.load_setLoad, if_pos rfl]
  have hs : (s.setLoad n l').inSettle = s.inSettle := rfl
  have ho : (s.setLoad n l').output n = s.output n := rfl
  rw [State.stageDuty, hl, hs, ho, State.inSettle]
  cases s.settle <;> simp

/-- A changed record is written as R44, R78 and R99 say. -/
theorem State.storeLoad_eq_withLoad (s : State) (n : LoadNo) (l' : LoadRec) (restage : Bool) :
    s.storeLoad n l' restage = s.withLoad n l' restage := by
  unfold State.storeLoad State.withLoad
  have hb : (restage || l'.level != (s.load n).level) = true ↔ restage = true ∨ l'.level ≠ (s.load n).level := by simp
  simp only [State.stageDuty_setLoad, hb]
  by_cases hl : restage = true ∨ l'.level ≠ (s.load n).level
  · by_cases hs : s.settle = none
    · rw [if_pos hl, if_pos hs, if_pos ⟨hl, hs⟩]; rfl
    · rw [if_pos hl, if_neg hs, if_neg fun h => hs h.2]; rfl
  · rw [if_neg hl, if_neg fun h => hl h.1]; rfl

/-- A fall is answered as R111 says. -/
theorem State.answerFall_eq_afterFall (s : State) : s.answerFall = s.afterFall := by
  unfold State.answerFall State.afterFall
  cases hd : s.budget.deficit with
  | true => by_cases hc : s.budget.committed ≤ s.budget.available <;> simp [hc, State.setDeficit]
  | false =>
    have : ({ s with budget := { s.budget with deficit := false } } : State) = s := by rw [← hd]
    simp [this]

/-- A report is the record written and, where the draw falls, the fall answered (R43, R111). -/
theorem State.reportLoad_eq (s : State) (n : LoadNo) (l' : LoadRec) (restage : Bool) :
    s.reportLoad n l' restage
      = if l'.countedDraw < (s.load n).countedDraw then (s.withLoad n l' restage).afterFall else s.withLoad n l' restage := by
  simp [State.reportLoad, State.storeLoad_eq_withLoad, State.answerFall_eq_afterFall]

/-- A fade step of a timer that has run out, in the terms of Safety.lean (R64, R111). -/
theorem State.fadeStep_eq {s : State} {n : LoadNo} {f : Fade} (hf : (s.load n).fade = some f) (ht : f.stepTimer = 0) :
    let l' := ((s.load n).stepFade f).recount
    s.fadeStep n = if l'.countedDraw < (s.load n).countedDraw then (s.withLoad n l').afterFall else s.withLoad n l' := by
  simp [State.fadeStep, hf, ht, State.reportLoad_eq]

/-- What an axis gives back as it leaves motion, in the terms of Safety.lean (R110, R111, R135). -/
theorem State.giveBack_eq_afterMotion (s : State) (a : AxisNo) : s.giveBack a false = s.afterMotion a := by
  have hr : (s.releaseDemand a).releaseCourtesy a = match (s.axis a).courtesy with
      | some n =>
        if ∃ b, b ≠ a ∧ (s.axis b).inMotion = true ∧ (s.axis b).courtesy = some n then s.releaseDemand a
        else (s.releaseDemand a).withLoad n (s.load n).toUnforced
      | none => s.releaseDemand a := by
    show (match (s.axis a).courtesy with
      | none => s.releaseDemand a
      | some n => if s.otherForces a n then s.releaseDemand a
        else (s.releaseDemand a).storeLoad n (s.load n).toUnforced) = _
    cases (s.axis a).courtesy <;> simp only [State.otherForces_iff, State.Forces, State.storeLoad_eq_withLoad]
  unfold State.giveBack
  simp only [hr, State.answerFall_eq_afterFall, Bool.not_false, Bool.and_true, Bool.or_eq_true, decide_eq_true_eq]
  rfl

end Sys2Proof.Machine
end

