-- ==== Sys2Proof/Laws/Lawful.lean ====
section
/-! SUPPORT. Laws/Lawful.lean: checks that run on a concrete state, and what a passed check proves of it. -/

namespace Sys2Proof.Machine

/-- A check of `LoadRec.FadeSound`. -/
def LoadRec.fadeSoundB (l : LoadRec) : Bool :=
  match l.fade with
  | none => true
  | some f => decide (l.kind = .dim ∧ l.forced = false ∧ f.r < f.n ∧ f.acc < f.n ∧ 1 ≤ f.remaining ∧ f.remaining ≤ f.n
      ∧ (f.acc + f.remaining * f.r) % f.n = 0 ∧ f.endLevel l.level = l.effTarget)

theorem LoadRec.fadeSound_of_check {l : LoadRec} (h : l.fadeSoundB = true) : l.FadeSound := by
  intro f hf
  simpa [fadeSoundB, hf] using h

/-- The laws that stand on one load, checked at once. -/
def LoadRec.lawfulB (l : LoadRec) : Bool :=
  decide (l.level ≤ 1000 ∧ l.setTarget ≤ 1000 ∧ l.effTarget ≤ 1000 ∧ l.shedLevel ≤ 1000)
    && decide (l.effTarget = l.effectiveTarget ∧ l.countedDraw = l.drawAt (max l.level l.effTarget))
    && decide (l.kind = .switch → (l.setTarget = 0 ∨ l.setTarget = 1000) ∧ l.level = l.effTarget)
    && decide (l.kind = .none → l.setTarget = 0 ∧ l.level = 0)
    && l.fadeSoundB
    && decide (l.shed = true → l.kind ≠ .none ∧ 1 ≤ l.shedRank ∧ l.shedRank ≤ 7)
    && decide (l.forced = true → l.level = 1000 ∧ l.effTarget = 1000 ∧ l.fade = none)

/-- A check of `State.OutputLaw`: the fields that `State.driveOutputs` writes. -/
def State.outputB (s : State) : Bool :=
  decide (s.levelNotices = s.notices) && decide (mapTable (fun ax => ax.pins s.inSettle) s.axes = s.axisPins)
    && decide (mapTable (fun ch => ch.pins s.inSettle) s.channels = s.signalPins) && decide (s.noticeLevel = s.noticeLine)

theorem State.output_of_check {s : State} (h : s.outputB = true) : s.OutputLaw := by
  simp only [outputB, Bool.and_eq_true, decide_eq_true_eq] at h
  obtain ⟨⟨⟨h1, h2⟩, h3⟩, h4⟩ := h
  cases s
  simp_all [OutputLaw, driveOutputs]

/-- A check of `State.Lawful` for a part whose settle interval is over. -/
def State.lawfulB (s : State) : Bool :=
  decide (s.settle = none) && decide (s.busReplies.length ≤ 4) && decide (s.claims.length ≤ 32)
    && decide ((∀ n, (s.claims.filter (s.coversLoad n)).length ≤ 1)
        ∧ (∀ a : AxisNo, (s.claims.filter fun c => c.target == .axis a).length ≤ 1) ∧ (s.claims.map Claim.target).Nodup)
    && decide (∀ n, (s.load n).lawfulB = true)
    && decide (∀ v, (s.scene v).entries.length ≤ 12 ∧ ((s.scene v).entries.map Prod.fst).Nodup)
    && decide (∀ p, (s.returnStack p).length ≤ 6 ∧ ∀ f ∈ s.returnStack p,
        1 ≤ f.length ∧ f.length ≤ 12 ∧ (f.map Prod.fst).Nodup ∧ ∀ x ∈ f, (s.load x.1).space = p)
    && decide ((∀ a, s.held a = (s.axis a).movingDemand) ∧ s.budget.committed = s.totalDraw + s.totalHeld)
    && decide (s.budget.deficit = false → s.budget.committed ≤ s.budget.available)
    && decide (s.budget.shedList.Nodup ∧ ∀ n, n ∈ s.budget.shedList ↔ (s.load n).shed = true)
    && decide (∀ n, (s.load n).forced = true ↔ ∃ a, (s.axis a).inMotion = true ∧ (s.axis a).courtesy = some n)
    && decide (∀ a n, (s.axis a).courtesy = some n → (s.load n).kind ≠ .none)
    && decide (∀ a, (s.axis a).driven = true → ∃ c ∈ s.claims, c.target = .axis a)
    && decide (∀ a, (s.axis a).stallCount ≤ 8
        ∧ ((s.axis a).state = .lockout ↔ (s.axis a).stallCount = 8 ∨ (s.axis a).endReason = .noLoad))
    && decide (∀ p, (s.interlock p).all (fun e => !s.entryStops e && e.condition != e.subject) = true)
    && decide (∀ a, (s.axis a).state = .warn → (s.axis a).pending.isSome = true)
    && decide (∀ a, (s.channel a).state = .sounding ↔ (s.axis a).state = .warn)
    && s.outputB
    && decide (∀ a, (s.axis a).demand ≤ 1500 ∧ 1 ≤ (s.axis a).creepSpeed ∧ (s.axis a).creepSpeed ≤ (s.axis a).runSpeed
        ∧ (s.axis a).runSpeed ≤ 255 ∧ (s.axis a).softHigh ≤ 16383 ∧ (s.axis a).softLow < (s.axis a).softHigh
        ∧ 1 ≤ (s.axis a).warnCycles ∧ (s.axis a).warnCycles ≤ 15 ∧ (s.axis a).position ≤ 16383 ∧ (s.axis a).speed ≤ 255
        ∧ (s.axis a).runDistance ≤ 65535)

/-- A state that passes the check keeps the laws of the part. -/
theorem State.lawful_of_check {s : State} (h : s.lawfulB = true) : s.Lawful := by
  simp only [lawfulB, Bool.and_eq_true, decide_eq_true_eq] at h
  obtain ⟨⟨⟨⟨⟨⟨⟨⟨⟨⟨⟨⟨⟨⟨⟨⟨⟨⟨hsettle, hq⟩, hr⟩, hc⟩, hl⟩, hsc⟩, hst⟩, hled⟩, hb⟩, hsh⟩, hf⟩, hcy⟩, hh⟩, hlo⟩, hi⟩, hw⟩, hso⟩,
    ho⟩, hra⟩ := h
  have key : ∀ n, _ := fun n => by
    have := hl n
    simpa only [LoadRec.lawfulB, Bool.and_eq_true, decide_eq_true_eq] using this
  refine ⟨hq, hr, hc, ?_, ?_, ?_, ?_, ⟨hsc, hst⟩, hled, hb, ?_, ⟨hf, ?_, hcy⟩, hh, hlo, ⟨?_, hw⟩, ?_, hso, State.output_of_check ho, hra⟩
  · exact fun n => (key n).1.1.1.1.1.1
  · exact fun n => (key n).1.1.1.1.1.2
  · refine ⟨fun n hk => ?_, fun n => (key n).1.1.1.2, fun timer ht => by simp [hsettle] at ht⟩
    exact ⟨((key n).1.1.1.1.2 hk).1, .inl ((key n).1.1.1.1.2 hk).2⟩
  · exact fun n => LoadRec.fadeSound_of_check (key n).1.1.2
  · exact ⟨hsh.1, hsh.2, fun n => (key n).1.2⟩
  · exact fun n => (key n).2
  · intro p e he
    have := hi p
    simp only [he, Option.all_some, Bool.and_eq_true, Bool.not_eq_true'] at this
    exact this.1
  · intro p e he
    have := hi p
    simp only [he, Option.all_some, Bool.and_eq_true, bne_iff_ne, ne_eq] at this
    exact this.2

/-- A check of `State.Takes`. -/
def State.takesB (s : State) (k : ReqKind) (o : Origin) : Bool :=
  s.settle.isNone && s.hasRoom o && (o == 0 || (s.station o).isSome) && (!k.managementOnly || o == 0)
    && (s.device.runState != .halted || o == 0 || k == .query) && (s.device.runState != .running || !k.haltedOnly)

theorem State.takes_of_check {s : State} {k : ReqKind} {o : Origin} (h : s.takesB k o = true) : s.Takes k o := by
  simp only [takesB, Bool.and_eq_true, Bool.or_eq_true, Option.isNone_iff_eq_none, beq_iff_eq, bne_iff_ne,
    Bool.not_eq_true', Option.isSome_iff_ne_none] at h
  obtain ⟨⟨⟨⟨⟨h1, h2⟩, h3⟩, h4⟩, h5⟩, h6⟩ := h
  refine ⟨h1, h2, h3, fun hk => ?_, fun hk => ?_, fun hk => ?_⟩
  · rcases h4 with h4 | h4
    · simp [hk] at h4
    · exact h4
  · rcases h5 with (h5 | h5) | h5
    · exact absurd hk h5
    · exact .inl h5
    · exact .inr h5
  · rcases h6 with h6 | h6
    · exact absurd hk h6
    · exact h6

/-- A lease has run out where a claim on the target stands at zero (R25). -/
theorem State.leaseRunOut_iff (s : State) (t : ClaimTarget) :
    s.leaseRunOut t = true ↔ ∃ c ∈ s.claims, c.target = t ∧ c.lease = .left 0 := by simp [State.leaseRunOut]

/-- All that the expiry of a lease can do (R25, R35): nothing to a claim whose lease has time left or does not run down,
and else the retirement of the claim and the news to a held axis. -/
theorem State.expireLease_cases (s : State) (t : ClaimTarget) :
    ((∀ c ∈ s.claims, c.target = t → c.lease ≠ .left 0) ∧ s.expireLease t = s)
      ∨ (∃ c ∈ s.claims, c.target = t ∧ c.lease = .left 0)
        ∧ s.expireLease t = (s.retireClaim t).tellHeldAxis t .leaseLost := by
  by_cases h : s.leaseRunOut t = true
  · exact .inr ⟨(s.leaseRunOut_iff t).1 h, by rw [State.expireLease, if_pos h]⟩
  · refine .inl ⟨fun c hc ht hl => h ((s.leaseRunOut_iff t).2 ⟨c, hc, ht, hl⟩), by rw [State.expireLease, if_neg h]⟩

end Sys2Proof.Machine
end

