-- ==== Sys2Proof/WellFormed.lean ====
section
/-! DEFINITION. WellFormed.lean: which commands can be. -/

namespace Sys2Proof

/-- A body fits a frame: 0 to 60 bytes (Table 1-1). -/
abbrev bodyFits (body : List Byte) : Prop := body.length ≤ 60

/-- A command that can be: a request's body fits a frame (R1), and the kind byte of UNKNOWN_KIND is one that
Table 1-3 does not list (R13). The other operands are in range by their types. -/
abbrev Instr.WellFormed (i : Instr) : Prop :=
  match i with
  | .query _ b | .setLevel _ b | .recallScene _ b | .returnScene _ b | .claim _ b | .renew _ b | .release _ b
  | .move _ b | .stop _ b | .writeStation _ b | .writeLoad _ b | .writeAxis _ b | .writeInterlock _ b
  | .writeSignal _ b | .takeScene _ b | .writeScene _ b | .giveScene _ b | .setBudget _ b | .clearLockout _ b
  | .start _ b | .halt _ b | .readNotice _ b => bodyFits b
  | .unknownKind _ k b => bodyFits b ∧ ReqKind.ofByte k = none
  | .frameDropped _ _ | .replySent | .replyRead | .leaseExpiry _ | .fadeStep _ | .outputPeriodEnd _
  | .rampExpiry _ | .brakeSettleExpiry _ | .confirmWindowExpiry _ | .pulseWatchExpiry _ | .overCurrentExpiry _
  | .restExpiry _ | .signalMarkEnd _ | .signalCycleEnd _ | .settleExpiry | .positionPulse _ | .homeActive _
  | .homeInactive _ | .safetyEdgeActive _ | .safetyEdgeInactive _ | .currentRise _ _ | .currentFall _ _
  | .powerOnReset _ | .warmReset _ _ | .resetSourceEnd _ => True

end Sys2Proof
end

