-- ==== Sys2Proof/Tests/Slice0.lean ====
section
/-! SUPPORT. Tests/Slice0.lean: the checks of WellFormed refuse what they should; single steps against the spec's worked
examples; and, for each statement with hypotheses, a state and operands that meet them. -/

open Sys2Proof Sys2Proof.Machine

namespace Sys2Proof.Tests

set_option Elab.async false

/-! ### Small states -/

/-- The state after a command. -/
def after (c : Instr) (s : State) : State := match exec c s with | .next t => t | .fault _ | .refused _ => s

/-- The reply body a request gets, as numbers. -/
def reply (c : Instr) (s : State) : List Nat :=
  match exec c s with
  | .next t => match (if t.linkReply.isSome then t.linkReply else t.busReplies.getLast?) with
    | some r => r.body.bytes.map (·.toNat)
    | none => []
  | .fault _ | .refused _ => []

def dimLoad (space : SpaceNo) (rated rank shedLevel level : Nat) : LoadRec :=
  { LoadRec.reset with
    kind := .dim, space := space, ratedPower := rated, shedRank := rank, shedLevel := shedLevel, setTarget := level
    effTarget := level, level := level, countedDraw := (rated * level + 999) / 1000 }

def switchLoad (space : SpaceNo) (rated level : Nat) : LoadRec :=
  { LoadRec.reset with
    kind := .switch, space := space, ratedPower := rated, setTarget := level, effTarget := level, level := level
    countedDraw := if 0 < level then rated else 0 }

/-- A shed DIM load at its shed level. -/
def shedLoad : LoadRec :=
  { dimLoad 0 40 3 200 600 with effTarget := 200, level := 200, shed := true, countedDraw := 8 }

/-- Load 33 of chapter 3 at the start of its rising fade. -/
def risingLoad : LoadRec :=
  { dimLoad 0 100 2 500 800 with
    level := 200
    fade := some { rising := true, q := 6, r := 0, n := 100, remaining := 100, acc := 0, stepTimer := 20 } }

/-- The platform of chapter 7, PARKED and VERIFIED at 400. -/
def platform : AxisRec :=
  { AxisRec.reset with
    demand := 250, courtesy := some 4, runSpeed := 120, creepSpeed := 30, accelStep := 25, decelStep := 40, approach := 100
    softHigh := 900, stallWindow := 50, overCurrent := 180, noLoad := 15, warnCycles := 2, position := 400, verified := true }

def crew : Station := { rank := .crew, spaceMask := 0x7FFF, axisMask := 3 }

/-- RUNNING, the settle interval over; stations 7 CREW, 8 OFFICER and 9 GUEST know spaces 0 to 14 and axes 0 and 1; three
claims; loads 0 to 4, load 2 shed and load 3 fading; the platform on axis 0 with courtesy load 4. -/
def ready : State :=
  State.driveOutputs { State.reset with
    settle := none
    device := { runState := .running, resetCause := .powerOn, motionAtReset := false }
    stations := (((Vector.replicate 62 none).set 6 (some crew)).set 7 (some { crew with rank := .officer })).set 8
      (some { crew with rank := .guest })
    claims := [{ target := .axis 0, holder := 7, rank := .crew, lease := .left 300 },
      { target := .space 1, holder := 8, rank := .officer, lease := .permanent },
      { target := .load 0, holder := 7, rank := .crew, lease := .left 5000 }]
    loads := (((((Vector.replicate 96 LoadRec.reset).set 0 { dimLoad 0 100 2 500 800 with groupMask := 0x10000000 }).set 1
      (switchLoad 1 50 0)).set 2 shedLoad).set 3 risingLoad).set 4 (dimLoad 2 40 0 0 0)
    outputs := Vector.replicate 96 { live := 0, staged := none, period := some 1 }
    budget := { available := 1000, committed := 168, deficit := false, shedList := [2], heldDemand := Vector.replicate 3 0 }
    axes := (Vector.replicate 3 AxisRec.reset).set 0 platform }

def halted : State := { ready with device := { ready.device with runState := .halted } }

/-- `ready` with a motion of axis 0 under way: its demand held, load 4 forced. -/
def moving (ax : AxisRec) (ch : Channel) : State :=
  State.driveOutputs { ready with
    axes := ready.axes.set 0 ax, channels := ready.channels.set 0 ch
    loads := ready.loads.set 4 { dimLoad 2 40 0 0 1000 with setTarget := 0, forced := true }
    budget := { ready.budget with committed := 168 + 290, heldDemand := (Vector.replicate 3 0).set 0 250 } }

def sounding : Channel :=
  { Channel.idleWith Pattern.reset with
    state := .sounding, cycle := some .primary, phase := some .mark, markTimer := some 300, cycleTimer := some 500 }

def extendTo (target : Option Nat) : Option Pending := some { direction := .extend, target := target, origin := 7 }

def warned : State := moving { platform with state := .warn, pending := extendTo none } sounding

/-- The platform in RUN at speed 100, monitored, its pulse watch armed. -/
def runRec : AxisRec :=
  { platform with
    state := .run, pending := extendTo (some 900), speed := 100, rampTimer := some 10, monitoring := true
    pulseWatch := some 500, runDistance := 64 }

def running : State := moving runRec (Channel.idleWith Pattern.reset)

def stopping : State :=
  moving { platform with state := .stopping, speed := 40, rampTimer := some 10, endReason := .stopRequest }
    (Channel.idleWith Pattern.reset)

/-- `ready` with the record of axis 0 replaced. -/
def withPlatform (ax : AxisRec) : State := State.driveOutputs (ready.setAxis 0 ax)

/-- An axis whose running timers have run out, their expiries not yet taken. -/
def AxisRec.out (ax : AxisRec) : AxisRec :=
  { ax with
    rampTimer := ax.rampTimer.map fun _ => 0, confirmTimer := ax.confirmTimer.map fun _ => 0
    pulseWatch := ax.pulseWatch.map fun _ => 0, overCurrentTimer := ax.overCurrentTimer.map fun _ => 0
    restRemaining := ax.restRemaining.map fun _ => 0, brakeTimer := ax.brakeTimer.map fun _ => 0 }

/-- A channel whose running timers have run out, their expiries not yet taken. -/
def Channel.out (ch : Channel) : Channel :=
  { ch with markTimer := ch.markTimer.map fun _ => 0, cycleTimer := ch.cycleTimer.map fun _ => 0 }

/-- A part whose running timers of axis 0, of channel 0, of the fade of load 3 and of the settle interval have run out. -/
def timersOut (s : State) : State :=
  { s with
    axes := s.axes.set 0 (AxisRec.out (s.axis 0)), channels := s.channels.set 0 (Channel.out (s.channel 0))
    loads := s.loads.set 3 { s.load 3 with fade := (s.load 3).fade.map fun f => { f with stepTimer := 0 } }
    settle := s.settle.map fun x => { x with timer := x.timer.map fun _ => 0 } }

def resting : State :=
  withPlatform { platform with
    state := .rest, stallCount := 1, endReason := .stall, pending := extendTo none, restRemaining := some 2000 }

def lockedOut : State :=
  withPlatform { platform with state := .lockout, stallCount := 8, endReason := .stall, jam := some 400 }

theorem unwatched_of_none {s : State} (a : AxisNo) (h : ∀ p, s.interlock p = none) : s.Unwatched a :=
  fun p e he => by simp [h p] at he

theorem test_ready_is_lawful : ready.Lawful := State.lawful_of_check (by decide +kernel)
theorem test_halted_is_lawful : halted.Lawful := State.lawful_of_check (by decide +kernel)
theorem test_warned_is_lawful : warned.Lawful := State.lawful_of_check (by decide +kernel)
theorem test_running_is_lawful : running.Lawful := State.lawful_of_check (by decide +kernel)
theorem test_stopping_is_lawful : stopping.Lawful := State.lawful_of_check (by decide +kernel)
theorem test_resting_is_lawful : resting.Lawful := State.lawful_of_check (by decide +kernel)
theorem test_locked_out_is_lawful : lockedOut.Lawful := State.lawful_of_check (by decide +kernel)

/-! ### WellFormed -/

theorem test_wellformed_refuses_long_bodies : ∀ k ∈ ReqKind.table, ¬ (k.request 7 (List.replicate 61 0)).WellFormed := by
  intro k _
  cases k <;> (show ¬ bodyFits (List.replicate 61 0); decide)
theorem test_wellformed_takes_bodies_of_60 : ∀ k ∈ ReqKind.table, (k.request 7 (List.replicate 60 0)).WellFormed := by
  intro k _
  cases k <;> (show bodyFits (List.replicate 60 0); decide)
theorem test_wellformed_refuses_a_listed_kind : ∀ k ∈ ReqKind.table, ¬ (Instr.unknownKind 7 k.code []).WellFormed := by
  decide
theorem test_wellformed_takes_an_unlisted_kind :
    (Instr.unknownKind 7 10 []).WellFormed ∧ ¬ (Instr.unknownKind 7 10 (List.replicate 61 0)).WellFormed := by decide

/-! ### Frames, groups, replies -/

/-- R2: the check over the characters 1 to 9. -/
theorem test_check_of_the_spec : crc16 [49, 50, 51, 52, 53, 54, 55, 56, 57] = 0x29B1#16 := by decide +kernel

/-- A frame whose last bit is wrong is dropped (R2). -/
theorem test_frame_with_a_wrong_check_is_dropped :
    readFrame .link (frameBytes 0 0 26 []) = some ⟨0, 26, []⟩
      ∧ readFrame .link ((frameBytes 0 0 26 []).dropLast ++ [0]) = none := by decide +kernel

/-- Chapter 1, two tags, one slot. -/
theorem test_two_tags_share_a_slot : groupSlot 258 = 28 ∧ groupSlot 313 = 28 := by decide

/-- R13: an unlisted kind. -/
theorem test_unknown_kind : reply (.unknownKind 7 10 []) ready = [16] := by decide +kernel

/-- R6: a reply leaves as a frame of kind 137 to station 7. -/
theorem test_a_reply_is_sent :
    (after .replySent (after (.stop 7 (Target.axis 0).bytes) ready)).busTx = frameBytes 7 63 137 [0] := by decide +kernel
theorem test_a_reply_is_read :
    (after .replyRead (after (.halt 0 []) ready)).linkReply = none
      ∧ (after .replyRead (after (.halt 0 []) ready)).linkTx = frameBytes 0 0 155 [0] := by decide +kernel

/-! ### Loads -/

/-- A load of space 4 against a headroom of 40 pu (chapter 3). -/
def thin : State :=
  { ready with
    loads := (ready.loads.set 20 (dimLoad 4 120 0 0 300)).set 21 (switchLoad 4 50 0)
    budget := { ready.budget with available := 244, committed := 204 } }

/-- Chapter 3, a raise against a thin budget: the first request. -/
theorem test_a_raise_is_limited :
    reply (.setLevel 7 (setLevelBody (Target.load 20).raw 1000 20)) thin = [1, 0, 1, 0]
      ∧ let l := (after (.setLevel 7 (setLevelBody (Target.load 20).raw 1000 20)) thin).load 20
        (l.setTarget, l.level, l.countedDraw, l.fade.map fun f => (f.q, f.r, f.n)) = (633, 300, 76, some (3, 33, 100)) := by
  decide +kernel

/-- A SWITCH load that does not fit stays off (R106). -/
theorem test_a_turn_on_is_limited :
    reply (.setLevel 7 (setLevelBody (Target.load 21).raw 700 0)) thin = [1, 0, 1, 0] := by decide +kernel

/-- Chapter 4, a fade of 65 steps: the third step carries. -/
theorem test_a_fade_step_carries :
    let l := (dimLoad 0 80 0 0 750 : LoadRec)
    let f : Fade := { rising := true, q := 8, r := 30, n := 65, remaining := 63, acc := 60, stepTimer := 20 }
    let t := ({ l with level := 216, fade := some f } : LoadRec).stepFade f
    (t.level, t.fade.map fun f => (f.acc, f.remaining)) = (225, some (25, 62)) := by decide +kernel

/-- R72: the step timer's expiry that comes after the request does not happen; the one that comes before it steps the old fade. -/
theorem test_step_timer_and_request_by_order :
    let set := Instr.setLevel 7 (setLevelBody (Target.load 3).raw 1000 20)
    ((after (.fadeStep 3) (after set (timersOut ready))).load 3).level = 200
      ∧ ((after (.fadeStep 3) (after set (timersOut ready))).load 3).fade.map (·.remaining) = some 100
      ∧ ((after set (after (.fadeStep 3) (timersOut ready))).load 3).level = 206 := by decide +kernel

/-- Chapter 3, a shed during a rising fade. -/
theorem test_a_shed_refades :
    let fade := fun n q : Nat =>
      ({ rising := true, q := q, r := 0, n := n, remaining := 60, acc := 0, stepTimer := 20 } : Fade)
    ({ risingLoad with level := 440, fade := some (fade 100 6) } : LoadRec).toShed
      = { risingLoad with level := 440, fade := some (fade 60 1), shed := true, effTarget := 500, countedDraw := 50 } := by
  decide +kernel

/-- Table 4-4. -/
theorem test_duties_of_table_4_4 :
    [0, 10, 16, 225, 300, 500, 633, 750, 1000].map
        (fun v => ({ dimLoad 0 80 0 0 v with minDuty := 3 } : LoadRec).duty)
      = [0, 3, 3, 207, 369, 1024, 1641, 2303, 4095] := by decide +kernel

theorem test_a_staged_duty_becomes_live :
    let s := { ready with outputs := ready.outputs.set 0 { live := 2303, staged := some 1024, period := some 0 } }
    ((after (.outputPeriodEnd 0) s).output 0).live = 1024 ∧ ((after (.outputPeriodEnd 0) s).output 0).staged = none := by
  decide +kernel

/-- R46: a forced load is not written. -/
theorem test_write_load_of_a_forced_load :
    reply (.writeLoad 0 ((Target.load 4).bytes ++ loadConfigBytes (dimLoad 2 40 0 0 0).toLoadConfig))
      { warned with device := halted.device } = [28] := by decide +kernel

/-- R53, R48: a DIM load above 0 made SWITCH is switched on. -/
theorem test_write_load_to_switch :
    let l := (after (.writeLoad 0 ((Target.load 0).bytes ++ loadConfigBytes (switchLoad 0 100 0).toLoadConfig)) halted).load 0
    (l.kind, l.setTarget, l.level, l.countedDraw) = (.switch, 1000, 1000, 100) := by decide +kernel

/-- Chapter 6: a cut of the available power sheds what may be shed, and DEFICIT is set where that is too little. -/
theorem test_a_cut_sets_deficit :
    let b := (after (.setBudget 0 (bytesOf 100)) ready).budget
    (b.shedList.map (·.val), b.committed, b.deficit) = ([2, 3, 0], 108, true) := by decide +kernel

/-- Chapter 6: a value at or above COMMITTED starts the restore pass, and SHED_CHANGE is raised. -/
theorem test_a_budget_raise_restores :
    let t := after (.setBudget 0 (bytesOf 1000)) ready
    (t.budget.shedList, (t.load 2).shed, t.budget.committed, t.notices.shedChange) = ([], false, 184, true) := by decide +kernel

/-- R111: a fall starts the restore pass. -/
theorem test_a_fall_restores :
    (after (.setLevel 8 (setLevelBody (Target.load 0).raw 0 0)) ready).budget.shedList = [] := by decide +kernel

/-! ### Scenes -/

/-- Scene 16 of space 2 lists load 4, and scene 0 of space 0 loads 3, 0 and 5; the stack of space 0 holds one frame. -/
def withScenes : State :=
  { ready with
    scenes := ((ready.scenes.set 0 { owner := .live, defaultFade := 30, entries := [(3, 100), (0, 200), (5, 300)] }).set 16
      { owner := .live, defaultFade := 600, entries := [(4, 1000)] }).set 1
      { owner := .management, defaultFade := 0, entries := [] }
    returnStacks := ready.returnStacks.set 0 [[(3, 500), (0, 0)]] }

/-- R87 to R90: load 0 is locked against station 9, load 5 is NONE, load 3 is set and pushed. -/
theorem test_a_recall_applies_and_pushes :
    let c := Instr.recallScene 9 (targetWordBody (Target.scene 0).raw 65535)
    reply c withScenes = [2, 1, 0, 2] ∧ (after c withScenes).returnStack 0 = [[(3, 800)], [(3, 500), (0, 0)]]
      ∧ (((after c withScenes).load 3).fade.map (·.n)) = some 150 := by decide +kernel

theorem test_a_return_pops :
    let c := Instr.returnScene 7 (targetWordBody (Target.space 0).raw 0)
    reply c withScenes = [0, 2, 0, 0] ∧ (after c withScenes).returnStack 0 = [] ∧ ((after c withScenes).load 0).level = 0 := by
  decide +kernel
theorem test_a_return_on_an_empty_stack : reply (.returnScene 7 (targetWordBody (Target.space 2).raw 0)) ready = [4] := by
  decide +kernel
theorem test_take_scene : ((after (.takeScene 0 (Target.scene 0).bytes) withScenes).scene 0).owner = .management := by
  decide +kernel
theorem test_give_scene : ((after (.giveScene 0 (Target.scene 1).bytes) withScenes).scene 1).owner = .live := by
  decide +kernel
theorem test_write_scene :
    reply (.writeScene 0 ((Target.scene 1).bytes ++ sceneBytes 5 [(0, 1000), (2, 0)])) withScenes = [0]
      ∧ reply (.writeScene 0 ((Target.scene 1).bytes ++ sceneBytes 5 [(0, 1001)])) withScenes = [32] := by decide +kernel

/-! ### Claims and stations -/

/-- Chapter 2: OFFICER pre-empts CREW; CREW does not pre-empt CREW. -/
theorem test_a_claim_pre_empts :
    (after (.claim 8 (claimBody (Target.load 0).raw .lock 1800)) ready).claims.getLast?
        = some { target := .load 0, holder := 8, rank := .officer, lease := .left 1800000 }
      ∧ reply (.claim 9 (claimBody (Target.load 0).raw .lock 0)) ready = [22, 2] := by decide +kernel

theorem test_a_lease_is_renewed :
    ((after (.renew 7 (targetWordBody (Target.axis 0).raw 20)) ready).claims.map Claim.lease).head? = some (.left 500) := by
  decide +kernel

/-- Chapter 2: the release and the expiry of a HOLD claim. -/
theorem test_a_release_stops_the_run :
    ((after (.release 7 (Target.axis 0).bytes) running).axis 0).endReason = .stopRequest := by decide +kernel
/-- A part whose HOLD lease on axis 0 and LOCK lease on load 0 have run to zero, their expiries not yet taken. -/
def leasesOut (s : State) : State :=
  s.setClaims (s.claims.map fun c => { c with lease := match c.lease with | .permanent => .permanent | .left _ => .left 0 })

theorem test_a_lost_lease_ends_the_warning :
    let t := after (.leaseExpiry (.axis 0)) (leasesOut warned)
    ((t.axis 0).state, (t.axis 0).endReason, t.notices.motionLeaseLost, t.budget.committed)
      = (.parked, .leaseLost, true, 168 + 40 + 16) := by decide +kernel

/-- R35: the expiry that comes after the renewal does not happen, and the renewal that comes after the expiry finds no claim. -/
theorem test_renewal_and_expiry_by_order :
    let renew := Instr.renew 7 (targetWordBody (Target.axis 0).raw 6)
    ((after (.leaseExpiry (.axis 0)) (after renew (leasesOut warned))).axis 0).state = .warn
      ∧ reply renew (after (.leaseExpiry (.axis 0)) (leasesOut warned)) = [23] := by decide +kernel

/-- R36: a station removed loses its claims. -/
theorem test_a_removed_station_loses_its_claims :
    (after (.writeStation 0 [7, 0, 1, 0, 0, 0]) ready).claims.map (·.holder) = [8] := by decide +kernel

/-! ### Axes -/

/-- R129: the demand and the courtesy load are committed, and the warning begins. -/
theorem test_a_move_begins_a_warning :
    let t := after (.move 7 (moveBody (Target.axis 0).raw .extend 1200)) ready
    ((t.axis 0).state, (t.axis 0).pending.bind (·.target), t.budget.committed, (t.load 4).level, (t.channel 0).state)
      = (.warn, some 900, 458, 1000, .sounding) := by decide +kernel
theorem test_a_move_of_another_holder : reply (.move 8 (moveBody (Target.axis 0).raw .extend 0)) ready = [23] := by
  decide +kernel
theorem test_a_stop_of_a_warning :
    ((after (.stop 9 (Target.axis 0).bytes) warned).axis 0).endReason = .stopRequest
      ∧ (after (.stop 9 (Target.axis 0).bytes) warned).held 0 = 0 := by decide +kernel

/-- Chapter 7: ramp 5 reaches the run speed of 120 and a drive duty of 1920. -/
theorem test_a_ramp_reaches_run_speed :
    let t := after (.rampExpiry 0) (timersOut running)
    (t.axis 0).speed = 120 ∧ (t.axisPins.get 0).drive = 1920 := by decide +kernel
theorem test_a_ramp_ends_in_the_brake_settle :
    ((after (.rampExpiry 0) (timersOut stopping)).axis 0).brakeTimer = some 300 := by decide +kernel
theorem test_the_brake_settle_parks :
    let s := stopping.setAxis 0 { stopping.axis 0 with speed := 0, rampTimer := none, brakeTimer := some 0 }
    ((after (.brakeSettleExpiry 0) s).axis 0).state = .parked
      ∧ ((after (.brakeSettleExpiry 0) s).load 4).fade.map (·.n) = some 50 := by decide +kernel

/-- Chapter 7: the pulse to the target. -/
theorem test_a_pulse_reaches_the_target :
    let t := after (.positionPulse 0) (running.setAxis 0 { runRec with position := 899 })
    ((t.axis 0).state, (t.axis 0).endReason, (t.axis 0).position) = (.stopping, .target, 900) := by decide +kernel

/-- Chapter 8, a sheared coupling. -/
theorem test_no_load_locks_out :
    let s := running.setAxis 0 { runRec with confirmTimer := some 0, monitoring := false, stallCount := 2 }
    let t := after (.confirmWindowExpiry 0) s
    ((t.axis 0).state, (t.axis 0).endReason, (t.axis 0).stallCount, (t.axis 0).jam, t.notices.axisLockout)
      = (.lockout, .noLoad, 2, none, true) := by decide +kernel

/-- Chapter 8, the fouled anchor: the first stall and the eighth. -/
theorem test_a_first_stall_rests_two_seconds :
    ((after (.pulseWatchExpiry 0) (timersOut running)).axis 0).restRemaining = some 2000 := by decide +kernel
/-- R158: the watch's expiry that comes after the pulse does not happen. -/
theorem test_pulse_watch_and_pulse_by_order :
    ((after (.pulseWatchExpiry 0) (after (.positionPulse 0) (timersOut running))).axis 0).state = .run
      ∧ ((after (.positionPulse 0) (after (.pulseWatchExpiry 0) (timersOut running))).axis 0).stallCount = 1 := by
  decide +kernel
theorem test_an_eighth_stall_locks_out :
    let s := running.setAxis 0 { runRec with stallCount := 7, overCurrentTimer := some 0 }
    ((after (.overCurrentExpiry 0) s).axis 0).state = .lockout ∧ ((after (.overCurrentExpiry 0) s).axis 0).jam = some 400 := by
  decide +kernel
theorem test_a_rest_ends_in_a_warning : ((after (.restExpiry 0) (timersOut resting)).axis 0).state = .warn := by decide +kernel
theorem test_clear_lockout :
    let t := after (.clearLockout 0 (Target.axis 0).bytes) lockedOut
    ((t.axis 0).state, (t.axis 0).endReason, (t.axis 0).jam, t.notices.axisLockout) = (.parked, .cleared, none, false) := by
  decide +kernel
theorem test_home_sets_the_position :
    ((after (.homeActive 0) ready).axis 0).position = 0 ∧ ((after (.homeInactive 0) ready).axis 0).position = 400 := by
  decide +kernel
theorem test_the_edge_obstructs :
    ((after (.safetyEdgeActive 0) running).axis 0).endReason = .obstructed
      ∧ reply (.move 7 (moveBody (Target.axis 0).raw .extend 0)) (after (.safetyEdgeActive 0) ready) = [26] := by decide +kernel
theorem test_over_current_is_timed :
    ((after (.currentRise 0 181) running).axis 0).overCurrentTimer = some 100
      ∧ ((after (.currentFall 0 180) (after (.currentRise 0 181) running)).axis 0).overCurrentTimer = none := by decide +kernel
theorem test_write_axis :
    reply (.writeAxis 0 ((Target.axis 0).bytes ++ axisConfigBytes platform.toAxisConfig)) halted = [0]
      ∧ reply (.writeAxis 0 ((Target.axis 0).bytes ++ axisConfigBytes { platform.toAxisConfig with warnCycles := 16 })) halted
        = [32] := by decide +kernel

/-- Chapter 9: an entry that is written is tested at once; an entry may not watch its own subject. -/
theorem test_a_written_entry_stops_the_run :
    ((after (.writeInterlock 0 [0, 1, 0, 1, 1, 1, 1, 144]) { running with device := halted.device }).axis 0).endReason = .interlock
      ∧ reply (.writeInterlock 0 [3, 1, 1, 1, 1, 1, 0, 0]) halted = [32] := by decide +kernel

/-! ### Signals, run control, notices, resets -/

/-- Chapter 10, a two-tone warning: the first cycle end. -/
theorem test_a_cycle_is_counted :
    let t := after (.signalCycleEnd 0) (timersOut warned)
    ((t.channel 0).cycle, (t.channel 0).warnCount, (t.channel 0).cycleTimer, (t.signalPins.get 0).tone)
      = (some .secondary, 1, some 250, true) := by decide +kernel
theorem test_the_last_cycle_enters_run :
    let s := timersOut (warned.setChannel 0 { warned.channel 0 with warnCount := 1 })
    ((after (.signalCycleEnd 0) s).axis 0).state = .run ∧ ((after (.signalCycleEnd 0) s).channel 0).state = .idle := by
  decide +kernel
theorem test_a_mark_ends : ((after (.signalMarkEnd 0) (timersOut warned)).signalPins.get 0).beacon = false := by
  decide +kernel
theorem test_write_signal :
    ((after (.writeSignal 0 [5, 0, 0, 20, 10, 15, 10, 1, 0]) warned).channel 0).staged.map (·.primaryMark) = some 20 := by
  decide +kernel
theorem test_start_runs : (after (.start 0 []) halted).device.runState = .running := by decide +kernel
theorem test_halt_stops :
    (after (.halt 0 []) running).claims = [] ∧ ((after (.halt 0 []) running).axis 0).endReason = .halt := by decide +kernel

/-- Chapter 11, a dip while the windlass runs: the notices and the device view. -/
theorem test_notices_after_a_dip :
    let t := after .settleExpiry (timersOut (after (.warmReset .brownout false) lockedOut))
    reply (.readNotice 0 []) t = [0, 1] ∧ reply (.query 0 (Target.device).bytes) t = [0, 0, 2, 0, 2, 0, 0, 0, 33, 0, 0] := by
  decide +kernel
theorem test_power_on_reset : (after (.powerOnReset false) ready).loads = State.reset.loads := by decide +kernel
theorem test_a_source_end_starts_the_timer :
    (after (.resetSourceEnd .supply) (after (.powerOnReset true) ready)).settle = some { kind := .powerOn, timer := some 250 } := by
  decide +kernel

/-! ### The statements' hypotheses are met: the queue, frames, deciding -/

/-- Without the station's permission of space 15 and axis 2; load 5 is DIM in space 15, load 6 NONE in space 0; the bus
reply queue holds one reply. -/
def outside : State :=
  { ready with
    loads := ready.loads.set 5 (dimLoad 15 10 0 0 0)
    busReplies := [{ destination := 7, source := 63, kind := 137, body := .plain .done }] }

/-- Both ports full. -/
def full : State :=
  { ready with
    busReplies := List.replicate 4 { destination := 7, source := 63, kind := 137, body := .plain .done }
    linkReply := some { destination := 0, source := 0, kind := 155, body := .plain .done } }

theorem test_met_step_takes_the_front_command : ({ ready with pending := [.replySent, .settleExpiry] } : State).pending
    = .replySent :: [.settleExpiry] := rfl
theorem test_met_step_with_no_command_runs_the_clock :
    (ready.pending = [] ∧ ready.due = [])
      ∧ let s := { ready with outputs := ready.outputs.set 95 { live := 0, staged := none, period := some 0 } }
        s.pending = [] ∧ s.due = [.outputPeriodEnd 95] := by decide +kernel
theorem test_met_bodies_read_back :
    ((⟨.load, 65535⟩ : RawTarget).value < 65536 ∧ (⟨.device, 0⟩ : RawTarget).value < 65536)
      ∧ (0 < 65536 ∧ 65535 < 65536 ∧ 255 < 256) ∧ (List.replicate 255 (255, 65535)).length < 256
      ∧ (∀ e ∈ List.replicate 255 (255, 65535), e.1 < 256 ∧ e.2 < 65536) ∧ ((1 : Byte) = if true then 1 else 0)
      ∧ (([] : List Byte).length ≠ 3 ∧ (List.replicate 4 (1 : Byte)).length ≠ 3 ∧ 8 < (9 : Byte).toNat)
      ∧ (let body := (1 : Byte) :: List.replicate 5 0 ++ [0]; body[5]? = some 0 ∧ body.length ≠ 6 + 3 * (0 : Byte).toNat)
      ∧ (readClaimKind 3 = none ∧ readDirection 0 = none ∧ readLoadKind 3 = none ∧ readPresent 2 = none ∧ readRank 5 = none
        ∧ readBlockDir 4 = none ∧ readRelation 0 = none ∧ readMode 3 = none) := by
  decide +kernel
theorem test_met_frames_are_received_or_dropped :
    (List.replicate 60 (0 : Byte)).length ≤ 60 ∧ (62 : Origin) ≠ 0 ∧ (62 : Byte) = BitVec.ofNat 8 (62 : Origin).val
      ∧ ((62 : Byte) ≠ 63) ∧ 62 < (63 : Byte).toNat ∧ (List.replicate 5 (0 : Byte)).length < 6
      ∧ 66 < (List.replicate 67 (0 : Byte)).length ∧ 60 < (61 : Byte).toNat ∧ readFrame .bus [] = none
      ∧ readFrame .link [] = none
      ∧ [0, 0].drop (0 : Byte).toNat ≠ bytesOf (crc16 (0 :: 0 :: 0 :: 0 :: [0, 0].take (0 : Byte).toNat)).toNat := by
  decide +kernel
theorem test_met_a_decided_request_gets_one_reply :
    (outside.hasRoom 7 = true ∧ outside.hasRoom 0 = true ∧ (7 : Origin) ≠ 0 ∧ (List.replicate 60 (0 : Byte)).length ≤ 60)
      ∧ full.hasRoom 7 = false ∧ full.hasRoom 0 = false ∧ 60 < (List.replicate 61 (0 : Byte)).length := by decide +kernel
theorem test_met_a_refused_request_changes_no_record :
    ready.OutputLaw ∧ ready.hasRoom 9 = true ∧ (Target.axis 0).bytes.length ≤ 60
      ∧ reply (.move 9 (moveBody (Target.axis 0).raw .extend 0)) ready = [23] :=
  ⟨test_ready_is_lawful.output, by decide +kernel⟩
theorem test_met_settle_interval_and_admission :
    (State.reset.hasRoom 0 = true ∧ State.reset.hasRoom 62 = true ∧ State.reset.settle ≠ none)
      ∧ (ready.settle = none ∧ (10 : Origin) ≠ 0 ∧ ready.station 10 = none ∧ ready.hasRoom 10 = true ∧ ready.hasRoom 0 = true)
      ∧ (∀ kind ∈ [(0 : Byte), 10, 15, 29, 128, 255], ReqKind.ofByte kind = none) := by decide +kernel
theorem test_met_kind_origin_body_and_run_state :
    (ready.settle = none ∧ ready.hasRoom 7 = true ∧ ready.station 7 ≠ none ∧ ready.hasRoom 0 = true ∧ halted.settle = none
        ∧ halted.hasRoom 7 = true ∧ halted.station 7 ≠ none ∧ (Target.axis 0).bytes.length ≤ 60)
      ∧ (∀ kind ∈ [(0 : Byte), 10, 255], ∀ k ∈ ReqKind.table, k.code ≠ kind)
      ∧ (16 ≤ ReqKind.start.code.toNat ∧ (7 : Origin) ≠ 0)
      ∧ (¬ 16 ≤ ReqKind.stop.code.toNat ∧ ReqKind.stop.bodyOk [9, 0, 0] = false)
      ∧ (ReqKind.stop.bodyOk (Target.axis 0).bytes = true ∧ halted.device.runState = .halted ∧ ReqKind.stop ≠ .query)
      ∧ (ready.device.runState = .running
          ∧ ReqKind.writeLoad.bodyOk ((Target.load 0).bytes ++ loadConfigBytes (switchLoad 0 0 0).toLoadConfig) = true) := by
  decide +kernel
theorem test_met_targets_are_checked :
    (outside.Takes .setLevel 7 ∧ outside.Takes .stop 7 ∧ outside.Takes .renew 7 ∧ outside.Takes .returnScene 7
        ∧ outside.Takes .query 7)
      ∧ (let body := fun t : Target => setLevelBody t.raw 0 0
        (ReqKind.setLevel.bodyOk (body (.load 5)) = true ∧ (body (.load 5)).take 3 = targetBytes (Target.load 5).raw
          ∧ ReqKind.setLevel.classes ≠ []
          ∧ (Target.axis 0).raw.cls ∉ ReqKind.setLevel.classes ∧ (⟨.load, 96⟩ : RawTarget).typed = none
          ∧ (⟨.load, 95⟩ : RawTarget).typed = some (.load 95) ∧ (outside.load 95).kind = .none
          ∧ (outside.load 5).kind ≠ .none ∧ outside.permitsSpace 7 (outside.load 5).space = false))
      ∧ (ReqKind.stop.bodyOk (Target.axis 2).bytes = true ∧ (⟨.axis, 3⟩ : RawTarget).typed = none
          ∧ (⟨.axis, 2⟩ : RawTarget).typed = some (.axis 2) ∧ outside.permitsAxis 7 2 = false)
      ∧ ((⟨.space, 15⟩ : RawTarget).typed = some (.space 15) ∧ ReqKind.returnScene.classes = [.space]
          ∧ outside.permitsSpace 7 15 = false)
      ∧ (⟨.scene, 127⟩ : RawTarget).typed = some (.scene 127) ∧ (15 : SpaceNo).val = (127 : SceneNo).val / 8 :=
  ⟨⟨State.takes_of_check (by decide +kernel), State.takes_of_check (by decide +kernel),
    State.takes_of_check (by decide +kernel), State.takes_of_check (by decide +kernel),
    State.takes_of_check (by decide +kernel)⟩, by decide +kernel⟩
theorem test_met_replies_leave_their_ports :
    outside.OutputLaw ∧ outside.busReplies = { destination := 7, source := 63, kind := 137, body := .plain .done } :: []
      ∧ full.OutputLaw ∧ full.linkReply = some { destination := 0, source := 0, kind := 155, body := .plain .done }
      ∧ ready.busReplies = [] ∧ ready.linkReply = none :=
  ⟨State.output_of_check (by decide +kernel), rfl, State.output_of_check (by decide +kernel), rfl, rfl, rfl⟩
theorem test_met_targets_resolve_to_loads :
    ready.Takes .setLevel 7 ∧ (⟨.space, 9⟩ : RawTarget).Names (.space 9) ∧ (⟨.group, 65535⟩ : RawTarget).Names (.group 65535)
      ∧ ready.resolve (.space 9) = [] ∧ ready.resolve (.group 65535) = []
      ∧ ({ ready with loads := State.reset.loads } : State).resolve .all = []
      ∧ ({ ready with loads := State.reset.loads } : State).Takes .setLevel 7 :=
  ⟨State.takes_of_check (by decide +kernel), ⟨by decide, rfl⟩, ⟨by decide, rfl⟩, by decide +kernel, by decide +kernel,
    by decide +kernel, State.takes_of_check (by decide +kernel)⟩

/-! ### Loads -/

theorem test_met_effective_target_and_counted_draw :
    LoadRec.reset.kind = .none ∧ (warned.load 4).forced = true ∧ (warned.load 4).kind ≠ .none
      ∧ (shedLoad.kind = .dim ∧ shedLoad.forced = false ∧ shedLoad.shed = true)
      ∧ (let l := { switchLoad 1 50 1000 with shed := true }; l.kind = .switch ∧ l.forced = false ∧ l.shed = true)
      ∧ risingLoad.kind ≠ .none ∧ risingLoad.forced = false ∧ risingLoad.shed = false := by decide +kernel
theorem test_met_a_new_set_target_in_the_record :
    (switchLoad 1 50 0).kind = .switch ∧ ((warned.load 4).kind = .dim ∧ (warned.load 4).forced = true)
      ∧ (risingLoad.kind = .dim ∧ risingLoad.forced = false)
      ∧ ({ risingLoad with setTarget := 200 } : LoadRec).effectiveTarget = risingLoad.level
      ∧ ({ risingLoad with setTarget := 0 } : LoadRec).effectiveTarget ≠ risingLoad.level := by decide +kernel
theorem test_met_set_level_on_one_load :
    (ready.Takes .setLevel 9 ∧ ready.Takes .setLevel 8 ∧ ready.CoverageLaw)
      ∧ ((ready.load 0).kind ≠ .none ∧ ready.permitsSpace 9 (ready.load 0).space = true
        ∧ ∃ c ∈ ready.claims, c.target = .load 0 ∧ c.holder ≠ 9 ∧ (ready.rankOf 9).code ≤ c.rank.code)
      ∧ (ready.permitsSpace 8 (ready.load 0).space = true
        ∧ ∀ c ∈ ready.claims, (c.target = .load 0 ∨ c.target = .space (ready.load 0).space) →
          c.holder = 8 ∨ c.rank.code < (ready.rankOf 8).code)
      ∧ (ready.load 0).countedDraw ≤ ((ready.load 0).withSetTarget 1000 3000).countedDraw
      ∧ ({ ready with budget := { ready.budget with shedList := [] } } : State).budget.shedList = []
      ∧ (((ready.load 0).withSetTarget 0 0).countedDraw < (ready.load 0).countedDraw ∧ ready.budget.shedList = [2]) :=
  ⟨⟨State.takes_of_check (by decide +kernel), State.takes_of_check (by decide +kernel), test_ready_is_lawful.coverage⟩,
    by decide +kernel⟩
theorem test_met_set_level_on_many_loads :
    outside.Takes .setLevel 7 ∧ (⟨.space, 15⟩ : RawTarget).Names (.space 15) ∧ (⟨.all, 65535⟩ : RawTarget).Names .all
      ∧ ((outside.resolve (.space 15)).filter fun n => outside.permitsSpace 7 (outside.load n).space) = []
      ∧ outside.resolve (.space 15) ≠ []
      ∧ ((outside.resolve .all).filter fun n => outside.permitsSpace 7 (outside.load n).space) ≠ [] :=
  ⟨State.takes_of_check (by decide +kernel), ⟨by decide, rfl⟩, ⟨by decide, rfl⟩, by decide +kernel⟩
theorem test_met_a_fade_lands_on_its_target :
    (risingLoad.kind = .dim ∧ risingLoad.forced = false ∧ risingLoad.level ≠ risingLoad.effTarget ∧ 0 < 1 ∧ 0 < 3000)
      ∧ let l := { dimLoad 0 100 0 0 1000 with setTarget := 0, effTarget := 0 }
        l.kind = .dim ∧ l.forced = false ∧ l.level ≠ l.effTarget := by decide +kernel
/-- A falling fade on its last step. -/
def fallingLoad : LoadRec :=
  { dimLoad 0 100 0 0 200 with
    setTarget := 190, effTarget := 190
    fade := some { rising := false, q := 10, r := 0, n := 5, remaining := 1, acc := 0, stepTimer := 0 } }
theorem test_met_fade_step_event :
    ((ready.load 0).fade = none ∧ ∃ f, (ready.load 3).fade = some f ∧ f.stepTimer ≠ 0)
      ∧ (let s := ready.setLoad 3 (risingLoad.startFade 100); s.load 3 = risingLoad.startFade 100 ∧ (s.load 3).fade.isSome = true)
      ∧ ((∃ f, ((timersOut ready).load 3).fade = some f ∧ f.stepTimer = 0) ∧ ((timersOut ready).load 3).FadeSound
        ∧ ((timersOut ready).load 3).countedDraw
          = ((timersOut ready).load 3).drawAt (max ((timersOut ready).load 3).level ((timersOut ready).load 3).effTarget))
      ∧ (fallingLoad.fade.isSome = true ∧ fallingLoad.FadeSound
        ∧ fallingLoad.countedDraw = fallingLoad.drawAt (max fallingLoad.level fallingLoad.effTarget)
        ∧ fallingLoad.drawAt 190 < fallingLoad.countedDraw) :=
  ⟨⟨by decide +kernel, (ready.load 3).fade.get (by decide +kernel), by decide +kernel⟩, by decide +kernel,
    ⟨⟨((timersOut ready).load 3).fade.get (by decide +kernel), by decide +kernel⟩,
      LoadRec.fadeSound_of_check (by decide +kernel), by decide +kernel⟩,
    by decide +kernel, LoadRec.fadeSound_of_check (by decide +kernel), by decide +kernel⟩
theorem test_met_output_duty_and_period :
    LoadRec.reset.kind = .none ∧ (switchLoad 1 50 0).level = 0 ∧ (switchLoad 1 50 1000).level = 1000
      ∧ (dimLoad 0 10 0 0 0).level = 0 ∧ (∀ v ∈ [1, 11, 12, 1000], (dimLoad 0 10 0 0 v).kind = .dim ∧ 1 ≤ v ∧ v ≤ 1000)
      ∧ State.reset.output 0 = { live := 0, staged := none, period := none } ∧ (ready.output 95).period = some 1
      ∧ ((ready.setOutput 95 { live := 0, staged := some 7, period := some 0 }).output 95).period = some 0 := by
  decide +kernel
theorem test_met_shed_restore_force_unforce_in_the_record :
    (let l := dimLoad 0 100 2 500 800;
      l.kind = .dim ∧ ({ l with shed := true } : LoadRec).effectiveTarget < l.effTarget
        ∧ ({ l with shed := true } : LoadRec).effectiveTarget < l.level ∧ l.forced = false)
      ∧ (({ risingLoad with shed := true } : LoadRec).effectiveTarget < risingLoad.effTarget
        ∧ risingLoad.level ≤ ({ risingLoad with shed := true } : LoadRec).effectiveTarget ∧ risingLoad.fade.isSome = true)
      ∧ (let l := dimLoad 0 100 2 1000 800; ({ l with shed := true } : LoadRec).effectiveTarget = l.effTarget)
      ∧ ((warned.load 4).kind = .dim ∧ (warned.load 4).forced = true ∧ (warned.load 4).shed = false)
      ∧ (switchLoad 1 50 1000).kind = .switch ∧ ({ switchLoad 1 50 1000 with forced := true } : LoadRec).forced = true := by
  decide +kernel

/-! ### Scenes and views -/

theorem test_met_scenes_are_taken_written_and_given :
    (withScenes.Takes .takeScene 0 ∧ withScenes.Takes .giveScene 0 ∧ withScenes.Takes .writeScene 0
        ∧ withScenes.Takes .recallScene 7)
      ∧ (withScenes.permitsSpace 7 (sceneSpace 1) = true ∧ (withScenes.scene 1).owner = .management)
      ∧ ((withScenes.scene 0).owner = .live
        ∧ (12 < (List.replicate 13 (0, 0)).length ∧ (List.replicate 13 (0, 0)).length ≤ 18) ∧ 600 < 601
        ∧ (∀ e ∈ [(96, 1001), (95, 1000), (4, 0)], e.1 < 256 ∧ e.2 < 65536) ∧ (withScenes.load 4).space.val ≠ 1 / 8
        ∧ ¬ ([(3, 0), (3, 1)].map Prod.fst).Nodup)
      ∧ (∀ e ∈ [(0, 1000), (2, 0)], e.1 < 256 ∧ e.2 < 65536 ∧ ¬ (95 < e.1 ∨ 1000 < e.2))
      ∧ ¬ (∃ e ∈ [(0, 1000), (2, 0)], ∃ n : LoadNo, n.val = e.1 ∧ (withScenes.load n).space.val ≠ 1 / 8) :=
  ⟨⟨State.takes_of_check (by decide +kernel), State.takes_of_check (by decide +kernel),
    State.takes_of_check (by decide +kernel), State.takes_of_check (by decide +kernel)⟩, by decide +kernel⟩
theorem test_scenes_are_lawful : withScenes.Lawful := State.lawful_of_check (by decide +kernel)
theorem test_met_recall_applies_entries_and_pushes :
    withScenes.StackLaw ∧ withScenes.Takes .recallScene 9 ∧ withScenes.permitsSpace 9 (sceneSpace 0) = true
      ∧ (withScenes.scene 0).owner = .live ∧ ({ withScenes with budget := { ready.budget with shedList := [] } } : State).StackLaw :=
  ⟨test_scenes_are_lawful.stack, State.takes_of_check (by decide +kernel), by decide +kernel, by decide +kernel,
    test_scenes_are_lawful.stack⟩
theorem test_met_return_pops_one_frame :
    withScenes.StackLaw ∧ withScenes.Takes .returnScene 7 ∧ withScenes.permitsSpace 7 0 = true
      ∧ withScenes.permitsSpace 7 14 = true ∧ withScenes.returnStack 14 = []
      ∧ withScenes.returnStack 0 = [(3, 500), (0, 0)] :: [] :=
  ⟨test_scenes_are_lawful.stack, State.takes_of_check (by decide +kernel), by decide +kernel⟩
theorem test_met_query_shows_the_records :
    ready.Takes .query 7 ∧ ready.CoverageLaw ∧ ready.permitsSpace 7 (ready.load 0).space = true ∧ (ready.load 0).kind ≠ .none
      ∧ ready.permitsAxis 7 0 = true ∧ ready.permitsSpace 7 (sceneSpace 0) = true
      ∧ (⟨.budget, 65535⟩ : RawTarget).Names .budget
      ∧ (∃ c ∈ ready.claims, c.lease = .permanent) ∧ ∃ c ∈ ready.claims, c.lease = .left 300 ∧ 0 < 300 :=
  ⟨State.takes_of_check (by decide +kernel), test_ready_is_lawful.coverage, by decide +kernel, by decide +kernel,
    by decide +kernel, by decide +kernel, ⟨by decide, rfl⟩, by decide +kernel⟩
theorem test_met_query_shows_the_device :
    halted.Takes .query 9 ∧ (⟨.device, 65535⟩ : RawTarget).Names .device :=
  ⟨State.takes_of_check (by decide +kernel), by decide, rfl⟩

/-! ### Claims and stations -/

/-- All 32 records in use, by claims of loads 40 to 71. -/
def fullTable : State :=
  { ready with
    claims := ((List.finRange 96).filter fun n => 40 ≤ n.val && n.val < 72).map fun n =>
      { target := .load n, holder := 9, rank := .guest, lease := .permanent } }

theorem conflicts_meet {s : State} {o : Origin} {t : ClaimTarget} {P : Claim → Prop}
    (h : ∀ c ∈ s.claims, c.holder ≠ o → (c.target = t ∨ (∃ n, t = .load n ∧ c.target = .space (s.load n).space)
        ∨ ∃ n, t = .space (s.load n).space ∧ c.target = .load n) → P c) : ∀ c, s.Conflict o t c → P c :=
  fun c hc => h c hc.1 hc.2.1 hc.2.2

theorem test_met_a_claim_is_refused :
    (ready.Takes .claim 9 ∧ ready.permitsTarget 9 (.load 0) ∧ (ready.load 0).kind ≠ .none)
      ∧ ClaimKind.hold ≠ .lock
      ∧ ((∀ c ∈ ready.claims, c.target = .load 0 → c.holder ≠ 9)
        ∧ (∀ c ∈ ready.claims, c.target = .space (ready.load 0).space → c.holder ≠ 9)
        ∧ ∃ c, ready.Conflict 9 (.load 0) c ∧ (ready.rankOf 9).code ≤ c.rank.code
          ∧ ∀ d, ready.Conflict 9 (.load 0) d → d.rank.code ≤ c.rank.code)
      ∧ (fullTable.Takes .claim 7 ∧ fullTable.permitsTarget 7 (.axis 1) ∧ fullTable.claims.length = 32
        ∧ (∀ c ∈ fullTable.claims, c.target = .axis 1 → c.holder ≠ 7) ∧ (∀ c, ¬ fullTable.Conflict 7 (.axis 1) c)
        ∧ ∀ c, ¬ fullTable.Folded 7 (.axis 1) c) := by
  refine ⟨⟨State.takes_of_check (by decide +kernel), ?_, by decide +kernel⟩, by decide, ⟨by decide +kernel, by decide +kernel,
    { target := .load 0, holder := 7, rank := .crew, lease := .left 5000 }, ?_, by decide +kernel,
    conflicts_meet (by decide +kernel)⟩,
    State.takes_of_check (by decide +kernel), ?_, by decide +kernel, by decide +kernel, conflicts_meet (by decide +kernel), ?_⟩
  · show ready.permitsSpace 9 _ = true; decide +kernel
  · exact ⟨by decide +kernel, by decide, .inl rfl⟩
  · show fullTable.permitsAxis 7 1 = true; decide +kernel
  · rintro c ⟨hc, ho, -⟩
    exact absurd ho ((by decide +kernel : ∀ c ∈ fullTable.claims, c.holder ≠ 7) c hc)

theorem test_met_a_claim_is_renewed :
    ready.Takes .claim 7 ∧ ready.Takes .renew 7 ∧ ready.permitsTarget 7 (.axis 0) ∧ ready.permitsTarget 7 (.load 3)
      ∧ (∃ c ∈ ready.claims, c.target = .axis 0 ∧ c.holder = 7) ∧ (∀ c ∈ ready.claims, c.target = .load 3 → c.holder ≠ 7)
      ∧ (ready.Takes .claim 8 ∧ ready.permitsTarget 8 (.load 1) ∧ (ready.load 1).kind ≠ .none
        ∧ (∀ c ∈ ready.claims, c.target = .load 1 → c.holder ≠ 8)
        ∧ ∃ c ∈ ready.claims, c.target = .space (ready.load 1).space ∧ c.holder = 8) := by
  refine ⟨State.takes_of_check (by decide +kernel), State.takes_of_check (by decide +kernel), ?_, ?_, by decide +kernel,
    by decide +kernel, State.takes_of_check (by decide +kernel), ?_, by decide +kernel⟩
  · show ready.permitsAxis 7 0 = true; decide +kernel
  · show ready.permitsSpace 7 _ = true; decide +kernel
  · show ready.permitsSpace 8 _ = true; decide +kernel

theorem test_met_a_lock_is_claimed :
    ready.Takes .claim 8 ∧ ready.permitsTarget 8 (.space 0) ∧ (∀ a, ClaimTarget.space 0 ≠ .axis a)
      ∧ (∀ c ∈ ready.claims, c.target = .space 0 → c.holder ≠ 8)
      ∧ (∀ c, ready.Conflict 8 (.space 0) c → c.rank.code < (ready.rankOf 8).code)
      ∧ (∃ c, ready.Conflict 8 (.space 0) c) ∧ ready.claims.length < 32 := by
  refine ⟨State.takes_of_check (by decide +kernel), ?_, by decide, by decide +kernel, conflicts_meet (by decide +kernel),
    ⟨{ target := .load 0, holder := 7, rank := .crew, lease := .left 5000 }, by decide +kernel, by decide,
      .inr (.inr ⟨0, by decide +kernel⟩)⟩, by decide +kernel⟩
  show ready.permitsSpace 8 0 = true
  decide +kernel

theorem test_met_an_axis_is_claimed :
    ready.Takes .claim 8 ∧ ready.permitsAxis 8 0 = true ∧ ready.permitsAxis 8 1 = true
      ∧ (∀ c ∈ ready.claims, c.target = .axis 0 → c.holder ≠ 8 ∧ c.rank.code < (ready.rankOf 8).code)
      ∧ (∃ c ∈ ready.claims, c.target = .axis 0) ∧ (∀ c ∈ ready.claims, c.target ≠ .axis 1) ∧ ready.claims.length < 32 :=
  ⟨State.takes_of_check (by decide +kernel), by decide +kernel⟩
theorem test_met_a_lock_ends :
    ready.Takes .release 7 ∧ ready.permitsTarget 7 (.load 0) ∧ (∀ a, ClaimTarget.load 0 ≠ .axis a)
      ∧ (∃ c ∈ ready.claims, c.target = .load 0 ∧ c.holder = 7) ∧ ready.permitsTarget 7 (.load 3)
      ∧ (∀ c ∈ ready.claims, c.target = .load 3 → c.holder ≠ 7)
      ∧ ((∃ c ∈ (leasesOut ready).claims, c.target = .load 0 ∧ c.lease = .left 0)
        ∧ (∀ c ∈ ready.claims, c.target = .space 1 → c.lease ≠ .left 0) ∧ (∃ c ∈ ready.claims, c.target = .space 1)
        ∧ (∀ c ∈ ready.claims, c.target = .load 0 → c.lease ≠ .left 0))
      ∧ ready.CoverageLaw ∧ ready.Takes .renew 7 ∧ ready.Takes .claim 7 ∧ (ready.load 0).kind ≠ .none
      ∧ ∃ c ∈ (after (.renew 7 (targetWordBody (Target.load 0).raw 1)) (leasesOut ready)).claims, c.target = .load 0 ∧ c.holder = 7 := by
  refine ⟨State.takes_of_check (by decide +kernel), ?_, by decide, by decide +kernel, ?_, by decide +kernel, by decide +kernel,
    test_ready_is_lawful.coverage, State.takes_of_check (by decide +kernel), State.takes_of_check (by decide +kernel),
    by decide +kernel⟩
  · show ready.permitsSpace 7 _ = true; decide +kernel
  · show ready.permitsSpace 7 _ = true; decide +kernel
theorem test_met_a_hold_ends :
    (running.CoverageLaw ∧ running.Takes .release 7 ∧ running.permitsAxis 7 0 = true
        ∧ (∃ c ∈ running.claims, c.target = .axis 0 ∧ c.holder = 7) ∧ (running.axis 0).state = .run
        ∧ ∃ c ∈ (leasesOut running).claims, c.target = .axis 0 ∧ c.lease = .left 0)
      ∧ (warned.CoverageLaw ∧ warned.Takes .release 7 ∧ (warned.axis 0).state = .warn)
      ∧ resting.CoverageLaw ∧ (resting.axis 0).state = .rest ∧ (resting.axis 0).pending ≠ none :=
  ⟨⟨test_running_is_lawful.coverage, State.takes_of_check (by decide +kernel), by decide +kernel⟩,
    ⟨test_warned_is_lawful.coverage, State.takes_of_check (by decide +kernel), by decide +kernel⟩,
    test_resting_is_lawful.coverage, by decide +kernel⟩
theorem test_met_write_station_takes_permissions_away :
    ready.Takes .writeStation 0 ∧ ((0 : Byte) = 0 ∧ 62 < (63 : Byte).toNat ∧ 8 ≤ (8 : Byte).toNat)
      ∧ (7 : Byte).toNat = (6 : Fin 62).val + 1 ∧ (62 : Byte).toNat = (61 : Fin 62).val + 1
      ∧ (Rank.officer ≠ .management ∧ (7 : Byte).toNat < 8) ∧ ready.InterlockLaw
      ∧ (ready.permitsAxis 7 0 = true ∧ ∃ c ∈ ready.claims, c.target = .axis 0 ∧ c.holder = 7) :=
  ⟨State.takes_of_check (by decide +kernel), by decide, by decide, by decide, by decide, test_ready_is_lawful.interlock,
    by decide +kernel⟩

/-! ### Configuring a load, the budget -/

theorem test_met_write_load_in_the_record :
    (let l := dimLoad 0 100 2 500 800;
      l.kind ≠ .none ∧ LoadRec.reset.kind = .none ∧ l.kind = .dim ∧ (switchLoad 0 10 0).kind = .switch ∧ l.shed = false)
      ∧ (let l := { switchLoad 0 10 1000 with shed := true, shedRank := 3, effTarget := 0, level := 0 }
        l.kind = .switch ∧ l.shed = true ∧ l.forced = false
          ∧ ({ l with shedRank := 0 } : LoadRec).shedRank ≠ l.shedRank
          ∧ ({ l with shedLevel := 1000 } : LoadRec).effectiveTarget ≠ l.effTarget)
      ∧ (shedLoad.kind = .dim ∧ shedLoad.forced = false ∧ shedLoad.shed = true ∧ shedLoad.shedRank ≠ 0
        ∧ ({ shedLoad with shedLevel := 100 } : LoadRec).effectiveTarget < shedLoad.effTarget
        ∧ ({ shedLoad with shedLevel := 100 } : LoadRec).effectiveTarget < shedLoad.level
        ∧ shedLoad.effTarget < ({ shedLoad with shedLevel := 300 } : LoadRec).effectiveTarget
        ∧ ({ shedLoad with shedRank := 7 } : LoadRec).effectiveTarget = shedLoad.effTarget)
      ∧ (let l := { shedLoad with
          level := 50, fade := some { rising := true, q := 15, r := 0, n := 10, remaining := 10, acc := 0, stepTimer := 20 } }
        ({ l with shedLevel := 100 } : LoadRec).effectiveTarget < l.effTarget
          ∧ l.level ≤ ({ l with shedLevel := 100 } : LoadRec).effectiveTarget ∧ l.fade.isSome = true) := by decide +kernel
/-- RATED POWER 401. -/
def ratedTooHigh : List Byte := (Target.load 0).bytes ++ loadConfigBytes (dimLoad 0 401 0 0 0).toLoadConfig
theorem test_met_write_load_writes_the_configuration :
    (halted.Takes .writeLoad 0 ∧ halted.InterlockLaw)
      ∧ ({ warned with device := halted.device } : State).Takes .writeLoad 0
      ∧ ((warned.load 4).forced = true ∧ (halted.load 0).forced = false)
      ∧ (ratedTooHigh.length ≤ 60 ∧ ∃ f, readWriteLoad ratedTooHigh = some ((Target.load 0).raw, f) ∧ 400 < f.ratedPower)
      ∧ (let c := (dimLoad 0 400 7 1000 0).toLoadConfig
        c.shedRank ≤ 7 ∧ c.shedLevel ≤ 1000 ∧ c.ratedPower ≤ 400 ∧ c.minDuty ≤ 64)
      ∧ (let l' := (halted.load 0).rewritten (dimLoad 1 200 0 0 0).toLoadConfig
        (halted.load 0).countedDraw < l'.countedDraw ∧ halted.budget.deficit = false
          ∧ halted.budget.committed + l'.countedDraw - (halted.load 0).countedDraw ≤ halted.budget.available
          ∧ (1 : SpaceNo) ≠ (halted.load 0).space ∧ (∃ x ∈ halted.claims, x.target = .load 0)
          ∧ ∃ x ∈ halted.claims, x.target = .space 1)
      ∧ (let l' := (halted.load 2).rewritten (dimLoad 0 10 0 0 0).toLoadConfig
        l'.countedDraw < (halted.load 2).countedDraw ∧ halted.budget.shedList = [2] ∧ (halted.load 2).shed = true
          ∧ l'.shed = false) := by
  refine ⟨⟨State.takes_of_check (by decide +kernel), test_halted_is_lawful.interlock⟩, State.takes_of_check (by decide +kernel),
    by decide +kernel, ⟨by decide +kernel, ((readWriteLoad ratedTooHigh).get (by decide +kernel)).2, ?_⟩, by decide +kernel⟩
  decide +kernel
theorem test_met_set_budget_restores_or_reduces :
    ready.Takes .setBudget 0 ∧ ready.Lawful ∧ 20000 < 20001
      ∧ (ready.budget.committed ≤ 168 ∧ 167 < ready.budget.committed
        ∧ let relief := ((List.finRange 96).map fun n => if (ready.load n).sheddable then (ready.load n).relief else 0).sum
          ready.budget.committed ≤ 167 + relief ∧ 100 + relief < ready.budget.committed)
      ∧ (∀ a, (ready.axis a).state ≠ .warn)
      ∧ (let b := (after (.setBudget 0 (bytesOf 150)) warned).budget
        warned.Takes .setBudget 0 ∧ warned.Lawful ∧ b.deficit = false ∧ b.shedList ≠ []) :=
  ⟨State.takes_of_check (by decide +kernel), test_ready_is_lawful, by decide, by decide +kernel, by decide +kernel,
    State.takes_of_check (by decide +kernel), test_warned_is_lawful, by decide +kernel⟩
theorem test_met_the_motion_grant_is_all_or_nothing :
    ready.Lawful ∧ (∃ t, ready.grant 0 = some t)
      ∧ ({ ready with budget := { ready.budget with available := 168 } } : State).Lawful
      ∧ ({ ready with budget := { ready.budget with available := 168 } } : State).grant 0 = none :=
  ⟨test_ready_is_lawful, Option.isSome_iff_exists.mp (by decide +kernel), State.lawful_of_check (by decide +kernel),
    Option.isNone_iff_eq_none.mp (by decide +kernel)⟩
theorem test_met_the_restore_pass_runs_from_the_newest :
    (ready.ShedLaw ∧ ready.DerivedLaw ∧ ready.KindLaw ∧ ready.budget.committed ≤ ready.budget.available)
      ∧ ready.budget.deficit = false ∧ (ready.load 2).shed = true ∧ (ready.load 2).kind = .dim
      ∧ (ready.load 2).forced = false ∧ ready.restorePass.budget.shedList = []
      ∧ ({ ready with budget := { ready.budget with available := 168 } } : State).restorePass.budget.shedList = [2] :=
  ⟨⟨test_ready_is_lawful.shed, test_ready_is_lawful.derived, test_ready_is_lawful.kind, by decide +kernel⟩, by decide +kernel⟩

/-! ### Axes -/

def platformBody : List Byte := (Target.axis 0).bytes ++ axisConfigBytes platform.toAxisConfig
theorem test_met_write_axis_writes_the_configuration :
    halted.Takes .writeAxis 0 ∧ (∃ f, readWriteAxis platformBody = some ((Target.axis 0).raw, f))
      ∧ (halted.axis 0).state = .parked ∧ (warned.axis 0).state = .warn
      ∧ ({ warned with device := halted.device } : State).Takes .writeAxis 0 :=
  ⟨State.takes_of_check (by decide +kernel),
    ⟨((readWriteAxis platformBody).get (by decide +kernel)).2, by decide +kernel⟩, by decide +kernel, by decide +kernel,
    State.takes_of_check (by decide +kernel)⟩
theorem test_met_move_begins_a_warning :
    ready.Takes .move 7 ∧ ready.permitsAxis 7 0 = true ∧ ready.Lawful ∧ (∃ c ∈ ready.claims, c.target = .axis 0 ∧ c.holder = 7)
      ∧ (ready.axis 0).state = .parked ∧ (ready.axisIn 0).edge = false ∧ (∀ p e, ready.interlock p ≠ some e)
      ∧ (∃ g, ready.grant 0 = some g) ∧ (ready.channel 0).state = .idle ∧ ready.motionNeed 0 ≤ ready.headroom :=
  ⟨State.takes_of_check (by decide +kernel), by decide +kernel, test_ready_is_lawful, by decide +kernel, by decide +kernel,
    by decide +kernel, fun p e h => by simp [(by decide +kernel : ∀ p, ready.interlock p = none) p] at h,
    Option.isSome_iff_exists.mp (by decide +kernel), by decide +kernel, by decide +kernel⟩
theorem test_met_no_entry_watches :
    (ready.Unwatched 0 ∧ warned.Unwatched 0 ∧ running.Unwatched 0) ∧ (stopping.Unwatched 0 ∧ (timersOut resting).Unwatched 0)
      ∧ (0 < warned.held 0 ∧ warned.budget.shedList = [2]) :=
  ⟨⟨unwatched_of_none 0 (by decide +kernel), unwatched_of_none 0 (by decide +kernel), unwatched_of_none 0 (by decide +kernel)⟩,
    ⟨unwatched_of_none 0 (by decide +kernel), unwatched_of_none 0 (by decide +kernel)⟩, by decide +kernel⟩
/-- The platform may not extend while axis 1 is unverified. -/
def blockedState : State :=
  { ready with
    interlocks := ready.interlocks.set 15
      (some { subject := 0, direction := .extend, condition := 1, relation := .below, threshold := 16383 }) }
theorem test_met_move_is_refused_or_retargets :
    (ready.Takes .move 7 ∧ ready.Takes .move 8 ∧ ready.permitsAxis 7 0 = true ∧ ready.permitsAxis 8 0 = true
        ∧ ready.CoverageLaw ∧ (∀ c ∈ ready.claims, c.target = .axis 0 → c.holder ≠ 8)
        ∧ ∃ c ∈ ready.claims, c.target = .axis 0 ∧ c.holder = 7)
      ∧ ((lockedOut.axis 0).state = .lockout ∧ lockedOut.Takes .move 7 ∧ lockedOut.CoverageLaw)
      ∧ ((stopping.axis 0).state = .stopping ∧ (resting.axis 0).state = .rest)
      ∧ ((running.axis 0).state = .run ∧ running.Takes .move 7 ∧ running.CoverageLaw
        ∧ (running.axis 0).pending = extendTo (some 900)
        ∧ ({ running.axis 0 with pending := extendTo (some 400) } : AxisRec).endFound = some .target
        ∧ ({ running.axis 0 with pending := extendTo (some 401) } : AxisRec).endFound = none)
      ∧ ((warned.axis 0).state = .warn ∧ (warned.axis 0).pending = extendTo none)
      ∧ ((ready.setAxisIn 0 { home := false, edge := true, current := 0 }).axisIn 0).edge = true
      ∧ (blockedState.CoverageLaw ∧ blockedState.blocked 0 .extend = true ∧ blockedState.blocked 0 .retract = false)
      ∧ ({ ready with budget := { ready.budget with available := 168 } } : State).grant 0 = none := by
  refine ⟨⟨State.takes_of_check (by decide +kernel), State.takes_of_check (by decide +kernel), by decide +kernel,
    by decide +kernel, test_ready_is_lawful.coverage, by decide +kernel⟩,
    ⟨by decide +kernel, State.takes_of_check (by decide +kernel), test_locked_out_is_lawful.coverage⟩, by decide +kernel,
    ⟨by decide +kernel, State.takes_of_check (by decide +kernel), test_running_is_lawful.coverage, by decide +kernel⟩,
    by decide +kernel, by decide +kernel, ⟨test_ready_is_lawful.coverage, by decide +kernel⟩,
    Option.isNone_iff_eq_none.mp (by decide +kernel)⟩
theorem test_met_stop_acts_by_state :
    (ready.Takes .stop 9 ∧ ready.permitsAxis 9 0 = true) ∧ (warned.Takes .stop 9 ∧ (warned.axis 0).state = .warn)
      ∧ (running.Takes .stop 9 ∧ (running.axis 0).state = .run) ∧ resting.Takes .stop 9 ∧ (resting.axis 0).state = .rest :=
  ⟨⟨State.takes_of_check (by decide +kernel), by decide +kernel⟩,
    ⟨State.takes_of_check (by decide +kernel), by decide +kernel⟩,
    ⟨State.takes_of_check (by decide +kernel), by decide +kernel⟩, State.takes_of_check (by decide +kernel), by decide +kernel⟩
theorem test_met_ramps_and_the_brake_settle :
    (let s := timersOut running; (s.axis 0).rampTimer = some 0 ∧ (s.axis 0).state = .run ∧ s.settle = none)
      ∧ (let s := timersOut stopping; (s.axis 0).rampTimer = some 0 ∧ (s.axis 0).state = .stopping)
      ∧ ((running.axis 0).rampTimer ≠ some 0 ∧ (ready.axis 0).rampTimer = none ∧ (ready.axis 0).brakeTimer = none)
      ∧ (let s := stopping.setAxis 0 { stopping.axis 0 with speed := 0, rampTimer := none, brakeTimer := some 0 }
        (s.axis 0).brakeTimer = some 0 ∧ (s.axis 0).state = .stopping ∧ (s.axis 0).courtesy = some 4
          ∧ ∀ b, b ≠ 0 → ¬ ((s.axis b).inMotion = true ∧ (s.axis b).courtesy = some 4)) := by decide +kernel
theorem test_met_the_confirm_window :
    (ready.axis 0).confirmTimer = none
      ∧ (let s := (running.setAxis 0 { runRec with confirmTimer := some 0 }).setAxisIn 0 { home := false, edge := false, current := 15 }
        (s.axis 0).confirmTimer = some 0 ∧ (s.axis 0).state = .run ∧ (s.axis 0).noLoad ≤ (s.axisIn 0).current)
      ∧ (let s := running.setAxis 0 { runRec with confirmTimer := some 0 }
        (s.axis 0).confirmTimer = some 0 ∧ (s.axis 0).state = .run ∧ (s.axisIn 0).current < (s.axis 0).noLoad) := by decide +kernel
theorem test_met_a_stall_rests_or_locks_out :
    (Instr.pulseWatchExpiry 0 = .pulseWatchExpiry 0 ∧ (ready.axis 0).pulseWatch = none)
      ∧ ((running.axis 0).monitoring = true ∧ 0 < (running.axis 0).stallWindow ∧ (running.axis 0).pulseWatch = some 500)
      ∧ (let s := timersOut running
        (s.axis 0).pulseWatch = some 0 ∧ (s.axis 0).state = .run ∧ (s.axis 0).stallCount < 7 ∧ (s.axis 0).courtesy = some 4)
      ∧ (let s := running.setAxis 0 { runRec with stallCount := 7, overCurrentTimer := some 0 }
        (s.axis 0).overCurrentTimer = some 0 ∧ (s.axis 0).state = .run ∧ 7 ≤ (s.axis 0).stallCount) := by decide +kernel
/-- A rest that is over, its expiry not yet taken. -/
def rested : State := timersOut resting
theorem test_rested_is_lawful : rested.Lawful := State.lawful_of_check (by decide +kernel)
theorem test_met_a_rest_ends_in_a_retry_or_parks :
    ((ready.axis 0).restRemaining = none ∧ (resting.axis 0).restRemaining = some 2000)
      ∧ ((rested.axis 0).restRemaining = some 0 ∧ (rested.axis 0).state = .rest ∧ rested.Lawful
        ∧ (rested.axis 0).pending = extendTo none ∧ (∃ c ∈ rested.claims, c.target = .axis 0 ∧ c.holder = 7)
        ∧ (rested.axisIn 0).edge = false ∧ rested.blocked 0 .extend = false ∧ ∃ g, rested.grant 0 = some g)
      ∧ (let s := rested.setAxis 0 { rested.axis 0 with pending := none }
        s.Lawful ∧ (s.axis 0).state = .rest ∧ (s.axis 0).restRemaining = some 0 ∧ (s.axis 0).pending = none)
      ∧ (({ rested with claims := [] } : State).Lawful)
      ∧ (let s := rested.setAxisIn 0 { home := false, edge := true, current := 0 }; s.Lawful ∧ (s.axisIn 0).edge = true)
      ∧ (({ rested with interlocks := blockedState.interlocks } : State).Lawful
        ∧ ({ rested with interlocks := blockedState.interlocks } : State).blocked 0 .extend = true)
      ∧ (({ rested with budget := { rested.budget with available := 168 } } : State).Lawful
        ∧ ({ rested with budget := { rested.budget with available := 168 } } : State).grant 0 = none) :=
  ⟨by decide +kernel, ⟨by decide +kernel, by decide +kernel, test_rested_is_lawful, by decide +kernel, by decide +kernel,
      by decide +kernel, by decide +kernel, Option.isSome_iff_exists.mp (by decide +kernel)⟩,
    ⟨State.lawful_of_check (by decide +kernel), by decide +kernel⟩, State.lawful_of_check (by decide +kernel),
    ⟨State.lawful_of_check (by decide +kernel), by decide +kernel⟩, ⟨State.lawful_of_check (by decide +kernel), by decide +kernel⟩,
    State.lawful_of_check (by decide +kernel), Option.isNone_iff_eq_none.mp (by decide +kernel)⟩
theorem test_met_a_pulse_counts_position :
    (ready.InterlockLaw ∧ ready.EntryLaw ∧ (ready.axis 0).state ≠ .run)
      ∧ (running.InterlockLaw ∧ running.EntryLaw ∧ (running.axis 0).state = .run)
      ∧ (let s := ready.setAxis 2 { ready.axis 2 with position := 16383 }
        (s.axis 2).state ≠ .run ∧ (s.axis 2).direction = .extend ∧ (s.axis 2).position = 16383) :=
  ⟨⟨test_ready_is_lawful.interlock, test_ready_is_lawful.entry, by decide +kernel⟩,
    ⟨test_running_is_lawful.interlock, test_running_is_lawful.entry, by decide +kernel⟩, by decide +kernel⟩
theorem test_met_home_and_the_quiet_inputs :
    running.InterlockLaw ∧ running.EntryLaw ∧ (running.axis 0).state = .run ∧ (running.axis 0).monitoring = true
      ∧ (running.axis 0).overCurrent < (181 : Byte).toNat ∧ (running.axisIn 0).current ≤ (running.axis 0).overCurrent :=
  ⟨test_running_is_lawful.interlock, test_running_is_lawful.entry, by decide +kernel⟩
theorem test_met_the_safety_edge :
    (warned.axis 0).state = .warn ∧ (running.axis 0).state = .run ∧ (stopping.axis 0).state = .stopping
      ∧ 0 < (stopping.axis 0).speed ∧ (resting.axis 0).state = .rest ∧ (lockedOut.axis 0).state = .lockout := by decide +kernel
theorem test_met_write_interlock_is_tested_at_once :
    (halted.Takes .writeInterlock 0 ∧ 15 < (16 : Byte).toNat ∧ 2 < (3 : Byte).toNat ∧ (15 : PlaceNo).val = (15 : Byte).toNat
        ∧ (0 : AxisNo).val = (0 : Byte).toNat ∧ (2 : AxisNo).val = (2 : Byte).toNat ∧ 16383 < (64 : Byte).toNat * 256 + 0)
      ∧ (let s : State := { running with device := halted.device }
        let e : Interlock := { subject := 0, direction := .extend, condition := 1, relation := .below, threshold := 16383 }
        s.Takes .writeInterlock 0 ∧ (s.axis 0).state = .run ∧ (s.axis 0).direction = .extend ∧ s.satisfied e = true
          ∧ s.satisfied { e with relation := .notParked, threshold := 0 } = false)
      ∧ (let s : State := { warned with device := halted.device }
        s.Takes .writeInterlock 0 ∧ (s.axis 0).state = .warn ∧ (s.axis 0).pending = extendTo none) :=
  ⟨⟨State.takes_of_check (by decide +kernel), by decide⟩,
    ⟨State.takes_of_check (by decide +kernel), by decide +kernel⟩, State.takes_of_check (by decide +kernel), by decide +kernel⟩

/-! ### Signals, run state, notices, resets, laws -/

theorem test_met_write_signal_is_live_or_staged :
    ready.Takes .writeSignal 0 ∧ warned.Takes .writeSignal 0 ∧ (ready.channel 0).state = .idle ∧ (warned.channel 0).state ≠ .idle
      ∧ (let p : Pattern := { Pattern.reset with primaryMark := 255, gapCycles := 15 }
        p.primaryMark < 256 ∧ ¬ (p.primaryMark = 0 ∨ p.secondaryMark = 0 ∨ 15 < p.gapCycles))
      ∧ (let p : Pattern := { Pattern.reset with gapCycles := 16 }; p.gapCycles < 256 ∧ 15 < p.gapCycles) :=
  ⟨State.takes_of_check (by decide +kernel), State.takes_of_check (by decide +kernel), by decide +kernel⟩
/-- A warning at its first cycle end, not yet taken. -/
def cycled : State := timersOut warned
theorem test_met_signal_cycles_lead_to_run :
    (cycled.Lawful ∧ (cycled.channel 0).cycleTimer = some 0 ∧ (cycled.channel 0).markTimer = some 0
        ∧ (cycled.channel 0).cycle = some .primary ∧ (cycled.channel 0).state = .sounding ∧ (cycled.channel 0).discard = false
        ∧ (cycled.channel 0).warnCount + 1 ≠ (cycled.axis 0).warnCycles)
      ∧ (let s := cycled.setChannel 0 { cycled.channel 0 with warnCount := 1 }
        s.Lawful ∧ (s.channel 0).warnCount + 1 = (s.axis 0).warnCycles ∧ (s.axis 0).pending = extendTo none)
      ∧ (let s := cycled.setChannel 0 { cycled.channel 0 with discard := true }; s.Lawful ∧ (s.channel 0).discard = true)
      ∧ (let s := timersOut (State.driveOutputs (ready.setChannel 0 { sounding with state := .finishing }))
        s.Lawful ∧ (s.channel 0).state = .finishing ∧ (s.channel 0).cycleTimer = some 0)
      ∧ ready.Lawful ∧ (ready.channel 0).cycleTimer = none ∧ (warned.channel 0).markTimer = some 300 :=
  ⟨⟨State.lawful_of_check (by decide +kernel), by decide +kernel⟩,
    ⟨State.lawful_of_check (by decide +kernel), by decide +kernel⟩, ⟨State.lawful_of_check (by decide +kernel), by decide +kernel⟩,
    ⟨State.lawful_of_check (by decide +kernel), by decide +kernel⟩, test_ready_is_lawful, by decide +kernel⟩
theorem test_met_start_and_halt :
    halted.Takes .start 0 ∧ ready.Takes .start 0 ∧ running.Takes .halt 0 ∧ running.InterlockLaw ∧ resting.Takes .halt 0
      ∧ resting.InterlockLaw ∧ (∀ a, (ready.axis a).state ≠ .warn ∧ (ready.axis a).state ≠ .rest) :=
  ⟨State.takes_of_check (by decide +kernel), State.takes_of_check (by decide +kernel), State.takes_of_check (by decide +kernel),
    test_running_is_lawful.interlock, State.takes_of_check (by decide +kernel), test_resting_is_lawful.interlock,
    by decide +kernel⟩
theorem test_met_read_notice_returns_the_highest :
    lockedOut.Takes .readNotice 0 ∧ lockedOut.OutputLaw ∧ lockedOut.notices.axisLockout = true ∧ ready.Takes .readNotice 0
      ∧ ready.OutputLaw ∧ ready.notices.resetNotice = true ∧ ready.notices.shedChange = false :=
  ⟨State.takes_of_check (by decide +kernel), test_locked_out_is_lawful.output, by decide +kernel,
    State.takes_of_check (by decide +kernel), test_ready_is_lawful.output, by decide +kernel⟩
theorem test_met_clear_lockout_parks_the_axis :
    lockedOut.Takes .clearLockout 0 ∧ lockedOut.InterlockLaw ∧ (lockedOut.axis 0).state = .lockout
      ∧ halted.Takes .clearLockout 0 ∧ halted.InterlockLaw ∧ (halted.axis 0).state ≠ .lockout :=
  ⟨State.takes_of_check (by decide +kernel), test_locked_out_is_lawful.interlock, by decide +kernel,
    State.takes_of_check (by decide +kernel), test_halted_is_lawful.interlock, by decide +kernel⟩
/-- Loads 0, 1 and 2 in the settle interval of a warm reset. -/
def dipped : State := after (.warmReset .pin false) ready
theorem test_met_the_settle_interval_ends :
    (ready.settle = none ∧ dipped.settle = some { kind := .warm, timer := some 100 })
      ∧ (timersOut State.reset).settle = some { kind := .powerOn, timer := some 0 }
      ∧ (timersOut dipped).settle = some { kind := .warm, timer := some 0 } ∧ (timersOut dipped).DerivedLaw
      ∧ ∀ n, ((timersOut dipped).load n).level = 0 ∧ ((timersOut dipped).load n).fade = none
        ∧ ((timersOut dipped).load n).forced = false := by
  refine ⟨by decide +kernel, by decide +kernel, by decide +kernel, ?_, by decide +kernel⟩
  show ∀ n, _
  decide +kernel
theorem test_met_warm_reset_and_source_end :
    dipped.settle = some { kind := .warm, timer := some 100 }
      ∧ ((after (.powerOnReset true) ready).settle = some { kind := .powerOn, timer := none }
        ∧ (after (.powerOnReset true) ready).resetInput = false)
      ∧ ((after (.warmReset .pin true) ready).settle = some { kind := .warm, timer := none }
        ∧ (after (.warmReset .pin true) ready).supplyLow = false)
      ∧ (running.axis 0).state = .run := by decide +kernel
theorem test_met_reset_is_lawful : ∃ t, exec (.powerOnReset true) ready = .next t := ⟨_, rfl⟩

/-- A lawful state other than reset, and a step from it, for the three statements on every step. -/
theorem test_met_every_step_keeps_the_laws :
    ready.Lawful ∧ (∃ t, step ready = .next t)
      ∧ ∃ t, step { withScenes with pending := [.recallScene 9 (targetWordBody (Target.scene 0).raw 65535)] } = .next t :=
  ⟨test_ready_is_lawful, ⟨_, rfl⟩, _, rfl⟩
theorem test_met_every_step_from_a_queue :
    ({ withScenes with pending := [.recallScene 9 (targetWordBody (Target.scene 0).raw 65535)] } : State).Lawful :=
  State.lawful_of_check (by decide +kernel)

end Sys2Proof.Tests
end

/-! # Proofs of the statements on stations, requests and targets

The rules are laid in layers: what an event of loads and axes leaves alone (`MachineRun`, `Steady`), the laws of claims,
scenes, stacks and interlock entries and what keeps them (`State.Tables`, `Keeps`), what every owner of a request answers
(`Answers`), and what the Dispatcher makes of a body. -/

namespace Sys2Proof.Machine

/-! ## What an event of loads and axes leaves alone -/

/-- Beside what `OnlyMachines` lets differ, no load's configuration differs. -/
structure MachineRun (s t : State) : Prop where
  only : OnlyMachines s t
  configs : SameConfigs s t

/-- A `MachineRun` that sets no load's SET TARGET. -/
structure Steady (s t : State) : Prop extends MachineRun s t where
  targets : ∀ n, (t.load n).setTarget = (s.load n).setTarget

theorem MachineRun.refl (s : State) : MachineRun s s := ⟨rfl, fun _ => rfl⟩

theorem MachineRun.trans {s t u : State} (h : MachineRun s t) (k : MachineRun t u) : MachineRun s u :=
  ⟨h.only.trans k.only, fun n => (k.configs n).trans (h.configs n)⟩

theorem LoadRun.machineRun {s t : State} (h : LoadRun s t) : MachineRun s t :=
  ⟨h.only.machines, fun n => (h.changes n).config⟩

theorem Steady.refl (s : State) : Steady s s := ⟨.refl s, fun _ => rfl⟩

theorem Steady.trans {s t u : State} (h : Steady s t) (k : Steady t u) : Steady s u :=
  ⟨h.toMachineRun.trans k.toMachineRun, fun n => (k.targets n).trans (h.targets n)⟩

/-- No load and nothing outside `OnlyMachines` differs. -/
theorem Steady.of_loads {s t : State} (h : OnlyMachines s t) (hl : t.loads = s.loads) : Steady s t :=
  ⟨⟨h, fun n => by rw [State.load_congr hl]⟩, fun n => by rw [State.load_congr hl]⟩

theorem Steady.foldl {α : Type} {f : State → α → State} (h : ∀ s a, Steady s (f s a)) (l : List α) (s : State) :
    Steady s (l.foldl f s) :=
  foldl_rel Steady.refl Steady.trans h l s

section
variable (s : State) (a : AxisNo)

theorem State.setAxis_steady (x : AxisRec) : Steady s (s.setAxis a x) := .of_loads rfl rfl
theorem State.setChannel_steady (x : Channel) : Steady s (s.setChannel a x) := .of_loads rfl rfl
theorem State.setBudget_steady (b : Budget) : Steady s { s with budget := b } := .of_loads rfl rfl
theorem State.setNotices_steady (p : Notices) : Steady s { s with notices := p } := .of_loads rfl rfl

theorem State.storeLoad_steady {s : State} {n : LoadNo} {l : LoadRec} {r : Bool}
    (hc : l.toLoadConfig = (s.load n).toLoadConfig) (ht : l.setTarget = (s.load n).setTarget) :
    Steady s (s.storeLoad n l r) := by
  refine ⟨⟨(s.storeLoad_only n l r).machines, fun m => ?_⟩, fun m => ?_⟩ <;> rw [State.load_storeLoad] <;> split
  · rename_i e; rw [e, hc]
  · rfl
  · rename_i e; rw [e, ht]
  · rfl

/-! ### Restores, sheds and grants -/

theorem LoadRec.toShed_setTarget (l : LoadRec) : l.toShed.setTarget = l.setTarget := by simp [LoadRec.toShed]
theorem LoadRec.toRestored_setTarget (l : LoadRec) : l.toRestored.setTarget = l.setTarget := by
  simp [LoadRec.toRestored]
theorem LoadRec.toForced_setTarget (l : LoadRec) : l.toForced.setTarget = l.setTarget := by
  simp only [LoadRec.toForced]; split <;> rfl
theorem LoadRec.toUnforced_setTarget (l : LoadRec) : l.toUnforced.setTarget = l.setTarget := by
  simp only [LoadRec.toUnforced]
  split
  · simp only [LoadRec.recount_setTarget]; split <;> (try split) <;> simp
  · rfl

theorem State.restoreOne_steady (n : LoadNo) : Steady s (s.restoreOne n) :=
  ((s.setBudget_steady _).trans (State.storeLoad_steady (LoadRec.toRestored_config _) (LoadRec.toRestored_setTarget _))).trans
    (State.setNotices_steady _ _)

theorem State.restoreAlong_steady (l : List LoadNo) : Steady s (State.restoreAlong l s) := by
  induction l generalizing s with
  | nil => exact .refl s
  | cons n l ih =>
    simp only [State.restoreAlong]
    split
    · exact (s.restoreOne_steady n).trans (ih _)
    · exact .refl s

theorem State.restorePass_steady : Steady s s.restorePass := s.restoreAlong_steady _

theorem State.answerFall_steady : Steady s s.answerFall := by
  simp only [State.answerFall]
  split
  · split
    · exact (s.setBudget_steady _).trans (State.restorePass_steady _)
    · exact .refl s
  · exact s.restorePass_steady

theorem State.shedOne_steady (n : LoadNo) : Steady s (s.shedOne n) :=
  ((State.storeLoad_steady (LoadRec.toShed_config _) (LoadRec.toShed_setTarget _)).trans (State.setBudget_steady _ _)).trans
    (State.setNotices_steady _ _)

theorem State.shedAlong_steady (enough : State → Bool) (l : List LoadNo) : Steady s (State.shedAlong enough l s) := by
  induction l generalizing s with
  | nil => exact .refl s
  | cons n l ih =>
    simp only [State.shedAlong]
    split
    · exact .refl s
    · split
      · exact (s.shedOne_steady n).trans (ih _)
      · exact ih _

theorem State.addDemand_steady : Steady s (s.addDemand a) := .of_loads rfl rfl

theorem State.grant_steady {s t : State} {a : AxisNo} (h : s.grant a = some t) : Steady s t := by
  simp only [State.grant] at h
  split at h
  · split at h
    · cases h; exact s.addDemand_steady a
    · cases h
  · split at h
    · cases h; exact s.addDemand_steady a
    · split at h
      · cases h
      · cases h; exact (s.shedAlong_steady _ _).trans (State.addDemand_steady _ a)

/-! ### Stops, parks and blocks -/

theorem State.forceCourtesy_steady : Steady s (s.forceCourtesy a) := by
  simp only [State.forceCourtesy]
  split
  · exact .refl s
  · exact State.storeLoad_steady (LoadRec.toForced_config _) (LoadRec.toForced_setTarget _)

theorem State.releaseCourtesy_steady : Steady s (s.releaseCourtesy a) := by
  simp only [State.releaseCourtesy]
  split
  · exact .refl s
  · split
    · exact .refl s
    · exact State.storeLoad_steady (LoadRec.toUnforced_config _) (LoadRec.toUnforced_setTarget _)

theorem State.giveBack_steady (ex : Bool) : Steady s (s.giveBack a ex) := by
  have h : Steady s ((s.releaseDemand a).releaseCourtesy a) :=
    (s.setBudget_steady _).trans (State.releaseCourtesy_steady _ a)
  rcases s.giveBack_run a ex with e | e <;> rw [e]
  · exact h
  · exact h.trans (State.answerFall_steady _)

theorem State.endMotion_steady (st : AxisState) : Steady s (s.endMotion a st) := by
  simp only [State.endMotion]
  split
  · exact s.setChannel_steady a _
  · exact (s.setChannel_steady a _).trans (State.setAxis_steady _ a _)

theorem State.leaveMotion_steady (st : AxisState) (ex : Bool) : Steady s (s.leaveMotion a st ex) :=
  ((s.setAxis_steady a _).trans (State.giveBack_steady _ a ex)).trans (State.endMotion_steady _ a st)

theorem State.parkCore_steady (er : EndReason) (ex : Bool) : Steady s (s.parkCore a er ex) :=
  (s.setAxis_steady a _).trans (State.leaveMotion_steady _ a _ ex)

theorem State.stopCore_steady (er : EndReason) : Steady s (s.stopCore a er) := s.setAxis_steady a _

theorem State.blockCore_steady : Steady s (s.blockCore a) := by
  simp only [State.blockCore]
  split
  · exact s.parkCore_steady a _ _
  · exact s.stopCore_steady a _
  · exact .refl s

theorem State.tellInterlocks_steady : Steady s (s.tellInterlocks a) :=
  State.passChange_rel Steady.refl Steady.trans State.blockCore_steady 3 a s

theorem State.park_steady (er : EndReason) (ex : Bool) : Steady s (s.park a er ex) :=
  (s.parkCore_steady a er ex).trans (State.tellInterlocks_steady _ a)

theorem State.stopMotion_steady (er : EndReason) : Steady s (s.stopMotion a er) :=
  (s.stopCore_steady a er).trans (State.tellInterlocks_steady _ a)

theorem State.quickStop_steady (er : EndReason) : Steady s (s.quickStop a er) :=
  (s.setAxis_steady a _).trans (State.stopMotion_steady _ a er)

theorem State.abandon_steady : Steady s (s.abandon a) := by
  simp only [State.abandon]
  split
  · exact s.park_steady a _ _
  · exact .refl s

theorem State.axisHalt_steady : Steady s (s.axisHalt a) := by
  simp only [State.axisHalt]
  split
  · exact s.park_steady a _ _
  · exact s.park_steady a _ _
  · exact (s.setAxis_steady a _).trans (State.stopMotion_steady _ a _)
  · exact .refl s

theorem State.claimEnded_steady (er : EndReason) : Steady s (s.claimEnded a er) := by
  have raised : ∀ b : Bool, Steady s (if b then s.raiseMotionLeaseLost else s) := by
    intro b
    split
    · exact s.setNotices_steady _
    · exact .refl s
  simp only [State.claimEnded]
  split
  · exact (raised _).trans (State.park_steady _ a er _)
  · exact (raised _).trans (State.stopMotion_steady _ a er)
  · exact (raised _).trans (State.setAxis_steady _ a _)
  · exact .refl s

theorem State.noLoadLockout_steady : Steady s (s.noLoadLockout a) :=
  (((s.setAxis_steady a _).trans (State.leaveMotion_steady _ a _ _)).trans (State.tellInterlocks_steady _ a)).trans
    (State.setNotices_steady _ _)

theorem State.stall_steady : Steady s (s.stall a) := by
  have left : ∀ x st, Steady s ((((s.setAxis a x).leaveMotion a st).tellInterlocks a).raiseAxisFault) := fun x st =>
    (((s.setAxis_steady a x).trans (State.leaveMotion_steady _ a st _)).trans (State.tellInterlocks_steady _ a)).trans
      (State.setNotices_steady _ _)
  simp only [State.stall]
  split <;> exact left _ _

/-! ### Starts, runs and ends of runs -/

theorem State.enterWarn_steady (p : Pending) : Steady s (s.enterWarn a p) :=
  ((((s.setAxis_steady a _).trans (State.forceCourtesy_steady _ a)).trans (State.setAxis_steady _ a _)).trans
    (State.setChannel_steady _ a _)).trans (State.tellInterlocks_steady _ a)

theorem State.testEnds_steady (home : Bool) : Steady s (s.testEnds a home) := by
  simp only [State.testEnds]
  split
  · split
    · exact s.stopMotion_steady a _
    · exact .refl s
  · exact .refl s

theorem State.moveTo_steady (position : Nat) : Steady s (s.moveTo a position) := by
  simp only [State.moveTo]
  split
  · exact .refl s
  · exact (s.setAxis_steady a _).trans (State.tellInterlocks_steady _ a)

theorem State.foundHome_steady : Steady s (s.foundHome a) := by
  simp only [State.foundHome]
  split
  · exact s.setAxis_steady a _
  · exact (s.setAxis_steady a _).trans (State.tellInterlocks_steady _ a)

theorem State.enterRun_steady : Steady s (s.enterRun a) := by
  have ends : ∀ t b, Steady t ((t.testEnds a b).tellInterlocks a) := fun t b =>
    (t.testEnds_steady a b).trans (State.tellInterlocks_steady _ a)
  simp only [State.enterRun]
  split
  · split
    · exact ((s.setAxis_steady a _).trans (State.foundHome_steady _ a)).trans (ends _ _)
    · exact (s.setAxis_steady a _).trans (ends _ _)
  · exact .refl s

theorem State.stopAxis_steady : Steady s (s.stopAxis a) := by
  simp only [State.stopAxis]
  split
  · exact s.park_steady a _ _
  · exact s.stopMotion_steady a _
  · exact s.setAxis_steady a _
  all_goals exact .refl s

theorem State.clearLockout_steady : Steady s (s.clearLockout a) := by
  simp only [State.clearLockout]
  split
  · exact (s.setAxis_steady a _).trans (State.tellInterlocks_steady _ a)
  · exact .refl s

theorem State.pulse_steady : Steady s (s.pulse a) := by
  simp only [State.pulse]
  split
  · exact ((s.setAxis_steady a _).trans (State.moveTo_steady _ a _)).trans (State.testEnds_steady _ a _)
  · exact s.moveTo_steady a _

/-! ### Budget -/

theorem State.reduceLoads_steady : Steady s s.reduceLoads := s.shedAlong_steady _ _

theorem State.abandonWarned_steady : Steady s s.abandonWarned := Steady.foldl State.abandon_steady _ s

theorem State.reduceTwoSteps_steady : Steady s s.reduceTwoSteps := by
  have two : Steady s s.reduceLoads.abandonWarned := s.reduceLoads_steady.trans (State.abandonWarned_steady _)
  simp only [State.reduceTwoSteps]
  split
  · exact s.reduceLoads_steady.trans (State.setBudget_steady _ _)
  · split
    · exact (two.trans (State.setBudget_steady _ _)).trans (State.restorePass_steady _)
    · exact two

theorem State.reduce_steady : Steady s s.reduce := by
  simp only [State.reduce]
  split
  · exact s.reduceTwoSteps_steady
  · exact s.reduceTwoSteps_steady.trans (State.setBudget_steady _ _)

theorem State.applyBudget_steady (v : Nat) : Steady s (s.applyBudget v) := by
  simp only [State.applyBudget]
  split
  · exact ((s.setBudget_steady _).trans (State.setBudget_steady _ _)).trans (State.restorePass_steady _)
  · exact (s.setBudget_steady _).trans (State.reduce_steady _)

/-! ### Expiries of an axis -/

theorem State.ramp_steady : Steady s (s.ramp a) := by
  rcases s.ramp_cases a with ⟨_, e⟩ | ⟨_, _, e⟩ | ⟨_, _, e⟩ <;> rw [e]
  · exact .refl s
  · exact s.setAxis_steady a _
  · exact s.setAxis_steady a _

theorem State.brakeSettled_steady : Steady s (s.brakeSettled a) := by
  rcases s.brakeSettled_cases a with ⟨_, e⟩ | ⟨_, e⟩ <;> rw [e]
  · exact .refl s
  · exact s.park_steady a _ _

theorem State.confirmWindow_steady : Steady s (s.confirmWindow a) := by
  rcases s.confirmWindow_cases a with ⟨_, e⟩ | ⟨_, e⟩ <;> rw [e]
  · exact .refl s
  · split
    · exact s.setAxis_steady a _
    · exact s.noLoadLockout_steady a

theorem State.pulseWatchEnd_steady : Steady s (s.pulseWatchEnd a) := by
  rcases s.pulseWatchEnd_cases a with ⟨_, e⟩ | ⟨_, e⟩ <;> rw [e]
  · exact .refl s
  · exact s.stall_steady a

theorem State.overCurrentEnd_steady : Steady s (s.overCurrentEnd a) := by
  rcases s.overCurrentEnd_cases a with ⟨_, e⟩ | ⟨_, e⟩ <;> rw [e]
  · exact .refl s
  · exact s.stall_steady a

theorem State.retryTests_steady {s t : State} {a : AxisNo} {p : Pending} (h : s.retryTests a = .retry t p) :
    Steady s t := by
  simp only [State.retryTests] at h
  repeat' split at h
  all_goals cases h
  exact State.grant_steady (by assumption)

theorem State.restOver_steady : Steady s (s.restOver a) := by
  have one := s.setAxis_steady a { s.axis a with restRemaining := none }
  simp only [State.restOver]
  split
  · rename_i h; exact (one.trans (State.retryTests_steady h)).trans (State.enterWarn_steady _ a _)
  · exact one.trans (State.park_steady _ a _ _)
  · split
    · exact (one.trans (State.park_steady _ a _ _)).trans (State.setNotices_steady _ _)
    · exact one.trans (State.park_steady _ a _ _)

theorem State.restEnd_steady : Steady s (s.restEnd a) := by
  rcases s.restEnd_cases a with ⟨_, e⟩ | ⟨_, e⟩ <;> rw [e]
  · exact .refl s
  · exact s.restOver_steady a

theorem State.markEnd_steady : Steady s (s.markEnd a) := by
  rcases s.markEnd_cases a with ⟨_, e⟩ | ⟨_, e⟩ <;> rw [e]
  · exact .refl s
  · exact s.setChannel_steady a _

theorem State.cycleEnd_steady : Steady s (s.cycleEnd a) := by
  rcases s.cycleEnd_cases a with ⟨_, e⟩ | ⟨c, _, _, e⟩ <;> rw [e]
  · exact .refl s
  · simp only
    split
    · exact (s.setChannel_steady a _).trans (State.enterRun_steady _ a)
    · exact s.setChannel_steady a _

end

end Sys2Proof.Machine

namespace Sys2Proof.Machine

/-! ## The laws of claims, scenes, stacks and interlock entries -/

/-- The laws of `every_step_keeps_claims_and_scenes` but for the reply queue (R21, R22, R80, R91, R160). -/
structure State.Tables (s : State) : Prop where
  claimRoom : s.ClaimRoomLaw
  coverage : s.CoverageLaw
  stack : s.StackLaw
  entry : s.EntryLaw

/-- What the owner of a request and every event but a reset keep: the waiting replies, and the laws of the tables. -/
structure Keeps (s t : State) : Prop where
  busReplies : t.busReplies = s.busReplies
  linkReply : t.linkReply = s.linkReply
  tables : s.Tables → t.Tables

theorem Keeps.refl (s : State) : Keeps s s := ⟨rfl, rfl, id⟩

theorem Keeps.trans {s t u : State} (h : Keeps s t) (k : Keeps t u) : Keeps s u :=
  ⟨k.busReplies.trans h.busReplies, k.linkReply.trans h.linkReply, fun x => k.tables (h.tables x)⟩

theorem SameConfigs.space {s t : State} (h : SameConfigs s t) (n : LoadNo) : (t.load n).space = (s.load n).space := by
  rw [h n]

/-! ### The claims -/

theorem eq_of_length_filter_le_one {α : Type} {p : α → Bool} {l : List α} (h : (l.filter p).length ≤ 1) {x y : α}
    (hx : x ∈ l) (hy : y ∈ l) (px : p x = true) (py : p y = true) : x = y := by
  have mx : x ∈ l.filter p := List.mem_filter.2 ⟨hx, px⟩
  have my : y ∈ l.filter p := List.mem_filter.2 ⟨hy, py⟩
  match h' : l.filter p with
  | [] => simp [h'] at mx
  | [z] => rw [h', List.mem_singleton] at mx my; rw [mx, my]
  | _ :: _ :: _ => simp [h'] at h

theorem length_filter_le_one {α : Type} {p : α → Bool} {l : List α} (hl : l.Nodup)
    (h : ∀ x ∈ l, ∀ y ∈ l, p x = true → p y = true → x = y) : (l.filter p).length ≤ 1 := by
  have nd := hl.filter p
  match h' : l.filter p with
  | [] => simp
  | [_] => simp
  | x :: y :: rest =>
    have mx : x ∈ l ∧ p x = true := List.mem_filter.1 (by rw [h']; simp)
    have my : y ∈ l ∧ p y = true := List.mem_filter.1 (by rw [h']; simp)
    rw [h', List.nodup_cons] at nd
    exact absurd (by rw [h x mx.1 y my.1 mx.2 my.2]; simp) nd.1

/-- A claim covers load n exactly when it is on the load or on its space (R22). -/
theorem State.coversLoad_iff (s : State) (n : LoadNo) (c : Claim) :
    s.coversLoad n c = true ↔ c.target = .load n ∨ c.target = .space (s.load n).space := by
  simp [State.coversLoad]

/-- R22 in terms of the targets alone: no target twice, and no load claimed in a claimed space. -/
theorem State.coverageLaw_iff (s : State) :
    s.CoverageLaw ↔ (s.claims.map Claim.target).Nodup
      ∧ ∀ n, .load n ∈ s.claims.map Claim.target → .space (s.load n).space ∉ s.claims.map Claim.target := by
  constructor
  · rintro ⟨loads, -, nodup⟩
    refine ⟨nodup, fun n hn hp => ?_⟩
    obtain ⟨c, hc, ec⟩ := List.mem_map.1 hn
    obtain ⟨d, hd, ed⟩ := List.mem_map.1 hp
    have e : c = d := eq_of_length_filter_le_one (loads n) hc hd ((s.coversLoad_iff n c).2 (.inl ec))
      ((s.coversLoad_iff n d).2 (.inr ed))
    rw [e, ed] at ec
    cases ec
  · rintro ⟨nodup, apart⟩
    have inj := List.inj_on_of_nodup_map nodup
    refine ⟨fun n => length_filter_le_one nodup.of_map fun c hc d hd pc pd => inj hc hd ?_,
      fun a => length_filter_le_one nodup.of_map fun c hc d hd pc pd => inj hc hd ?_, nodup⟩
    · have mc := List.mem_map_of_mem (f := Claim.target) hc
      have md := List.mem_map_of_mem (f := Claim.target) hd
      rw [s.coversLoad_iff] at pc pd
      rcases pc with pc | pc <;> rcases pd with pd | pd <;> rw [pc, pd] <;> rw [pc] at mc <;> rw [pd] at md
      · exact absurd md (apart n mc)
      · exact absurd mc (apart n md)
    · rw [beq_iff_eq] at pc pd; rw [pc, pd]

/-- Claims retired or renewed, no new target coming up, keep R22. -/
theorem State.CoverageLaw.of_targets {s t : State} (h : s.CoverageLaw)
    (hc : (t.claims.map Claim.target).Sublist (s.claims.map Claim.target))
    (hs : ∀ n, (t.load n).space = (s.load n).space) : t.CoverageLaw := by
  rw [State.coverageLaw_iff] at h ⊢
  refine ⟨h.1.sublist hc, fun n hn hp => ?_⟩
  rw [hs] at hp
  exact h.2 n (hc.subset hn) (hc.subset hp)

theorem State.ClaimRoomLaw.of_targets {s t : State} (h : s.ClaimRoomLaw)
    (hc : (t.claims.map Claim.target).Sublist (s.claims.map Claim.target)) : t.ClaimRoomLaw := by
  have := hc.length_le
  simp only [List.length_map] at this
  exact this.trans h

/-! ### Scenes and return stacks -/

/-- A frame as R91 bounds it on the stack of space p. -/
def State.FrameOk (s : State) (p : SpaceNo) (f : StackFrame) : Prop :=
  1 ≤ f.length ∧ f.length ≤ 12 ∧ (f.map Prod.fst).Nodup ∧ ∀ x ∈ f, (s.load x.1).space = p

theorem State.StackLaw.congr {s t : State} (h : s.StackLaw) (hv : t.scenes = s.scenes)
    (hr : t.returnStacks = s.returnStacks) (hs : ∀ n, (t.load n).space = (s.load n).space) : t.StackLaw := by
  simpa only [State.StackLaw, State.scene, State.returnStack, hv, hr, hs] using h

theorem State.StackLaw.setScene {s : State} (h : s.StackLaw) (v : SceneNo) {x : Scene}
    (hx : x.entries.length ≤ 12 ∧ (x.entries.map Prod.fst).Nodup) : (s.setScene v x).StackLaw := by
  refine ⟨fun w => ?_, h.2⟩
  rw [State.scene_setScene]
  split
  · exact hx
  · exact h.1 w

theorem State.StackLaw.setReturnStack {s : State} (h : s.StackLaw) (p : SpaceNo) {x : List StackFrame}
    (hl : x.length ≤ 6) (hx : ∀ f ∈ x, s.FrameOk p f) : (s.setReturnStack p x).StackLaw := by
  refine ⟨h.1, fun q => ?_⟩
  rw [State.returnStack_setReturnStack]
  split
  · rename_i e; subst e; exact ⟨hl, hx⟩
  · exact h.2 q

/-- With every stack empty only the scenes matter (R93). -/
theorem State.stackLaw_of_empty {s t : State} (h : s.StackLaw) (hv : ∀ v, (t.scene v).entries = (s.scene v).entries)
    (hr : ∀ p, t.returnStack p = []) : t.StackLaw :=
  ⟨fun v => by rw [hv]; exact h.1 v, fun p => by simp [hr]⟩

theorem State.EntryLaw.congr {s t : State} (h : s.EntryLaw) (hi : t.interlocks = s.interlocks) : t.EntryLaw := by
  intro p e; rw [State.interlock_congr hi]; exact h p e

/-! ### Events that keep the tables -/

/-- An event under which targets are at most given up, and scenes, stacks and entries stand. -/
theorem Keeps.of_targets {s t : State} (hb : t.busReplies = s.busReplies) (hl : t.linkReply = s.linkReply)
    (hc : (t.claims.map Claim.target).Sublist (s.claims.map Claim.target)) (hv : t.scenes = s.scenes)
    (hr : t.returnStacks = s.returnStacks) (hi : t.interlocks = s.interlocks)
    (hs : ∀ n, (t.load n).space = (s.load n).space) : Keeps s t :=
  ⟨hb, hl, fun h => ⟨h.claimRoom.of_targets hc, h.coverage.of_targets hc hs, h.stack.congr hv hr hs, h.entry.congr hi⟩⟩

theorem MachineRun.keeps {s t : State} (h : MachineRun s t) : Keeps s t := by
  obtain ⟨only, configs⟩ := h
  refine .of_targets ?_ ?_ (by rw [only.claims]) ?_ ?_ only.interlocks configs.space <;> rw [only]

theorem Steady.keeps {s t : State} (h : Steady s t) : Keeps s t := h.toMachineRun.keeps

theorem State.setClaims_keeps {s : State} {cs : List Claim}
    (h : (cs.map Claim.target).Sublist (s.claims.map Claim.target)) : Keeps s (s.setClaims cs) :=
  .of_targets rfl rfl h rfl rfl rfl fun _ => rfl

theorem State.retire_keeps (s : State) (p : Claim → Bool) : Keeps s (s.setClaims (s.claims.filter p)) :=
  State.setClaims_keeps (List.filter_sublist.map _)

theorem State.setAxisIn_keeps (s : State) (a : AxisNo) (x : AxisInputs) : Keeps s (s.setAxisIn a x) :=
  .of_targets rfl rfl (.refl _) rfl rfl rfl fun _ => rfl

theorem State.setOutput_keeps (s : State) (n : LoadNo) (x : Output) : Keeps s (s.setOutput n x) :=
  .of_targets rfl rfl (.refl _) rfl rfl rfl fun _ => rfl

theorem State.setRunState_keeps (s : State) (r : RunState) : Keeps s (s.setRunState r) :=
  .of_targets rfl rfl (.refl _) rfl rfl rfl fun _ => rfl

theorem State.driveOutputs_keeps (s : State) : Keeps s s.driveOutputs :=
  .of_targets rfl rfl (.refl _) rfl rfl rfl fun _ => rfl

theorem State.clearStacks_keeps (s : State) : Keeps s s.clearStacks :=
  ⟨rfl, rfl, fun h => ⟨h.claimRoom, h.coverage,
    State.stackLaw_of_empty h.stack (fun _ => rfl) fun p => by simp [State.clearStacks, State.returnStack], h.entry⟩⟩

theorem State.setScene_keeps (s : State) (v : SceneNo) {x : Scene}
    (hx : s.Tables → x.entries.length ≤ 12 ∧ (x.entries.map Prod.fst).Nodup) : Keeps s (s.setScene v x) :=
  ⟨rfl, rfl, fun h => ⟨h.claimRoom, h.coverage, h.stack.setScene v (hx h), h.entry⟩⟩

theorem State.setReturnStack_keeps (s : State) (p : SpaceNo) {x : List StackFrame}
    (hx : s.Tables → x.length ≤ 6 ∧ ∀ f ∈ x, s.FrameOk p f) : Keeps s (s.setReturnStack p x) :=
  ⟨rfl, rfl, fun h => ⟨h.claimRoom, h.coverage, h.stack.setReturnStack p (hx h).1 (hx h).2, h.entry⟩⟩

theorem State.setInterlock_keeps (s : State) (p : PlaceNo) {x : Option Interlock}
    (hx : ∀ e, x = some e → e.condition ≠ e.subject) : Keeps s (s.setInterlock p x) :=
  ⟨rfl, rfl, fun h => ⟨h.claimRoom, h.coverage, h.stack, fun q e he => by
    rw [State.interlock_setInterlock] at he
    split at he
    · exact hx e he
    · exact h.entry q e he⟩⟩

end Sys2Proof.Machine

namespace Sys2Proof.Machine

/-! ### What an owner answers -/

/-- The codes that the Dispatcher alone gives: those of the settle interval, of admission and of the run state (R12, R14). -/
def ReplyCode.ofDispatcher : ReplyCode → Bool
  | .notReady | .unknownStation | .wrongState => true
  | _ => false

/-- What the owner of a request answers: none of the Dispatcher's own codes, no record changed by a refusal (R8), and the
tables and the waiting replies kept. -/
structure Answers (s : State) (d : Decision) : Prop where
  keeps : Keeps s d.2
  code : ReplyCode.ofDispatcher d.1.code = false
  refused : 16 ≤ ReplyCode.number d.1.code → d.2 = s

theorem Answers.unchanged {s : State} {b : ReplyBody} (h : ReplyCode.ofDispatcher b.code = false) : Answers s (b, s) :=
  ⟨.refl s, h, fun _ => rfl⟩

theorem Answers.refuse {s : State} {c : ReplyCode} (h : ReplyCode.ofDispatcher c = false) : Answers s (s.refuse c) := .unchanged h

/-- A request carried out: its code is one of those below 16 (Table 1-6). -/
theorem Answers.carried {s t : State} {b : ReplyBody} (hb : ReplyCode.number b.code < 16) (h : Keeps s t) : Answers s (b, t) := by
  refine ⟨h, ?_, fun h16 => absurd hb (Nat.not_lt.2 h16)⟩
  cases hc : b.code <;> simp_all [ReplyCode.number, ReplyCode.ofDispatcher]

theorem Answers.done {s t : State} (h : Keeps s t) : Answers s t.done := .carried (by decide) h

theorem Tally.reply_number (k : Tally) : ReplyCode.number k.reply.code < 16 := by
  simp only [Tally.reply, ReplyBody.code]
  split
  · decide
  · split <;> decide

/-! ### CLAIM, RENEW, RELEASE and the expiry of a lease -/

theorem Claim.renewed_target (c : Claim) (lease : Nat) : (c.renewed lease).target = c.target := by
  simp only [Claim.renewed]; split <;> rfl

theorem State.renewClaim_keeps (s : State) (o : Origin) (t : ClaimTarget) (lease : Nat) : Keeps s (s.renewClaim o t lease) := by
  apply State.setClaims_keeps
  have : ∀ c : Claim, (if c.target = t ∧ c.holder = o then c.renewed lease else c).target = c.target := by
    intro c; split
    · exact c.renewed_target lease
    · rfl
  simp [Function.comp_def, this]

theorem State.tellHeldAxis_steady (s : State) (t : ClaimTarget) (er : EndReason) : Steady s (s.tellHeldAxis t er) := by
  simp only [State.tellHeldAxis]
  split
  · exact s.claimEnded_steady _ er
  · exact .refl s

theorem State.releaseClaim_keeps (s : State) (o : Origin) (t : ClaimTarget) : Keeps s (s.releaseClaim o t) := s.retire_keeps _

theorem State.expireLease_keeps (s : State) (t : ClaimTarget) : Keeps s (s.expireLease t) := by
  rcases s.expireLease_cases t with ⟨_, e⟩ | ⟨_, e⟩ <;> rw [e]
  · exact .refl s
  · exact (s.retire_keeps _).trans (State.tellHeldAxis_steady _ t _).keeps

theorem State.ownClaim_eq_none {s : State} {o : Origin} {t : ClaimTarget} (h : ¬ (s.ownClaim o t).isSome) {c : Claim}
    (hc : c ∈ s.claims) (ht : c.target = t) : c.holder ≠ o := by
  intro ho
  refine h (List.find?_isSome.2 ⟨c, hc, ?_⟩)
  simp [ht, ho]

/-- The claims left standing by a CLAIM on t are none of them on what t takes in (R29, R31), where the requester has no
claim on t itself, nor, for a load, on its space. -/
theorem State.overlaps_left {s : State} {o : Origin} {t : ClaimTarget} (own : ¬ (s.ownClaim o t).isSome)
    (space : ∀ n, t = .load n → ¬ (s.ownClaim o (.space (s.load n).space)).isSome) {c : Claim} (hc : c ∈ s.claims)
    (out : c ∉ s.conflicts o t) (folded : c ∉ s.foldedIn o t) : s.overlaps t c = false := by
  by_contra ho
  rw [Bool.not_eq_false] at ho
  by_cases hh : c.holder = o
  · have ne : c.target ≠ t := fun e => State.ownClaim_eq_none own hc e hh
    cases t with
    | axis a => simp [State.overlaps] at ho; exact ne ho
    | load n =>
      cases hct : c.target with
      | space p =>
        simp only [State.overlaps, hct, Bool.or_eq_true, beq_iff_eq, reduceCtorEq, false_or] at ho
        exact State.ownClaim_eq_none (space n rfl) hc (by rw [hct, ho]) hh
      | load m => simp [State.overlaps, hct] at ho; exact ne (by rw [hct, ho])
      | axis a => simp [State.overlaps, hct] at ho
    | space p =>
      cases hct : c.target with
      | load n =>
        simp only [State.overlaps, hct, Bool.or_eq_true, beq_iff_eq, reduceCtorEq, false_or] at ho
        exact folded (by simp [State.foldedIn, hc, hh, hct, ho])
      | space q => simp [State.overlaps, hct] at ho; exact ne (by rw [hct, ho])
      | axis a => simp [State.overlaps, hct] at ho
  · exact out (by simp [State.conflicts, hc, hh, ho])

/-- A new claim on t beside claims that are on nothing t takes in keeps R22. -/
theorem State.CoverageLaw.append {s t : State} {cs : List Claim} {c : Claim} (h : s.CoverageLaw) (hc : cs.Sublist s.claims)
    (free : ∀ d ∈ cs, s.overlaps c.target d = false) (ht : t.claims = cs ++ [c])
    (hs : ∀ n, (t.load n).space = (s.load n).space) : t.CoverageLaw := by
  rw [State.coverageLaw_iff] at h ⊢
  rw [ht, List.map_append, List.map_singleton]
  have old := hc.map Claim.target
  refine ⟨List.nodup_append.2 ⟨h.1.sublist old, by simp, ?_⟩, fun n hn hp => ?_⟩
  · intro x hx y hy e
    obtain ⟨d, hd, ed⟩ := List.mem_map.1 hx
    rw [List.mem_singleton] at hy
    have := free d hd
    simp [State.overlaps, ed, e, hy] at this
  · rw [hs] at hp
    rw [List.mem_append, List.mem_singleton] at hn hp
    rcases hn with hn | hn <;> rcases hp with hp | hp
    · exact h.2 n (old.subset hn) (old.subset hp)
    · obtain ⟨d, hd, ed⟩ := List.mem_map.1 hn
      have := free d hd
      simp [State.overlaps, ed, ← hp] at this
    · obtain ⟨d, hd, ed⟩ := List.mem_map.1 hp
      have := free d hd
      simp [State.overlaps, ed, ← hn] at this
    · rw [← hn] at hp; cases hp

/-- The claims a CLAIM leaves, but for the new one. -/
def State.claimsLeft (s : State) (o : Origin) (t : ClaimTarget) : List Claim :=
  (s.claims.filter fun c => !(s.conflicts o t).contains c).filter fun c => !(s.foldedIn o t).contains c

/-- The part once the claims that stand in the way of a CLAIM on t are retired, and a pre-empted axis is told (R31). -/
def State.preempt (s : State) (o : Origin) (t : ClaimTarget) : State :=
  let s1 := s.setClaims (s.claims.filter fun c => !(s.conflicts o t).contains c)
  match t with
  | .axis a => if s.conflicts o t = [] then s1 else s1.claimEnded a .preEmpted
  | _ => s1

theorem State.preempt_steady (s : State) (o : Origin) (t : ClaimTarget) :
    Steady (s.setClaims (s.claims.filter fun c => !(s.conflicts o t).contains c)) (s.preempt o t) := by
  simp only [State.preempt]
  split
  · split
    · exact .refl _
    · exact State.claimEnded_steady _ _ _
  · exact .refl _

/-- All that a CLAIM carried out does (R31): the pre-empted axis responds, and the claims are those left and the new one. -/
theorem State.makeClaim_eq (s : State) (o : Origin) (t : ClaimTarget) (lease : Nat) :
    s.makeClaim o t lease = (s.preempt o t).setClaims (s.claimsLeft o t
      ++ [{ target := t, holder := o, rank := s.rankOf o, lease := leaseGranted (ClaimTarget.kind t) (s.rankOf o) lease }]) := by
  have claims : (s.preempt o t).claims = s.claims.filter fun c => !(s.conflicts o t).contains c :=
    (s.preempt_steady o t).only.claims
  rw [State.claimsLeft, ← claims]
  rfl

/-- Where the table is full, what a CLAIM retires makes room for the new claim (R30, R31). -/
theorem State.claimsLeft_length {s : State} {o : Origin} {t : ClaimTarget} (h : s.ClaimRoomLaw)
    (room : ¬ (s.conflicts o t = [] ∧ s.foldedIn o t = [] ∧ 32 ≤ s.claims.length)) : (s.claimsLeft o t).length < 32 := by
  have lt : ∀ c ∈ s.claims, c ∈ s.conflicts o t ∨ c ∈ s.foldedIn o t → (s.claimsLeft o t).length < s.claims.length := by
    intro c hc hgone
    rw [State.claimsLeft, List.filter_filter]
    refine List.length_filter_lt_length_iff_exists.2 ⟨c, hc, ?_⟩
    rcases hgone with hgone | hgone <;> simp [hgone]
  have le : (s.claimsLeft o t).length ≤ s.claims.length :=
    (List.filter_sublist.trans List.filter_sublist).length_le
  have room32 : s.claims.length ≤ 32 := h
  by_cases hout : s.conflicts o t = []
  · by_cases hin : s.foldedIn o t = []
    · have : ¬ 32 ≤ s.claims.length := fun h32 => room ⟨hout, hin, h32⟩
      omega
    · obtain ⟨c, hc⟩ := List.exists_mem_of_ne_nil _ hin
      have mem : c ∈ s.claims := by
        cases t <;> simp only [State.foldedIn, List.not_mem_nil] at hc
        exact List.mem_of_mem_filter hc
      have := lt c mem (.inr hc)
      omega
  · obtain ⟨c, hc⟩ := List.exists_mem_of_ne_nil _ hout
    have := lt c (List.mem_of_mem_filter hc) (.inl hc)
    omega

theorem State.makeClaim_keeps {s : State} {o : Origin} {t : ClaimTarget} (lease : Nat)
    (own : ¬ (s.ownClaim o t).isSome)
    (space : ∀ n, t = .load n → ¬ (s.ownClaim o (.space (s.load n).space)).isSome)
    (room : ¬ (s.conflicts o t = [] ∧ s.foldedIn o t = [] ∧ 32 ≤ s.claims.length)) : Keeps s (s.makeClaim o t lease) := by
  have steady := s.preempt_steady o t
  have kept := (s.retire_keeps _).trans steady.keeps
  have sub : (s.claimsLeft o t).Sublist s.claims := List.filter_sublist.trans List.filter_sublist
  rw [s.makeClaim_eq o t lease]
  refine ⟨kept.busReplies, kept.linkReply, fun h => ⟨?_, ?_, ?_, ?_⟩⟩
  · have := State.claimsLeft_length h.claimRoom room
    simp only [State.ClaimRoomLaw, State.setClaims_claims, List.length_append, List.length_singleton]
    omega
  · refine h.coverage.append sub (fun d hd => ?_) rfl (fun n => steady.configs.space n)
    simp only [State.claimsLeft, List.mem_filter, Bool.not_eq_true', List.contains_eq_mem, decide_eq_false_iff_not] at hd
    exact State.overlaps_left own space hd.1.1 hd.1.2 hd.2
  · exact (kept.tables h).stack.congr rfl rfl fun _ => rfl
  · exact (kept.tables h).entry.congr rfl

/-! ### SET_LEVEL, RECALL_SCENE and RETURN_SCENE -/

theorem LoadRun.space {s t : State} (h : LoadRun s t) (n : LoadNo) : (t.load n).space = (s.load n).space := by
  rw [(h.changes n).config]

/-- The pairs of a request on many loads name loads of its entries that no state of the run skips, in their order. -/
theorem applyEntries_pairs (skip : State → LoadNo → Bool) (fade : Nat) (es : List (LoadNo × Nat)) (k : Tally) (s : State) :
    ∃ new : StackFrame, (applyEntries skip fade es k s).1.pairs = k.pairs ++ new
      ∧ (new.map Prod.fst).Sublist (es.map Prod.fst)
      ∧ ∀ x ∈ new, ∃ t, LoadRun s t ∧ skip t x.1 = false := by
  induction es generalizing k s with
  | nil => exact ⟨[], by simp [applyEntries]⟩
  | cons e es ih =>
    obtain ⟨n, v⟩ := e
    simp only [applyEntries]
    by_cases hs : skip s n = true
    · rw [if_pos hs]
      obtain ⟨new, h1, h2, h3⟩ := ih { k with skipped := k.skipped + 1 } s
      exact ⟨new, h1, h2.trans (List.sublist_cons_self _ _), h3⟩
    · rw [if_neg hs]
      obtain ⟨new, h1, h2, h3⟩ := ih (if (s.setLevelOn n v fade).2
        then { k with applied := k.applied + 1, pairs := k.pairs ++ [(n, (s.load n).setTarget)] }
        else { k with limited := k.limited + 1, pairs := k.pairs ++ [(n, (s.load n).setTarget)] }) (s.setLevelOn n v fade).1
      refine ⟨(n, (s.load n).setTarget) :: new, ?_, by simpa using h2, ?_⟩
      · rw [h1]; split <;> simp
      · intro x hx
        rcases List.mem_cons.1 hx with e | hx
        · exact ⟨s, .refl s, by rw [e]; simpa using hs⟩
        · obtain ⟨t, run, ht⟩ := h3 x hx
          exact ⟨t, (s.setLevelOn_run n v fade).trans run, ht⟩

/-- A frame made of the pairs of a recall is as R91 bounds it. -/
theorem State.pushFrame_ok {s : State} {p : SpaceNo} {stack : List StackFrame} {f : StackFrame} (hf : s.FrameOk p f)
    (h : ∀ g ∈ stack, s.FrameOk p g) : (pushFrame stack f).length ≤ 6 ∧ ∀ g ∈ pushFrame stack f, s.FrameOk p g := by
  refine ⟨by simp [pushFrame], fun g hg => ?_⟩
  rcases List.mem_cons.1 (List.mem_of_mem_take hg) with e | hg
  · rw [e]; exact hf
  · exact h g hg

theorem State.recall_answers (s : State) (o : Origin) (v : SceneNo) (fade : Nat) : Answers s (s.recall o v fade) := by
  simp only [State.recall]
  split
  · exact .refuse rfl
  · refine .carried (Tally.reply_number _) ?_
    set es := (s.scene v).entries
    set f := recallFade fade (s.scene v).defaultFade
    have run := applyEntries_run (State.entrySkipped o (sceneSpace v)) f es Tally.zero s
    obtain ⟨new, pairs, sub, reached⟩ := applyEntries_pairs (State.entrySkipped o (sceneSpace v)) f es Tally.zero s
    rw [show Tally.zero.pairs ++ new = new from rfl] at pairs
    rw [pairs]
    set t := (applyEntries (State.entrySkipped o (sceneSpace v)) f es Tally.zero s).2
    show Keeps s (if new = [] then t else t.setReturnStack (sceneSpace v) (pushFrame (t.returnStack (sceneSpace v)) new))
    split
    · exact run.machineRun.keeps
    · rename_i some
      refine run.machineRun.keeps.trans (t.setReturnStack_keeps _ fun h => State.pushFrame_ok ?_ (h.stack.2 _).2)
      have scene : t.scene v = s.scene v := by rw [run.only]; rfl
      obtain ⟨le, nodup⟩ := h.stack.1 v
      rw [scene] at le nodup
      refine ⟨List.length_pos_iff.2 some, ?_, nodup.sublist sub, fun x hx => ?_⟩
      · have := sub.length_le
        simp only [List.length_map] at this
        exact this.trans le
      · obtain ⟨w, runw, skip⟩ := reached x hx
        simp only [State.entrySkipped, Bool.or_eq_false_iff, bne_eq_false_iff_eq] at skip
        rw [run.space, ← runw.space]
        exact skip.1.2

theorem State.returnScene_answers (s : State) (o : Origin) (p : SpaceNo) (fade : Nat) :
    Answers s (s.returnScene o p fade) := by
  simp only [State.returnScene]
  split
  · exact .unchanged rfl
  · rename_i f rest hf
    refine .carried (Tally.reply_number _) ((s.setReturnStack_keeps p fun h => ?_).trans (applyEntries_run _ _ _ _ _).machineRun.keeps)
    obtain ⟨le, ok⟩ := h.stack.2 p
    rw [hf] at le ok
    exact ⟨by simp only [List.length_cons] at le; omega, fun g hg => ok g (List.mem_cons_of_mem _ hg)⟩

theorem State.setLevels_answers (s : State) (o : Origin) (t : Target) (level fade : Nat) :
    Answers s (s.setLevels o t level fade) := by
  have many : ∀ es, let r := applyEntries (State.locked o) fade es Tally.zero s; Answers s (r.1.reply, r.2) := fun es =>
    .carried (Tally.reply_number _) (applyEntries_run _ _ es _ s).machineRun.keeps
  simp only [State.setLevels]
  split
  · split
    · exact .unchanged rfl
    · exact many _
  · split
    · exact .refuse rfl
    · exact many _

/-! ### WRITE_SCENE -/

/-- Good entries of a WRITE_SCENE stay distinct as load numbers (R83). -/
theorem sceneEntries_nodup {es : List (Nat × Nat)} (h : ∀ e ∈ es, e.1 ≤ 95) (nd : (es.map Prod.fst).Nodup) :
    ((sceneEntries es).map Prod.fst).Nodup := by
  have e : (sceneEntries es).map Prod.fst = (es.map Prod.fst).map (Fin.ofNat 96) := by simp [sceneEntries]
  rw [e]
  refine List.Nodup.map_on (fun x hx y hy hxy => ?_) nd
  obtain ⟨a, ha, ea⟩ := List.mem_map.1 hx
  obtain ⟨b, hb, eb⟩ := List.mem_map.1 hy
  have h1 := h a ha
  have h2 := h b hb
  have := congrArg Fin.val hxy
  simp only [Fin.ofNat_eq_cast, Fin.val_natCast] at this
  omega

theorem State.decideWriteScene_answers (s : State) (v : SceneNo) (f : SceneFields) : Answers s (s.decideWriteScene v f) := by
  simp only [State.decideWriteScene]
  split
  · exact .refuse rfl
  · split
    · exact .refuse rfl
    · rename_i ok
      simp only [State.sceneFieldsOk, Bool.not_eq_false, Bool.and_eq_true, decide_eq_true_eq, List.all_eq_true] at ok
      obtain ⟨⟨⟨⟨len, -⟩, range⟩, nodup⟩, -⟩ := ok
      refine .done ((s.setScene_keeps v fun _ => ⟨by simpa [sceneEntries] using len, ?_⟩).trans
        (State.setReturnStack_keeps _ _ fun _ => ⟨by simp, by simp⟩))
      exact sceneEntries_nodup (fun e he => (range e he).1) nodup

theorem State.ownScene_keeps (s : State) (v : SceneNo) (w : Owner) : Keeps s (s.ownScene v w) :=
  s.setScene_keeps v fun h => h.stack.1 v

/-! ### WRITE_LOAD -/

/-- All that the retirement of a moved load's claim does (R37): claims are at most given up, and the load is not claimed
in a claimed space. -/
theorem State.retireMoved_eq (t : State) (n : LoadNo) : ∃ cs, t.retireMoved n = t.setClaims cs ∧ cs.Sublist t.claims
    ∧ (.load n ∈ cs.map Claim.target → .space (t.load n).space ∉ cs.map Claim.target) := by
  simp only [State.retireMoved, Bool.and_eq_true, List.any_eq_true, beq_iff_eq]
  split
  · refine ⟨_, rfl, List.filter_sublist, fun hn => ?_⟩
    obtain ⟨c, mem, ec⟩ := List.mem_map.1 hn
    simp [ec] at mem
  · rename_i no
    refine ⟨t.claims, rfl, .refl _, fun hn hp => no ⟨?_, ?_⟩⟩
    · simpa using hn
    · simpa using hp

/-- A write that moves one load, empties the stacks and, where the load came into a claimed space, retires its own claim,
keeps the tables (R37, R93). -/
theorem State.moveLoad_keeps {s t : State} {n : LoadNo} (hb : t.busReplies = s.busReplies)
    (hl : t.linkReply = s.linkReply) (hc : t.claims = s.claims) (hv : t.scenes = s.scenes)
    (hr : ∀ p, t.returnStack p = []) (hi : t.interlocks = s.interlocks)
    (hs : ∀ m, m ≠ n → (t.load m).space = (s.load m).space) :
    Keeps s (if (t.load n).space ≠ (s.load n).space then t.retireMoved n else t) := by
  have eq : ∃ cs, (if (t.load n).space ≠ (s.load n).space then t.retireMoved n else t) = t.setClaims cs
      ∧ cs.Sublist s.claims ∧ ((t.load n).space ≠ (s.load n).space →
        .load n ∈ cs.map Claim.target → .space (t.load n).space ∉ cs.map Claim.target) := by
    split
    · obtain ⟨cs, e, sub, apart⟩ := t.retireMoved_eq n
      exact ⟨cs, e, hc ▸ sub, fun _ => apart⟩
    · rename_i stays
      exact ⟨t.claims, rfl, hc ▸ .refl _, fun moved => absurd moved stays⟩
  obtain ⟨cs, e, sub, apart⟩ := eq
  rw [e]
  refine ⟨hb, hl, fun h => ⟨h.claimRoom.of_targets (sub.map _), ?_,
    State.stackLaw_of_empty h.stack (fun v => by simp only [State.scene, State.setClaims_scenes, hv]) hr, h.entry.congr hi⟩⟩
  have h' := h.coverage.of_targets (t := s.setClaims cs) (sub.map _) fun _ => rfl
  rw [State.coverageLaw_iff] at h' ⊢
  refine ⟨h'.1, fun m hm => ?_⟩
  show ClaimTarget.space (t.load m).space ∉ cs.map Claim.target
  by_cases moved : (t.load m).space = (s.load m).space
  · rw [moved]; exact h'.2 m hm
  · have : m = n := Classical.byContradiction fun ne => moved (hs m ne)
    subst this
    exact apart moved hm

theorem LoadRec.trim_config (l : LoadRec) (c : Nat) : (l.trim c).toLoadConfig = l.toLoadConfig := by
  simp only [LoadRec.trim]
  split
  · rfl
  · simp only [LoadRec.recount_config]; split <;> simp
  · split <;> simp

theorem State.reduceInDeficit_run (s : State) (n : LoadNo) (c start : Nat) : MachineRun s (s.reduceInDeficit n c start) := by
  have two := s.reduceTwoSteps_steady.toMachineRun
  simp only [State.reduceInDeficit]
  split
  · exact two
  · refine two.trans (MachineRun.trans (t := if start < s.reduceTwoSteps.budget.committed
      then s.reduceTwoSteps.storeLoad n ((s.reduceTwoSteps.load n).trim c) else s.reduceTwoSteps) ?_
      (State.setBudget_steady _ _).toMachineRun)
    split
    · refine ⟨(State.storeLoad_only _ _ _ _).machines, fun m => ?_⟩
      rw [State.load_storeLoad]
      split
      · rename_i e; rw [e, LoadRec.trim_config]
      · rfl
    · exact .refl _

end Sys2Proof.Machine

namespace Sys2Proof.Machine

theorem State.writeLoad_keeps (s : State) (n : LoadNo) (c : LoadConfig) : Keeps s (s.writeLoad n c) := by
  unfold State.writeLoad
  extract_lets l l' s1 s2 s3 s4 s5
  have only2 : OnlyMachines s1 s2 := by
    by_cases h : (l.shed && !l'.shed) = true
    · rw [show s2 = _ from if_pos h]; rfl
    · rw [show s2 = _ from if_neg h]; rfl
  have only3 : OnlyMachines s2 s3 := by
    by_cases h : c.kind = .none
    · rw [show s3 = _ from if_pos h]; rfl
    · rw [show s3 = _ from if_neg h]; rfl
  have only : OnlyMachines s1 s4 := (only2.trans only3).trans (State.storeLoad_only _ _ _ _).machines
  have load : ∀ m, s4.load m = if m = n then l' else s.load m := by
    intro m
    have loads2 : s2.loads = s.loads := by
      by_cases h : (l.shed && !l'.shed) = true
      · rw [show s2 = _ from if_pos h]; rfl
      · rw [show s2 = _ from if_neg h]; rfl
    have loads3 : s3.loads = s2.loads := by
      by_cases h : c.kind = .none
      · rw [show s3 = _ from if_pos h]; rfl
      · rw [show s3 = _ from if_neg h]
    show (s3.storeLoad n l' _).load m = _
    rw [State.load_storeLoad, State.load_congr (loads3.trans loads2)]
  have moved : Keeps s s5 := by
    have h : Keeps s (if (s4.load n).space ≠ (s.load n).space then s4.retireMoved n else s4) := by
      refine State.moveLoad_keeps ?_ ?_ only.claims ?_ (fun p => ?_) only.interlocks fun m hm => by rw [load, if_neg hm]
      · rw [only]; rfl
      · rw [only]; rfl
      · rw [only]; rfl
      · have e : s4.returnStacks = s1.returnStacks := by rw [only]
        simp only [State.returnStack, e]
        exact get_replicate _ _
    rw [load, if_pos rfl] at h
    exact h
  split
  · exact moved.trans s5.answerFall_steady.keeps
  · split
    · split
      · exact moved.trans (s5.reduceInDeficit_run n _ _).keeps
      · split
        · exact moved
        · exact moved.trans s5.reduce_steady.keeps
    · exact moved

theorem State.decideWriteLoad_answers (s : State) (n : LoadNo) (f : LoadFields) : Answers s (s.decideWriteLoad n f) := by
  simp only [State.decideWriteLoad]
  split
  · exact .refuse rfl
  split
  · exact .refuse rfl
  · exact .done (s.writeLoad_keeps n _)

/-! ### Claims, axes, tables and run control at their owners -/

theorem State.decideClaim_answers (s : State) (o : Origin) (t : ClaimTarget) (k : ClaimKind) (lease : Nat) :
    Answers s (s.decideClaim o t k lease) := by
  simp only [State.decideClaim]
  split_ifs with kind own space stands room
  · exact .refuse rfl
  · exact .done (s.renewClaim_keeps o t lease)
  · exact .done (.refl s)
  · exact .unchanged rfl
  · exact .refuse rfl
  · exact .done (State.makeClaim_keeps lease own (fun n e => by subst e; exact space) room)

theorem State.decideRenew_answers (s : State) (o : Origin) (t : ClaimTarget) (lease : Nat) :
    Answers s (s.decideRenew o t lease) := by
  simp only [State.decideRenew]
  split
  · exact .done (s.renewClaim_keeps o t lease)
  · exact .refuse rfl

theorem State.decideRelease_answers (s : State) (o : Origin) (t : ClaimTarget) : Answers s (s.decideRelease o t) := by
  simp only [State.decideRelease]
  split
  · exact .done ((s.releaseClaim_keeps o t).trans (State.tellHeldAxis_steady _ t _).keeps)
  · exact .refuse rfl

theorem State.startMove_answers (s : State) (o : Origin) (a : AxisNo) (d : Direction) (position : Nat) :
    Answers s (s.startMove o a d position) := by
  simp only [State.startMove]
  split
  · exact .refuse rfl
  split
  · exact .refuse rfl
  split
  · exact .refuse rfl
  · rename_i h; exact .carried (by decide) ((State.grant_steady h).trans (State.enterWarn_steady _ a _)).keeps

theorem State.decideMove_answers (s : State) (o : Origin) (a : AxisNo) (d : Direction) (position : Nat) :
    Answers s (s.decideMove o a d position) := by
  have replaced : Steady s (s.replaceTarget a position) := s.setAxis_steady a _
  simp only [State.decideMove]
  split
  · exact .refuse rfl
  split
  · exact .refuse rfl
  · exact .refuse rfl
  · exact .refuse rfl
  · split
    · exact .done replaced.keeps
    · exact .refuse rfl
  · split
    · exact .done (replaced.trans (State.testEnds_steady _ a _)).keeps
    · exact .refuse rfl
  · exact s.startMove_answers o a d position

theorem State.decideWriteAxis_answers (s : State) (a : AxisNo) (f : AxisFields) : Answers s (s.decideWriteAxis a f) := by
  simp only [State.decideWriteAxis]
  split
  · exact .refuse rfl
  split
  · exact .refuse rfl
  · exact .done (s.setAxis_steady a _).keeps

theorem State.decideWriteSignal_answers (s : State) (a : AxisNo) (p : Pattern) : Answers s (s.decideWriteSignal a p) := by
  simp only [State.decideWriteSignal]
  split
  · exact .done (s.setChannel_steady a _).keeps
  · exact .refuse rfl

theorem State.tellIfLost_steady (lost : List Claim) (s : State) (a : AxisNo) : Steady s (s.tellIfLost lost a) := by
  simp only [State.tellIfLost]
  split
  · exact s.claimEnded_steady a _
  · exact .refl s

theorem State.writeStation_keeps (s : State) (p : Fin 62) (e : Option Station) : Keeps s (s.writeStation p e) := by
  have stations : Keeps s { s with stations := s.stations.set p e } := .of_targets rfl rfl (.refl _) rfl rfl rfl fun _ => rfl
  exact (stations.trans (State.retire_keeps _ _)).trans (Steady.foldl (State.tellIfLost_steady _) _ _).keeps

theorem State.decideWriteStation_answers (s : State) (f : StationFields) : Answers s (s.decideWriteStation f) := by
  simp only [State.decideWriteStation]
  split
  · exact .refuse rfl
  · exact .done (s.writeStation_keeps _ _)

theorem State.blockSubject_steady (s : State) (e : Interlock) : Steady s (s.blockSubject e) := by
  simp only [State.blockSubject]
  split
  · exact (s.blockCore_steady _).trans (State.tellInterlocks_steady _ _)
  · exact .refl s

/-- A WRITE_INTERLOCK with good values writes no entry that watches its own subject (R160). -/
theorem interlockEntry_apart {f : InterlockFields} {p : PlaceNo} {x : Interlock}
    (h : interlockEntry f = some (p, some x)) : x.condition ≠ x.subject := by
  simp only [interlockEntry] at h
  split at h
  · split at h
    · split at h
      · split at h
        · cases h
        · rename_i bad
          simp only [Option.some.injEq, Prod.mk.injEq] at h
          intro same
          rw [← h.2] at same
          exact bad (.inl (congrArg Fin.val same))
      · cases h
    · simp at h
  · cases h

theorem State.decideWriteInterlock_answers (s : State) (f : InterlockFields) : Answers s (s.decideWriteInterlock f) := by
  simp only [State.decideWriteInterlock]
  split
  · exact .refuse rfl
  · rename_i p e h
    have written : Keeps s (s.setInterlock p e) :=
      s.setInterlock_keeps p fun x hx => interlockEntry_apart (by rw [h, hx])
    cases e with
    | none => exact .done written
    | some x => exact .done (written.trans (State.blockSubject_steady _ x).keeps)

theorem State.decideSetBudget_answers (s : State) (v : Nat) : Answers s (s.decideSetBudget v) := by
  simp only [State.decideSetBudget]
  split
  · exact .refuse rfl
  · exact .done (s.applyBudget_steady v).keeps

theorem State.readNotice_answers (s : State) : Answers s s.readNotice :=
  .carried (by show 0 < 16; decide) (State.setNotices_steady s _).keeps

theorem State.viewOf_answers (s : State) (t : Target) : Answers s (s.viewOf t) := by
  cases t <;> exact .unchanged rfl

theorem State.haltPart_keeps (s : State) : Keeps s s.haltPart :=
  (((Steady.foldl State.axisHalt_steady allAxes s).keeps.trans (State.setClaims_keeps (by simp))).trans
    (State.clearStacks_keeps _)).trans (State.setRunState_keeps _ _)

/-! ### Inputs, the clock and the end of the settle interval -/

theorem State.homeFound_keeps (s : State) (a : AxisNo) : Keeps s (s.homeFound a) :=
  (s.setAxisIn_keeps a _).trans ((State.foundHome_steady _ a).trans (State.testEnds_steady _ a _)).keeps

theorem State.edgePressed_keeps (s : State) (a : AxisNo) : Keeps s (s.edgePressed a) := by
  refine (s.setAxisIn_keeps a { s.axisIn a with edge := true }).trans (Steady.keeps ?_)
  set t := s.setAxisIn a { s.axisIn a with edge := true }
  show Steady t (match (t.axis a).state with
    | .warn => (t.park a .obstructed).raiseAxisFault
    | .run => (t.quickStop a .obstructed).raiseAxisFault
    | .stopping => if 0 < (t.axis a).speed
        then t.setAxis a { t.axis a with speed := 0, rampTimer := none, brakeTimer := some brakeSettleMs } else t
    | .rest | .parked | .lockout => t)
  split
  · exact (t.park_steady a _ _).trans (State.setNotices_steady _ _)
  · exact (t.quickStop_steady a _).trans (State.setNotices_steady _ _)
  · split
    · exact t.setAxis_steady a _
    · exact .refl t
  all_goals exact .refl t

theorem State.setCurrent_keeps (s : State) (a : AxisNo) (v : Nat) : Keeps s (s.setCurrent a v) :=
  (s.setAxisIn_keeps a _).trans (State.setAxis_steady _ a _).keeps

theorem State.endPeriod_keeps (s : State) (n : LoadNo) : Keeps s (s.endPeriod n) := by
  rcases s.endPeriod_cases n with ⟨_, e⟩ | ⟨_, e⟩ <;> rw [e]
  · exact .refl s
  · exact s.setOutput_keeps n _

theorem State.settleOver_keeps (s : State) : Keeps s s.settleOver := by
  rcases s.settleOver_cases with ⟨_, e⟩ | ⟨k, _, e⟩ <;> rw [e]
  · exact .refl s
  · have begun : Keeps s { s with
        settle := none, outputs := mapTable (fun x => { x with period := some outputPeriodMs }) s.outputs } :=
      .of_targets rfl rfl (.refl _) rfl rfl rfl fun _ => rfl
    cases k with
    | powerOn => exact begun
    | warm => exact begun.trans (LoadRun.foldl State.fadeInLoad_run _ _).machineRun.keeps

theorem State.tick_keeps (s : State) : Keeps s s.tick := by
  refine .of_targets rfl rfl ?_ rfl rfl rfl fun n => ?_
  · simp [State.tick, Function.comp_def]
  · simp [State.load, State.tick, LoadRec.tick]

theorem State.endSource_keeps (s : State) (source : ResetSource) : Keeps s (s.endSource source).startSettle := by
  have ended : Keeps s (s.endSource source) := by
    cases source <;> exact .of_targets rfl rfl (.refl _) rfl rfl rfl fun _ => rfl
  refine ended.trans ?_
  simp only [State.startSettle]
  split
  · exact .of_targets rfl rfl (.refl _) rfl rfl rfl fun _ => rfl
  · exact .refl _

end Sys2Proof.Machine

namespace Sys2Proof.Machine

/-! ## The Request Dispatcher -/

/-! ### Ports -/

section
variable (s : State) (o : Origin)

@[simp] theorem State.endReceipt_settle : (s.endReceipt o).settle = s.settle := by simp only [State.endReceipt]; split <;> rfl
@[simp] theorem State.endReceipt_device : (s.endReceipt o).device = s.device := by simp only [State.endReceipt]; split <;> rfl
@[simp] theorem State.endReceipt_stations : (s.endReceipt o).stations = s.stations := by
  simp only [State.endReceipt]; split <;> rfl
@[simp] theorem State.endReceipt_claims : (s.endReceipt o).claims = s.claims := by simp only [State.endReceipt]; split <;> rfl
@[simp] theorem State.endReceipt_loads : (s.endReceipt o).loads = s.loads := by simp only [State.endReceipt]; split <;> rfl
@[simp] theorem State.endReceipt_outputs : (s.endReceipt o).outputs = s.outputs := by
  simp only [State.endReceipt]; split <;> rfl
@[simp] theorem State.endReceipt_budget : (s.endReceipt o).budget = s.budget := by simp only [State.endReceipt]; split <;> rfl
@[simp] theorem State.endReceipt_notices : (s.endReceipt o).notices = s.notices := by
  simp only [State.endReceipt]; split <;> rfl
@[simp] theorem State.endReceipt_axes : (s.endReceipt o).axes = s.axes := by simp only [State.endReceipt]; split <;> rfl
@[simp] theorem State.endReceipt_channels : (s.endReceipt o).channels = s.channels := by
  simp only [State.endReceipt]; split <;> rfl
@[simp] theorem State.endReceipt_interlocks : (s.endReceipt o).interlocks = s.interlocks := by
  simp only [State.endReceipt]; split <;> rfl
@[simp] theorem State.endReceipt_busReplies : (s.endReceipt o).busReplies = s.busReplies := by
  simp only [State.endReceipt]; split <;> rfl
@[simp] theorem State.endReceipt_linkReply : (s.endReceipt o).linkReply = s.linkReply := by
  simp only [State.endReceipt]; split <;> rfl
@[simp] theorem State.endReceipt_hasRoom (o' : Origin) : (s.endReceipt o).hasRoom o' = s.hasRoom o' := by
  simp only [State.hasRoom, State.endReceipt_busReplies, State.endReceipt_linkReply]
@[simp] theorem State.endReceipt_station (o' : Origin) : (s.endReceipt o).station o' = s.station o' := by
  simp only [State.station, State.endReceipt_stations]
@[simp] theorem State.endReceipt_load (n : LoadNo) : (s.endReceipt o).load n = s.load n := State.load_congr (by simp) n

theorem State.endReceipt_keeps : Keeps s (s.endReceipt o) := by
  simp only [State.endReceipt]; split <;> exact .of_targets rfl rfl (.refl _) rfl rfl rfl fun _ => rfl

/-- The port has room for a reply (R6). -/
theorem State.hasRoom_iff : s.hasRoom o = true ↔ if o = 0 then s.linkReply = none else s.busReplies.length < 4 := by
  simp only [State.hasRoom]; split <;> simp

/-- Where the outputs are what the records give, a reply and the end of a receipt leave them so. -/
theorem State.OutputLaw.reply {s : State} (h : s.OutputLaw) (kind : Byte) (b : ReplyBody) :
    ((s.endReceipt o).postReply o kind b).OutputLaw := by
  have e := congrArg (fun t : State => (t.endReceipt o).postReply o kind b) h
  by_cases h0 : o = 0
  · simp only [State.OutputLaw, State.postReply, State.endReceipt, h0, if_true] at e ⊢
    exact e
  · simp only [State.OutputLaw, State.postReply, State.endReceipt, h0, if_false] at e ⊢
    exact e

end

/-- A request whose body fits a frame and whose port has room is decided and answered (R1, R6). -/
theorem serve_decided {s : State} {o : Origin} {kind : Byte} {body : List Byte} {f : State → Decision}
    (room : s.hasRoom o = true) (fits : body.length ≤ 60) :
    serve o kind body f s = .next ((f (s.endReceipt o)).2.answered o kind (f (s.endReceipt o)).1) := by
  simp [serve, room, fits, State.complete, State.answered]

/-- Without room, or with a body that fits no frame, it is dropped (R1, R6). -/
theorem serve_dropped {s : State} {o : Origin} {kind : Byte} {body : List Byte} {f : State → Decision}
    (h : s.hasRoom o = false ∨ 60 < body.length) : serve o kind body f s = .next (s.endReceipt o) := by
  have : ¬ (body.length ≤ 60 ∧ s.hasRoom o = true) := by
    rintro ⟨fits, room⟩
    rcases h with h | h
    · rw [h] at room; cases room
    · omega
  simp [serve, this]

/-- The reply of an answered request, on the port it arrived by (R6). -/
theorem State.answered_reply (t : State) (o : Origin) (kind : Byte) (b : ReplyBody) :
    (if o = 0 then (t.answered o kind b).linkReply else (t.answered o kind b).busReplies.getLast?)
      = some (replyTo o kind b) := by
  simp only [State.answered, State.postReply]
  split <;> simp

/-! ### Admission and the checks up to the target -/

theorem State.admission_settling {s : State} (o : Origin) (h : s.settle ≠ none) : s.admission o = some .notReady := by
  simp [State.admission, State.inSettle, Option.isSome_iff_ne_none.2 h]

theorem State.admission_unknown {s : State} {o : Origin} (h : s.settle = none) (ho : o ≠ 0) (hs : s.station o = none) :
    s.admission o = some .unknownStation := by
  simp [State.admission, State.inSettle, h, ho, hs]

theorem State.admission_known {s : State} {o : Origin} (h : s.settle = none) (ho : o = 0 ∨ s.station o ≠ none) :
    s.admission o = none := by
  have : ¬ (o ≠ 0 ∧ s.station o = none) := by tauto
  simp only [State.admission, State.inSettle, h, Option.isSome_none, Bool.false_eq_true, if_false, if_neg this]

theorem decideBody_refused {α : Type} {k : ReqKind} {o : Origin} {parsed : Option α} {owner : α → State → Decision}
    {s : State} {c : ReplyCode} (h : s.admission o = some c) : decideBody k o parsed owner s = s.refuse c := by
  simp [decideBody, h]

theorem decideBody_screened {α : Type} {k : ReqKind} {o : Origin} {parsed : Option α} {owner : α → State → Decision}
    {s : State} {c : ReplyCode} (h : s.admission o = none) (hc : s.screen k o parsed.isSome = some c) :
    decideBody k o parsed owner s = s.refuse c := by
  simp [decideBody, h, hc]

/-- A request that passes the screen has a good body, which its owner decides (R13, R14). -/
theorem decideBody_owned {α : Type} {k : ReqKind} {o : Origin} {parsed : Option α} {owner : α → State → Decision}
    {s : State} (h : s.admission o = none) (hc : s.screen k o parsed.isSome = none) :
    ∃ x, parsed = some x ∧ decideBody k o parsed owner s = owner x s := by
  cases parsed with
  | some x => exact ⟨x, rfl, by rw [Option.isSome_some] at hc; simp [decideBody, h, hc]⟩
  | none => simp only [State.screen, Option.isSome_none] at hc; split at hc <;> simp at hc

/-- A kind that Table 1-3 leaves to management has a code of 16 or more. -/
theorem ReqKind.managementOnly_iff (k : ReqKind) : k.managementOnly = true ↔ 16 ≤ k.code.toNat := by
  cases k <;> decide

theorem ReqKind.haltedOnly_iff (k : ReqKind) :
    k.haltedOnly = true ↔ k = .writeLoad ∨ k = .writeAxis ∨ k = .writeInterlock := by
  cases k <;> decide

/-- The screen lets a request through to its owner where `State.Takes` says so and its body is good. -/
theorem State.Takes.screen {s : State} {k : ReqKind} {o : Origin} (h : s.Takes k o) : s.screen k o true = none := by
  have management : ¬ (k.managementOnly = true ∧ o ≠ 0) := fun e => e.2 (h.origin e.1)
  have halted : ¬ (s.device.runState = .halted ∧ o ≠ 0 ∧ k ≠ .query) := by
    rintro ⟨hr, ho, hk⟩
    rcases h.halted hr with e | e
    · exact ho e
    · exact hk e
  have running : ¬ (s.device.runState = .running ∧ k.haltedOnly = true) := by
    rintro ⟨hr, hk⟩
    rw [h.running hr] at hk
    cases hk
  simp only [State.screen, if_neg management, Bool.true_eq_false, if_false, if_neg halted, if_neg running]

theorem State.Takes.admission {s : State} {k : ReqKind} {o : Origin} (h : s.Takes k o) : s.admission o = none :=
  State.admission_known h.settled h.known

theorem State.Takes.endReceipt {s : State} {k : ReqKind} {o : Origin} (h : s.Takes k o) : (s.endReceipt o).Takes k o :=
  ⟨by simpa using h.settled, by simpa using h.room, by simpa using h.known, h.origin, by simpa using h.halted,
   by simpa using h.running⟩

/-! ### The target -/

/-- The target is a load of kind NONE, and the kind may not name one (R15). -/
def State.unconfigured (s : State) (k : ReqKind) (t : Target) : Bool :=
  match t with
  | .load n => (s.load n).kind == .none && !ReqKind.namesAnyLoad k
  | _ => false

theorem State.checkTarget_class {s : State} {k : ReqKind} {o : Origin} {x : RawTarget} (h : x.cls ∉ k.classes) :
    s.checkTarget k o x = .error .badTarget := by simp [State.checkTarget, h]

theorem State.checkTarget_value {s : State} {k : ReqKind} {o : Origin} {x : RawTarget} (h : x.typed = none) :
    s.checkTarget k o x = .error .badTarget := by simp [State.checkTarget, h]

/-- The checks of a target of a listed class and a value in range (R15). -/
theorem State.checkTarget_typed {s : State} {k : ReqKind} {o : Origin} {x : RawTarget} {t : Target}
    (hc : x.cls ∈ k.classes) (ht : x.typed = some t) :
    s.checkTarget k o x = if s.unconfigured k t = true then .error .badTarget
      else if s.permitted k o t = false then .error .notPermitted else .ok t := by
  simp only [State.checkTarget, ht, hc, not_true_eq_false, if_false]
  cases t <;> rfl

theorem State.checkTarget_ok {s : State} {k : ReqKind} {o : Origin} {x : RawTarget} {t : Target}
    (hc : x.cls ∈ k.classes) (ht : x.typed = some t) (hu : s.unconfigured k t = false) (hp : s.permitted k o t = true) :
    s.checkTarget k o x = .ok t := by
  simp [State.checkTarget_typed hc ht, hu, hp]

theorem State.checkTarget_error {s : State} {k : ReqKind} {o : Origin} {x : RawTarget} {c : ReplyCode}
    (h : s.checkTarget k o x = .error c) : c = .badTarget ∨ c = .notPermitted := by
  by_cases hc : x.cls ∈ k.classes
  · cases ht : x.typed with
    | none => rw [State.checkTarget_value ht] at h; exact .inl (Except.error.inj h).symm
    | some t =>
      rw [State.checkTarget_typed hc ht] at h
      split_ifs at h
      · exact .inl (Except.error.inj h).symm
      · exact .inr (Except.error.inj h).symm
  · rw [State.checkTarget_class hc] at h; exact .inl (Except.error.inj h).symm

/-- A body begins with the three bytes of a target (R4). -/
def Carries (body : List Byte) (x : RawTarget) : Prop :=
  ∃ c hi lo rest, body = c :: hi :: lo :: rest ∧ readTarget c hi lo = some x

section
variable {body : List Byte} {x : RawTarget}

theorem readTargetBody_carries {y : Unit} (h : readTargetBody body = some (x, y)) : Carries body x := by
  unfold readTargetBody at h
  split at h
  · obtain ⟨t, ht, e⟩ := Option.map_eq_some_iff.1 h
    cases e; exact ⟨_, _, _, _, rfl, ht⟩
  · cases h

theorem readTargetWord_carries {y : Nat} (h : readTargetWord body = some (x, y)) : Carries body x := by
  unfold readTargetWord at h
  split at h
  · obtain ⟨t, ht, e⟩ := Option.map_eq_some_iff.1 h
    cases e; exact ⟨_, _, _, _, rfl, ht⟩
  · cases h

theorem readSetLevel_carries {y : Nat × Nat} (h : readSetLevel body = some (x, y)) : Carries body x := by
  unfold readSetLevel at h
  split at h
  · obtain ⟨t, ht, e⟩ := Option.map_eq_some_iff.1 h
    cases e; exact ⟨_, _, _, _, rfl, ht⟩
  · cases h

theorem readClaim_carries {y : ClaimKind × Nat} (h : readClaim body = some (x, y)) : Carries body x := by
  unfold readClaim at h
  split at h
  · obtain ⟨t, ht, h⟩ := Option.bind_eq_some_iff.1 h
    obtain ⟨_, _, e⟩ := Option.map_eq_some_iff.1 h
    cases e; exact ⟨_, _, _, _, rfl, ht⟩
  · cases h

theorem readMove_carries {y : Direction × Nat} (h : readMove body = some (x, y)) : Carries body x := by
  unfold readMove at h
  split at h
  · obtain ⟨t, ht, h⟩ := Option.bind_eq_some_iff.1 h
    obtain ⟨_, _, e⟩ := Option.map_eq_some_iff.1 h
    cases e; exact ⟨_, _, _, _, rfl, ht⟩
  · cases h

theorem readWriteLoad_carries {y : LoadFields} (h : readWriteLoad body = some (x, y)) : Carries body x := by
  unfold readWriteLoad at h
  split at h
  · obtain ⟨t, ht, h⟩ := Option.bind_eq_some_iff.1 h
    obtain ⟨_, _, e⟩ := Option.map_eq_some_iff.1 h
    cases e; exact ⟨_, _, _, _, rfl, ht⟩
  · cases h

theorem readWriteAxis_carries {y : AxisFields} (h : readWriteAxis body = some (x, y)) : Carries body x := by
  unfold readWriteAxis at h
  split at h
  · obtain ⟨t, ht, e⟩ := Option.map_eq_some_iff.1 h
    cases e; exact ⟨_, _, _, _, rfl, ht⟩
  · cases h

theorem readWriteSignal_carries {y : Pattern} (h : readWriteSignal body = some (x, y)) : Carries body x := by
  unfold readWriteSignal at h
  split at h
  · obtain ⟨t, ht, h⟩ := Option.bind_eq_some_iff.1 h
    obtain ⟨_, _, e⟩ := Option.map_eq_some_iff.1 h
    cases e; exact ⟨_, _, _, _, rfl, ht⟩
  · cases h

theorem readWriteScene_carries {y : SceneFields} (h : readWriteScene body = some (x, y)) : Carries body x := by
  unfold readWriteScene at h
  split at h
  · split at h
    · obtain ⟨t, ht, e⟩ := Option.map_eq_some_iff.1 h
      cases e; exact ⟨_, _, _, _, rfl, ht⟩
    · cases h
  · cases h

end

/-! ### Every kind -/

/-- A request of a kind whose body carries a target (Table 1-3): the body is read as R4 and R5 say, and the owner named by
the kind answers. -/
theorem exec_targeted {k : ReqKind} (hk : k.classes ≠ []) (o : Origin) (body : List Byte) :
    ∃ (α : Type) (parsed : Option (RawTarget × α)) (owner : Target → α → State → Decision),
      parsed.isSome = k.bodyOk body ∧ (∀ x y, parsed = some (x, y) → Carries body x)
      ∧ (∀ s, exec (k.request o body) s = serve o k.code body (decideTarget k o parsed owner) s)
      ∧ ∀ t x s, Answers s (owner t x s) := by
  have refused : ∀ s : State, Answers s (s.refuse .badTarget) := fun _ => .refuse rfl
  cases k with
  | query => exact ⟨_, _, _, rfl, fun _ _ => readTargetBody_carries, fun _ => rfl, fun t _ s => s.viewOf_answers t⟩
  | setLevel => exact ⟨_, _, _, rfl, fun _ _ => readSetLevel_carries, fun _ => rfl, fun t x s => s.setLevels_answers o t x.1 x.2⟩
  | recallScene =>
    refine ⟨_, _, _, rfl, fun _ _ => readTargetWord_carries, fun _ => rfl, fun t fade s => ?_⟩
    cases t with
    | scene v => exact s.recall_answers o v fade
    | _ => exact refused s
  | returnScene =>
    refine ⟨_, _, _, rfl, fun _ _ => readTargetWord_carries, fun _ => rfl, fun t fade s => ?_⟩
    cases t with
    | space p => exact s.returnScene_answers o p fade
    | _ => exact refused s
  | claim =>
    refine ⟨_, _, _, rfl, fun _ _ => readClaim_carries, fun _ => rfl, fun t x s => ?_⟩
    cases claimTargetOf t with
    | some ct => exact s.decideClaim_answers o ct x.1 x.2
    | none => exact refused s
  | renew =>
    refine ⟨_, _, _, rfl, fun _ _ => readTargetWord_carries, fun _ => rfl, fun t lease s => ?_⟩
    cases claimTargetOf t with
    | some ct => exact s.decideRenew_answers o ct lease
    | none => exact refused s
  | release =>
    refine ⟨_, _, _, rfl, fun _ _ => readTargetBody_carries, fun _ => rfl, fun t _ s => ?_⟩
    cases claimTargetOf t with
    | some ct => exact s.decideRelease_answers o ct
    | none => exact refused s
  | move =>
    refine ⟨_, _, _, rfl, fun _ _ => readMove_carries, fun _ => rfl, fun t x s => ?_⟩
    cases t with
    | axis a => exact s.decideMove_answers o a x.1 x.2
    | _ => exact refused s
  | stop =>
    refine ⟨_, _, _, rfl, fun _ _ => readTargetBody_carries, fun _ => rfl, fun t _ s => ?_⟩
    cases t with
    | axis a => exact .done (s.stopAxis_steady a).keeps
    | _ => exact refused s
  | writeLoad =>
    refine ⟨_, _, _, rfl, fun _ _ => readWriteLoad_carries, fun _ => rfl, fun t f s => ?_⟩
    cases t with
    | load n => exact s.decideWriteLoad_answers n f
    | _ => exact refused s
  | writeAxis =>
    refine ⟨_, _, _, rfl, fun _ _ => readWriteAxis_carries, fun _ => rfl, fun t f s => ?_⟩
    cases t with
    | axis a => exact s.decideWriteAxis_answers a f
    | _ => exact refused s
  | writeSignal =>
    refine ⟨_, _, _, rfl, fun _ _ => readWriteSignal_carries, fun _ => rfl, fun t p s => ?_⟩
    cases t with
    | axis a => exact s.decideWriteSignal_answers a p
    | _ => exact refused s
  | takeScene =>
    refine ⟨_, _, _, rfl, fun _ _ => readTargetBody_carries, fun _ => rfl, fun t _ s => ?_⟩
    cases t with
    | scene v => exact .done (s.ownScene_keeps v .management)
    | _ => exact refused s
  | writeScene =>
    refine ⟨_, _, _, rfl, fun _ _ => readWriteScene_carries, fun _ => rfl, fun t f s => ?_⟩
    cases t with
    | scene v => exact s.decideWriteScene_answers v f
    | _ => exact refused s
  | giveScene =>
    refine ⟨_, _, _, rfl, fun _ _ => readTargetBody_carries, fun _ => rfl, fun t _ s => ?_⟩
    cases t with
    | scene v => exact .done (s.ownScene_keeps v .live)
    | _ => exact refused s
  | clearLockout =>
    refine ⟨_, _, _, rfl, fun _ _ => readTargetBody_carries, fun _ => rfl, fun t _ s => ?_⟩
    cases t with
    | axis a => exact .done (s.clearLockout_steady a).keeps
    | _ => exact refused s
  | writeStation | writeInterlock | setBudget | start | halt | readNotice => exact absurd rfl hk

/-- A request of any kind is served by deciding its body, which is good as R4 and R5 say, and its owner answers. -/
theorem exec_request (k : ReqKind) (o : Origin) (body : List Byte) :
    ∃ (α : Type) (parsed : Option α) (owner : α → State → Decision), parsed.isSome = k.bodyOk body
      ∧ (∀ s, exec (k.request o body) s = serve o k.code body (decideBody k o parsed owner) s)
      ∧ ∀ x s, Answers s (owner x s) := by
  by_cases hk : k.classes ≠ []
  · obtain ⟨α, parsed, owner, ok, -, run, answers⟩ := exec_targeted hk o body
    refine ⟨_, parsed, _, ok, run, fun x s => ?_⟩
    split
    · rename_i c hc
      rcases State.checkTarget_error hc with e | e <;> subst e <;> exact .refuse rfl
    · exact answers _ _ s
  · cases k with
    | writeStation => exact ⟨_, _, _, rfl, fun _ => rfl, fun f s => s.decideWriteStation_answers f⟩
    | writeInterlock => exact ⟨_, _, _, rfl, fun _ => rfl, fun f s => s.decideWriteInterlock_answers f⟩
    | setBudget => exact ⟨_, _, _, rfl, fun _ => rfl, fun v s => s.decideSetBudget_answers v⟩
    | start => exact ⟨_, _, _, rfl, fun _ => rfl, fun _ s => .done (s.setRunState_keeps .running)⟩
    | halt => exact ⟨_, _, _, rfl, fun _ => rfl, fun _ s => .done s.haltPart_keeps⟩
    | readNotice => exact ⟨_, _, _, rfl, fun _ => rfl, fun _ s => s.readNotice_answers⟩
    | _ => exact absurd (by simp [ReqKind.classes]) hk

/-- What deciding a body comes to (R12 to R14): a refusal by the Dispatcher with one of its codes, or the owner's answer. -/
theorem decideBody_cases {α : Type} {k : ReqKind} {o : Origin} {parsed : Option α} {owner : α → State → Decision}
    (h : ∀ x s, Answers s (owner x s)) (s : State) :
    (∃ c, decideBody k o parsed owner s = s.refuse c) ∨ Answers s (decideBody k o parsed owner s) := by
  cases ha : s.admission o with
  | some c => exact .inl ⟨c, decideBody_refused ha⟩
  | none =>
    cases hc : s.screen k o parsed.isSome with
    | some c => exact .inl ⟨c, decideBody_screened ha hc⟩
    | none =>
      obtain ⟨x, -, e⟩ := decideBody_owned (owner := owner) ha hc
      rw [e]; exact .inr (h x s)

/-- However a body is decided, the tables and the waiting replies are kept, and a refusal changes no record (R8). -/
theorem decideBody_keeps {α : Type} {k : ReqKind} {o : Origin} {parsed : Option α} {owner : α → State → Decision}
    (h : ∀ x s, Answers s (owner x s)) (s : State) :
    Keeps s (decideBody k o parsed owner s).2
      ∧ (16 ≤ ReplyCode.number (decideBody k o parsed owner s).1.code → (decideBody k o parsed owner s).2 = s) := by
  rcases decideBody_cases (k := k) (o := o) (parsed := parsed) h s with ⟨c, e⟩ | answers
  · rw [e]; exact ⟨.refl s, fun _ => rfl⟩
  · exact ⟨answers.keeps, answers.refused⟩

end Sys2Proof.Machine

namespace Sys2Proof.Machine

/-! ## Every step keeps the tables and the reply queue -/

/-- The laws of `every_step_keeps_claims_and_scenes` together. -/
def State.Bounded (s : State) : Prop := s.QueueLaw ∧ s.Tables

theorem Keeps.bounded {s t : State} (h : Keeps s t) (hs : s.Bounded) : t.Bounded :=
  ⟨by rw [State.QueueLaw, h.busReplies]; exact hs.1, h.tables hs.2⟩

/-- A reply posted where there is room leaves the queue within its bound (R6). -/
theorem State.postReply_bounded {s : State} {o : Origin} (kind : Byte) (b : ReplyBody) (room : s.hasRoom o = true)
    (hs : s.Bounded) : (s.postReply o kind b).Bounded := by
  obtain ⟨queue, tables⟩ := hs
  rw [State.hasRoom_iff] at room
  by_cases h0 : o = 0
  · simp only [State.postReply, h0, if_true]
    exact ⟨queue, tables.claimRoom, tables.coverage, tables.stack, tables.entry⟩
  · simp only [State.postReply, h0, if_false] at room ⊢
    refine ⟨?_, tables.claimRoom, tables.coverage, tables.stack, tables.entry⟩
    show (s.busReplies ++ [_]).length ≤ 4
    simp only [List.length_append, List.length_singleton]
    omega

theorem complete_bounded {s u t : State} (hs : s.Bounded) (h : Keeps s u) (ht : u.complete = .next t) : t.Bounded := by
  cases ht
  exact (h.trans u.driveOutputs_keeps).bounded hs

theorem serve_bounded {s t : State} {o : Origin} {kind : Byte} {body : List Byte} {f : State → Decision} (hs : s.Bounded)
    (hf : ∀ r, Keeps r (f r).2) (ht : serve o kind body f s = .next t) : t.Bounded := by
  have ended := (s.endReceipt_keeps o).bounded hs
  by_cases h : body.length ≤ 60 ∧ s.hasRoom o = true
  · rw [serve_decided h.2 h.1] at ht
    cases ht
    have decided := hf (s.endReceipt o)
    have room : (f (s.endReceipt o)).2.hasRoom o = true := by
      rw [State.hasRoom, decided.busReplies, decided.linkReply]
      simpa [State.hasRoom] using h.2
    exact (State.driveOutputs_keeps _).bounded (State.postReply_bounded _ _ room (decided.bounded ended))
  · have dropped : s.hasRoom o = false ∨ 60 < body.length := by
      by_cases fits : body.length ≤ 60
      · exact .inl (by simpa using fun room => h ⟨fits, room⟩)
      · exact .inr (by omega)
    rw [serve_dropped dropped] at ht
    cases ht
    exact ended

theorem request_bounded {s t : State} (hs : s.Bounded) (k : ReqKind) (o : Origin) (body : List Byte)
    (ht : exec (k.request o body) s = .next t) : t.Bounded := by
  obtain ⟨α, parsed, owner, -, run, answers⟩ := exec_request k o body
  rw [run] at ht
  exact serve_bounded hs (fun r => (decideBody_keeps answers r).1) ht

theorem refuseKind_eq (o : Origin) (s : State) : ∃ c, State.refuseKind o s = s.refuse c := by
  simp only [State.refuseKind]; split
  · exact ⟨_, rfl⟩
  · exact ⟨_, rfl⟩

/-- The command of a request is the meaning of its kind (Table 1-3). -/
theorem exec_eq_execRequest (k : ReqKind) (o : Origin) (body : List Byte) (s : State) :
    exec (k.request o body) s = execRequest k o body s := by cases k <;> rfl

theorem unknownKind_bounded {s t : State} (hs : s.Bounded) (o : Origin) (kind : Byte) (body : List Byte)
    (ht : execUnknownKind o kind body s = .next t) : t.Bounded := by
  unfold execUnknownKind at ht
  split at ht
  · rename_i k _
    rw [← exec_eq_execRequest] at ht
    exact request_bounded hs k o body ht
  · refine serve_bounded hs (fun r => ?_) ht
    obtain ⟨c, e⟩ := refuseKind_eq o r
    rw [e]; exact .refl r

theorem frameDropped_bounded {s t : State} (hs : s.Bounded) (p : Port) (bytes : List Byte)
    (ht : execFrameDropped p bytes s = .next t) : t.Bounded := by
  unfold execFrameDropped at ht
  split at ht
  · have ended : Keeps s (s.endFrame p) := by cases p <;> exact .of_targets rfl rfl (.refl _) rfl rfl rfl fun _ => rfl
    cases ht
    exact ended.bounded hs
  · exact unknownKind_bounded hs _ _ _ ht

theorem State.sendReply_bounded {s : State} (hs : s.Bounded) : s.sendReply.Bounded := by
  obtain ⟨queue, tables⟩ := hs
  simp only [State.sendReply]
  split
  · rename_i r rest h
    refine ⟨?_, tables.claimRoom, tables.coverage, tables.stack, tables.entry⟩
    simp only [State.QueueLaw, h, List.length_cons] at queue
    show rest.length ≤ 4
    omega
  · exact ⟨queue, tables⟩

theorem State.readReply_bounded {s : State} (hs : s.Bounded) : s.readReply.Bounded := by
  obtain ⟨queue, tables⟩ := hs
  simp only [State.readReply]
  split
  · exact ⟨queue, tables.claimRoom, tables.coverage, tables.stack, tables.entry⟩
  · exact ⟨queue, tables⟩

/-! ### The resets -/

/-- With no reply waiting, no claim and no frame, only the scenes and the interlock entries matter. -/
theorem State.bounded_of_cleared {t : State} (hb : t.busReplies = []) (hc : t.claims = [])
    (hv : ∀ v, (t.scene v).entries.length ≤ 12 ∧ ((t.scene v).entries.map Prod.fst).Nodup)
    (hr : ∀ p, t.returnStack p = []) (hi : t.EntryLaw) : t.Bounded := by
  refine ⟨by simp [State.QueueLaw, hb], by simp [State.ClaimRoomLaw, hc], ?_, ⟨hv, fun p => by simp [hr]⟩, hi⟩
  rw [State.coverageLaw_iff, hc]
  simp

theorem State.powerOn_bounded (s : State) (low : Bool) : (s.powerOn low).Bounded := by
  refine State.bounded_of_cleared rfl rfl (fun v => ?_) (fun p => get_replicate _ _) fun p e he => ?_
  · have : (s.powerOn low).scene v = Scene.reset := get_replicate _ _
    simp [this, Scene.reset]
  · have : (s.powerOn low).interlock p = none := get_replicate _ _
    rw [this] at he; cases he

theorem State.setSource_eq (s : State) (cause : WarmCause) (persists : Bool) :
    ∃ r l, s.setSource cause persists = { s with resetInput := r, supplyLow := l } := by
  cases cause
  · exact ⟨s.resetInput, persists, rfl⟩
  · exact ⟨persists, s.supplyLow, rfl⟩

theorem State.warmReset_bounded {s : State} (hs : s.Bounded) (cause : WarmCause) (persists : Bool) :
    (s.warmReset cause persists).Bounded := by
  obtain ⟨-, tables⟩ := hs
  obtain ⟨r, l, e⟩ := s.warmRecords.setSource_eq cause persists
  simp only [State.warmReset, e]
  refine State.bounded_of_cleared rfl rfl (fun v => ?_) (fun p => get_replicate _ _) tables.entry
  have : ∀ t : State, t.scenes = mapTable Scene.warm s.scenes → (t.scene v).entries = (s.scene v).entries := by
    intro t ht; simp [State.scene, ht, Scene.warm]
  rw [this _ rfl]
  exact tables.stack.1 v

/-! ### Every command -/

theorem exec_bounded {s t : State} (hs : s.Bounded) (i : Instr) (ht : exec i s = .next t) : t.Bounded := by
  cases i with
  | query o b => exact request_bounded hs .query o b ht
  | setLevel o b => exact request_bounded hs .setLevel o b ht
  | recallScene o b => exact request_bounded hs .recallScene o b ht
  | returnScene o b => exact request_bounded hs .returnScene o b ht
  | claim o b => exact request_bounded hs .claim o b ht
  | renew o b => exact request_bounded hs .renew o b ht
  | release o b => exact request_bounded hs .release o b ht
  | move o b => exact request_bounded hs .move o b ht
  | stop o b => exact request_bounded hs .stop o b ht
  | writeStation o b => exact request_bounded hs .writeStation o b ht
  | writeLoad o b => exact request_bounded hs .writeLoad o b ht
  | writeAxis o b => exact request_bounded hs .writeAxis o b ht
  | writeInterlock o b => exact request_bounded hs .writeInterlock o b ht
  | writeSignal o b => exact request_bounded hs .writeSignal o b ht
  | takeScene o b => exact request_bounded hs .takeScene o b ht
  | writeScene o b => exact request_bounded hs .writeScene o b ht
  | giveScene o b => exact request_bounded hs .giveScene o b ht
  | setBudget o b => exact request_bounded hs .setBudget o b ht
  | clearLockout o b => exact request_bounded hs .clearLockout o b ht
  | start o b => exact request_bounded hs .start o b ht
  | halt o b => exact request_bounded hs .halt o b ht
  | readNotice o b => exact request_bounded hs .readNotice o b ht
  | unknownKind o kind b => exact unknownKind_bounded hs o kind b ht
  | frameDropped p bytes => exact frameDropped_bounded hs p bytes ht
  | replySent => cases ht; exact (State.driveOutputs_keeps _).bounded (State.sendReply_bounded hs)
  | replyRead => cases ht; exact (State.driveOutputs_keeps _).bounded (State.readReply_bounded hs)
  | leaseExpiry x => exact complete_bounded hs (s.expireLease_keeps x) ht
  | fadeStep n => exact complete_bounded hs (s.fadeStep_run n).machineRun.keeps ht
  | outputPeriodEnd n => exact complete_bounded hs (s.endPeriod_keeps n) ht
  | rampExpiry a => exact complete_bounded hs (s.ramp_steady a).keeps ht
  | brakeSettleExpiry a => exact complete_bounded hs (s.brakeSettled_steady a).keeps ht
  | confirmWindowExpiry a => exact complete_bounded hs (s.confirmWindow_steady a).keeps ht
  | pulseWatchExpiry a => exact complete_bounded hs (s.pulseWatchEnd_steady a).keeps ht
  | overCurrentExpiry a => exact complete_bounded hs (s.overCurrentEnd_steady a).keeps ht
  | restExpiry a => exact complete_bounded hs (s.restEnd_steady a).keeps ht
  | signalMarkEnd a => exact complete_bounded hs (s.markEnd_steady a).keeps ht
  | signalCycleEnd a => exact complete_bounded hs (s.cycleEnd_steady a).keeps ht
  | settleExpiry => exact complete_bounded hs s.settleOver_keeps ht
  | positionPulse a => exact complete_bounded hs (s.pulse_steady a).keeps ht
  | homeActive a => exact complete_bounded hs (s.homeFound_keeps a) ht
  | homeInactive a => exact complete_bounded hs (s.setAxisIn_keeps a _) ht
  | safetyEdgeActive a => exact complete_bounded hs (s.edgePressed_keeps a) ht
  | safetyEdgeInactive a => exact complete_bounded hs (s.setAxisIn_keeps a _) ht
  | currentRise a v => exact complete_bounded hs (s.setCurrent_keeps a _) ht
  | currentFall a v => exact complete_bounded hs (s.setCurrent_keeps a _) ht
  | powerOnReset low => cases ht; exact (State.driveOutputs_keeps _).bounded (s.powerOn_bounded low)
  | warmReset cause persists =>
    cases ht; exact (State.driveOutputs_keeps _).bounded (State.warmReset_bounded hs cause persists)
  | resetSourceEnd source => exact complete_bounded hs (s.endSource_keeps source) ht

theorem State.setQueue_keeps (s : State) (queue : List Instr) (tie : Nat) :
    Keeps s { s with pending := queue, tieCount := tie } :=
  .of_targets rfl rfl (.refl _) rfl rfl rfl fun _ => rfl

theorem idle_bounded {s t : State} (hs : s.Bounded) (ht : s.idle = .next t) : t.Bounded := by
  unfold State.idle at ht
  split at ht
  · cases ht; exact s.tick_keeps.bounded hs
  · exact exec_bounded hs _ ht
  · exact exec_bounded ((s.setQueue_keeps s.pending _).bounded hs) _ ht

theorem step_bounded {s t : State} (hs : s.Bounded) (ht : step s = .next t) : t.Bounded := by
  unfold step State.takeStep at ht
  split at ht
  · exact exec_bounded ((s.setQueue_keeps _ s.tieCount).bounded hs) _ ht
  · exact idle_bounded hs ht

/-- Settles O58: each command is an operation that keeps the tables and posts a reply only where the queue has room. -/
theorem everyStepKeepsClaimsAndScenes : Obligations.every_step_keeps_claims_and_scenes := by
  intro s t hs ht
  obtain ⟨queue, tables⟩ := step_bounded ⟨hs.queue, hs.claimRoom, hs.coverage, hs.stack, hs.entry⟩ ht
  exact ⟨queue, tables.claimRoom, tables.coverage, tables.stack, tables.entry⟩

/-! ## Deciding a request -/

/-- Settles O1: `step` runs `exec` on the part with the front command taken off. -/
theorem stepTakesTheFrontCommand : Obligations.step_takes_the_front_command := by
  intro s c rest h
  rw [step, State.takeStep, h]

/-- Settles O5: the owner leaves both ports alone, and the Dispatcher posts one reply. -/
theorem aDecidedRequestGetsOneReply : Obligations.a_decided_request_gets_one_reply := by
  intro s k o body
  obtain ⟨α, parsed, owner, -, run, answers⟩ := exec_request k o body
  refine ⟨fun room fits => ?_, fun h => ?_, s.hasRoom_iff o⟩
  · obtain ⟨kept, -⟩ := decideBody_keeps (k := k) (o := o) (parsed := parsed) answers (s.endReceipt o)
    have bus := kept.busReplies
    have link := kept.linkReply
    rw [State.endReceipt_busReplies] at bus
    rw [State.endReceipt_linkReply] at link
    refine ⟨(decideBody k o parsed owner (s.endReceipt o)).1, _, (run s).trans (serve_decided room fits), fun ho => ?_, fun ho => ?_⟩
    · simp [State.answered, State.postReply, replyTo, ho, bus, link]
    · subst ho; simp [State.answered, State.postReply, replyTo, bus]
  · rw [run, serve_dropped h]

/-- Settles O6: an owner that refuses leaves the part alone, and the Dispatcher adds the reply only. -/
theorem aRefusedRequestChangesNoRecord : Obligations.a_refused_request_changes_no_record := by
  intro s k o body law room fits
  obtain ⟨α, parsed, owner, -, run, answers⟩ := exec_request k o body
  obtain ⟨-, refused⟩ := decideBody_keeps (k := k) (o := o) (parsed := parsed) answers (s.endReceipt o)
  refine ⟨(decideBody k o parsed owner (s.endReceipt o)).1, _, (run s).trans (serve_decided room fits),
    State.answered_reply _ _ _ _, fun h => ?_⟩
  rw [State.answered, refused h]
  exact law.reply o _ _

/-- Where the owner is reached, its answer is none of the Dispatcher's codes. -/
theorem answered_by_owner {s : State} {k : ReqKind} {o : Origin} {body : List Byte} (room : s.hasRoom o = true)
    (fits : body.length ≤ 60) (known : (s.endReceipt o).admission o = none)
    (screened : (s.endReceipt o).screen k o (k.bodyOk body) = none) :
    ∃ b t, exec (k.request o body) s = .next t
      ∧ (if o = 0 then t.linkReply else t.busReplies.getLast?) = some (replyTo o k.code b)
      ∧ ReplyCode.ofDispatcher b.code = false := by
  obtain ⟨α, parsed, owner, ok, run, answers⟩ := exec_request k o body
  rw [← ok] at screened
  obtain ⟨x, -, e⟩ := decideBody_owned (owner := owner) known screened
  refine ⟨(decideBody k o parsed owner (s.endReceipt o)).1, _, (run s).trans (serve_decided room fits),
    State.answered_reply _ _ _ _, ?_⟩
  rw [e]
  exact (answers x _).code

end Sys2Proof.Machine

namespace Sys2Proof.Machine

/-! ### Refusals by the Dispatcher -/

@[simp] theorem State.endReceipt_admission (s : State) (o : Origin) : (s.endReceipt o).admission o = s.admission o := by
  rw [State.admission, State.admission, State.inSettle, State.inSettle, State.endReceipt_settle, State.endReceipt_station]

@[simp] theorem State.endReceipt_screen (s : State) (k : ReqKind) (o : Origin) (ok : Bool) :
    (s.endReceipt o).screen k o ok = s.screen k o ok := by
  simp only [State.screen, State.endReceipt_device]

section
variable {s : State} {o : Origin} {body : List Byte} (room : s.hasRoom o = true) (fits : body.length ≤ 60)
include room fits

theorem exec_not_admitted (k : ReqKind) {c : ReplyCode} (h : s.admission o = some c) :
    exec (k.request o body) s = .next ((s.endReceipt o).answered o k.code (.plain c)) := by
  obtain ⟨α, parsed, owner, -, run, -⟩ := exec_request k o body
  rw [run, serve_decided room fits, decideBody_refused (by rw [State.endReceipt_admission, h])]
  rfl

theorem exec_screened (k : ReqKind) {c : ReplyCode} (h : s.admission o = none) (hc : s.screen k o (k.bodyOk body) = some c) :
    exec (k.request o body) s = .next ((s.endReceipt o).answered o k.code (.plain c)) := by
  obtain ⟨α, parsed, owner, ok, run, -⟩ := exec_request k o body
  rw [← ok, ← s.endReceipt_screen] at hc
  rw [run, serve_decided room fits, decideBody_screened (by rw [State.endReceipt_admission, h]) hc]
  rfl

/-- A request of an unlisted kind is refused (R12, R13). -/
theorem exec_unknownKind {kind : Byte} (hk : ReqKind.ofByte kind = none) :
    exec (.unknownKind o kind body) s
      = .next ((s.endReceipt o).answered o kind (.plain ((s.admission o).getD .badRequest))) := by
  have run : exec (.unknownKind o kind body) s = serve o kind body (State.refuseKind o) s := by
    show execUnknownKind o kind body s = _
    simp only [execUnknownKind, hk]
  rw [run, serve_decided room fits]
  have e : State.refuseKind o (s.endReceipt o) = (s.endReceipt o).refuse ((s.admission o).getD .badRequest) := by
    simp only [State.refuseKind, State.endReceipt_admission]
    cases s.admission o <;> rfl
  rw [e]; rfl

end

/-- The Management Link is screened for its body and the run state alone (R13, R14). -/
theorem State.screen_management {s : State} {k : ReqKind} {ok : Bool} {c : ReplyCode} (h : s.screen k 0 ok = some c) :
    c = .badRequest ∨ c = .wrongState := by
  simp only [State.screen, ne_eq, not_true_eq_false, and_false, if_false, false_and] at h
  split_ifs at h
  · exact .inl (Option.some.inj h).symm
  · exact .inr (Option.some.inj h).symm

theorem ofDispatcher_ne {c : ReplyCode} (h : ReplyCode.ofDispatcher c = false) :
    c ≠ .notReady ∧ c ≠ .unknownStation ∧ c ≠ .wrongState := by
  cases c <;> simp_all [ReplyCode.ofDispatcher]

/-- Settles O7: both refusals come from the admission, before kind and body are looked at. -/
theorem settleIntervalAndAdmission : Obligations.settle_interval_and_admission := by
  intro s o body room fits
  refine ⟨fun k => ⟨fun hs => ?_, fun hs ho hu => ?_, fun hs ho => ?_⟩, fun kind hk => ⟨fun hs => ?_, fun hs ho hu => ?_⟩⟩
  · exact exec_not_admitted room fits k (State.admission_settling o hs)
  · exact exec_not_admitted room fits k (State.admission_unknown hs ho hu)
  · have known : s.admission o = none := State.admission_known hs (.inl ho)
    subst ho
    cases hc : s.screen k 0 (k.bodyOk body) with
    | some c =>
      refine ⟨.plain c, _, exec_screened room fits k known hc, by simpa using State.answered_reply (s.endReceipt 0) 0 k.code (.plain c), ?_⟩
      rcases State.screen_management hc with e | e <;> subst e <;> decide
    | none =>
      obtain ⟨b, t, run, reply, code⟩ := answered_by_owner room fits (by simpa using known) (by simpa using hc)
      obtain ⟨h1, h2, -⟩ := ofDispatcher_ne code
      exact ⟨b, t, run, by simpa using reply, h1, h2⟩
  · rw [exec_unknownKind room fits hk, State.admission_settling o hs]; rfl
  · rw [exec_unknownKind room fits hk, State.admission_unknown hs ho hu]; rfl

theorem ReqKind.ofByte_eq_none {kind : Byte} (h : ∀ k : ReqKind, k.code ≠ kind) : ReqKind.ofByte kind = none := by
  rw [ReqKind.ofByte, List.find?_eq_none]
  intro k _
  simpa using h k

/-- Settles O8: the clauses are the branches of `State.screen`, and beyond them the owner answers. -/
theorem kindOriginBodyAndRunState : Obligations.kind_origin_body_and_run_state := by
  intro s o body hs room fits ho
  have known := State.admission_known hs ho
  refine ⟨fun kind hk => ?_, fun k => ?_⟩
  · rw [exec_unknownKind room fits (ReqKind.ofByte_eq_none hk), known]; rfl
  · have screen := State.screen.eq_1 s k o (k.bodyOk body)
    simp only [ReqKind.haltedOnly_iff, ReqKind.managementOnly_iff] at screen
    have refused : ∀ c, s.screen k o (k.bodyOk body) = some c →
        exec (k.request o body) s = .next ((s.endReceipt o).answered o k.code (.plain c)) :=
      fun c hc => exec_screened room fits k known hc
    simp only
    split at screen
    · rw [if_pos (by assumption)]; exact refused _ screen
    rw [if_neg (by assumption)]
    split at screen
    · rw [if_pos (by assumption)]; exact refused _ screen
    rw [if_neg (by assumption)]
    split at screen
    · rw [if_pos (by assumption)]; exact refused _ screen
    rw [if_neg (by assumption)]
    split at screen
    · rw [if_pos (by assumption)]; exact refused _ screen
    rw [if_neg (by assumption)]
    obtain ⟨b, t, run, reply, code⟩ := answered_by_owner room fits (by simpa using known) (by simpa using screen)
    obtain ⟨h1, -, h3⟩ := ofDispatcher_ne code
    exact ⟨b, t, run, reply, h1, h3⟩

/-! ### The checks of the target -/

@[simp] theorem wordOf_bytes {n : Nat} (h : n < 65536) : wordOf (BitVec.ofNat 8 (n / 256)) (BitVec.ofNat 8 n) = n := by
  simp only [wordOf, BitVec.toNat_ofNat]
  omega

@[simp] theorem TargetClass.ofByte_code (c : TargetClass) : TargetClass.ofByte c.code = some c := by cases c <;> decide

theorem readTarget_bytes {x : RawTarget} (h : x.value < 65536) :
    readTarget x.cls.code (BitVec.ofNat 8 (x.value / 256)) (BitVec.ofNat 8 x.value) = some x := by
  simp [readTarget, h]

theorem Carries.eq_of_bytes {body : List Byte} {x y : RawTarget} (h : Carries body y) (hx : x.value < 65536)
    (hb : body.take 3 = targetBytes x) : y = x := by
  obtain ⟨c, hi, lo, rest, e, read⟩ := h
  subst e
  simp only [List.take_succ_cons, List.take_zero, targetBytes, bytesOf, List.cons.injEq, and_true] at hb
  obtain ⟨h1, h2, h3⟩ := hb
  rw [h1, h2, h3, readTarget_bytes hx] at read
  exact (Option.some.inj read).symm

section
variable {α : Type} {s : State} {k : ReqKind} {o : Origin} {x : RawTarget} {y : α}
  {owner : Target → α → State → Decision}

theorem decideTarget_refused (takes : s.Takes k o) {c : ReplyCode} (h : s.checkTarget k o x = .error c) :
    decideTarget k o (some (x, y)) owner s = s.refuse c := by
  simp [decideTarget, decideBody, takes.admission, takes.screen, h]

theorem decideTarget_owned (takes : s.Takes k o) {t : Target} (h : s.checkTarget k o x = .ok t) :
    decideTarget k o (some (x, y)) owner s = owner t y s := by
  simp [decideTarget, decideBody, takes.admission, takes.screen, h]

end

@[simp] theorem State.endReceipt_permitsSpace (s : State) (o o' : Origin) (p : SpaceNo) :
    (s.endReceipt o).permitsSpace o' p = s.permitsSpace o' p := by
  simp only [State.permitsSpace, State.endReceipt_station]

@[simp] theorem State.endReceipt_permitsAxis (s : State) (o o' : Origin) (a : AxisNo) :
    (s.endReceipt o).permitsAxis o' a = s.permitsAxis o' a := by
  simp only [State.permitsAxis, State.endReceipt_station]

@[simp] theorem State.endReceipt_checkTarget (s : State) (k : ReqKind) (o : Origin) (x : RawTarget) :
    (s.endReceipt o).checkTarget k o x = s.checkTarget k o x := by
  by_cases hc : x.cls ∈ k.classes
  · cases ht : x.typed with
    | none => rw [State.checkTarget_value ht, State.checkTarget_value ht]
    | some t =>
      have configured : (s.endReceipt o).unconfigured k t = s.unconfigured k t := by
        cases t <;> simp [State.unconfigured]
      have permitted : (s.endReceipt o).permitted k o t = s.permitted k o t := by cases t <;> simp [State.permitted]
      rw [State.checkTarget_typed hc ht, State.checkTarget_typed hc ht, configured, permitted]
  · rw [State.checkTarget_class hc, State.checkTarget_class hc]

/-- A request whose target fails a check is refused with the code of the check (R15). -/
theorem exec_bad_target {s : State} {k : ReqKind} {o : Origin} {body : List Byte} {x : RawTarget} {c : ReplyCode}
    (takes : s.Takes k o) (fits : body.length ≤ 60) (ok : k.bodyOk body = true) (hk : k.classes ≠ []) (hx : x.value < 65536)
    (hb : body.take 3 = targetBytes x) (h : s.checkTarget k o x = .error c) :
    exec (k.request o body) s = .next ((s.endReceipt o).answered o k.code (.plain c)) := by
  obtain ⟨α, parsed, owner, good, carries, run, -⟩ := exec_targeted hk o body
  rw [ok] at good
  obtain ⟨⟨x', y⟩, e⟩ := Option.isSome_iff_exists.1 good
  have ex := (carries x' y e).eq_of_bytes hx hb
  subst ex
  rw [run, serve_decided takes.room fits, e, decideTarget_refused takes.endReceipt (by simpa using h)]
  rfl

/-- Settles O9: each clause is a branch of the check of the target. -/
theorem targetsAreChecked : Obligations.targets_are_checked := by
  intro s k o body x takes fits ok hk hx hb refused
  have bad : ∀ c, s.checkTarget k o x = .error c → refused c := fun c h => exec_bad_target takes fits ok hk hx hb h
  refine ⟨fun hc => bad _ (State.checkTarget_class hc), fun hc => ⟨fun ht => bad _ (State.checkTarget_value ht), ?_, ?_, ?_, ?_⟩⟩
  · refine fun n ht => ⟨fun kind h1 h2 h3 => bad _ ?_, fun kind permits => bad _ ?_⟩
    · have none_named : ReqKind.namesAnyLoad k = false := by cases k <;> simp_all [ReqKind.namesAnyLoad]
      simp [State.checkTarget_typed hc ht, State.unconfigured, kind, none_named]
    · have configured : s.unconfigured k (.load n) = false := by
        rcases kind with h | h | h <;> simp [State.unconfigured, h, ReqKind.namesAnyLoad]
      simp [State.checkTarget_typed hc ht, configured, State.permitted, permits]
  · intro p ht hn permits
    refine bad _ ?_
    simp [State.checkTarget_typed hc ht, State.unconfigured, State.permitted, permits, hn]
  · intro v ht p hp permits
    refine bad _ ?_
    have e : sceneSpace v = p := Fin.ext hp.symm
    simp [State.checkTarget_typed hc ht, State.unconfigured, State.permitted, e, permits]
  · intro a ht permits
    refine bad _ ?_
    simp [State.checkTarget_typed hc ht, State.unconfigured, State.permitted, permits]

/-! ### Replies leaving the ports, and the power-on reset -/

/-- Settles O10: by the cases of the two ports, with and without a reply waiting. -/
theorem repliesLeaveTheirPorts : Obligations.replies_leave_their_ports := by
  intro s law
  refine ⟨fun r rest h => ?_, fun h => ?_, fun r h => ?_, fun h => ?_⟩
  · show s.sendReply.complete = _
    rw [State.sendReply, h, State.complete]
    exact congrArg (fun t : State => Host.Outcome.next { t with busReplies := rest, busTx := r.bytes }) law
  · show s.sendReply.complete = _
    rw [State.sendReply, h, State.complete]
    exact congrArg Host.Outcome.next law
  · show s.readReply.complete = _
    rw [State.readReply, h, State.complete]
    exact congrArg (fun t : State => Host.Outcome.next { t with linkReply := none, linkTx := r.bytes }) law
  · show s.readReply.complete = _
    rw [State.readReply, h, State.complete]
    exact congrArg Host.Outcome.next law

theorem mapTable_replicate {α β : Type} {n : Nat} (f : α → β) (x : α) :
    mapTable f (Vector.replicate n x) = Vector.replicate n (f x) :=
  vector_ext_get fun i => by simp

/-- In the settle interval of a power-on reset every output is inactive and RESET alone is pending (R178, R181). -/
theorem State.powerOn_output (s : State) (low : Bool) : (s.powerOn low).OutputLaw := by
  have lockout : (s.powerOn low).anyLockout = false := by
    simp [State.anyLockout, State.powerOn, State.reset, allAxes, AxisRec.reset]
  have notices : (s.powerOn low).levelNotices = (s.powerOn low).notices := by
    rw [State.levelNotices, lockout]; rfl
  have settling : (s.powerOn low).inSettle = true := rfl
  have axes : mapTable (fun ax => ax.pins true) (s.powerOn low).axes = (s.powerOn low).axisPins := mapTable_replicate _ _
  have channels : mapTable (fun ch => ch.pins true) (s.powerOn low).channels = (s.powerOn low).signalPins :=
    mapTable_replicate _ _
  have line : (s.powerOn low).noticeLevel = (s.powerOn low).noticeLine := rfl
  rw [State.OutputLaw, State.driveOutputs, notices, settling, axes, channels, line]

/-- Settles O55: in the settle interval of a power-on the outputs are what the records give, so completing the step adds nothing. -/
theorem powerOnReset : Obligations.power_on_reset := by
  refine ⟨fun s low => ?_, fun n => get_replicate _ n, fun n => get_replicate _ n, fun v => get_replicate _ v,
    fun p => get_replicate _ p, fun o => ?_, rfl, fun a => ?_, fun p => get_replicate _ p, fun a => ?_, rfl, rfl, rfl, rfl,
    rfl, rfl, rfl⟩
  · show (s.powerOn low).complete = _
    rw [State.complete, s.powerOn_output low, State.powerOn, settleFor]
    simp only [Bool.or_eq_true]
    rfl
  · simp only [State.station]
    split
    · exact get_replicate _ _
    · rfl
  · have axis : State.reset.axis a = AxisRec.reset := get_replicate _ a
    have held : State.reset.held a = 0 := get_replicate _ a
    rw [axis]
    exact ⟨rfl, rfl, rfl, rfl, rfl, rfl, held⟩
  · have channel : State.reset.channel a = Channel.idleWith Pattern.reset := get_replicate _ a
    rw [channel]
    exact ⟨rfl, rfl⟩

end Sys2Proof.Machine

namespace Sys2Proof.Machine

/-! ## Frames and bodies -/

/-! ### Single fields -/

@[simp] theorem toNat_byte {n : Nat} (h : n < 256) : (BitVec.ofNat 8 n).toNat = n := by
  simp only [BitVec.toNat_ofNat]; omega

/-- The eight bytes of a group mask, most significant byte first, make up the mask (Table 1-3). -/
theorem groupMask_bytes (m : BitVec 64) :
    (m.extractLsb' 56 8 ++ m.extractLsb' 48 8 ++ m.extractLsb' 40 8 ++ m.extractLsb' 32 8 ++ m.extractLsb' 24 8
      ++ m.extractLsb' 16 8 ++ m.extractLsb' 8 8 ++ m.extractLsb' 0 8 : BitVec 64) = m := by
  have join : ∀ a b k : Nat, a = b + 8 → m.extractLsb' a k ++ m.extractLsb' b 8 = m.extractLsb' b (k + 8) :=
    fun _ _ _ => BitVec.extractLsb'_append_extractLsb'_eq_extractLsb'
  rw [join 56 48 8 rfl, join 48 40 _ rfl, join 40 32 _ rfl, join 32 24 _ rfl, join 24 16 _ rfl, join 16 8 _ rfl,
    join 8 0 _ rfl]
  exact BitVec.extractLsb'_eq_self

theorem readTarget_eq_none (c hi lo : Byte) : readTarget c hi lo = none ↔ c = 0 ∨ 8 < c.toNat := by
  rw [readTarget, Option.map_eq_none_iff]
  revert c
  decide

@[simp] theorem readClaimKind_code (k : ClaimKind) : readClaimKind (BitVec.ofNat 8 k.code) = some k := by cases k <;> rfl
@[simp] theorem readDirection_code (d : Direction) : readDirection (BitVec.ofNat 8 d.code) = some d := by cases d <;> rfl
@[simp] theorem readRank_code (r : Rank) : readRank (BitVec.ofNat 8 r.code) = some r := by cases r <;> rfl
@[simp] theorem readPresent_code (p : Bool) : readPresent (if p then 1 else 0) = some p := by cases p <;> rfl

/-! ### Whole bodies -/

theorem readTargetWord_body {x : RawTarget} {v : Nat} (hx : x.value < 65536) (hv : v < 65536) :
    readTargetWord (targetWordBody x v) = some (x, v) := by
  simp [readTargetWord, targetWordBody, targetBytes, bytesOf, readTarget_bytes hx, hv]

theorem readTargetBody_bytes {x : RawTarget} (hx : x.value < 65536) : readTargetBody (targetBytes x) = some (x, ()) := by
  simp [readTargetBody, targetBytes, bytesOf, readTarget_bytes hx]

theorem readSetLevel_body {x : RawTarget} {level fade : Nat} (hx : x.value < 65536) (hl : level < 65536)
    (hf : fade < 65536) : readSetLevel (setLevelBody x level fade) = some (x, (level, fade)) := by
  simp [readSetLevel, setLevelBody, targetBytes, bytesOf, readTarget_bytes hx, hl, hf]

theorem readClaim_body {x : RawTarget} {k : ClaimKind} {lease : Nat} (hx : x.value < 65536) (hl : lease < 65536) :
    readClaim (claimBody x k lease) = some (x, (k, lease)) := by
  simp [readClaim, claimBody, targetBytes, bytesOf, readTarget_bytes hx, hl]

theorem readMove_body {x : RawTarget} {d : Direction} {p : Nat} (hx : x.value < 65536) (hp : p < 65536) :
    readMove (moveBody x d p) = some (x, (d, p)) := by
  simp [readMove, moveBody, targetBytes, bytesOf, readTarget_bytes hx, hp]

theorem readWriteSignal_bytes {x : RawTarget} {p : Pattern} (hx : x.value < 65536) (h1 : p.primaryMark < 256)
    (h2 : p.primarySpace < 256) (h3 : p.secondaryMark < 256) (h4 : p.secondarySpace < 256) (h5 : p.gapCycles < 256) :
    readWriteSignal (targetBytes x ++ patternBytes p) = some (x, p) := by
  obtain ⟨mode, hm, bytes⟩ : ∃ mode, readMode mode = some p.mode ∧ patternBytes p
      = [BitVec.ofNat 8 p.primaryMark, BitVec.ofNat 8 p.primarySpace, BitVec.ofNat 8 p.secondaryMark,
         BitVec.ofNat 8 p.secondarySpace, mode, BitVec.ofNat 8 p.gapCycles] :=
    ⟨match p.mode with | .single => 1 | .twoTone => 2, by cases p.mode <;> rfl, rfl⟩
  simp only [bytes, readWriteSignal, targetBytes, bytesOf, List.cons_append, List.nil_append, readTarget_bytes hx, hm,
    Option.bind_some, Option.map_some, toNat_byte h1, toNat_byte h2, toNat_byte h3, toNat_byte h4, toNat_byte h5]

theorem readWriteLoad_bytes {x : RawTarget} {c : LoadConfig} (hx : x.value < 65536) (hr : c.shedRank < 256)
    (hs : c.shedLevel < 65536) (hp : c.ratedPower < 65536) (hm : c.minDuty < 256) :
    readWriteLoad (targetBytes x ++ loadConfigBytes c)
      = some (x, ⟨c.kind, c.space.val, c.groupMask, c.shedRank, c.shedLevel, c.ratedPower, c.minDuty⟩) := by
  obtain ⟨kind, hk, bytes⟩ : ∃ kind, readLoadKind kind = some c.kind ∧ loadConfigBytes c
      = [kind, BitVec.ofNat 8 c.space.val, c.groupMask.extractLsb' 0 8, c.groupMask.extractLsb' 8 8,
         c.groupMask.extractLsb' 16 8, c.groupMask.extractLsb' 24 8, c.groupMask.extractLsb' 32 8,
         c.groupMask.extractLsb' 40 8, c.groupMask.extractLsb' 48 8, c.groupMask.extractLsb' 56 8,
         BitVec.ofNat 8 c.shedRank, BitVec.ofNat 8 (c.shedLevel / 256), BitVec.ofNat 8 c.shedLevel,
         BitVec.ofNat 8 (c.ratedPower / 256), BitVec.ofNat 8 c.ratedPower, BitVec.ofNat 8 c.minDuty] :=
    ⟨match c.kind with | .none => 0 | .dim => 1 | .switch => 2, by cases c.kind <;> rfl, rfl⟩
  have space : c.space.val < 256 := by omega
  simp only [bytes, readWriteLoad, targetBytes, bytesOf, List.cons_append, List.nil_append, readTarget_bytes hx, hk,
    Option.bind_some, Option.map_some, groupMask_bytes, toNat_byte space, toNat_byte hr, toNat_byte hm, wordOf_bytes hs,
    wordOf_bytes hp]

theorem readWriteAxis_bytes {x : RawTarget} {c : AxisConfig} (hx : x.value < 65536) (h1 : c.demand < 65536)
    (h2 : c.runSpeed < 256) (h3 : c.creepSpeed < 256) (h4 : c.accelStep < 256) (h5 : c.decelStep < 256)
    (h6 : c.approach < 65536) (h7 : c.softLow < 65536) (h8 : c.softHigh < 65536) (h9 : c.stallWindow < 256)
    (h10 : c.overCurrent < 256) (h11 : c.noLoad < 256) (h12 : c.warnCycles < 256) :
    readWriteAxis (targetBytes x ++ axisConfigBytes c)
      = some (x, { courtesy := (c.courtesy.map (·.val)).getD 255, config := c }) := by
  obtain ⟨b, byte, courtesy, bytes⟩ : ∃ b : Byte, b.toNat = (c.courtesy.map (·.val)).getD 255
      ∧ (if h : b.toNat < 96 then some (⟨b.toNat, h⟩ : LoadNo) else none) = c.courtesy
      ∧ axisConfigBytes c = [BitVec.ofNat 8 (c.demand / 256), BitVec.ofNat 8 c.demand, b, BitVec.ofNat 8 c.runSpeed,
          BitVec.ofNat 8 c.creepSpeed, BitVec.ofNat 8 c.accelStep, BitVec.ofNat 8 c.decelStep,
          BitVec.ofNat 8 (c.approach / 256), BitVec.ofNat 8 c.approach, BitVec.ofNat 8 (c.softLow / 256),
          BitVec.ofNat 8 c.softLow, BitVec.ofNat 8 (c.softHigh / 256), BitVec.ofNat 8 c.softHigh,
          BitVec.ofNat 8 c.stallWindow, BitVec.ofNat 8 c.overCurrent, BitVec.ofNat 8 c.noLoad,
          BitVec.ofNat 8 c.warnCycles] := by
    refine ⟨match c.courtesy with | some n => BitVec.ofNat 8 n.val | none => 255, ?_, ?_, rfl⟩
    · cases c.courtesy with
      | none => rfl
      | some n => exact toNat_byte (by omega)
    · cases c.courtesy with
      | none => rfl
      | some n =>
        have e : (BitVec.ofNat 8 n.val).toNat = n.val := toNat_byte (by omega)
        simp only [e, n.isLt, dite_true]
  simp only [bytes, readWriteAxis, targetBytes, bytesOf, List.cons_append, List.nil_append, readTarget_bytes hx, Option.map_some, wordOf_bytes h1, toNat_byte h2, toNat_byte h3,
    toNat_byte h4, toNat_byte h5, wordOf_bytes h6, wordOf_bytes h7, wordOf_bytes h8, toNat_byte h9, toNat_byte h10,
    toNat_byte h11, toNat_byte h12, courtesy]
  rw [byte]

theorem readEntries_bytes {es : List (Nat × Nat)} (h : ∀ e ∈ es, e.1 < 256 ∧ e.2 < 65536) :
    readEntries (es.flatMap fun e => BitVec.ofNat 8 e.1 :: bytesOf e.2) = es := by
  induction es with
  | nil => rfl
  | cons e es ih =>
    obtain ⟨h1, h2⟩ := h e (by simp)
    have first : ∀ rest, readEntries ((BitVec.ofNat 8 e.1 :: bytesOf e.2) ++ rest) = e :: readEntries rest := fun rest => by
      simp only [bytesOf, List.cons_append, List.nil_append, readEntries, toNat_byte h1, wordOf_bytes h2]
    rw [List.flatMap_cons, first, ih fun e' he' => h e' (by simp [he'])]

theorem readWriteScene_bytes {x : RawTarget} {fade : Nat} {es : List (Nat × Nat)} (hx : x.value < 65536)
    (hf : fade < 65536) (hl : es.length < 256) (h : ∀ e ∈ es, e.1 < 256 ∧ e.2 < 65536) :
    readWriteScene (targetBytes x ++ sceneBytes fade es) = some (x, ⟨fade, es⟩) := by
  have len : (es.flatMap fun e => BitVec.ofNat 8 e.1 :: bytesOf e.2).length = 3 * es.length := by
    simp [List.length_flatMap, bytesOf]; omega
  have bytes : targetBytes x ++ sceneBytes fade es = x.cls.code :: BitVec.ofNat 8 (x.value / 256)
      :: BitVec.ofNat 8 x.value :: BitVec.ofNat 8 (fade / 256) :: BitVec.ofNat 8 fade :: BitVec.ofNat 8 es.length
      :: es.flatMap fun e => BitVec.ofNat 8 e.1 :: bytesOf e.2 := rfl
  simp only [bytes, readWriteScene, toNat_byte hl]
  rw [if_pos len, readTarget_bytes hx, Option.map_some, wordOf_bytes hf]
  exact congrArg (fun l => some (x, (⟨fade, l⟩ : SceneFields))) (readEntries_bytes h)

/-! ### Bodies that are not read -/

/-- A body of a length other than its kind's is not read (R4, R5). -/
theorem bodies_of_wrong_length (body : List Byte) :
    (body.length ≠ 3 → readTargetBody body = none) ∧ (body.length ≠ 5 → readTargetWord body = none)
    ∧ (body.length ≠ 7 → readSetLevel body = none) ∧ (body.length ≠ 6 → readClaim body = none)
    ∧ (body.length ≠ 6 → readMove body = none) ∧ (body.length ≠ 6 → readWriteStation body = none)
    ∧ (body.length ≠ 19 → readWriteLoad body = none) ∧ (body.length ≠ 20 → readWriteAxis body = none)
    ∧ (body.length ≠ 8 → readWriteInterlock body = none) ∧ (body.length ≠ 9 → readWriteSignal body = none)
    ∧ (body.length ≠ 2 → readSetBudget body = none) := by
  refine ⟨?_, ?_, ?_, ?_, ?_, ?_, ?_, ?_, ?_, ?_, ?_⟩ <;> intro h
  · unfold readTargetBody; split
    · exact absurd rfl h
    · rfl
  · unfold readTargetWord; split
    · exact absurd rfl h
    · rfl
  · unfold readSetLevel; split
    · exact absurd rfl h
    · rfl
  · unfold readClaim; split
    · exact absurd rfl h
    · rfl
  · unfold readMove; split
    · exact absurd rfl h
    · rfl
  · unfold readWriteStation; split
    · exact absurd rfl h
    · rfl
  · unfold readWriteLoad; split
    · exact absurd rfl h
    · rfl
  · unfold readWriteAxis; split
    · exact absurd rfl h
    · rfl
  · unfold readWriteInterlock; split
    · exact absurd rfl h
    · rfl
  · unfold readWriteSignal; split
    · exact absurd rfl h
    · rfl
  · unfold readSetBudget; split
    · exact absurd rfl h
    · rfl

theorem readEmpty_eq_none (body : List Byte) : readEmpty body = none ↔ body ≠ [] := by cases body <;> simp [readEmpty]

theorem readWriteScene_length {body : List Byte}
    (h : ∀ count : Byte, body[5]? = some count → body.length ≠ 6 + 3 * count.toNat) : readWriteScene body = none := by
  unfold readWriteScene
  split
  · rename_i count rest
    have : ¬ rest.length = 3 * count.toNat := fun e => h count rfl (by simp only [List.length_cons]; omega)
    rw [if_neg this]
  · rfl

theorem not_carries {c : Byte} {rest : List Byte} (h : c = 0 ∨ 8 < c.toNat) (x : RawTarget) : ¬ Carries (c :: rest) x := by
  rintro ⟨c', hi, lo, rest', e, read⟩
  cases e
  rw [(readTarget_eq_none c hi lo).2 h] at read
  cases read

/-- A reader whose bodies begin with a target reads nothing where the class byte is not listed (R4). -/
theorem read_eq_none_of_class {α : Type} {read : List Byte → Option (RawTarget × α)} {c : Byte} {rest : List Byte}
    (h : c = 0 ∨ 8 < c.toNat) (carries : ∀ {x : RawTarget} {y : α}, read (c :: rest) = some (x, y) → Carries (c :: rest) x) :
    read (c :: rest) = none :=
  Option.eq_none_iff_forall_ne_some.2 fun ⟨x, _⟩ e => not_carries h x (carries e)

/-- Settles O3: each layout is read back by its reader, and each reader fails on another length or an unlisted code. -/
theorem bodiesReadBack : Obligations.bodies_read_back := by
  refine ⟨fun x hx => ⟨readTargetBody_bytes hx, fun _ => readTargetWord_body hx, fun _ _ => readSetLevel_body hx,
      fun _ _ => readClaim_body hx, fun _ _ => readMove_body hx, fun _ => readWriteSignal_bytes hx,
      fun _ => readWriteLoad_bytes hx, fun _ => readWriteAxis_bytes hx, fun _ _ => readWriteScene_bytes hx⟩,
    fun v hv => by simp [readSetBudget, bytesOf, hv], ?_, ?_, readTarget_eq_none, by decide, by decide, by decide, by decide,
    by decide, by decide, by decide, by decide, fun body => ?_, fun c rest hc => ?_, fun b0 b1 b2 b rest => ?_⟩
  · intro a hi lo x present r
    simp only [readWriteStation, readPresent_code, readRank_code, Option.bind_some, Option.map_some]
  · intro i p s d c r t1 t0 present dir rel hp hd hr
    have present : readPresent p = some present := by rw [hp]; exact readPresent_code present
    have direction : readBlockDir d = some dir := by rw [hd]; cases dir <;> rfl
    have relation : readRelation r = some rel := by rw [hr]; cases rel <;> rfl
    simp only [readWriteInterlock, present, direction, relation, Option.bind_some, Option.map_some, wordOf]
  · obtain ⟨h1, h2, h3, h4, h5, h6, h7, h8, h9, h10, h11⟩ := bodies_of_wrong_length body
    exact ⟨h1, h2, h3, h4, h5, h6, h7, h8, h9, h10, h11, readEmpty_eq_none body, readWriteScene_length⟩
  · exact ⟨read_eq_none_of_class hc readTargetBody_carries, read_eq_none_of_class hc readTargetWord_carries,
      read_eq_none_of_class hc readSetLevel_carries, read_eq_none_of_class hc readClaim_carries,
      read_eq_none_of_class hc readMove_carries, read_eq_none_of_class hc readWriteLoad_carries,
      read_eq_none_of_class hc readWriteAxis_carries, read_eq_none_of_class hc readWriteSignal_carries,
      read_eq_none_of_class hc readWriteScene_carries⟩
  · refine ⟨fun h => ?_, fun h => ?_, fun h => ?_, fun h => ⟨?_, ?_⟩, fun h => ?_, fun h => ?_, fun b3 b4 h => ?_,
      fun b3 b4 b5 b6 h => ?_⟩
    · unfold readClaim; split
      · rename_i e; cases e; simp [h]
      · rfl
    · unfold readMove; split
      · rename_i e; cases e; simp [h]
      · rfl
    · unfold readWriteLoad; split
      · rename_i e; cases e; simp [h]
      · rfl
    · unfold readWriteStation; split
      · rename_i e; cases e; simp [h]
      · rfl
    · unfold readWriteInterlock; split
      · rename_i e; cases e; simp [h]
      · rfl
    · unfold readWriteStation; split
      · rename_i e; cases e; simp [h]
      · rfl
    · unfold readWriteInterlock; split
      · rename_i e; cases e; simp [h]
      · rfl
    · unfold readWriteInterlock; split
      · rename_i e; cases e; simp [h]
      · rfl
    · unfold readWriteSignal; split
      · rename_i e; cases e; simp [h]
      · rfl

/-! ### Frames -/

theorem frameBytes_length (d src kind : Byte) (body : List Byte) : (frameBytes d src kind body).length = body.length + 6 := by
  simp [frameBytes, bytesOf]

/-- A frame laid out as Table 1-1 is read as far as its addresses let it (R1 to R3). -/
theorem readFrame_frameBytes (p : Port) (d src kind : Byte) {body : List Byte} (h : body.length ≤ 60) :
    readFrame p (frameBytes d src kind body) = (frameOrigin p d src).map fun o => ⟨o, kind, body⟩ := by
  have len : (BitVec.ofNat 8 body.length).toNat = body.length := toNat_byte (by omega)
  have total := frameBytes_length d src kind body
  rw [frameBytes] at total ⊢
  simp only [List.cons_append] at total ⊢
  simp only [readFrame]
  rw [if_pos ⟨by omega, by omega, by rw [len]; exact h, by rw [total, len]⟩, len, List.take_left, List.drop_left, if_pos rfl]

theorem readFrame_short_or_long {p : Port} {bytes : List Byte} (h : bytes.length < 6 ∨ 66 < bytes.length) :
    readFrame p bytes = none := by
  unfold readFrame
  split
  · rw [if_neg]
    rintro ⟨h6, h66, -⟩
    omega
  · rfl

/-- A frame whose length byte or check is wrong is not read (R1, R2). -/
theorem readFrame_wrong {p : Port} {d src kind length : Byte} {rest : List Byte}
    (h : 60 < length.toNat ∨ rest.length ≠ length.toNat + 2
      ∨ rest.drop length.toNat ≠ bytesOf (crc16 (d :: src :: kind :: length :: rest.take length.toNat)).toNat) :
    readFrame p (d :: src :: kind :: length :: rest) = none := by
  simp only [readFrame]
  split
  · rename_i good
    obtain ⟨-, -, h60, hlen⟩ := good
    simp only [List.length_cons] at hlen
    rcases h with h | h | h
    · omega
    · exact absurd (by omega) h
    · rw [if_neg h]
  · rfl

/-- Settles O4: a frame is taken apart into its addresses, body and check, each of which is read back or refused. -/
theorem framesAreReceivedOrDropped : Obligations.frames_are_received_or_dropped := by
  refine ⟨fun d src kind body fits => ⟨?_, fun o ho hs => ?_, fun h => ?_⟩, fun p bytes => readFrame_short_or_long,
    fun p d src kind length rest => readFrame_wrong, by decide +kernel, fun s bytes => ⟨fun h => ?_, fun h => ?_⟩⟩
  · rw [readFrame_frameBytes .link d src kind fits]; rfl
  · have byte : src.toNat = o.val := by rw [hs]; exact toNat_byte (by omega)
    have nonzero : 1 ≤ o.val := Nat.one_le_iff_ne_zero.2 fun e => ho (Fin.ext e)
    have origin : frameOrigin .bus 63 src = some o := by
      simp only [frameOrigin]
      rw [dif_pos ⟨trivial, by omega, by omega⟩]
      exact congrArg some (Fin.ext byte)
    rw [readFrame_frameBytes .bus 63 src kind fits, origin]; rfl
  · have origin : frameOrigin .bus d src = none := by
      simp only [frameOrigin]
      rw [dif_neg]
      rintro ⟨hd, h1, h62⟩
      rcases h with h | h | h
      · exact h hd
      · subst h; exact absurd h1 (by decide)
      · omega
    rw [readFrame_frameBytes .bus d src kind fits, origin]; rfl
  · show execFrameDropped .bus bytes s = _
    rw [execFrameDropped, h]; rfl
  · show execFrameDropped .link bytes s = _
    rw [execFrameDropped, h]; rfl

end Sys2Proof.Machine

namespace Sys2Proof.Machine

/-! ## SET_LEVEL -/

/-! ### Coverage and the lock rule -/

theorem find?_eq_some_of_unique {α : Type} {p : α → Bool} {l : List α} (h : (l.filter p).length ≤ 1) (x : α) :
    l.find? p = some x ↔ x ∈ l ∧ p x = true := by
  refine ⟨fun hx => ⟨List.mem_of_find?_eq_some hx, List.find?_some hx⟩, fun ⟨hx, px⟩ => ?_⟩
  obtain ⟨y, hy⟩ := Option.isSome_iff_exists.1 (List.find?_isSome.2 ⟨x, hx, px⟩)
  rw [hy, eq_of_length_filter_le_one h (List.mem_of_find?_eq_some hy) hx (List.find?_some hy) px]

/-- The coverage answer for a load is the one claim on it or on its space (R22, R23). -/
theorem State.loadCover_iff {s : State} (h : s.CoverageLaw) (n : LoadNo) (c : Claim) :
    s.loadCover n = some c ↔ c ∈ s.claims ∧ (c.target = .load n ∨ c.target = .space (s.load n).space) := by
  rw [State.loadCover, find?_eq_some_of_unique (h.1 n), State.coversLoad_iff]

theorem State.axisCover_iff {s : State} (h : s.CoverageLaw) (a : AxisNo) (c : Claim) :
    s.axisCover a = some c ↔ c ∈ s.claims ∧ c.target = .axis a := by
  rw [State.axisCover, find?_eq_some_of_unique (h.2.1 a), beq_iff_eq]

theorem outranks_eq_false (a b : Rank) : outranks a b = false ↔ a.code ≤ b.code := by simp [outranks]

theorem State.lockAgainst_eq_some {s : State} {o : Origin} {n : LoadNo} {c : Claim} (h : s.CoverageLaw) (hc : c ∈ s.claims)
    (covers : c.target = .load n ∨ c.target = .space (s.load n).space) (other : c.holder ≠ o)
    (rank : (s.rankOf o).code ≤ c.rank.code) : s.lockAgainst o n = some c := by
  have cover : s.loadCover n = some c := (State.loadCover_iff h n c).2 ⟨hc, covers⟩
  rw [← outranks_eq_false] at rank
  simp [State.lockAgainst, cover, other, rank]

theorem State.lockAgainst_eq_none {s : State} {o : Origin} {n : LoadNo}
    (h : ∀ c ∈ s.claims, (c.target = .load n ∨ c.target = .space (s.load n).space) →
      c.holder = o ∨ c.rank.code < (s.rankOf o).code) : s.lockAgainst o n = none := by
  unfold State.lockAgainst
  split
  · rename_i c hc
    have covers := (s.coversLoad_iff n c).1 (List.find?_some hc)
    rw [if_neg]
    rintro ⟨other, rank⟩
    rw [outranks_eq_false] at rank
    rcases h c (List.mem_of_find?_eq_some hc) covers with e | lt
    · exact other e
    · omega
  · rfl

/-- The lock rule looks at the claims, the stations and the loads' spaces alone (R19). -/
theorem State.lockAgainst_congr {s t : State} (hc : t.claims = s.claims) (hst : t.stations = s.stations)
    (hs : ∀ n, (t.load n).space = (s.load n).space) (o : Origin) (n : LoadNo) : t.lockAgainst o n = s.lockAgainst o n := by
  have cover : t.loadCover n = s.loadCover n := by simp only [State.loadCover, State.coversLoad, hc, hs]
  have rank : t.rankOf o = s.rankOf o := by simp only [State.rankOf, State.station, hst]
  rw [State.lockAgainst, State.lockAgainst, cover, rank]

theorem LoadRun.locked {s t : State} (h : LoadRun s t) (o : Origin) (n : LoadNo) : t.locked o n = s.locked o n := by
  have only := h.only
  rw [State.locked, State.locked, State.lockAgainst_congr only.claims (by rw [only]) h.space]

@[simp] theorem State.endReceipt_lockAgainst (s : State) (o o' : Origin) (n : LoadNo) :
    (s.endReceipt o).lockAgainst o' n = s.lockAgainst o' n :=
  State.lockAgainst_congr (by simp) (by simp) (by simp) o' n

/-! ### The request and its target -/

theorem State.checkTarget_names {s : State} {k : ReqKind} {o : Origin} {x : RawTarget} {t : Target} (hx : x.Names t)
    (hc : x.cls ∈ k.classes) (configured : s.unconfigured k t = false) (permitted : s.permitted k o t = true) :
    s.checkTarget k o x = .ok t :=
  State.checkTarget_ok hc hx.2 configured permitted

/-- A SET_LEVEL whose target passes its checks is answered as the Load Table decides it (R16 to R20). -/
theorem exec_setLevel {s : State} {o : Origin} {x : RawTarget} {t : Target} {level fade : Nat} (hl : level < 65536)
    (hf : fade < 65536) (takes : s.Takes .setLevel o) (hx : x.Names t) (hc : x.cls ∈ ReqKind.setLevel.classes)
    (configured : s.unconfigured .setLevel t = false) (permitted : s.permitted .setLevel o t = true) :
    exec (.setLevel o (setLevelBody x level fade)) s
      = .next (((s.endReceipt o).setLevels o t level fade).2.answered o ReqKind.setLevel.code
          ((s.endReceipt o).setLevels o t level fade).1) := by
  have fits : (setLevelBody x level fade).length ≤ 60 := by simp [setLevelBody, targetBytes, bytesOf]
  have ok : (s.endReceipt o).checkTarget .setLevel o x = .ok t := by
    rw [State.endReceipt_checkTarget]; exact State.checkTarget_names hx hc configured permitted
  show execSetLevel o (setLevelBody x level fade) s = _
  rw [execSetLevel, serve_decided takes.room fits, readSetLevel_body hx.1 hl hf, decideTarget_owned takes.endReceipt ok]

theorem Target.raw_names {t : Target} (h : ∀ tag, t ≠ .group tag) : t.raw.Names t := by
  unfold RawTarget.Names
  cases t with
  | group tag => exact absurd rfl (h tag)
  | load n => exact ⟨by show n.val < 65536; omega, by simp [Target.raw, RawTarget.typed]⟩
  | space p => exact ⟨by show p.val < 65536; omega, by simp [Target.raw, RawTarget.typed]⟩
  | axis a => exact ⟨by show a.val < 65536; omega, by simp [Target.raw, RawTarget.typed]⟩
  | scene v => exact ⟨by show v.val < 65536; omega, by simp [Target.raw, RawTarget.typed]⟩
  | all => exact ⟨by decide, rfl⟩
  | budget => exact ⟨by decide, rfl⟩
  | device => exact ⟨by decide, rfl⟩

/-- What a SPACE, ALL or GROUP target names. -/
theorem names_many {x : RawTarget} {t : Target} (h : x.Names t) (hc : x.cls = .space ∨ x.cls = .all ∨ x.cls = .group) :
    (∃ p, t = .space p) ∨ t = .all ∨ ∃ tag, t = .group tag := by
  obtain ⟨-, typed⟩ := h
  rcases hc with hc | hc | hc <;> simp only [RawTarget.typed, hc] at typed
  · split at typed
    · exact .inl ⟨_, (Option.some.inj typed).symm⟩
    · cases typed
  · exact .inr (.inl (Option.some.inj typed).symm)
  · exact .inr (.inr ⟨_, (Option.some.inj typed).symm⟩)

@[simp] theorem State.endReceipt_resolve (s : State) (o : Origin) (t : Target) : (s.endReceipt o).resolve t = s.resolve t := by
  cases t <;> simp only [State.resolve, State.endReceipt_load]

theorem State.setLevels_many (s : State) (o : Origin) (t : Target) (level fade : Nat)
    (h : (∃ p, t = .space p) ∨ t = .all ∨ ∃ tag, t = .group tag) :
    let ns := s.filterPermitted o t (s.resolve t)
    let r := applyEntries (State.locked o) fade (ns.map fun n => (n, level)) Tally.zero s
    s.setLevels o t level fade = if s.resolve t = [] ∨ ns = [] then s.refuse .badTarget else (r.1.reply, r.2) := by
  rcases h with ⟨p, rfl⟩ | rfl | ⟨tag, rfl⟩ <;> rfl

/-- A SPACE, ALL or GROUP target of SET_LEVEL past its checks (R16 to R20): BAD_TARGET where the filtered set is empty, else
its loads one at a time. -/
theorem exec_setLevel_many {s : State} {o : Origin} {x : RawTarget} {t : Target} {level fade : Nat} (hl : level < 65536)
    (hf : fade < 65536) (takes : s.Takes .setLevel o) (hx : x.Names t) (hc : x.cls = .space ∨ x.cls = .all ∨ x.cls = .group) :
    let chosen := (s.resolve t).filter fun n => s.permitsSpace o (s.load n).space
    let r := applyEntries (State.locked o) fade (chosen.map fun n => (n, level)) Tally.zero (s.endReceipt o)
    exec (.setLevel o (setLevelBody x level fade)) s
      = .next (if chosen = [] then (s.endReceipt o).answered o ReqKind.setLevel.code (.plain .badTarget)
          else r.2.answered o ReqKind.setLevel.code r.1.reply) := by
  intro chosen r
  have listed : x.cls ∈ ReqKind.setLevel.classes := by rcases hc with h | h | h <;> rw [h] <;> decide
  have named := names_many hx hc
  have configured : s.unconfigured .setLevel t = false := by
    rcases named with ⟨p, e⟩ | e | ⟨tag, e⟩ <;> rw [e] <;> rfl
  have permitted : s.permitted .setLevel o t = true := by
    rcases named with ⟨p, e⟩ | e | ⟨tag, e⟩ <;> rw [e] <;> rfl
  have decided : (s.endReceipt o).setLevels o t level fade
      = if s.resolve t = [] ∨ chosen = [] then (s.endReceipt o).refuse .badTarget else (r.1.reply, r.2) := by
    have kept : (s.endReceipt o).filterPermitted o t ((s.endReceipt o).resolve t) = chosen := by
      rcases named with ⟨p, e⟩ | e | ⟨tag, e⟩ <;> subst e <;>
        simp only [State.filterPermitted, State.endReceipt_resolve, State.endReceipt_permitsSpace, State.endReceipt_load,
          chosen]
    have unfolded := (s.endReceipt o).setLevels_many o t level fade named
    rwa [kept, State.endReceipt_resolve] at unfolded
  rw [exec_setLevel hl hf takes hx listed configured permitted, decided]
  by_cases none_left : chosen = []
  · rw [if_pos (.inr none_left), if_pos none_left]; rfl
  · have found : s.resolve t ≠ [] := fun e => none_left (by simp [chosen, e])
    rw [if_neg (by tauto), if_neg none_left]

/-- A group tag, a space and ALL take each load once, in ascending number (R16, R17). -/
theorem State.resolve_ascending (s : State) (t : Target) : (s.resolve t).Pairwise (· < ·) := by
  have sorted : allLoads.Pairwise (· < ·) := List.pairwise_lt_finRange 96
  cases t with
  | load n => exact List.pairwise_singleton _ _
  | group tag => simp only [State.resolve]; exact sorted.filter _
  | space p => simp only [State.resolve]; exact sorted.filter _
  | all => simp only [State.resolve]; exact sorted.filter _
  | axis a => exact .nil
  | scene v => exact .nil
  | budget => exact .nil
  | device => exact .nil

/-- Settles O11: a target resolves by a filter of the ascending list of all loads. -/
theorem targetsResolveToLoads : Obligations.targets_resolve_to_loads := by
  intro s
  refine ⟨fun n => rfl, fun p n => ?_, fun n => ?_, fun tag n => ?_, fun tag => ?_, s.resolve_ascending, ?_⟩
  · simp [State.resolve, allLoads_complete, and_comm]
  · simp [State.resolve, allLoads_complete]
  · simp [State.resolve, allLoads_complete, groupSlot]
  · have := Nat.mod_lt (tag * 40503) (show 65536 > 0 by decide)
    omega
  · intro o x t level fade hl hf takes hx hc empty
    have := exec_setLevel_many hl hf takes hx hc
    simpa [empty] using this

/-! ### One load -/

/-- SET_LEVEL on one load in the terms of Safety.lean: its new record written, and a fall answered (R43, R52, R111). -/
theorem State.setLevelOn_fst (s : State) (n : LoadNo) (level fade : Nat) :
    let l' := (s.load n).withSetTarget (s.limitedTarget n level) (fadeSteps fade)
    (s.setLevelOn n level fade).1 = if l'.countedDraw < (s.load n).countedDraw then (s.withLoad n l').afterFall
      else s.withLoad n l' :=
  s.reportLoad_eq n _ false

theorem LoadRec.withSetTarget_setTarget (l : LoadRec) (v k : Nat) : (l.withSetTarget v k).setTarget = v := by
  simp [LoadRec.withSetTarget]

theorem LoadRec.withSetTarget_forced (l : LoadRec) (v k : Nat) : (l.withSetTarget v k).forced = l.forced := by
  simp [LoadRec.withSetTarget]

theorem State.load_withLoad (s : State) (n m : LoadNo) (l : LoadRec) :
    (s.withLoad n l).load m = if m = n then l else s.load m := by
  rw [← State.storeLoad_eq_withLoad, State.load_storeLoad]

theorem State.afterFall_steady (s : State) : Steady s s.afterFall := by
  rw [← State.answerFall_eq_afterFall]; exact s.answerFall_steady

/-- SET_LEVEL moves the SET TARGET of its load alone, to the limited level (R52). -/
theorem State.setLevelOn_setTarget (s : State) (n m : LoadNo) (level fade : Nat) :
    ((s.setLevelOn n level fade).1.load m).setTarget = if m = n then s.limitedTarget n level else (s.load m).setTarget := by
  have stored : ((s.withLoad n ((s.load n).withSetTarget (s.limitedTarget n level) (fadeSteps fade))).load m).setTarget
      = if m = n then s.limitedTarget n level else (s.load m).setTarget := by
    rw [State.load_withLoad]
    split
    · exact LoadRec.withSetTarget_setTarget _ _ _
    · rfl
  rw [State.setLevelOn_fst]
  split
  · rw [(State.afterFall_steady _).targets, stored]
  · exact stored

/-- The limited level is the level asked, or lies between the old SET TARGET and it (R52 step 3, R54). -/
theorem State.limitedTarget_cases (s : State) (n : LoadNo) (level : Nat) :
    s.limitedTarget n level = (s.load n).levelAsked level
      ∨ (s.load n).setTarget ≤ s.limitedTarget n level ∧ s.limitedTarget n level < (s.load n).levelAsked level := by
  set l := s.load n with hl
  by_cases raise : l.setTarget < l.levelAsked level
  · have target : s.limitedTarget n level = max (s.raiseLimit n (l.levelAsked level)) l.setTarget := by
      simp only [State.limitedTarget, ← hl, raise, if_true]
    have limit : s.raiseLimit n (l.levelAsked level) ≤ l.levelAsked level ∨ s.raiseLimit n (l.levelAsked level) = l.setTarget := by
      simp only [State.raiseLimit, ← hl]
      split
      · rename_i kind
        have asked : l.levelAsked level = 1000 := by
          by_cases h0 : 0 < level
          · simp [LoadRec.levelAsked, kind, h0]
          · simp [LoadRec.levelAsked, kind, h0] at raise
        split
        · exact .inl (by omega)
        · exact .inr rfl
      · split
        · exact .inl (Nat.le_refl _)
        · exact .inl (Nat.min_le_left _ _)
    omega
  · exact .inl (by simp only [State.limitedTarget, ← hl, raise, if_false])

theorem applyEntries_one (skip : State → LoadNo → Bool) (fade : Nat) (n : LoadNo) (level : Nat) (s : State)
    (h : skip s n = false) :
    ((applyEntries skip fade [(n, level)] Tally.zero s).1.reply, (applyEntries skip fade [(n, level)] Tally.zero s).2)
      = (if s.limitedTarget n level = (s.load n).levelAsked level then .counts .done 1 0 0 else .counts .doneLimited 0 1 0,
         (s.setLevelOn n level fade).1) := by
  simp only [applyEntries, h, Bool.false_eq_true, if_false]
  by_cases full : s.limitedTarget n level = (s.load n).levelAsked level
  · simp [State.setLevelOn, full, Tally.reply, Tally.zero]
  · simp [State.setLevelOn, full, Tally.reply, Tally.zero]

/-- With no load shed, the answer to a fall is the end of DEFICIT where COMMITTED is within AVAILABLE (R111, R119). -/
theorem State.afterFall_of_none_shed {s : State} (h : s.budget.shedList = []) :
    s.afterFall = { s with budget := { s.budget with
      deficit := s.budget.deficit && !decide (s.budget.committed ≤ s.budget.available) } } := by
  unfold State.afterFall
  split
  · rename_i hd
    obtain ⟨deficit, above⟩ := hd
    have : decide (s.budget.committed ≤ s.budget.available) = false := by simpa using above
    rw [this, Bool.not_false, Bool.and_true]
  · rename_i hd
    have : (s.budget.deficit && !decide (s.budget.committed ≤ s.budget.available)) = false := by
      cases hb : s.budget.deficit <;> simp_all
    rw [this]
    show State.restoreAlong s.budget.shedList.reverse _ = _
    rw [h]
    rfl

/-- The duty of a new level is staged, the settle interval being over (R44). -/
theorem State.output_withLoad {s : State} (hs : s.settle = none) (n m : LoadNo) (l : LoadRec) :
    (s.withLoad n l).output m = if m = n ∧ l.level ≠ (s.load n).level then { s.output m with staged := some l.duty }
      else s.output m := by
  have unset : (s.setLoad n l).output m = s.output m := rfl
  simp only [State.withLoad, hs, Bool.false_eq_true, false_or, and_true]
  by_cases hl : l.level ≠ (s.load n).level
  · have e : ∀ b : Budget, ({ (s.setLoad n l).setOutput n { s.output n with staged := some l.duty } with budget := b } : State).output m
        = if m = n then { s.output n with staged := some l.duty } else s.output m :=
      fun b => State.output_setOutput (s.setLoad n l) n m _
    rw [if_pos hl, e]
    by_cases hm : m = n
    · rw [if_pos hm, if_pos ⟨hm, hl⟩, hm]
    · rw [if_neg hm, if_neg fun h => hm h.1]
  · rw [if_neg hl, if_neg fun h => hl h.2]; rfl

theorem State.withLoad_budget (s : State) (n : LoadNo) (l : LoadRec) :
    (s.withLoad n l).budget
      = { s.budget with committed := s.budget.committed + l.countedDraw - (s.load n).countedDraw } := by
  rw [← State.storeLoad_eq_withLoad, State.storeLoad_budget]

theorem State.withLoad_notices (s : State) (n : LoadNo) (l : LoadRec) : (s.withLoad n l).notices = s.notices := by
  rw [← State.storeLoad_eq_withLoad, State.storeLoad_notices]

/-- What SET_LEVEL on one load makes of the part where the draw does not fall, or no load is shed (R52, R99, R111, R119). -/
theorem State.setLevelOn_plain {s : State} {n : LoadNo} {level fade : Nat} (hs : s.settle = none) :
    let l := s.load n
    let l' := l.withSetTarget (s.limitedTarget n level) (fadeSteps fade)
    let t := (s.setLevelOn n level fade).1
    let c := s.budget.committed + l'.countedDraw - l.countedDraw
    l.countedDraw ≤ l'.countedDraw ∨ s.budget.shedList = [] →
      (∀ m, t.load m = if m = n then l' else s.load m)
      ∧ (∀ m, t.output m = if m = n ∧ l'.level ≠ l.level then { s.output m with staged := some l'.duty } else s.output m)
      ∧ t.notices = s.notices
      ∧ t.budget = { s.budget with
          committed := c
          deficit := s.budget.deficit && !(decide (l'.countedDraw < l.countedDraw) && decide (c ≤ s.budget.available)) } := by
  intro l l' t c plain
  set w := s.withLoad n l' with hw
  have budget : w.budget = { s.budget with committed := c } := s.withLoad_budget n l'
  have ht : t = if l'.countedDraw < l.countedDraw then w.afterFall else w := s.setLevelOn_fst n level fade
  have key : t = { w with budget := { w.budget with
      deficit := s.budget.deficit && !(decide (l'.countedDraw < l.countedDraw) && decide (c ≤ s.budget.available)) } } := by
    rw [ht]
    split
    · rename_i fall
      have list : w.budget.shedList = [] := by
        rw [budget]
        exact plain.resolve_left (by omega)
      rw [State.afterFall_of_none_shed list, budget]
      simp [fall]
    · rename_i rise
      rw [decide_eq_false rise, Bool.false_and, Bool.not_false, Bool.and_true]
      have : s.budget.deficit = w.budget.deficit := by rw [budget]
      rw [this]
  refine ⟨fun m => ?_, fun m => ?_, ?_, ?_⟩
  · rw [key]; exact s.load_withLoad n m l'
  · rw [key]; exact State.output_withLoad hs n m l'
  · rw [key]; exact s.withLoad_notices n l'
  · rw [key, budget]

end Sys2Proof.Machine

namespace Sys2Proof.Machine

/-- How far HEADROOM lets a load rise, by its KIND (R105, R106). -/
theorem State.raiseLimit_eq (s : State) (n : LoadNo) (asked : Nat) :
    let l := s.load n
    let allowed := l.countedDraw + (if s.budget.deficit then 0 else s.budget.available - s.budget.committed)
    s.raiseLimit n asked =
      if l.kind = .switch then (if l.ratedPower ≤ allowed then 1000 else l.setTarget)
      else if l.ratedPower = 0 then asked else min asked (allowed * 1000 / l.ratedPower) := by
  intro l allowed
  simp only [State.raiseLimit]
  split
  · rename_i kind; rw [if_pos kind]; rfl
  · rename_i kind; rw [if_neg kind]; rfl

/-- The target of SET_LEVEL on one load, as the statements write it out (R43, R52 step 3, R54). -/
theorem State.limitedTarget_eq (s : State) (n : LoadNo) (level : Nat) :
    let l := s.load n
    let asked := if l.kind = .switch then (if 0 < level then 1000 else 0) else min level 1000
    let allowed := l.countedDraw + (if s.budget.deficit then 0 else s.budget.available - s.budget.committed)
    let limit :=
      if l.kind = .switch then (if l.ratedPower ≤ allowed then 1000 else l.setTarget)
      else if l.ratedPower = 0 then asked else min asked (allowed * 1000 / l.ratedPower)
    s.limitedTarget n level = if l.setTarget < asked then max limit l.setTarget else asked := by
  intro l asked allowed limit
  have raise : s.raiseLimit n asked = limit := s.raiseLimit_eq n asked
  rw [← raise]; rfl

theorem State.setLevelOn_forced (s : State) (n m : LoadNo) (level fade : Nat) :
    ((s.setLevelOn n level fade).1.load m).forced = (s.load m).forced :=
  State.reportLoad_sameForced (LoadRec.withSetTarget_forced _ _ _) m

@[simp] theorem State.endReceipt_limitedTarget (s : State) (o : Origin) (n : LoadNo) (level : Nat) :
    (s.endReceipt o).limitedTarget n level = s.limitedTarget n level := by
  rw [State.limitedTarget_eq, State.limitedTarget_eq, State.endReceipt_load, State.endReceipt_budget]

@[simp] theorem State.endReceipt_output (s : State) (o : Origin) (n : LoadNo) : (s.endReceipt o).output n = s.output n := by
  simp only [State.output, State.endReceipt_outputs]

theorem State.setLevels_locked {s : State} {o : Origin} {n : LoadNo} {c : Claim} (h : s.lockAgainst o n = some c)
    (level fade : Nat) : s.setLevels o (.load n) level fade = (.claimed c.rank, s) := by
  simp only [State.setLevels, h]

theorem State.setLevels_one {s : State} {o : Origin} {n : LoadNo} (h : s.lockAgainst o n = none) (level fade : Nat) :
    s.setLevels o (.load n) level fade
      = (if s.limitedTarget n level = (s.load n).levelAsked level then .counts .done 1 0 0 else .counts .doneLimited 0 1 0,
         (s.setLevelOn n level fade).1) := by
  rw [← applyEntries_one (State.locked o) fade n level s (by simp [State.locked, h])]
  simp only [State.setLevels, h]

/-- Settles O14: the one entry is locked, or is given its limited target, the answer to a fall kept apart. -/
theorem setLevelOnOneLoad : Obligations.set_level_on_one_load := by
  intro s o n level fade hl hf takes kind permits
  have configured : s.unconfigured .setLevel (.load n) = false := by simp [State.unconfigured, kind]
  have permitted : s.permitted .setLevel o (.load n) = true := permits
  have decided := exec_setLevel hl hf takes (Target.raw_names (t := .load n) nofun)
    (show TargetClass.load ∈ ReqKind.setLevel.classes by decide) configured permitted
  refine ⟨fun law c hc covers other rank => ?_, fun free => ?_⟩
  · have locked : (s.endReceipt o).lockAgainst o n = some c := by
      rw [State.endReceipt_lockAgainst, State.lockAgainst_eq_some law hc covers other rank]
    rw [decided, State.setLevels_locked locked]
  · have unlocked : (s.endReceipt o).lockAgainst o n = none := by
      rw [State.endReceipt_lockAgainst, State.lockAgainst_eq_none free]
    intro l asked allowed limit target l'
    have target_eq : s.limitedTarget n level = target := s.limitedTarget_eq n level
    have run := (s.endReceipt o).setLevelOn_run n level fade
    have fst := (s.endReceipt o).setLevelOn_fst n level fade
    have plain := State.setLevelOn_plain (s := s.endReceipt o) (n := n) (level := level) (fade := fade)
      (by rw [State.endReceipt_settle]; exact takes.settled)
    simp only [State.endReceipt_limitedTarget, State.endReceipt_load, State.endReceipt_budget, State.endReceipt_output,
      State.endReceipt_notices, target_eq] at fst plain
    refine ⟨_, ?_, run.only, fun m => ?_, fun m => ?_, fun m => ?_, plain, fun fall => ?_⟩
    · rw [decided, State.setLevels_one unlocked, State.endReceipt_limitedTarget, target_eq, State.endReceipt_load]; rfl
    · rw [(run.changes m).config, State.endReceipt_load]
    · rw [State.setLevelOn_setTarget, State.endReceipt_limitedTarget, target_eq, State.endReceipt_load]
    · rw [State.setLevelOn_forced, State.endReceipt_load]
    · rw [fst]; exact if_pos fall

end Sys2Proof.Machine

namespace Sys2Proof.Machine

/-! ### Many loads -/

/-- The entries of a request that no lock skips. -/
def reachedEntries (skip : State → LoadNo → Bool) (s : State) (es : List (LoadNo × Nat)) : List (LoadNo × Nat) :=
  es.filter fun e => !skip s e.1

/-- A lock rule that no SET_LEVEL changes. -/
def StableSkip (skip : State → LoadNo → Bool) : Prop := ∀ s t : State, LoadRun s t → ∀ n, skip t n = skip s n

theorem StableSkip.reachedEntries {skip : State → LoadNo → Bool} (h : StableSkip skip) {s t : State} (run : LoadRun s t)
    (es : List (LoadNo × Nat)) : reachedEntries skip t es = Machine.reachedEntries skip s es := by
  simp only [Machine.reachedEntries, h s t run]

theorem LoadRun.levelAsked {s t : State} (h : LoadRun s t) (n : LoadNo) (level : Nat) :
    (t.load n).levelAsked level = (s.load n).levelAsked level := by
  simp only [LoadRec.levelAsked, (h.changes n).config]

section
variable {skip : State → LoadNo → Bool} (stable : StableSkip skip) (fade : Nat)
include stable

/-- A load that no entry reaches keeps its SET TARGET. -/
theorem applyEntries_setTarget_unreached (es : List (LoadNo × Nat)) (k : Tally) (s : State) (n : LoadNo)
    (h : n ∉ (reachedEntries skip s es).map Prod.fst) :
    ((applyEntries skip fade es k s).2.load n).setTarget = (s.load n).setTarget := by
  induction es generalizing k s with
  | nil => rfl
  | cons e es ih =>
    obtain ⟨m, level⟩ := e
    by_cases locked : skip s m = true
    · simp only [applyEntries, locked, if_true]
      exact ih _ _ (by simpa [reachedEntries, locked] using h)
    · simp only [applyEntries, locked]
      have run := s.setLevelOn_run m level fade
      have apart : n ≠ m ∧ n ∉ (reachedEntries skip s es).map Prod.fst := by simpa [reachedEntries, locked] using h
      rw [← stable.reachedEntries run] at apart
      rw [if_neg Bool.false_ne_true, ih _ _ apart.2, State.setLevelOn_setTarget, if_neg apart.1]

/-- Each reached load of entries that name no load twice ends at the level asked, or between its old SET TARGET and that
level (R52 step 3, R54). -/
theorem applyEntries_setTarget_reached (es : List (LoadNo × Nat)) (nodup : (es.map Prod.fst).Nodup) (k : Tally) (s : State)
    (e : LoadNo × Nat) (h : e ∈ reachedEntries skip s es) :
    let final := ((applyEntries skip fade es k s).2.load e.1).setTarget
    let asked := (s.load e.1).levelAsked e.2
    final = asked ∨ (s.load e.1).setTarget ≤ final ∧ final < asked := by
  induction es generalizing k s with
  | nil => simp [reachedEntries] at h
  | cons d es ih =>
    obtain ⟨m, level⟩ := d
    obtain ⟨new, nodup⟩ := List.nodup_cons.1 nodup
    by_cases locked : skip s m = true
    · simp only [applyEntries, locked, if_true]
      exact ih nodup _ _ (by simpa [reachedEntries, locked] using h)
    · simp only [applyEntries, locked]
      have run := s.setLevelOn_run m level fade
      have cases : e = (m, level) ∨ e ∈ reachedEntries skip s es := by simpa [reachedEntries, locked] using h
      rcases cases with rfl | rest
      · have later : m ∉ (reachedEntries skip (s.setLevelOn m level fade).1 es).map Prod.fst := fun hm =>
          new ((List.filter_sublist.map _).subset hm)
        rw [if_neg Bool.false_ne_true, applyEntries_setTarget_unreached stable fade es _ _ m later,
          State.setLevelOn_setTarget, if_pos rfl]
        exact s.limitedTarget_cases m level
      · have apart : e.1 ≠ m := by
          rintro rfl
          exact new (List.mem_map.2 ⟨e, (List.mem_filter.1 rest).1, rfl⟩)
        have kept := ih nodup (if (s.setLevelOn m level fade).2
            then { k with applied := k.applied + 1, pairs := k.pairs ++ [(m, (s.load m).setTarget)] }
            else { k with limited := k.limited + 1, pairs := k.pairs ++ [(m, (s.load m).setTarget)] })
          (s.setLevelOn m level fade).1 (by rwa [stable.reachedEntries run])
        rwa [State.setLevelOn_setTarget, if_neg apart, run.levelAsked] at kept

/-- The three counts: every entry is skipped, applied or limited, and an applied one is at the level asked (R20). -/
theorem applyEntries_counts (es : List (LoadNo × Nat)) (nodup : (es.map Prod.fst).Nodup) (k : Tally) (s : State) :
    let r := applyEntries skip fade es k s
    let reached := reachedEntries skip s es
    r.1.applied = k.applied + (reached.filter fun e => (r.2.load e.1).setTarget == (s.load e.1).levelAsked e.2).length
      ∧ r.1.applied + r.1.limited = k.applied + k.limited + reached.length
      ∧ r.1.skipped + reached.length = k.skipped + es.length := by
  induction es generalizing k s with
  | nil => simp [applyEntries, reachedEntries]
  | cons d es ih =>
    obtain ⟨m, level⟩ := d
    obtain ⟨new, nodup⟩ := List.nodup_cons.1 nodup
    by_cases locked : skip s m = true
    · have reached : reachedEntries skip s ((m, level) :: es) = reachedEntries skip s es := by
        simp [reachedEntries, locked]
      obtain ⟨applied, taken, skipped⟩ := ih nodup { k with skipped := k.skipped + 1 } s
      simp only [applyEntries, locked, if_true, reached]
      refine ⟨applied, taken, ?_⟩
      rw [skipped, List.length_cons]
      simp only
      omega
    · have reached : reachedEntries skip s ((m, level) :: es) = (m, level) :: reachedEntries skip s es := by
        simp [reachedEntries, locked]
      have run := s.setLevelOn_run m level fade
      simp only [applyEntries, locked, reached, if_neg Bool.false_ne_true]
      set t := (s.setLevelOn m level fade).1 with ht
      set k' := if (s.setLevelOn m level fade).2
            then { k with applied := k.applied + 1, pairs := k.pairs ++ [(m, (s.load m).setTarget)] }
            else { k with limited := k.limited + 1, pairs := k.pairs ++ [(m, (s.load m).setTarget)] } with hk
      have later : m ∉ (reachedEntries skip t es).map Prod.fst := fun hm => new ((List.filter_sublist.map _).subset hm)
      have head : ((applyEntries skip fade es k' t).2.load m).setTarget = s.limitedTarget m level := by
        rw [applyEntries_setTarget_unreached stable fade es k' t m later, ht, State.setLevelOn_setTarget, if_pos rfl]
      obtain ⟨applied, taken, skipped⟩ := ih nodup k' t
      simp only [stable.reachedEntries run, run.levelAsked] at applied taken skipped
      have full : (s.setLevelOn m level fade).2 = (s.limitedTarget m level == (s.load m).levelAsked level) := rfl
      rw [List.filter_cons, head, ← full, applied, List.length_cons, List.length_cons]
      have tally : k'.applied = k.applied + (if (s.setLevelOn m level fade).2 then 1 else 0)
          ∧ k'.applied + k'.limited = k.applied + k.limited + 1 ∧ k'.skipped = k.skipped := by
        rw [hk]; split <;> refine ⟨rfl, ?_, rfl⟩ <;> simp only <;> omega
      refine ⟨?_, by omega, by omega⟩
      rw [tally.1]
      split
      · rw [List.length_cons]; omega
      · omega
end

theorem State.locked_stable (o : Origin) : StableSkip (State.locked o) := fun _ _ run n => run.locked o n

theorem reachedEntries_level (s : State) (o : Origin) (ns : List LoadNo) (level : Nat) :
    reachedEntries (State.locked o) s (ns.map fun n => (n, level))
      = (ns.filter fun n => (s.lockAgainst o n).isNone).map fun n => (n, level) := by
  simp [reachedEntries, List.filter_map, Function.comp_def, State.locked]

/-- Settles O15, by the run of the entries: what it makes of reached and unreached loads, and its three counts. -/
theorem setLevelOnManyLoads : Obligations.set_level_on_many_loads := by
  intro s o x t level fade hl hf takes hx hc chosen reached asked
  have decided := exec_setLevel_many hl hf takes hx hc
  refine ⟨fun empty => ?_, fun found => ?_⟩
  · rw [decided, if_pos empty]
  · set es := chosen.map fun n => (n, level) with hes
    set r := applyEntries (State.locked o) fade es Tally.zero (s.endReceipt o) with hr
    have names : es.map Prod.fst = chosen := by simp [hes, Function.comp_def]
    have nodup : (es.map Prod.fst).Nodup := by
      rw [names]; exact ((s.resolve_ascending t).filter _).imp fun h => ne_of_lt h
    have entries : reachedEntries (State.locked o) (s.endReceipt o) es = reached.map fun n => (n, level) := by
      rw [hes, reachedEntries_level]; simp only [State.endReceipt_lockAgainst, reached]
    have stable := State.locked_stable o
    have run := applyEntries_run (State.locked o) fade es Tally.zero (s.endReceipt o)
    have forced := applyEntries_sameForced (State.locked o) fade es Tally.zero (s.endReceipt o)
    obtain ⟨applied, taken, skipped⟩ := applyEntries_counts stable fade es nodup Tally.zero (s.endReceipt o)
    have unreached := applyEntries_setTarget_unreached stable fade es Tally.zero (s.endReceipt o)
    have hit := applyEntries_setTarget_reached stable fade es nodup Tally.zero (s.endReceipt o)
    simp only [← hr, entries, State.endReceipt_load] at run forced applied taken skipped unreached hit
    refine ⟨r.2, ?_, run.only, fun n => ?_, fun n => ?_, fun n hn => ?_, fun n hn => ?_⟩
    · have counted : r.1.applied = (reached.filter fun n => (r.2.load n).setTarget == asked n).length := by
        rw [applied, List.filter_map, List.length_map]; exact Nat.zero_add _
      simp only [List.length_map, Tally.zero] at taken skipped
      have size : es.length = chosen.length := by rw [hes, List.length_map]
      rw [decided, if_neg found, Tally.reply, ← counted]
      rw [show reached.length - r.1.applied = r.1.limited by omega,
        show chosen.length - reached.length = r.1.skipped by omega]
    · rw [(run.changes n).config, State.endReceipt_load]
    · rw [forced n, State.endReceipt_load]
    · exact unreached n (by simpa using hn)
    · exact hit (n, level) (List.mem_map_of_mem hn)

end Sys2Proof.Machine

namespace Sys2Proof.Machine

/-! ## QUERY -/

/-- A QUERY whose target passes its checks shows the view of its target. -/
theorem exec_query {s : State} {o : Origin} {x : RawTarget} {t : Target} (takes : s.Takes .query o) (hx : x.Names t)
    (hc : x.cls ∈ ReqKind.query.classes) (configured : s.unconfigured .query t = false)
    (permitted : s.permitted .query o t = true) :
    exec (.query o (targetBytes x)) s
      = .next (((s.endReceipt o).viewOf t).2.answered o ReqKind.query.code ((s.endReceipt o).viewOf t).1) := by
  have fits : (targetBytes x).length ≤ 60 := by simp [targetBytes, bytesOf]
  have ok : (s.endReceipt o).checkTarget .query o x = .ok t := by
    rw [State.endReceipt_checkTarget]; exact State.checkTarget_names hx hc configured permitted
  show execQuery o (targetBytes x) s = _
  rw [execQuery, serve_decided takes.room fits, readTargetBody_bytes hx.1, decideTarget_owned takes.endReceipt ok]

section
variable (s : State) (o : Origin)

@[simp] theorem State.endReceipt_loadView (n : LoadNo) : (s.endReceipt o).loadView n = s.loadView n := by
  simp only [State.endReceipt]; split <;> rfl
@[simp] theorem State.endReceipt_axisView (a : AxisNo) : (s.endReceipt o).axisView a = s.axisView a := by
  simp only [State.endReceipt]; split <;> rfl
@[simp] theorem State.endReceipt_sceneView (v : SceneNo) : (s.endReceipt o).sceneView v = s.sceneView v := by
  simp only [State.endReceipt]; split <;> rfl
@[simp] theorem State.endReceipt_budgetView : (s.endReceipt o).budgetView = s.budgetView := by
  simp only [State.endReceipt]; split <;> rfl
end

theorem names_budget {x : RawTarget} (h : x.Names .budget) : x.cls = .budget := by
  obtain ⟨-, typed⟩ := h
  unfold RawTarget.typed at typed
  cases hc : x.cls <;> simp_all

/-- A finite lease is reported in its units, rounded up (R23, Table 2-2). -/
theorem Claim.leaseReported_left {c : Claim} {ms : Nat} (h : c.lease = .left ms) (pos : 0 < ms) :
    c.leaseReported = match c.target with | .axis _ => (ms + 49) / 50 | _ => (ms + 999) / 1000 := by
  cases ht : c.target <;> simp only [Claim.leaseReported, h, Claim.kind, ht, holdUnitMs, lockUnitMs] <;> omega

/-- Settles O23: an admitted QUERY shows the view of its target, and each view is read field by field. -/
theorem queryShowsTheRecords : Obligations.query_shows_the_records := by
  intro s o takes law opt flag shows
  have absent : opt = optField := funext fun x => by cases x <;> rfl
  rw [absent]
  refine ⟨fun n permits kind => ⟨s.loadCover n, State.loadCover_iff law n, ?_⟩,
    fun a permits => ⟨s.axisCover a, State.axisCover_iff law a, ?_⟩,
    fun v permits => ⟨s.sceneView v, ?_, ?_, ?_, fun i hi => ?_⟩,
    fun x hx => ⟨s.budgetView, ?_, ?_, ?_, fun i hi => ?_⟩,
    fun c permanent => by simp only [Claim.leaseReported, permanent],
    fun c ms left pos => Claim.leaseReported_left left pos⟩
  · have configured : s.unconfigured .query (.load n) = false := by simp [State.unconfigured, kind]
    have shown := exec_query takes (Target.raw_names (t := .load n) nofun) (by simp [Target.raw, ReqKind.classes])
      configured permits
    simp only [State.viewOf, State.endReceipt_loadView] at shown
    exact shown
  · have shown := exec_query takes (Target.raw_names (t := .axis a) nofun) (by simp [Target.raw, ReqKind.classes])
      rfl permits
    simp only [State.viewOf, State.endReceipt_axisView] at shown
    exact shown
  · have shown := exec_query takes (Target.raw_names (t := .scene v) nofun) (by simp [Target.raw, ReqKind.classes])
      rfl permits
    simpa only [State.viewOf, State.endReceipt_sceneView] using shown
  · rfl
  · rfl
  · interval_cases i <;> exact ⟨rfl, rfl⟩
  · have shown := exec_query takes hx (by rw [names_budget hx]; decide) rfl rfl
    simpa only [State.viewOf, State.endReceipt_budgetView] using shown
  · rfl
  · have draw : s.totalDraw = ((List.finRange 96).map fun n => (s.load n).countedDraw).sum := by
      rw [State.totalDraw_eq, Fin.sum_univ_def]
    rw [← draw, ← State.totalHeld_eq]; rfl
  · interval_cases i <;> rfl

end Sys2Proof.Machine

namespace Sys2Proof.Machine

/-! ## WRITE_STATION -/

/-! ### The end of a HOLD claim where no entry stops an axis -/

/-- No entry stops its subject: the first part of the interlock law (R165). -/
def State.Quiet (s : State) : Prop := ∀ p e, s.interlock p = some e → s.entryStops e = false

/-- A change reaches no other axis where no entry stops its subject (R165). -/
theorem State.Quiet.tellInterlocks {s : State} (h : s.Quiet) (a : AxisNo) : s.tellInterlocks a = s := by
  unfold State.tellInterlocks State.passChange
  apply List.foldl_fixed'
  intro p
  split
  · rename_i e he
    rw [h p e he, if_neg (by simp)]
  · rfl

@[simp] theorem AxisRec.claimEndedBy_position (x : AxisRec) (er : EndReason) : (x.claimEndedBy er).position = x.position := by
  unfold AxisRec.claimEndedBy; split <;> rfl

@[simp] theorem AxisRec.claimEndedBy_verified (x : AxisRec) (er : EndReason) : (x.claimEndedBy er).verified = x.verified := by
  unfold AxisRec.claimEndedBy; split <;> rfl

/-- After the end of its claim an axis moves in no direction that an entry tests (R140, R163). -/
@[simp] theorem AxisRec.claimEndedBy_movingDirection (x : AxisRec) (er : EndReason) :
    (x.claimEndedBy er).movingDirection = none := by
  unfold AxisRec.claimEndedBy
  split <;> rename_i h <;> simp [AxisRec.movingDirection, AxisRec.parkedBy, AxisRec.stoppedBy, h]

/-- The axes of t are those of s, some of them after the end of their claim. -/
def ClaimsEnded (er : EndReason) (s t : State) : Prop := ∀ a, t.axis a = s.axis a ∨ t.axis a = (s.axis a).claimEndedBy er

/-- The end of a claim satisfies no entry that was not satisfied (R162). -/
theorem ClaimsEnded.satisfied {er : EndReason} {s t : State} (h : ClaimsEnded er s t) {e : Interlock}
    (now : t.satisfied e = true) : s.satisfied e = true := by
  rcases h e.condition with same | ended
  · simpa only [State.satisfied, same] using now
  · cases relation : e.relation with
    | below => simpa [State.satisfied, relation, ended] using now
    | above => simpa [State.satisfied, relation, ended] using now
    | notParked =>
      simp only [State.satisfied, relation, ended] at now ⊢
      cases state : (s.axis e.condition).state with
      | parked => simp [AxisRec.claimEndedBy, state] at now
      | lockout => simp [AxisRec.claimEndedBy, state] at now
      | warn => rfl
      | run => rfl
      | stopping => rfl
      | rest => rfl

theorem ClaimsEnded.quiet {er : EndReason} {s t : State} (h : ClaimsEnded er s t) (entries : t.interlocks = s.interlocks)
    (quiet : s.Quiet) : t.Quiet := by
  intro p e he
  have before := quiet p e (by rw [← State.interlock_congr entries]; exact he)
  rcases h e.subject with same | ended
  · rw [State.entryStops, same]
    rw [State.entryStops] at before
    split at before
    · rename_i d hd
      have free : s.satisfied e = true → BlockDir.forbids e.direction d = false := by
        simpa [State.entryBlocks] using before
      simpa [State.entryBlocks] using fun now => free (h.satisfied now)
    · rfl
  · simp only [State.entryStops, ended, AxisRec.claimEndedBy_movingDirection]

/-- A park, before it is passed on, changes the record of its own axis alone (R135). -/
theorem State.parkCore_axis (s : State) (a b : AxisNo) (er : EndReason) :
    (s.parkCore a er).axis b = if b = a then (s.axis a).parkedBy er else s.axis b :=
  (s.parkCore_spec a er false).2.1 b

theorem State.parkCore_channel (s : State) (a b : AxisNo) (er : EndReason) :
    (s.parkCore a er).channel b = if b = a then (s.channel a).finish else s.channel b :=
  (s.parkCore_spec a er false).2.2 b

theorem ite_claimEnded {er : EndReason} {s t : State} {a : AxisNo}
    (h : ∀ b, t.axis b = if b = a then (s.axis a).claimEndedBy er else s.axis b) : ClaimsEnded er s t := by
  intro b
  rw [h b]
  split
  · rename_i e; rw [e]; exact .inr rfl
  · exact .inl rfl

/-- An axis that loses its HOLD claim by pre-emption responds by its state, and no other axis is touched (R39, R140). -/
theorem State.Quiet.claimEnded {s : State} (h : s.Quiet) (a : AxisNo) :
    (∀ b, (s.claimEnded a .preEmpted).axis b = if b = a then (s.axis a).claimEndedBy .preEmpted else s.axis b)
      ∧ (∀ b, b ≠ a → (s.claimEnded a .preEmpted).channel b = s.channel b) := by
  cases state : (s.axis a).state with
  | warn =>
    have axes : ∀ b, (s.parkCore a .preEmpted).axis b = if b = a then (s.axis a).claimEndedBy .preEmpted else s.axis b := by
      intro b; rw [State.parkCore_axis, AxisRec.claimEndedBy, state]
    have quiet := (ite_claimEnded axes).quiet (s.parkCore_spec a .preEmpted false).1.interlocks h
    have eq : s.claimEnded a .preEmpted = s.parkCore a .preEmpted := by
      simp only [State.claimEnded, state]; exact quiet.tellInterlocks a
    rw [eq]
    exact ⟨axes, fun b hb => by rw [State.parkCore_channel, if_neg hb]⟩
  | run =>
    have axes : ∀ b, (s.stopCore a .preEmpted).axis b = if b = a then (s.axis a).claimEndedBy .preEmpted else s.axis b := by
      intro b; rw [State.stopCore_axis, AxisRec.claimEndedBy, state]; rfl
    have quiet := (ite_claimEnded axes).quiet (s.setAxis_only a _).interlocks h
    have eq : s.claimEnded a .preEmpted = s.stopCore a .preEmpted := by
      simp only [State.claimEnded, state]; exact quiet.tellInterlocks a
    rw [eq]
    exact ⟨axes, fun b _ => rfl⟩
  | rest =>
    have eq : s.claimEnded a .preEmpted = s.setAxis a { s.axis a with pending := none } := by
      simp [State.claimEnded, state]
    rw [eq]
    have ended : (s.axis a).claimEndedBy .preEmpted = { s.axis a with pending := none } := by
      simp [AxisRec.claimEndedBy, state]
    exact ⟨fun b => by rw [State.axis_setAxis, ended], fun b _ => rfl⟩
  | parked | stopping | lockout =>
    have eq : s.claimEnded a .preEmpted = s := by simp only [State.claimEnded, state]
    rw [eq]
    refine ⟨fun b => ?_, fun _ _ => rfl⟩
    rw [AxisRec.claimEndedBy, state]
    split
    · rename_i e; rw [e]
    · rfl

/-- One axis is told, where a claim on it is lost (R36, R39). -/
theorem State.Quiet.tellIfLost {s : State} (h : s.Quiet) (lost : List Claim) (a : AxisNo) :
    (s.tellIfLost lost a).Quiet
      ∧ (∀ b, (s.tellIfLost lost a).axis b
          = if b = a ∧ ∃ c ∈ lost, c.target = .axis a then (s.axis b).claimEndedBy .preEmpted else s.axis b)
      ∧ (∀ b, ¬ (b = a ∧ ∃ c ∈ lost, c.target = .axis a) → (s.tellIfLost lost a).channel b = s.channel b) := by
  have steady := State.tellIfLost_steady lost s a
  by_cases told : ∃ c ∈ lost, c.target = .axis a
  · have eq : s.tellIfLost lost a = s.claimEnded a .preEmpted := by simp [State.tellIfLost, told]
    obtain ⟨axes, channels⟩ := h.claimEnded a
    rw [eq] at steady ⊢
    refine ⟨(ite_claimEnded axes).quiet steady.only.interlocks h, fun b => ?_, fun b hb => channels b fun e => hb ⟨e, told⟩⟩
    rw [axes]
    by_cases hb : b = a
    · rw [if_pos hb, if_pos ⟨hb, told⟩, hb]
    · rw [if_neg hb, if_neg fun e => hb e.1]
  · have eq : s.tellIfLost lost a = s := by simp [State.tellIfLost, told]
    rw [eq]
    exact ⟨h, fun b => by rw [if_neg fun e => told e.2], fun _ _ => rfl⟩

/-- The axes are told in turn, each once: those with a lost claim respond, the others stand. -/
theorem State.Quiet.tellAll {s : State} (h : s.Quiet) (lost : List Claim) (as : List AxisNo) (nodup : as.Nodup) (b : AxisNo) :
    let u := as.foldl (State.tellIfLost lost) s
    let told := b ∈ as ∧ ∃ c ∈ lost, c.target = .axis b
    (told → u.axis b = (s.axis b).claimEndedBy .preEmpted) ∧ (¬ told → u.axis b = s.axis b ∧ u.channel b = s.channel b) := by
  induction as generalizing s with
  | nil => simp
  | cons a as ih =>
    obtain ⟨new, nodup⟩ := List.nodup_cons.1 nodup
    obtain ⟨quiet, axes, channels⟩ := h.tellIfLost lost a
    obtain ⟨ended, kept⟩ := ih quiet nodup
    simp only [List.foldl_cons, List.mem_cons]
    by_cases hb : b = a
    · subst hb
      obtain ⟨axis, channel⟩ := kept fun e => new e.1
      refine ⟨fun told => ?_, fun spared => ?_⟩
      · rw [axis, axes, if_pos ⟨rfl, told.2⟩]
      · have spared : ¬ (b = b ∧ ∃ c ∈ lost, c.target = .axis b) := fun e => spared ⟨.inl rfl, e.2⟩
        rw [axis, channel, axes, if_neg spared]
        exact ⟨rfl, channels b spared⟩
    · have other : ¬ (b = a ∧ ∃ c ∈ lost, c.target = .axis a) := fun e => hb e.1
      have axis := axes b
      rw [if_neg other] at axis
      rw [axis] at ended kept
      rw [channels b other] at kept
      exact ⟨fun told => ended ⟨told.1.resolve_left hb, told.2⟩, fun spared => kept fun e => spared ⟨.inr e.1, e.2⟩⟩

end Sys2Proof.Machine

namespace Sys2Proof.Machine

/-! ### The request -/

theorem readWriteStation_body (address : Byte) (present : Bool) (rank : Rank) (spaces : BitVec 16) (axes : Byte) :
    readWriteStation [address, if present then 1 else 0, BitVec.ofNat 8 rank.code, spaces.extractLsb' 8 8,
        spaces.extractLsb' 0 8, axes]
      = some ⟨address.toNat, present, rank, spaces, axes⟩ := by
  have whole : spaces.extractLsb' 8 8 ++ spaces.extractLsb' 0 8 = spaces := by
    ext i hi
    simp only [BitVec.getElem_append, BitVec.getElem_extractLsb']
    split
    · simp [BitVec.getLsbD_eq_getElem hi]
    · rw [show 8 + (i - 8) = i by omega, BitVec.getLsbD_eq_getElem hi]
  simp only [readWriteStation, readPresent_code, readRank_code, Option.bind_some, Option.map_some, whole]

/-- A WRITE_STATION past its screen is decided by the Station Table. -/
theorem exec_writeStation {s : State} {o : Origin} {body : List Byte} {f : StationFields} (takes : s.Takes .writeStation o)
    (fits : body.length ≤ 60) (hf : readWriteStation body = some f) :
    exec (.writeStation o body) s = .next (((s.endReceipt o).decideWriteStation f).2.answered o ReqKind.writeStation.code
      ((s.endReceipt o).decideWriteStation f).1) := by
  obtain ⟨g, hg, owned⟩ := decideBody_owned (parsed := some f)
    (owner := fun f s => State.decideWriteStation s f) takes.endReceipt.admission takes.endReceipt.screen
  cases hg
  show execWriteStation o body s = _
  rw [execWriteStation, serve_decided takes.room fits, hf, owned]

@[simp] theorem State.endReceipt_axis (s : State) (o : Origin) (a : AxisNo) : (s.endReceipt o).axis a = s.axis a :=
  State.axis_congr (by simp) a

@[simp] theorem State.endReceipt_channel (s : State) (o : Origin) (a : AxisNo) : (s.endReceipt o).channel a = s.channel a :=
  State.channel_congr (by simp) a

theorem State.endReceipt_quiet {s : State} (h : s.Quiet) (o : Origin) : (s.endReceipt o).Quiet :=
  ClaimsEnded.quiet (er := .none) (fun a => .inl (s.endReceipt_axis o a)) (by simp) h

theorem stationEntry_bad {f : StationFields}
    (h : f.address = 0 ∨ 62 < f.address ∨ f.present = true ∧ (f.rank = .management ∨ 8 ≤ f.axisMask.toNat)) :
    stationEntry f = none := by
  unfold stationEntry
  split
  · rcases h with zero | high | ⟨present, bad⟩
    · omega
    · omega
    · simp only [present, if_true, if_pos bad]
  · rfl

theorem stationEntry_good {f : StationFields} {p : Fin 62} (place : f.address = p.val + 1)
    (good : f.present = true → f.rank ≠ .management ∧ f.axisMask.toNat < 8) :
    stationEntry f = some (p, if f.present then
      some { rank := f.rank, spaceMask := f.spaceMask, axisMask := f.axisMask.setWidth 3 } else none) := by
  have bounds : 1 ≤ f.address ∧ f.address ≤ 62 := by omega
  have same : (⟨f.address - 1, by omega⟩ : Fin 62) = p := Fin.ext (by simp [place])
  unfold stationEntry
  rw [dif_pos bounds, same]
  cases present : f.present with
  | false => rfl
  | true =>
    obtain ⟨rank, axes⟩ := good present
    have fine : ¬ (f.rank = .management ∨ 8 ≤ f.axisMask.toNat) := by rintro (e | e) <;> [exact rank e; omega]
    simp only [if_true, if_neg fine]

/-- The claims a write takes are those of the station on what it was and is no longer permitted (R36). -/
theorem State.claimLost_iff (before after : State) (o : Origin) (c : Claim) :
    before.claimLost after o c = true ↔ c.holder = o ∧ match c.target with
      | .axis a => before.permitsAxis o a = true ∧ after.permitsAxis o a = false
      | .space p => before.permitsSpace o p = true ∧ after.permitsSpace o p = false
      | .load n => before.permitsSpace o (before.load n).space = true
          ∧ after.permitsSpace o (before.load n).space = false := by
  unfold State.claimLost
  cases c.target <;> simp

/-- What a write of a Station Table entry makes of a part whose entries stop no axis (R10, R36, R140). -/
theorem State.Quiet.writeStation {s after : State} (quiet : s.Quiet) (p : Fin 62) (e : Option Station)
    (written : after = { s with stations := s.stations.set p e }) :
    let lost := fun c => s.claimLost after (placeOrigin p) c
    let u := s.writeStation p e
    u.claims = s.claims.filter (fun c => !lost c) ∧ Steady { after with claims := u.claims } u
      ∧ (∀ a, (∃ c ∈ s.claims, c.target = .axis a ∧ lost c = true) → u.axis a = (s.axis a).claimEndedBy .preEmpted)
      ∧ (∀ a, (∀ c ∈ s.claims, c.target = .axis a → ¬ lost c = true) → u.axis a = s.axis a ∧ u.channel a = s.channel a)
      ∧ ((∀ a, ∀ c ∈ s.claims, c.target = .axis a → ¬ lost c = true) → u = { after with claims := u.claims }) := by
  subst written
  intro lost u
  set after : State := { s with stations := s.stations.set p e }
  set gone := s.claims.filter lost with hgone
  set t := after.setClaims (s.claims.filter fun c => !lost c) with ht
  have folded : u = allAxes.foldl (State.tellIfLost gone) t := rfl
  have steady : Steady t u := Steady.foldl (State.tellIfLost_steady gone) allAxes t
  have claims : u.claims = s.claims.filter fun c => !lost c := steady.only.claims
  have start : { after with claims := u.claims } = t := by rw [claims]; rfl
  have tell := fun a => State.Quiet.tellAll (s := t) quiet gone allAxes (by decide) a
  have told : ∀ a, (a ∈ allAxes ∧ ∃ c ∈ gone, c.target = .axis a) ↔ ∃ c ∈ s.claims, c.target = .axis a ∧ lost c = true := by
    intro a
    simp only [hgone, List.mem_filter, allAxes_complete, true_and]
    exact ⟨fun ⟨c, ⟨hc, taken⟩, target⟩ => ⟨c, hc, target, taken⟩, fun ⟨c, hc, target, taken⟩ => ⟨c, ⟨hc, taken⟩, target⟩⟩
  refine ⟨claims, start ▸ steady, fun a h => (tell a).1 ((told a).2 h), fun a h => (tell a).2 ?_, fun h => ?_⟩
  · rw [told]
    rintro ⟨c, hc, target, taken⟩
    exact h c hc target taken
  · rw [start, folded]
    apply List.foldl_fixed'
    intro a
    have spared : ¬ ∃ c ∈ gone, c.target = .axis a := by
      rintro ⟨c, hc, target⟩
      obtain ⟨mem, taken⟩ := List.mem_filter.1 hc
      exact h a c mem target taken
    simp [State.tellIfLost, spared]

/-- Settles O31: the claims lost are filtered out, and the axes told of it, which no interlock entry passes on. -/
theorem writeStationTakesPermissionsAway : Obligations.write_station_takes_permissions_away := by
  intro s o address present rank spaces axes takes body
  have decided : exec (.writeStation o body) s = _ :=
    exec_writeStation takes (Nat.le_add_right 6 54) (readWriteStation_body address present rank spaces axes)
  refine ⟨fun bad => ?_, ?_⟩
  · have refused := stationEntry_bad (f := ⟨address.toNat, present, rank, spaces, axes⟩)
      (bad.imp_left fun zero => by rw [zero]; rfl)
    rw [decided, State.decideWriteStation, refused]; rfl
  · intro p place good law station entry after lostSpace lostAxis lost
    have written : stationEntry ⟨address.toNat, present, rank, spaces, axes⟩ = some (p, entry) :=
      stationEntry_good place good
    have quiet : (s.endReceipt o).Quiet := State.endReceipt_quiet law.1 o
    have taken : ∀ c, (s.endReceipt o).claimLost after (placeOrigin p) c = true ↔ lost c := by
      intro c
      rw [State.claimLost_iff]
      simp only [State.endReceipt_permitsAxis, State.endReceipt_permitsSpace, State.endReceipt_load]
      exact Iff.rfl
    obtain ⟨claims, steady, ended, kept, quietly⟩ := quiet.writeStation (after := after) p entry
      (by simp only [after, State.endReceipt_stations])
    simp only [taken, State.endReceipt_claims, State.endReceipt_axis, State.endReceipt_channel]
      at claims steady ended kept quietly
    have loads : ∀ n, after.load n = s.load n := s.endReceipt_load o
    refine ⟨_, ?_, ?_, fun c => ?_, steady.only, fun n => ?_, fun n => ?_, ended, kept, quietly⟩
    · rw [decided, State.decideWriteStation, written]; rfl
    · rw [claims]; exact List.filter_sublist
    · rw [claims, List.mem_filter, ← taken c, Bool.not_eq_true']; simp
    · rw [steady.configs n]; exact congrArg LoadRec.toLoadConfig (loads n)
    · rw [steady.targets n]; exact congrArg LoadRec.setTarget (loads n)

end Sys2Proof.Machine

/-! # Proofs of the statements on claims and leases

CLAIM, RENEW and RELEASE are decided at the Claim Table; the end of a HOLD claim reaches its axis, whose response is passed
to the Interlock Table and to the Power Budget Monitor. -/

namespace Sys2Proof.Machine

/-! ## CLAIM, RENEW and RELEASE -/

/-! ### The requests -/

theorem claimTargetOf_target (t : ClaimTarget) : claimTargetOf (ClaimTarget.target t) = some t := by cases t <;> rfl

theorem ClaimTarget.names (t : ClaimTarget) : (ClaimTarget.target t).raw.Names (ClaimTarget.target t) :=
  Target.raw_names fun tag => by cases t <;> exact Target.noConfusion

/-- The lease granted, as the statements write it out (Table 2-2). -/
theorem leaseGranted_eq (t : ClaimTarget) (rank : Rank) (lease : Nat) :
    leaseGranted (ClaimTarget.kind t) rank lease = ClaimTarget.lease t rank lease := by
  cases t with
  | axis a => rfl
  | load n => cases rank <;> simp [leaseGranted, ClaimTarget.kind, ClaimTarget.lease, Rank.code, lockUnitMs]
  | space p => cases rank <;> simp [leaseGranted, ClaimTarget.kind, ClaimTarget.lease, Rank.code, lockUnitMs]

/-- No lease is granted that has run out already (Table 2-2). -/
theorem leaseGranted_ne_zero (k : ClaimKind) (rank : Rank) (lease : Nat) : leaseGranted k rank lease ≠ .left 0 := by
  cases k with
  | hold =>
    simp only [leaseGranted, holdUnitMs, ne_eq, Lease.left.injEq]
    split <;> omega
  | lock =>
    simp only [leaseGranted, lockUnitMs]
    split
    · split <;> simp
    · simp only [ne_eq, Lease.left.injEq]; omega

/-- A permitted target of CLAIM, RENEW or RELEASE passes the checks of R15. -/
theorem State.checkTarget_claim {s : State} {k : ReqKind} {o : Origin} {t : ClaimTarget}
    (hk : k = .claim ∨ k = .renew ∨ k = .release) (permits : s.permitsTarget o t)
    (configured : k = .claim → ∀ n, t = .load n → (s.load n).kind ≠ .none) :
    s.checkTarget k o (ClaimTarget.target t).raw = .ok (ClaimTarget.target t) := by
  have classes : k.classes = [.load, .space, .axis] := by rcases hk with e | e | e <;> rw [e] <;> rfl
  refine State.checkTarget_names (ClaimTarget.names t) ?_ ?_ ?_
  · rw [classes]; cases t <;> simp [ClaimTarget.target, Target.raw]
  · cases t with
    | load n =>
      rcases hk with e | e | e <;> subst e
      · simpa [ClaimTarget.target, State.unconfigured, ReqKind.namesAnyLoad] using configured rfl n rfl
      · simp [ClaimTarget.target, State.unconfigured, ReqKind.namesAnyLoad]
      · simp [ClaimTarget.target, State.unconfigured, ReqKind.namesAnyLoad]
    | space p => rfl
    | axis a => rfl
  · cases t with
    | load n => exact permits
    | space p => exact Bool.or_eq_true_iff.2 (.inr permits)
    | axis a => exact permits

section
variable {s : State} {o : Origin} {t : ClaimTarget} {lease : Nat}

/-- A CLAIM whose target passes its checks is decided by the Claim Table (R26 to R31). -/
theorem exec_claim {k : ClaimKind} (hl : lease < 65536) (takes : s.Takes .claim o) (permits : s.permitsTarget o t)
    (configured : ∀ n, t = .load n → (s.load n).kind ≠ .none) :
    exec (.claim o (claimBody (ClaimTarget.target t).raw k lease)) s
      = .next (((s.endReceipt o).decideClaim o t k lease).2.answered o ReqKind.claim.code
          ((s.endReceipt o).decideClaim o t k lease).1) := by
  have fits : (claimBody (ClaimTarget.target t).raw k lease).length ≤ 60 := by simp [claimBody, targetBytes, bytesOf]
  have ok : (s.endReceipt o).checkTarget .claim o (ClaimTarget.target t).raw = .ok (ClaimTarget.target t) := by
    rw [State.endReceipt_checkTarget]; exact State.checkTarget_claim (.inl rfl) permits fun _ => configured
  show execClaim o (claimBody (ClaimTarget.target t).raw k lease) s = _
  rw [execClaim, serve_decided takes.room fits, readClaim_body (ClaimTarget.names t).1 hl,
    decideTarget_owned takes.endReceipt ok, claimTargetOf_target]

/-- A RENEW whose target passes its checks is decided by the Claim Table (R33). -/
theorem exec_renew (hl : lease < 65536) (takes : s.Takes .renew o) (permits : s.permitsTarget o t) :
    exec (.renew o (targetWordBody (ClaimTarget.target t).raw lease)) s
      = .next (((s.endReceipt o).decideRenew o t lease).2.answered o ReqKind.renew.code
          ((s.endReceipt o).decideRenew o t lease).1) := by
  have fits : (targetWordBody (ClaimTarget.target t).raw lease).length ≤ 60 := by
    simp [targetWordBody, targetBytes, bytesOf]
  have ok : (s.endReceipt o).checkTarget .renew o (ClaimTarget.target t).raw = .ok (ClaimTarget.target t) := by
    rw [State.endReceipt_checkTarget]; exact State.checkTarget_claim (.inr (.inl rfl)) permits nofun
  show execRenew o (targetWordBody (ClaimTarget.target t).raw lease) s = _
  rw [execRenew, serve_decided takes.room fits, readTargetWord_body (ClaimTarget.names t).1 hl,
    decideTarget_owned takes.endReceipt ok, claimTargetOf_target]

/-- A RELEASE whose target passes its checks is decided by the Claim Table (R34). -/
theorem exec_release (takes : s.Takes .release o) (permits : s.permitsTarget o t) :
    exec (.release o (ClaimTarget.target t).bytes) s
      = .next (((s.endReceipt o).decideRelease o t).2.answered o ReqKind.release.code
          ((s.endReceipt o).decideRelease o t).1) := by
  have fits : (ClaimTarget.target t).bytes.length ≤ 60 := by simp [Target.bytes, targetBytes, bytesOf]
  have ok : (s.endReceipt o).checkTarget .release o (ClaimTarget.target t).raw = .ok (ClaimTarget.target t) := by
    rw [State.endReceipt_checkTarget]; exact State.checkTarget_claim (.inr (.inr rfl)) permits nofun
  show execRelease o (ClaimTarget.target t).bytes s = _
  rw [execRelease, serve_decided takes.room fits, Target.bytes, readTargetBody_bytes (ClaimTarget.names t).1,
    decideTarget_owned takes.endReceipt ok, claimTargetOf_target]

end

/-! ### The claims a CLAIM finds -/

section
variable {s : State} {o : Origin} {t : ClaimTarget}

theorem State.ownClaim_isSome : (s.ownClaim o t).isSome = true ↔ ∃ c ∈ s.claims, c.target = t ∧ c.holder = o := by
  simp [State.ownClaim, List.find?_isSome]

theorem State.ownClaim_absent : (s.ownClaim o t).isSome = false ↔ ∀ c ∈ s.claims, c.target = t → c.holder ≠ o := by
  simp [State.ownClaim]

/-- The conflicting claims are those of R29. -/
theorem State.mem_conflicts {c : Claim} : c ∈ s.conflicts o t ↔ s.Conflict o t c := by
  simp only [State.conflicts, State.Conflict, List.mem_filter, Bool.and_eq_true, bne_iff_ne, State.overlaps,
    Bool.or_eq_true, beq_iff_eq]
  refine and_congr_right fun _ => and_congr_right fun _ => or_congr_right ?_
  cases t with
  | load n => cases c.target <;> simp
  | space p =>
    cases c.target with
    | load n => simpa using eq_comm
    | space q => simp
    | axis a => simp
  | axis a => cases c.target <;> simp

/-- The claims folded in are those of R31 step 2. -/
theorem State.mem_foldedIn {c : Claim} : c ∈ s.foldedIn o t ↔ s.Folded o t c := by
  cases t with
  | load n => simp [State.foldedIn, State.Folded]
  | axis a => simp [State.foldedIn, State.Folded]
  | space p =>
    simp only [State.foldedIn, State.Folded, List.mem_filter, Bool.and_eq_true, beq_iff_eq]
    refine and_congr_right fun _ => and_congr_right fun _ => ?_
    cases c.target with
    | load n => simpa using eq_comm
    | space q => simp
    | axis a => simp

theorem State.conflicts_eq_nil (h : ∀ c, ¬ s.Conflict o t c) : s.conflicts o t = [] :=
  List.eq_nil_iff_forall_not_mem.2 fun c hc => h c (State.mem_conflicts.1 hc)

theorem State.foldedIn_eq_nil (h : ∀ c, ¬ s.Folded o t c) : s.foldedIn o t = [] :=
  List.eq_nil_iff_forall_not_mem.2 fun c hc => h c (State.mem_foldedIn.1 hc)

/-- A CLAIM leaves the claims that neither conflict nor are folded in (R31). -/
theorem State.mem_claimsLeft {c : Claim} :
    c ∈ s.claimsLeft o t ↔ c ∈ s.claims ∧ ¬ s.Conflict o t c ∧ ¬ s.Folded o t c := by
  simp only [State.claimsLeft, List.mem_filter, Bool.not_eq_true', List.contains_eq_mem, decide_eq_false_iff_not,
    State.mem_conflicts, State.mem_foldedIn, and_assoc]

theorem State.claimsLeft_sublist : (s.claimsLeft o t).Sublist s.claims :=
  List.filter_sublist.trans List.filter_sublist

end

/-! ### The end of a receipt touches no claim -/

section
variable (s : State) (o o' : Origin) (t : ClaimTarget)

@[simp] theorem State.endReceipt_ownClaim : (s.endReceipt o).ownClaim o' t = s.ownClaim o' t := by
  simp [State.ownClaim]

@[simp] theorem State.endReceipt_rankOf : (s.endReceipt o).rankOf o' = s.rankOf o' := by simp [State.rankOf]

@[simp] theorem State.endReceipt_conflicts : (s.endReceipt o).conflicts o' t = s.conflicts o' t := by
  simp only [State.conflicts, State.endReceipt_claims, State.overlaps, State.endReceipt_load]

@[simp] theorem State.endReceipt_foldedIn : (s.endReceipt o).foldedIn o' t = s.foldedIn o' t := by
  simp only [State.foldedIn, State.endReceipt_claims, State.endReceipt_load]

@[simp] theorem State.endReceipt_claimsLeft : (s.endReceipt o).claimsLeft o' t = s.claimsLeft o' t := by
  simp [State.claimsLeft]

end

/-! ### What the Claim Table decides -/

/-- The requester has no claim by which a CLAIM on t would be a renewal (R27, R28). -/
structure State.ClaimsAnew (s : State) (o : Origin) (t : ClaimTarget) : Prop where
  own : ∀ c ∈ s.claims, c.target = t → c.holder ≠ o
  space : ∀ n, t = .load n → ∀ c ∈ s.claims, c.target = .space (s.load n).space → c.holder ≠ o

/-- A CLAIM that is no renewal is settled by the conflicting claims and the room in the table (R29, R30). -/
theorem State.ClaimsAnew.decideClaim {s : State} {o : Origin} {t : ClaimTarget} (h : s.ClaimsAnew o t) (lease : Nat) :
    s.decideClaim o t (ClaimTarget.kind t) lease
      = if ∃ c ∈ s.conflicts o t, (s.rankOf o).code ≤ c.rank.code then (.claimed (highestRank (s.conflicts o t)), s)
        else if s.conflicts o t = [] ∧ s.foldedIn o t = [] ∧ 32 ≤ s.claims.length then s.refuse .tableFull
        else (s.makeClaim o t lease).done := by
  have own : (s.ownClaim o t).isSome = false := State.ownClaim_absent.2 h.own
  have stands : ((s.conflicts o t).any fun c => !outranks (s.rankOf o) c.rank) = true
      ↔ ∃ c ∈ s.conflicts o t, (s.rankOf o).code ≤ c.rank.code := by simp [outranks_eq_false]
  unfold State.decideClaim
  rw [if_neg (not_not.2 rfl), own, if_neg Bool.false_ne_true]
  simp only [stands]
  cases t with
  | load n =>
    have space : (s.ownClaim o (.space (s.load n).space)).isSome = false := State.ownClaim_absent.2 (h.space n rfl)
    exact if_neg fun e => Bool.false_ne_true (space.symm.trans e)
  | space p => rfl
  | axis a => rfl

/-- A CLAIM of what the requester claims already renews that claim (R27). -/
theorem State.decideClaim_own {s : State} {o : Origin} {t : ClaimTarget} (h : ∃ c ∈ s.claims, c.target = t ∧ c.holder = o)
    (lease : Nat) : s.decideClaim o t (ClaimTarget.kind t) lease = (s.renewClaim o t lease).done := by
  unfold State.decideClaim
  rw [if_neg (not_not.2 rfl), if_pos (State.ownClaim_isSome.2 h)]

/-- A CLAIM of a load that the requester's own space claim covers changes nothing (R28). -/
theorem State.decideClaim_covered {s : State} {o : Origin} {n : LoadNo}
    (own : ∀ c ∈ s.claims, c.target = .load n → c.holder ≠ o)
    (space : ∃ c ∈ s.claims, c.target = .space (s.load n).space ∧ c.holder = o) (lease : Nat) :
    s.decideClaim o (.load n) .lock lease = s.done := by
  have absent : (s.ownClaim o (.load n)).isSome = false := State.ownClaim_absent.2 own
  unfold State.decideClaim
  rw [if_neg (not_not.2 (by rfl)), absent, if_neg Bool.false_ne_true]
  exact if_pos (State.ownClaim_isSome.2 space)

/-- The highest rank among claims is at or above that of each, and GUEST or the rank of one (R29). -/
theorem highestRank_spec (cs : List Claim) (r : Rank) :
    let top := cs.foldl (fun r c => if outranks c.rank r then c.rank else r) r
    r.code ≤ top.code ∧ (∀ c ∈ cs, c.rank.code ≤ top.code) ∧ (top = r ∨ ∃ c ∈ cs, c.rank = top) := by
  induction cs generalizing r with
  | nil => simp
  | cons c cs ih =>
    obtain ⟨above, each, found⟩ := ih (if outranks c.rank r then c.rank else r)
    simp only [List.foldl_cons, List.mem_cons, forall_eq_or_imp, exists_eq_or_imp]
    by_cases higher : outranks c.rank r = true
    · rw [if_pos higher] at above each found ⊢
      have : r.code < c.rank.code := by simpa [outranks] using higher
      exact ⟨by omega, ⟨above, each⟩, .inr (found.imp Eq.symm id)⟩
    · rw [if_neg higher] at above each found ⊢
      have : c.rank.code ≤ r.code := by simpa [outranks] using higher
      exact ⟨above, ⟨by omega, each⟩, found.imp id .inr⟩

theorem Rank.eq_of_code {a b : Rank} (h : a.code = b.code) : a = b := by
  revert h; cases a <;> cases b <;> decide

theorem highestRank_eq {cs : List Claim} {c : Claim} (mem : c ∈ cs) (top : ∀ d ∈ cs, d.rank.code ≤ c.rank.code) :
    highestRank cs = c.rank := by
  obtain ⟨-, each, found⟩ := highestRank_spec cs .guest
  refine Rank.eq_of_code (Nat.le_antisymm ?_ (each c mem))
  rcases found with guest | ⟨d, hd, e⟩
  · rw [highestRank, guest]; cases c.rank <;> decide
  · rw [highestRank, ← e]; exact top d hd

/-! ### CLAIM refused, renewed and carried out -/

/-- Settles O25: the three refusals are the tests of the Claim Table before a claim is made. -/
theorem aClaimIsRefused : Obligations.a_claim_is_refused := by
  intro s o t k lease hl takes permits configured refused matching
  have decided := exec_claim (k := k) hl takes permits configured
  have kind : matching = ClaimTarget.kind t := by cases t <;> rfl
  refine ⟨fun other => ?_, fun same own space => ?_⟩
  · have mismatch : ClaimTarget.kind t ≠ k := fun e => other (e.symm.trans kind.symm)
    unfold State.decideClaim at decided
    rw [if_pos mismatch] at decided
    exact decided
  · have anew : (s.endReceipt o).ClaimsAnew o t := ⟨by simpa using own, by simpa using space⟩
    have same : k = ClaimTarget.kind t := same.trans kind
    subst same
    rw [anew.decideClaim] at decided
    simp only [State.endReceipt_conflicts, State.endReceipt_foldedIn, State.endReceipt_rankOf,
      State.endReceipt_claims] at decided
    refine ⟨fun c conflict rank high found top => ?_, fun none folded full => ?_⟩
    · rw [if_pos ⟨c, State.mem_conflicts.2 conflict, rank⟩,
        highestRank_eq (State.mem_conflicts.2 found) fun d hd => top d (State.mem_conflicts.1 hd)] at decided
      exact decided
    · have empty := State.conflicts_eq_nil none
      rw [if_neg (by simp [empty]), if_pos ⟨empty, State.foldedIn_eq_nil folded, full.ge⟩] at decided
      exact decided

/-- A claim's lease afresh, as the statements write it out (R27, R33). -/
theorem Claim.renewed_eq {c : Claim} {t : ClaimTarget} (h : c.target = t) (lease : Nat) :
    c.renewed lease = { c with
      lease := match c.lease with | .permanent => .permanent | .left _ => ClaimTarget.lease t c.rank lease } := by
  obtain ⟨target, holder, rank, left⟩ := c
  subst h
  cases left with
  | permanent => rfl
  | left ms => exact congrArg (Claim.mk target holder rank) (leaseGranted_eq target rank lease)

/-- The claims once the requester's claim on t is renewed, as the statements write them out (R27, R33). -/
theorem State.renewClaim_eq (s : State) (o : Origin) (t : ClaimTarget) (lease : Nat) :
    s.renewClaim o t lease = s.setClaims (s.claims.map fun c =>
      if c.target = t ∧ c.holder = o then
        { c with lease := match c.lease with | .permanent => .permanent | .left _ => ClaimTarget.lease t c.rank lease }
      else c) := by
  rw [State.renewClaim]
  congr 1
  refine List.map_congr_left fun c _ => ?_
  split
  · rename_i own; exact Claim.renewed_eq own.1 lease
  · rfl

/-- Settles O26: the claim of the requester is found first, and renewed. -/
theorem aClaimIsRenewed : Obligations.a_claim_is_renewed := by
  intro s o t lease hl permits claimed renewed afresh
  have body : claimed = claimBody (ClaimTarget.target t).raw (ClaimTarget.kind t) lease := by cases t <;> rfl
  have renews : (s.endReceipt o).renewClaim o t lease = afresh := by
    have afterwards := (s.endReceipt o).renewClaim_eq o t lease
    rw [State.endReceipt_claims] at afterwards
    exact afterwards
  refine ⟨fun takes configured => ?_, fun takes => ?_⟩
  · have decided := exec_claim (k := ClaimTarget.kind t) hl takes permits configured
    rw [← body] at decided
    refine ⟨fun own => ?_, fun other ⟨n, load, space⟩ => ?_⟩
    · rw [State.decideClaim_own (by simpa using own), renews] at decided
      exact decided
    · subst load
      rw [show ClaimTarget.kind (.load n) = .lock from rfl,
        State.decideClaim_covered (by simpa using other) (by simpa using space)] at decided
      exact decided
  · have decided := exec_renew hl takes permits
    rw [State.decideRenew] at decided
    refine ⟨fun own => ?_, fun other => ?_⟩
    · rw [if_pos (State.ownClaim_isSome.2 (by simpa using own)), renews] at decided
      exact decided
    · rw [State.ownClaim_absent.2 (by simpa using other)] at decided
      exact decided

/-- Settles O27: the claims left by the CLAIM are kept in their order, and the new one stands behind them. -/
theorem aLockIsClaimed : Obligations.a_lock_is_claimed := by
  intro s o t lease hl takes permits lock configured own space outranked room
  refine ⟨s.claimsLeft o t, State.claimsLeft_sublist, fun c => State.mem_claimsLeft, ?_⟩
  have anew : (s.endReceipt o).ClaimsAnew o t := ⟨by simpa using own, by simpa using space⟩
  have kind : ClaimTarget.kind t = .lock := by
    cases t with
    | axis a => exact absurd rfl (lock a)
    | load n => rfl
    | space p => rfl
  have free : ¬ ∃ c ∈ s.conflicts o t, (s.rankOf o).code ≤ c.rank.code := by
    rintro ⟨c, hc, rank⟩
    have := outranked c (State.mem_conflicts.1 hc)
    omega
  have fits : ¬ (s.conflicts o t = [] ∧ s.foldedIn o t = [] ∧ 32 ≤ s.claims.length) := by
    rintro ⟨none, nothing, full⟩
    rcases room with ⟨c, conflict | folded⟩ | room
    · exact List.not_mem_nil (none ▸ State.mem_conflicts.2 conflict)
    · exact List.not_mem_nil (nothing ▸ State.mem_foldedIn.2 folded)
    · omega
  have quiet : (s.endReceipt o).preempt o t
      = (s.endReceipt o).setClaims (s.claims.filter fun c => !(s.conflicts o t).contains c) := by
    cases t with
    | axis a => exact absurd rfl (lock a)
    | load n => simp [State.preempt]
    | space p => simp [State.preempt]
  have decided := exec_claim (k := ClaimTarget.kind t) hl takes permits configured
  rw [anew.decideClaim] at decided
  simp only [State.endReceipt_conflicts, State.endReceipt_foldedIn, State.endReceipt_rankOf, State.endReceipt_claims]
    at decided
  rw [if_neg free, if_neg fits, State.makeClaim_eq, quiet, leaseGranted_eq, kind, State.endReceipt_claimsLeft,
    State.endReceipt_rankOf] at decided
  exact decided

end Sys2Proof.Machine

namespace Sys2Proof.Machine

/-! ## The end of a HOLD claim -/

/-! ### The Power Budget Monitor reads and writes its own records alone -/

/-- The records of the Power Budget Monitor and of the loads are the same, as are the outputs and what they wait for. -/
structure SameBudget (s t : State) : Prop where
  loads : t.loads = s.loads
  outputs : t.outputs = s.outputs
  budget : t.budget = s.budget
  settle : t.settle = s.settle
  shedChange : t.notices.shedChange = s.notices.shedChange

namespace SameBudget
variable {s t : State} (h : SameBudget s t)
include h

theorem load (n : LoadNo) : t.load n = s.load n := State.load_congr h.loads n

theorem output (n : LoadNo) : t.output n = s.output n := by simp [State.output, h.outputs]

theorem sameLoads : SameLoads s t := ⟨h.loads, h.outputs, h.budget⟩

theorem withLoad (n : LoadNo) (l : LoadRec) (r : Bool) : SameBudget (s.withLoad n l r) (t.withLoad n l r) := by
  unfold State.withLoad
  simp only [h.load, h.output, h.settle, h.budget]
  split
  · exact ⟨by simp [h.loads], by simp [h.outputs], rfl, h.settle, h.shedChange⟩
  · exact ⟨by simp [h.loads], h.outputs, rfl, h.settle, h.shedChange⟩

theorem setBudget (b : Budget) : SameBudget { s with budget := b } { t with budget := b } :=
  ⟨h.loads, h.outputs, rfl, h.settle, h.shedChange⟩

theorem raiseShedChange : SameBudget s.raiseShedChange t.raiseShedChange :=
  ⟨h.loads, h.outputs, h.budget, h.settle, rfl⟩

theorem restoreFits (n : LoadNo) : t.restoreFits n = s.restoreFits n := by
  have headroom : t.headroom = s.headroom := by rw [State.headroom, State.headroom, h.budget]
  simp only [State.restoreFits, h.load, headroom]

theorem restoreOne (n : LoadNo) : SameBudget (s.restoreOne n) (t.restoreOne n) := by
  have listed : SameBudget (s.setShedList (s.budget.shedList.erase n)) (t.setShedList (t.budget.shedList.erase n)) := by
    rw [h.budget]
    exact ⟨h.loads, h.outputs, by simp [h.budget], h.settle, h.shedChange⟩
  have stored := listed.withLoad n (s.load n).toRestored false
  rw [State.restoreOne, State.restoreOne, State.storeLoad_eq_withLoad, State.storeLoad_eq_withLoad, h.load]
  exact stored.raiseShedChange

theorem restoreAlong (ns : List LoadNo) : SameBudget (State.restoreAlong ns s) (State.restoreAlong ns t) := by
  induction ns generalizing s t with
  | nil => exact h
  | cons n ns ih =>
    simp only [State.restoreAlong, h.restoreFits]
    split
    · exact ih (h.restoreOne n)
    · exact h

theorem restorePass : SameBudget s.restorePass t.restorePass := by
  simp only [State.restorePass, h.budget]
  exact h.restoreAlong _

theorem afterFall : SameBudget s.afterFall t.afterFall := by
  simp only [State.afterFall, h.budget]
  split
  · exact h
  · exact (h.setBudget _).restorePass

/-- What the end of a motion gives back depends, beside the budget, on the courtesy loads and the motions (R135, R137). -/
theorem afterMotion {a : AxisNo} (courtesy : (t.axis a).courtesy = (s.axis a).courtesy)
    (axes : ∀ b, b ≠ a → t.axis b = s.axis b) : SameBudget (s.afterMotion a) (t.afterMotion a) := by
  have others : ∀ n, (∃ b, b ≠ a ∧ (t.axis b).inMotion = true ∧ (t.axis b).courtesy = some n)
      ↔ ∃ b, b ≠ a ∧ (s.axis b).inMotion = true ∧ (s.axis b).courtesy = some n := by
    refine fun n => exists_congr fun b => and_congr_right fun hb => ?_
    rw [axes b hb]
  have freed := h.setBudget { s.budget with
    committed := s.budget.committed - s.held a, heldDemand := s.budget.heldDemand.set a.val 0 }
  unfold State.afterMotion
  simp only [others, h.budget, courtesy, h.load, State.held_congr h.budget]
  cases (s.axis a).courtesy with
  | none => simp only; split <;> [exact freed.afterFall; exact freed]
  | some n =>
    have dark := freed.withLoad n (s.load n).toUnforced false
    simp only
    split
    · split <;> [exact freed.afterFall; exact freed]
    · rw [dark.budget]
      split <;> [exact dark.afterFall; exact dark]

end SameBudget

/-! ### An axis parked or stopped, the change not yet passed on -/

section
variable (s : State) (a : AxisNo)

theorem State.setAxis_setAxis (x y : AxisRec) : (s.setAxis a x).setAxis a y = s.setAxis a y := by
  simp [State.setAxis]

theorem State.setAxis_self : s.setAxis a (s.axis a) = s := by
  rw [State.setAxis, State.axis, set_get_self]

theorem State.parkCore_eq (er : EndReason) (ex : Bool) :
    s.parkCore a er ex
      = ((s.setAxis a (({ s.axis a with endReason := er } : AxisRec).atRest .parked)).giveBack a ex).endMotion a .parked := by
  rw [State.parkCore, State.leaveMotion, State.axis_setAxis_self, State.setAxis_setAxis]

/-- An axis gives back its demand, and then the records of the loads and the budget run on (R110, R135). -/
theorem State.giveBack_loadRun (ex : Bool) : LoadRun (s.releaseDemand a) (s.giveBack a ex) := by
  have released := (s.releaseDemand a).releaseCourtesy_run a
  rcases s.giveBack_run a ex with e | e <;> rw [e]
  · exact released
  · exact released.trans (State.answerFall_run _)

theorem State.endMotion_same (st : AxisState) :
    (s.endMotion a st).loads = s.loads ∧ (s.endMotion a st).outputs = s.outputs ∧ (s.endMotion a st).budget = s.budget
      ∧ (s.endMotion a st).notices = s.notices := by
  unfold State.endMotion
  split <;> exact ⟨rfl, rfl, rfl, rfl⟩

/-- What parking makes of the budget and the notices (R110, R135): the demand of the axis is given back. -/
theorem State.parkCore_budget (er : EndReason) (ex : Bool) :
    (s.parkCore a er ex).budget.available = s.budget.available
      ∧ (∀ b, (s.parkCore a er ex).held b = if b = a then 0 else s.held b)
      ∧ (s.parkCore a er ex).notices = { s.notices with shedChange := (s.parkCore a er ex).notices.shedChange } := by
  set y := ({ s.axis a with endReason := er } : AxisRec).atRest .parked with hy
  have run := (s.setAxis a y).giveBack_loadRun a ex
  obtain ⟨-, -, budget, notices⟩ := ((s.setAxis a y).giveBack a ex).endMotion_same a .parked
  rw [State.parkCore_eq, ← hy, notices, budget]
  refine ⟨run.available, fun b => ?_, run.notices⟩
  rw [State.held_congr budget, ← State.held_setHeld s a b 0, State.held, State.held, run.held]
  rfl

/-- Parked out of a motion, an axis gives back what the end of the motion gives back (R110, R111, R135). -/
theorem State.parkCore_gives_back (er : EndReason) : SameLoads (s.afterMotion a) (s.parkCore a er) := by
  set y := ({ s.axis a with endReason := er } : AxisRec).atRest .parked with hy
  have same : SameBudget s (s.setAxis a y) := ⟨rfl, rfl, rfl, rfl, rfl⟩
  have after := same.afterMotion (a := a) (by simp [hy]) (fun b hb => by rw [State.axis_setAxis, if_neg hb])
  rw [← State.giveBack_eq_afterMotion (s.setAxis a y)] at after
  obtain ⟨loads, outputs, budget, -⟩ := ((s.setAxis a y).giveBack a false).endMotion_same a .parked
  rw [State.parkCore_eq, ← hy]
  exact ⟨loads.trans after.loads, outputs.trans after.outputs, budget.trans after.budget⟩

theorem State.stopCore_channel (b : AxisNo) (er : EndReason) : (s.stopCore a er).channel b = s.channel b := rfl

end

/-! ### A change passed to the Interlock Table -/

/-- A `Steady` event that leaves AVAILABLE and every notice but SHED_CHANGE as they were. -/
structure Calm (s t : State) : Prop extends Steady s t where
  available : t.budget.available = s.budget.available
  notices : t.notices = { s.notices with shedChange := t.notices.shedChange }

theorem Calm.refl (s : State) : Calm s s := ⟨.refl s, rfl, rfl⟩

theorem Calm.trans {s t u : State} (h : Calm s t) (k : Calm t u) : Calm s u := by
  refine ⟨h.toSteady.trans k.toSteady, k.available.trans h.available, ?_⟩
  have notices := k.notices
  rw [h.notices] at notices
  exact notices

theorem State.setAxis_calm (s : State) (a : AxisNo) (x : AxisRec) : Calm s (s.setAxis a x) := ⟨s.setAxis_steady a x, rfl, rfl⟩

theorem State.parkCore_calm (s : State) (a : AxisNo) (er : EndReason) (ex : Bool) : Calm s (s.parkCore a er ex) :=
  have ⟨available, _, notices⟩ := s.parkCore_budget a er ex
  ⟨s.parkCore_steady a er ex, available, notices⟩

theorem State.stopCore_calm (s : State) (a : AxisNo) (er : EndReason) : Calm s (s.stopCore a er) := s.setAxis_calm a _

/-- What passing a change to the Interlock Table makes of the axes (R141, R165, R166): each axis stands, or is parked out of
WARN or stopped out of RUN with INTERLOCK. -/
structure Ripples (s t : State) : Prop extends Calm s t where
  each : ∀ b, (t.axis b = s.axis b ∧ t.channel b = s.channel b)
    ∨ ((s.axis b).state = .warn ∧ t.axis b = (s.axis b).parkedBy .interlock ∧ t.channel b = (s.channel b).finish)
    ∨ ((s.axis b).state = .run ∧ t.axis b = (s.axis b).stoppedBy .interlock ∧ t.channel b = s.channel b)

theorem Ripples.refl (s : State) : Ripples s s := ⟨.refl s, fun _ => .inl ⟨rfl, rfl⟩⟩

theorem Ripples.trans {s t u : State} (h : Ripples s t) (k : Ripples t u) : Ripples s u := by
  refine ⟨h.toCalm.trans k.toCalm, fun b => ?_⟩
  rcases h.each b with ⟨axis, channel⟩ | ⟨state, axis, channel⟩ | ⟨state, axis, channel⟩
  · have next := k.each b
    rw [axis, channel] at next
    exact next
  all_goals
    rcases k.each b with ⟨axis', channel'⟩ | ⟨state', -⟩ | ⟨state', -⟩
    · simp [state, axis', channel', axis, channel]
    · rw [axis] at state'; cases state'
    · rw [axis] at state'; cases state'

theorem State.blockCore_ripples (s : State) (a : AxisNo) : Ripples s (s.blockCore a) := by
  cases state : (s.axis a).state with
  | warn =>
    have eq : s.blockCore a = s.parkCore a .interlock := by simp only [State.blockCore, state]
    rw [eq]
    refine ⟨s.parkCore_calm a .interlock false, fun b => ?_⟩
    rw [State.parkCore_axis, State.parkCore_channel]
    by_cases hb : b = a
    · subst hb; rw [if_pos rfl, if_pos rfl]; exact .inr (.inl ⟨state, rfl, rfl⟩)
    · rw [if_neg hb, if_neg hb]; exact .inl ⟨rfl, rfl⟩
  | run =>
    have eq : s.blockCore a = s.stopCore a .interlock := by simp only [State.blockCore, state]
    rw [eq]
    refine ⟨s.stopCore_calm a .interlock, fun b => ?_⟩
    rw [State.stopCore_axis, State.stopCore_channel]
    by_cases hb : b = a
    · subst hb; rw [if_pos rfl]; exact .inr (.inr ⟨state, rfl, rfl⟩)
    · rw [if_neg hb]; exact .inl ⟨rfl, rfl⟩
  | parked | stopping | rest | lockout =>
    have eq : s.blockCore a = s := by simp only [State.blockCore, state]
    rw [eq]
    exact .refl s

theorem State.tellInterlocks_ripples (s : State) (a : AxisNo) : Ripples s (s.tellInterlocks a) :=
  State.passChange_rel Ripples.refl Ripples.trans State.blockCore_ripples 3 a s

/-- An axis out of WARN and RUN is reached by no block (R163). -/
theorem Ripples.still {s t : State} (h : Ripples s t) {a : AxisNo} (warn : (s.axis a).state ≠ .warn)
    (run : (s.axis a).state ≠ .run) : t.axis a = s.axis a ∧ t.channel a = s.channel a := by
  rcases h.each a with same | ⟨state, -⟩ | ⟨state, -⟩
  · exact same
  · exact absurd state warn
  · exact absurd state run

/-- Where no entry watches an axis, its change is passed to no other (R165). -/
theorem State.Unwatched.tellInterlocks {s : State} {a : AxisNo} (h : s.Unwatched a) : s.tellInterlocks a = s := by
  unfold State.tellInterlocks State.passChange
  apply List.foldl_fixed'
  intro p
  split
  · rename_i e he
    exact if_neg fun watched => h p e he watched.1
  · rfl

/-- A change of axis a alone and what the Interlock Table makes of it are within the frame of an event of axis a. -/
theorem Ripples.axisFrame {a : AxisNo} {s m u : State} (h : Ripples m u) (own : Calm s m)
    (axes : ∀ b, b ≠ a → m.axis b = s.axis b) (channels : ∀ b, b ≠ a → m.channel b = s.channel b) : AxisFrame a s u := by
  have calm := own.trans h.toCalm
  refine ⟨calm.only, calm.configs, calm.targets, calm.available, fun b hb => ?_, fun b hb => ?_⟩
  · rcases h.each b with ⟨axis, -⟩ | ⟨state, axis, -⟩ | ⟨state, axis, -⟩ <;> rw [axes b hb] at axis
    · exact .inl axis
    · rw [axes b hb] at state
      rw [axis]
      exact .inr ⟨.inl ⟨state, rfl⟩, rfl, rfl, rfl, rfl, rfl, rfl, rfl⟩
    · rw [axes b hb] at state
      rw [axis]
      exact .inr ⟨.inr ⟨state, rfl⟩, rfl, rfl, rfl, rfl, rfl, rfl, rfl⟩
  · rcases h.each b with ⟨-, channel⟩ | ⟨state, axis, channel⟩ | ⟨-, -, channel⟩ <;> rw [channels b hb] at channel
    · exact .inl channel
    · rw [axes b hb] at state
      exact .inr ⟨state, by rw [axis]; rfl, channel⟩
    · exact .inl channel

/-! ### The response of the axis -/

/-- A motion, or the PENDING MOTION of a rest, is lost with the HOLD claim (R140). -/
def AxisRec.losesMotion (ax : AxisRec) : Bool :=
  match ax.state with
  | .warn | .run => true
  | .rest => ax.pending.isSome
  | .parked | .stopping | .lockout => false

theorem AxisRec.losesMotion_iff (ax : AxisRec) :
    ax.losesMotion = true ↔ ax.state = .warn ∨ ax.state = .run ∨ ax.state = .rest ∧ ax.pending ≠ none := by
  unfold AxisRec.losesMotion
  cases ax.state <;> simp [Option.isSome_iff_ne_none]

/-- What the end of the HOLD claim of axis a makes of the part, MOTION_LEASE_LOST raised where `lost` holds (R39, R140). -/
structure AxisResponds (a : AxisNo) (er : EndReason) (lost : Bool) (s u : State) : Prop where
  frame : AxisFrame a s u
  axis : u.axis a = (s.axis a).claimEndedBy er
  channel : u.channel a = if (s.axis a).state = .warn then (s.channel a).finish else s.channel a
  gives : (s.axis a).state = .warn → GivesBack a s u
  notices : u.notices = { s.notices with
    shedChange := u.notices.shedChange, motionLeaseLost := s.notices.motionLeaseLost || lost }

/-- What a motion gives back looks at the records of loads, budget, axes and entries alone. -/
theorem GivesBack.congr {a : AxisNo} {s t u : State} (h : GivesBack a s u) (same : SameBudget s t) (axes : t.axes = s.axes)
    (entries : t.interlocks = s.interlocks) : GivesBack a t u := by
  intro unwatched
  have gives := h fun p e he => unwatched p e (by rw [State.interlock_congr entries]; exact he)
  have after := same.afterMotion (a := a) (by rw [State.axis_congr axes]) fun b _ => State.axis_congr axes b
  exact ⟨gives.1.trans after.loads.symm, gives.2.1.trans after.outputs.symm, gives.2.2.trans after.budget.symm⟩

/-- The notice is raised before the axis responds. -/
theorem AxisResponds.raised {a : AxisNo} {er : EndReason} {s u : State}
    (h : AxisResponds a er false s.raiseMotionLeaseLost u) : AxisResponds a er true s u := by
  obtain ⟨only, configs, targets, available, axes, channels⟩ := h.frame
  have records : OnlyMachines s s.raiseMotionLeaseLost := rfl
  refine ⟨⟨records.trans only, configs, targets, available, axes, channels⟩, h.axis, h.channel, fun state => ?_, ?_⟩
  · exact (h.gives state).congr ⟨rfl, rfl, rfl, rfl, rfl⟩ rfl rfl
  · rw [Bool.or_true]; exact h.notices

section
variable (s : State) (a : AxisNo) (er : EndReason)

theorem State.park_responds (state : (s.axis a).state = .warn) : AxisResponds a er false s (s.park a er) := by
  have calm := s.parkCore_calm a er false
  have ripples : Ripples (s.parkCore a er) (s.park a er) := State.tellInterlocks_ripples _ a
  have parked : (s.parkCore a er).axis a = (s.axis a).parkedBy er := by rw [State.parkCore_axis, if_pos rfl]
  obtain ⟨axis, channel⟩ := ripples.still (a := a) (by rw [parked]; nofun) (by rw [parked]; nofun)
  refine ⟨ripples.axisFrame calm (fun b hb => ?_) (fun b hb => ?_), ?_, ?_, ?_, ?_⟩
  · rw [State.parkCore_axis, if_neg hb]
  · rw [State.parkCore_channel, if_neg hb]
  · rw [axis, parked, AxisRec.claimEndedBy, state]
  · rw [channel, State.parkCore_channel, if_pos rfl, if_pos state]
  · intro _ unwatched
    have alone : (s.parkCore a er).Unwatched a := fun p e he => unwatched p e (by
      rw [← State.interlock_congr (s.parkCore_spec a er false).1.interlocks]; exact he)
    rw [State.park, alone.tellInterlocks]
    exact s.parkCore_gives_back a er
  · rw [Bool.or_false]; exact (calm.trans ripples.toCalm).notices

theorem State.stopMotion_responds (state : (s.axis a).state = .run) : AxisResponds a er false s (s.stopMotion a er) := by
  have calm := s.stopCore_calm a er
  have ripples : Ripples (s.stopCore a er) (s.stopMotion a er) := State.tellInterlocks_ripples _ a
  have stopped : (s.stopCore a er).axis a = (s.axis a).stoppedBy er := by rw [State.stopCore_axis, if_pos rfl]; rfl
  obtain ⟨axis, channel⟩ := ripples.still (a := a) (by rw [stopped]; nofun) (by rw [stopped]; nofun)
  refine ⟨ripples.axisFrame calm (fun b hb => ?_) (fun b _ => rfl), ?_, ?_, ?_, ?_⟩
  · rw [State.stopCore_axis, if_neg hb]
  · rw [axis, stopped, AxisRec.claimEndedBy, state]
  · rw [channel, State.stopCore_channel, if_neg (by rw [state]; nofun)]
  · rw [state]; nofun
  · rw [Bool.or_false]; exact (calm.trans ripples.toCalm).notices

/-- An axis out of WARN and RUN responds in its own record at most. -/
theorem State.setAxis_responds (warn : (s.axis a).state ≠ .warn) :
    AxisResponds a er false s (s.setAxis a ((s.axis a).claimEndedBy er)) := by
  refine ⟨(Ripples.refl _).axisFrame (s.setAxis_calm a _) (fun b hb => ?_) (fun b _ => rfl), by simp, ?_,
    fun h => absurd h warn, ?_⟩
  · rw [State.axis_setAxis, if_neg hb]
  · rw [if_neg warn]; rfl
  · rw [Bool.or_false]; rfl

/-- The axis responds to the end of its HOLD claim by its state (R39, R140). -/
theorem State.claimEnded_responds :
    AxisResponds a er (er == .leaseLost && (s.axis a).losesMotion) s (s.claimEnded a er) := by
  cases state : (s.axis a).state with
  | warn =>
    have lost : (s.axis a).losesMotion = true := by rw [AxisRec.losesMotion_iff]; exact .inl state
    simp only [State.claimEnded, state, lost, Bool.and_true]
    cases (er == .leaseLost) with
    | false => exact s.park_responds a er state
    | true => exact (s.raiseMotionLeaseLost.park_responds a er state).raised
  | run =>
    have lost : (s.axis a).losesMotion = true := by rw [AxisRec.losesMotion_iff]; exact .inr (.inl state)
    simp only [State.claimEnded, state, lost, Bool.and_true]
    cases (er == .leaseLost) with
    | false => exact s.stopMotion_responds a er state
    | true => exact (s.raiseMotionLeaseLost.stopMotion_responds a er state).raised
  | rest =>
    have warn : (s.axis a).state ≠ .warn := by rw [state]; nofun
    have response : (s.axis a).claimEndedBy er = { s.axis a with pending := none } := by
      simp only [AxisRec.claimEndedBy, state]
    have lost : (s.axis a).losesMotion = (s.axis a).pending.isSome := by simp only [AxisRec.losesMotion, state]
    simp only [State.claimEnded, state, lost]
    cases (er == .leaseLost && (s.axis a).pending.isSome) with
    | false =>
      have responds := s.setAxis_responds a er warn
      rw [response] at responds
      exact responds
    | true =>
      have responds := (s.raiseMotionLeaseLost.setAxis_responds a er warn).raised
      rw [show s.raiseMotionLeaseLost.axis a = s.axis a from rfl, response] at responds
      exact responds
  | parked | stopping | lockout =>
    have warn : (s.axis a).state ≠ .warn := by rw [state]; nofun
    have response : (s.axis a).claimEndedBy er = s.axis a := by simp only [AxisRec.claimEndedBy, state]
    have lost : (s.axis a).losesMotion = false := by simp only [AxisRec.losesMotion, state]
    have responds := s.setAxis_responds a er warn
    rw [response, State.setAxis_self] at responds
    simpa only [State.claimEnded, state, lost, Bool.and_false] using responds

/-- The end of a claim by other than the expiry of its lease raises no notice of a lost lease (R140). -/
theorem State.claimEnded_responds_quietly {er : EndReason} (h : er ≠ .leaseLost) :
    AxisResponds a er false s (s.claimEnded a er) := by
  have responds := s.claimEnded_responds a er
  rw [beq_eq_false_iff_ne.2 h, Bool.false_and] at responds
  exact responds

theorem AxisResponds.notices_kept {s u : State} {a : AxisNo} {er : EndReason} (h : AxisResponds a er false s u) :
    u.notices = { s.notices with shedChange := u.notices.shedChange } := by
  have notices := h.notices
  rw [Bool.or_false] at notices
  exact notices

end

end Sys2Proof.Machine

namespace Sys2Proof.Machine

/-! ### CLAIM of an axis -/

theorem OnlyMachines.setClaims {s t : State} {old new : List Claim} (h : OnlyMachines (s.setClaims old) t) :
    OnlyMachines (s.setClaims new) (t.setClaims new) := congrArg (fun u : State => u.setClaims new) h

/-- The frame of an event looks at the claims for nothing. -/
theorem AxisFrame.setClaims {a : AxisNo} {s t : State} {old new : List Claim} (h : AxisFrame a (s.setClaims old) t) :
    AxisFrame a (s.setClaims new) (t.setClaims new) :=
  ⟨h.only.setClaims, h.configs, h.targets, h.available, h.axes, h.channels⟩

/-- The claims in the way of a CLAIM of an axis are those on that axis (R29). -/
theorem State.conflict_axis {s : State} {o : Origin} {a : AxisNo} {c : Claim} :
    s.Conflict o (.axis a) c ↔ c ∈ s.claims ∧ c.holder ≠ o ∧ c.target = .axis a := by
  simp [State.Conflict]

/-- Where the requester has no claim on the axis, a CLAIM leaves the claims on other targets (R31, R32). -/
theorem State.claimsLeft_axis {s : State} {o : Origin} {a : AxisNo} (own : ∀ c ∈ s.claims, c.target = .axis a → c.holder ≠ o) :
    s.claimsLeft o (.axis a) = s.claims.filter fun c => c.target != .axis a := by
  rw [State.claimsLeft, List.filter_filter]
  refine List.filter_congr fun c hc => ?_
  have conflict : c ∈ s.conflicts o (.axis a) ↔ c.target = .axis a := by
    rw [State.mem_conflicts, State.conflict_axis]
    exact ⟨fun h => h.2.2, fun h => ⟨hc, own c hc h, h⟩⟩
  rw [Bool.eq_iff_iff]
  simp [State.foldedIn, conflict]

/-- Settles O28: without a conflict a CLAIM tells no axis; with one, the axis is pre-empted before the claim is recorded. -/
theorem anAxisIsClaimed : Obligations.an_axis_is_claimed := by
  intro s o a lease hl takes permits lower room kept claims
  set r := s.endReceipt o with hr
  have own : ∀ c ∈ s.claims, c.target = .axis a → c.holder ≠ o := fun c hc target => (lower c hc target).1
  have anew : r.ClaimsAnew o (.axis a) := ⟨by simpa [hr] using own, fun n => nofun⟩
  have conflict : ∀ c, c ∈ r.conflicts o (.axis a) ↔ c ∈ s.claims ∧ c.target = .axis a := fun c => by
    rw [hr, State.endReceipt_conflicts, State.mem_conflicts, State.conflict_axis]
    exact ⟨fun h => ⟨h.1, h.2.2⟩, fun h => ⟨h.1, own c h.1 h.2, h.2⟩⟩
  have free : ¬ ∃ c ∈ r.conflicts o (.axis a), (r.rankOf o).code ≤ c.rank.code := by
    rintro ⟨c, hc, rank⟩
    have := (lower c ((conflict c).1 hc).1 ((conflict c).1 hc).2).2
    rw [hr, State.endReceipt_rankOf] at rank
    omega
  have fits : ¬ (r.conflicts o (.axis a) = [] ∧ r.foldedIn o (.axis a) = [] ∧ 32 ≤ r.claims.length) := by
    rintro ⟨none, -, full⟩
    rw [hr, State.endReceipt_claims] at full
    rcases room with ⟨c, held⟩ | room
    · exact List.not_mem_nil (none ▸ (conflict c).2 held)
    · omega
  have recorded : r.claimsLeft o (.axis a)
      ++ [⟨.axis a, o, r.rankOf o, leaseGranted (ClaimTarget.kind (.axis a)) (r.rankOf o) lease⟩] = claims := by
    rw [hr, State.endReceipt_claimsLeft, State.endReceipt_rankOf, State.claimsLeft_axis own, leaseGranted_eq]
  have decided := exec_claim (t := .axis a) (k := .hold) hl takes permits (fun n => nofun)
  rw [← hr, show ClaimKind.hold = ClaimTarget.kind (.axis a) from rfl, anew.decideClaim, if_neg free, if_neg fits,
    State.makeClaim_eq, recorded] at decided
  refine ⟨_, decided, fun unheld => ?_, fun ⟨c, held⟩ => ?_⟩
  · have none : r.conflicts o (.axis a) = [] :=
      List.eq_nil_iff_forall_not_mem.2 fun c hc => unheld c ((conflict c).1 hc).1 ((conflict c).1 hc).2
    simp only [State.preempt, none, if_true]
    rfl
  · have some : r.conflicts o (.axis a) ≠ [] := List.ne_nil_of_mem ((conflict c).2 held)
    set before := r.setClaims (r.claims.filter fun c => !(r.conflicts o (.axis a)).contains c) with hb
    have responds : AxisResponds a .preEmpted false before (r.preempt o (.axis a)) := by
      rw [show r.preempt o (.axis a) = _ from if_neg some]
      exact before.claimEnded_responds_quietly a nofun
    have axis : before.axis a = s.axis a := s.endReceipt_axis o a
    have channel : before.channel a = s.channel a := s.endReceipt_channel o a
    have notices := responds.notices_kept
    rw [hb, State.setClaims_notices, hr, State.endReceipt_notices] at notices
    refine ⟨responds.frame.setClaims, ?_, ?_, notices⟩
    · rw [← axis]; exact responds.axis
    · rw [← axis, ← channel]; exact responds.channel

/-! ### The end of a claim -/

theorem State.driveOutputs_driveOutputs (s : State) : s.driveOutputs.driveOutputs = s.driveOutputs := rfl

/-- A claim on a load or a space has no axis to tell (R39). -/
theorem State.tellHeldAxis_lock {t : ClaimTarget} (lock : ∀ a, t ≠ .axis a) (s : State) (er : EndReason) :
    s.tellHeldAxis t er = s := by
  cases t with
  | axis a => exact absurd rfl (lock a)
  | load n => rfl
  | space p => rfl

/-- An expiry finds nothing to take in a part answered with no lease on its target run out (R25, R35). -/
theorem State.leaseExpiry_spares {w : State} {o : Origin} {kind : Byte} {b : ReplyBody} {t : ClaimTarget}
    (runs : ∀ c ∈ w.claims, c.target = t → c.lease ≠ .left 0) :
    exec (.leaseExpiry t) (w.answered o kind b) = .next (w.answered o kind b) := by
  have claims : (w.answered o kind b).claims = w.claims := by
    rw [State.answered, State.postReply]; split <;> rfl
  have stands : (w.answered o kind b).expireLease t = w.answered o kind b := by
    rcases State.expireLease_cases (w.answered o kind b) t with ⟨-, e⟩ | ⟨⟨c, hc, target, out⟩, -⟩
    · exact e
    · exact absurd out (runs c (claims ▸ hc) target)
  show ((w.answered o kind b).expireLease t).complete = _
  rw [stands]
  exact congrArg Host.Outcome.next (State.driveOutputs_driveOutputs _)

/-- A renewed lease has not run out (Table 2-2). -/
theorem Claim.renewed_lease (c : Claim) (lease : Nat) : (c.renewed lease).lease ≠ .left 0 := by
  cases h : c.lease with
  | permanent => simp [Claim.renewed, h]
  | left ms => simpa [Claim.renewed, h] using leaseGranted_ne_zero c.kind c.rank lease

section
variable {s : State} {o : Origin} {t : ClaimTarget} {lease : Nat}

/-- After a renewal no lease on the target has run out, no other claim being on it (R27, R33). -/
theorem State.renewClaim_runs (single : (s.claims.map Claim.target).Nodup) (own : ∃ c ∈ s.claims, c.target = t ∧ c.holder = o) :
    ∀ c ∈ (s.renewClaim o t lease).claims, c.target = t → c.lease ≠ .left 0 := by
  obtain ⟨d, hd, target, holder⟩ := own
  intro c hc on
  obtain ⟨e, he, rfl⟩ := List.mem_map.1 hc
  split at on
  · rename_i mine
    rw [if_pos mine]; exact e.renewed_lease lease
  · rename_i other
    exact absurd ⟨on, List.inj_on_of_nodup_map single he hd (on.trans target.symm) ▸ holder⟩ other

theorem State.decideRenew_runs (single : (s.claims.map Claim.target).Nodup)
    (held : ∃ c ∈ (s.decideRenew o t lease).2.claims, c.target = t ∧ c.holder = o) :
    ∀ c ∈ (s.decideRenew o t lease).2.claims, c.target = t → c.lease ≠ .left 0 := by
  unfold State.decideRenew at held ⊢
  split at held
  · rename_i own
    rw [if_pos own]
    exact State.renewClaim_runs single (State.ownClaim_isSome.1 own)
  · rename_i none
    exact absurd (State.ownClaim_isSome.2 held) none

/-- By whatever way a CLAIM gives the requester its claim, no lease on the target has run out. -/
theorem State.decideClaim_runs (single : (s.claims.map Claim.target).Nodup)
    (held : ∃ c ∈ (s.decideClaim o t (ClaimTarget.kind t) lease).2.claims, c.target = t ∧ c.holder = o) :
    ∀ c ∈ (s.decideClaim o t (ClaimTarget.kind t) lease).2.claims, c.target = t → c.lease ≠ .left 0 := by
  by_cases own : ∃ c ∈ s.claims, c.target = t ∧ c.holder = o
  · rw [State.decideClaim_own own]
    exact State.renewClaim_runs single own
  · have other : ∀ c ∈ s.claims, c.target = t → c.holder ≠ o := fun c hc target holder => own ⟨c, hc, target, holder⟩
    by_cases space : ∀ n, t = .load n → ∀ c ∈ s.claims, c.target = .space (s.load n).space → c.holder ≠ o
    · rw [State.ClaimsAnew.decideClaim ⟨other, space⟩] at held ⊢
      split at held
      · exact absurd held own
      · rename_i free
        rw [if_neg free]
        split at held
        · exact absurd held own
        · rename_i fits
          rw [if_neg fits, State.makeClaim_eq]
          intro c hc target
          rcases List.mem_append.1 hc with left | made
          · obtain ⟨mem, clear, -⟩ := State.mem_claimsLeft.1 left
            exact absurd ⟨mem, other c mem target, .inl target⟩ clear
          · rw [List.mem_singleton.1 made]; exact leaseGranted_ne_zero _ _ _
    · push Not at space
      obtain ⟨n, rfl, covered⟩ := space
      rw [show ClaimTarget.kind (.load n) = .lock from rfl, State.decideClaim_covered other covered] at held
      exact absurd held own

end

/-- Settles O29: a lock has no axis to tell, and an expiry takes only a claim whose lease has run out. -/
theorem aLockEnds : Obligations.a_lock_ends := by
  intro s o t
  refine ⟨fun takes permits => ?_, fun lock ⟨c, out⟩ => ?_, fun runs => ?_, fun lease hl law permits => ?_⟩
  · have decided := exec_release takes permits
    rw [State.decideRelease, State.endReceipt_ownClaim] at decided
    refine ⟨fun other => ?_, fun lock own => ?_⟩
    · rw [State.ownClaim_absent.2 other] at decided
      exact decided
    · rw [if_pos (State.ownClaim_isSome.2 own), State.tellHeldAxis_lock lock, State.releaseClaim,
        State.endReceipt_claims] at decided
      exact decided
  · rcases s.expireLease_cases t with ⟨runs, -⟩ | ⟨-, e⟩
    · exact absurd out.2.2 (runs c out.1 out.2.1)
    · rw [State.tellHeldAxis_lock lock] at e
      exact congrArg State.complete e
  · rcases s.expireLease_cases t with ⟨-, e⟩ | ⟨⟨c, hc, target, out⟩, -⟩
    · exact congrArg State.complete e
    · exact absurd out (runs c hc target)
  · intro claimed renewed spared
    have body : claimed = claimBody (ClaimTarget.target t).raw (ClaimTarget.kind t) lease := by cases t <;> rfl
    have single : ((s.endReceipt o).claims.map Claim.target).Nodup := by
      rw [State.endReceipt_claims]; exact law.2.2
    have answered : ∀ (w : State) kind b, (w.answered o kind b).claims = w.claims := fun w kind b => by
      rw [State.answered, State.postReply]; split <;> rfl
    refine ⟨fun takes => ⟨_, exec_renew hl takes permits, fun held => ?_⟩, fun takes configured => ?_⟩
    · rw [answered] at held
      exact State.leaseExpiry_spares (State.decideRenew_runs single held)
    · rw [body]
      refine ⟨_, exec_claim hl takes permits configured, fun held => ?_⟩
      rw [answered] at held
      exact State.leaseExpiry_spares (State.decideClaim_runs single held)

/-- A HOLD claim is the one claim on its axis, so that its release retires what its expiry would (R22, R25, R34). -/
theorem State.CoverageLaw.releaseClaim {s : State} (law : s.CoverageLaw) {o : Origin} {t : ClaimTarget}
    (own : ∃ c ∈ s.claims, c.target = t ∧ c.holder = o) :
    (s.claims.filter fun c => !(c.target == t && c.holder == o)) = s.claims.filter fun c => c.target != t := by
  obtain ⟨d, hd, target, holder⟩ := own
  refine List.filter_congr fun c hc => ?_
  by_cases on : c.target = t
  · have same : c = d := List.inj_on_of_nodup_map law.2.2 hc hd (on.trans target.symm)
    simp [same, target, holder]
  · rw [beq_eq_false_iff_ne.2 on, bne_iff_ne.2 on]; rfl

/-- Settles O30: the claim retired, the axis responds by its state. -/
theorem aHoldEnds : Obligations.a_hold_ends := by
  intro s o a law kept lost channel
  refine ⟨fun takes permits own => ?_, fun ⟨c, hc, target, out⟩ => ?_⟩
  · set r := (s.endReceipt o).setClaims kept with hr
    have axis : r.axis a = s.axis a := s.endReceipt_axis o a
    have signal : r.channel a = s.channel a := s.endReceipt_channel o a
    have released : (s.endReceipt o).releaseClaim o (.axis a) = r := by
      rw [State.releaseClaim, State.endReceipt_claims, law.releaseClaim own]
    have decided := exec_release (t := .axis a) takes permits
    rw [State.decideRelease, State.endReceipt_ownClaim, if_pos (State.ownClaim_isSome.2 own), released] at decided
    have responds := r.claimEnded_responds_quietly a (er := .stopRequest) nofun
    have notices := responds.notices_kept
    rw [hr, State.setClaims_notices, State.endReceipt_notices, ← hr] at notices
    refine ⟨_, decided, responds.frame, ?_, fun state => ?_, ?_, ?_⟩
    · rw [← axis]; exact responds.axis
    · exact (responds.gives (by rw [axis]; exact state)).congr
        ⟨(s.endReceipt_loads o).symm, (s.endReceipt_outputs o).symm, (s.endReceipt_budget o).symm,
          (s.endReceipt_settle o).symm, congrArg Notices.shedChange (s.endReceipt_notices o).symm⟩
        (s.endReceipt_axes o).symm (s.endReceipt_interlocks o).symm
    · exact responds.channel.trans (by rw [axis, signal])
    · exact notices
  · have responds := (s.setClaims kept).claimEnded_responds a .leaseLost
    have expires : exec (.leaseExpiry (.axis a)) s = .next ((s.setClaims kept).claimEnded a .leaseLost).driveOutputs := by
      rcases s.expireLease_cases (.axis a) with ⟨runs, -⟩ | ⟨-, e⟩
      · exact absurd out (runs c hc target)
      · exact congrArg State.complete e
    have notices := responds.notices
    have loses : (s.axis a).losesMotion = true ↔ lost := (s.axis a).losesMotion_iff
    have told : ((s.setClaims kept).claimEnded a .leaseLost).notices.motionLeaseLost
        = (s.notices.motionLeaseLost || (s.axis a).losesMotion) := by
      rw [notices]; rfl
    refine ⟨_, expires, responds.frame, responds.axis, fun state => ?_, responds.channel, ?_, fun h => ?_, fun h => ?_⟩
    · exact (responds.gives state).congr ⟨rfl, rfl, rfl, rfl, rfl⟩ rfl rfl
    · rw [told]; exact notices
    · rw [told, loses.2 h, Bool.or_true]
    · rw [told, Bool.eq_false_iff.2 fun e => h (loses.1 e), Bool.or_false]

end Sys2Proof.Machine

namespace Sys2Proof.Machine

/-! ## Axes parked and stopped where no entry stops an axis -/

/-- No axis of t moves in a direction, or is engaged, where it did not and was not in s; none has changed its POSITION or its
VERIFIED flag (R162, R163). -/
def Calmer (s t : State) : Prop :=
  ∀ a, (t.axis a).position = (s.axis a).position ∧ (t.axis a).verified = (s.axis a).verified
    ∧ ((t.axis a).engaged = true → (s.axis a).engaged = true)
    ∧ ((t.axis a).movingDirection = (s.axis a).movingDirection ∨ (t.axis a).movingDirection = none)

/-- A calmer part satisfies no entry that was not satisfied (R162). -/
theorem Calmer.satisfied {s t : State} (h : Calmer s t) {e : Interlock} (now : t.satisfied e = true) :
    s.satisfied e = true := by
  obtain ⟨position, verified, engaged, -⟩ := h e.condition
  cases relation : e.relation with
  | below => simpa only [State.satisfied, relation, position, verified] using now
  | above => simpa only [State.satisfied, relation, position, verified] using now
  | notParked =>
    simp only [State.satisfied, relation] at now ⊢
    exact engaged now

/-- No entry stops an axis that has become no more active (R165). -/
theorem Calmer.quiet {s t : State} (h : Calmer s t) (entries : t.interlocks = s.interlocks) (quiet : s.Quiet) : t.Quiet := by
  intro p e he
  have before := quiet p e (by rw [← State.interlock_congr entries]; exact he)
  unfold State.entryStops at before ⊢
  obtain ⟨-, -, -, same | none⟩ := h e.subject
  · rw [same]
    cases moving : (s.axis e.subject).movingDirection with
    | none => rfl
    | some d =>
      have free : s.satisfied e = true → BlockDir.forbids e.direction d = false := by
        simpa [moving, State.entryBlocks] using before
      simpa [State.entryBlocks] using fun now => free (h.satisfied now)
  · rw [none]

/-- A change of one axis record that stops its motion, or leaves motion and position as they were. -/
theorem Calmer.of_axis {s t : State} {a : AxisNo} {x : AxisRec} (axes : ∀ b, t.axis b = if b = a then x else s.axis b)
    (position : x.position = (s.axis a).position) (verified : x.verified = (s.axis a).verified)
    (engaged : x.engaged = true → (s.axis a).engaged = true)
    (moving : x.movingDirection = (s.axis a).movingDirection ∨ x.movingDirection = none) : Calmer s t := by
  intro b
  rw [axes b]
  by_cases hb : b = a
  · subst hb; rw [if_pos rfl]; exact ⟨position, verified, engaged, moving⟩
  · rw [if_neg hb]; exact ⟨rfl, rfl, id, .inl rfl⟩

section
variable {s : State} (quiet : s.Quiet) (a : AxisNo)
include quiet

/-- Where no entry stops an axis, a park is passed on to no other (R135, R165). -/
theorem State.Quiet.park (er : EndReason) (ex : Bool) :
    s.park a er ex = s.parkCore a er ex ∧ (s.parkCore a er ex).Quiet := by
  obtain ⟨only, axes, -⟩ := s.parkCore_spec a er ex
  have after : (s.parkCore a er ex).Quiet :=
    (Calmer.of_axis axes rfl rfl (fun engaged => by cases engaged) (.inr rfl)).quiet only.interlocks quiet
  exact ⟨after.tellInterlocks a, after⟩

/-- Where no entry stops an axis, a stop is passed on to no other (R136, R165). -/
theorem State.Quiet.stopMotion (er : EndReason) (state : (s.axis a).state = .run) :
    s.stopMotion a er = s.stopCore a er ∧ (s.stopCore a er).Quiet := by
  have engaged : (s.axis a).engaged = true := by simp [AxisRec.engaged, state]
  have after : (s.stopCore a er).Quiet :=
    (Calmer.of_axis (fun b => s.stopCore_axis a b er) rfl rfl (fun _ => engaged) (.inr rfl)).quiet rfl quiet
  exact ⟨after.tellInterlocks a, after⟩

end

/-! ## START and HALT -/

/-- A request without a target whose body is empty is decided by its owner. -/
theorem decideBody_empty {s : State} {k : ReqKind} {o : Origin} {owner : Unit → State → Decision} (takes : s.Takes k o) :
    decideBody k o (readEmpty []) owner (s.endReceipt o) = owner () (s.endReceipt o) := by
  obtain ⟨⟨⟩, -, owned⟩ := decideBody_owned (parsed := some ()) (owner := owner) takes.endReceipt.admission
    takes.endReceipt.screen
  exact owned

theorem exec_start {s : State} {o : Origin} (takes : s.Takes .start o) :
    exec (.start o []) s
      = .next (((s.endReceipt o).setRunState .running).answered o ReqKind.start.code (.plain .done)) := by
  show execStart o [] s = _
  rw [execStart, serve_decided takes.room (by decide), decideBody_empty takes]
  rfl

theorem exec_halt {s : State} {o : Origin} (takes : s.Takes .halt o) :
    exec (.halt o []) s = .next ((s.endReceipt o).haltPart.answered o ReqKind.halt.code (.plain .done)) := by
  show execHalt o [] s = _
  rw [execHalt, serve_decided takes.room (by decide), decideBody_empty takes]
  rfl

/-- What HALT makes of an axis record, its channel and its HELD DEMAND (R142, R110, R173). -/
def haltView (x : AxisRec × Channel × Nat) : AxisRec × Channel × Nat :=
  match x.1.state with
  | .warn | .rest => (x.1.parkedBy .halt, x.2.1.finish, 0)
  | .run => (({ x.1 with pending := none } : AxisRec).stoppedBy .halt, x.2.1, x.2.2)
  | .parked | .stopping | .lockout => x

/-- An axis record, its channel and its HELD DEMAND. -/
def State.axisRecords (s : State) (a : AxisNo) : AxisRec × Channel × Nat := (s.axis a, s.channel a, s.held a)

theorem haltView_idle (x : AxisRec × Channel × Nat) : (haltView x).1.state ≠ .warn ∧ (haltView x).1.state ≠ .rest := by
  unfold haltView
  split
  · exact ⟨nofun, nofun⟩
  · exact ⟨nofun, nofun⟩
  · exact ⟨nofun, nofun⟩
  all_goals rename_i state; rw [state]; exact ⟨nofun, nofun⟩

/-- A park before it is passed on, of an axis, its channel and its HELD DEMAND (R110, R135, R173). -/
theorem State.parkCore_records (s : State) (a b : AxisNo) (er : EndReason) :
    (s.parkCore a er).axisRecords b
      = if b = a then ((s.axis b).parkedBy er, (s.channel b).finish, 0) else s.axisRecords b := by
  have held := (s.parkCore_budget a er false).2.1 b
  simp only [State.axisRecords, State.parkCore_axis, State.parkCore_channel, held]
  by_cases hb : b = a
  · subst hb; simp only [if_true]
  · simp only [if_neg hb]

/-- HALT reaches one axis (R142): its records become what `haltView` says, and those of no other change; no load moves
where the axis is in neither WARN nor REST. -/
theorem State.Quiet.axisHalt {s : State} (quiet : s.Quiet) (a : AxisNo) :
    ((s.axisHalt a).Quiet ∧ ∀ b, (s.axisHalt a).axisRecords b = if b = a then haltView (s.axisRecords b) else s.axisRecords b)
      ∧ Calm s (s.axisHalt a)
      ∧ ((s.axis a).state ≠ .warn ∧ (s.axis a).state ≠ .rest → (s.axisHalt a).loads = s.loads) := by
  cases state : (s.axis a).state with
  | warn | rest =>
    obtain ⟨alone, after⟩ := quiet.park a .halt false
    have eq : s.axisHalt a = s.parkCore a .halt := by simp only [State.axisHalt, state, alone]
    rw [eq]
    refine ⟨⟨after, fun b => ?_⟩, s.parkCore_calm a .halt false, fun idle => by simp at idle⟩
    rw [State.parkCore_records]
    split
    · rename_i hb
      simp only [hb, haltView, State.axisRecords, state]
    · rfl
  | run =>
    let t := s.setAxis a { s.axis a with pending := none }
    have still : ∀ b, t.axis b = if b = a then { s.axis a with pending := none } else s.axis b := fun b => s.axis_setAxis a b _
    have running : (t.axis a).state = .run := by rw [still, if_pos rfl]; exact state
    have direction : ({ s.axis a with pending := none } : AxisRec).movingDirection = (s.axis a).movingDirection := by
      simp only [AxisRec.movingDirection, state]
    have calmer : Calmer s t := Calmer.of_axis still rfl rfl id (.inl direction)
    obtain ⟨alone, after⟩ := State.Quiet.stopMotion (calmer.quiet rfl quiet) a .halt running
    have eq : s.axisHalt a = t.stopMotion a .halt := by rw [State.axisHalt, state]
    rw [eq, alone]
    refine ⟨⟨after, fun b => ?_⟩, (s.setAxis_calm a _).trans (t.stopCore_calm a .halt), fun _ => rfl⟩
    have axis := t.stopCore_axis a b .halt
    rw [still, if_pos rfl, still] at axis
    have records : (t.stopCore a .halt).axisRecords b = ((t.stopCore a .halt).axis b, s.channel b, s.held b) := rfl
    rw [records, axis]
    split
    · rename_i hb
      subst hb
      simp only [haltView, State.axisRecords, state]
      rfl
    · rfl
  | parked | stopping | lockout =>
    have eq : s.axisHalt a = s := by simp only [State.axisHalt, state]
    rw [eq]
    refine ⟨⟨quiet, fun b => ?_⟩, .refl s, fun _ => rfl⟩
    split
    · rename_i hb
      simp only [hb, haltView, State.axisRecords, state]
    · rfl

/-- A change made to each axis of a list in turn, under what every one of them keeps, is made once to each. -/
theorem foldl_each_once {β : Type} {view : State → AxisNo → β} {g : β → β} {keeps : State → Prop} {f : State → AxisNo → State}
    (one : ∀ s a, keeps s → keeps (f s a) ∧ ∀ b, view (f s a) b = if b = a then g (view s b) else view s b)
    (as : List AxisNo) (nodup : as.Nodup) {s : State} (h : keeps s) (b : AxisNo) :
    view (as.foldl f s) b = if b ∈ as then g (view s b) else view s b := by
  induction as generalizing s with
  | nil => simp
  | cons a as ih =>
    obtain ⟨new, nodup⟩ := List.nodup_cons.1 nodup
    obtain ⟨kept, views⟩ := one s a h
    rw [List.foldl_cons, ih nodup kept, views]
    by_cases hb : b = a
    · subst hb; simp [new]
    · simp [hb]

theorem State.Quiet.haltAxes_calm {s : State} (quiet : s.Quiet) (as : List AxisNo) :
    (as.foldl State.axisHalt s).Quiet ∧ Calm s (as.foldl State.axisHalt s) := by
  induction as generalizing s with
  | nil => exact ⟨quiet, .refl s⟩
  | cons a as ih =>
    obtain ⟨⟨kept, -⟩, calm, -⟩ := quiet.axisHalt a
    obtain ⟨quiet', calm'⟩ := ih kept
    exact ⟨quiet', calm.trans calm'⟩

/-- HALT moves no load where no axis is in WARN or REST. -/
theorem State.Quiet.haltAxes_loads {s : State} (quiet : s.Quiet) (as : List AxisNo)
    (idle : ∀ a, (s.axis a).state ≠ .warn ∧ (s.axis a).state ≠ .rest) : (as.foldl State.axisHalt s).loads = s.loads := by
  induction as generalizing s with
  | nil => rfl
  | cons a as ih =>
    obtain ⟨⟨kept, records⟩, -, loads⟩ := quiet.axisHalt a
    rw [List.foldl_cons, ih kept fun b => ?_, loads (idle a)]
    have axis : (s.axisHalt a).axis b = _ := congrArg Prod.fst (records b)
    rw [axis]
    split
    · exact haltView_idle _
    · exact idle b

/-- Settles O51: START sets the run state alone; HALT reaches each axis once, and no interlock entry passes its change on. -/
theorem startAndHalt : Obligations.start_and_halt := by
  refine fun s o => ⟨fun takes => ?_, fun takes law => ⟨_, exec_halt takes, ?_⟩⟩
  · rw [exec_start takes, ← s.endReceipt_device o]; rfl
  · have quiet : (s.endReceipt o).Quiet := State.endReceipt_quiet law.1 o
    obtain ⟨-, calm⟩ := quiet.haltAxes_calm allAxes
    have loads := fun idle => quiet.haltAxes_loads allAxes idle
    have records : ∀ a, (allAxes.foldl State.axisHalt (s.endReceipt o)).axisRecords a
        = haltView (s.axis a, s.channel a, s.held a) := fun a => by
      rw [foldl_each_once (view := State.axisRecords) (g := haltView) (keeps := State.Quiet)
          (fun s a h => (State.Quiet.axisHalt h a).1) allAxes (by decide) quiet a,
        if_pos (allAxes_complete a), State.axisRecords, State.endReceipt_axis, State.endReceipt_channel,
        State.held_congr (s.endReceipt_budget o)]
    rw [State.haltPart]
    generalize allAxes.foldl State.axisHalt (s.endReceipt o) = w at calm loads records
    have load : ∀ n, (s.endReceipt o).load n = s.load n := s.endReceipt_load o
    refine ⟨?_, fun n => ?_, fun n => ?_, ?_, ?_, fun a => ?_, fun idle n => ?_⟩
    · have only := congrArg (fun x : State => ((x.setClaims []).clearStacks).setRunState .halted) calm.only
      rw [← s.endReceipt_device o]
      exact only
    · exact (calm.configs n).trans (congrArg LoadRec.toLoadConfig (load n))
    · exact (calm.targets n).trans (congrArg LoadRec.setTarget (load n))
    · exact calm.available.trans (congrArg Budget.available (s.endReceipt_budget o))
    · have notices := calm.notices
      rw [State.endReceipt_notices] at notices
      exact notices
    · have halted : (w.axis a, w.channel a, w.held a) = _ := records a
      unfold haltView at halted
      cases state : (s.axis a).state <;> simp only [state, Prod.mk.injEq] at halted <;> exact halted
    · have still := loads fun a => by rw [State.endReceipt_axis]; exact idle a
      exact (State.load_congr still n).trans (load n)

end Sys2Proof.Machine

namespace Sys2Proof.Machine

/-! ## WRITE_LOAD -/

/-! ### The request -/

/-- A WRITE_LOAD whose body is read is decided by the Load Table (R46). -/
theorem exec_writeLoad {s : State} {o : Origin} {n : LoadNo} {body : List Byte} {f : LoadFields} (takes : s.Takes .writeLoad o)
    (fits : body.length ≤ 60) (read : readWriteLoad body = some ((Target.load n).raw, f)) :
    exec (.writeLoad o body) s
      = .next (((s.endReceipt o).decideWriteLoad n f).2.answered o ReqKind.writeLoad.code
          ((s.endReceipt o).decideWriteLoad n f).1) := by
  have management : o = 0 := takes.origin rfl
  have ok : (s.endReceipt o).checkTarget .writeLoad o (Target.load n).raw = .ok (Target.load n) := by
    rw [State.endReceipt_checkTarget]
    refine State.checkTarget_names (Target.raw_names nofun) (.head _) ?_ ?_
    · exact Bool.and_false _
    · subst management; rfl
  show execWriteLoad o body s = _
  rw [execWriteLoad, serve_decided takes.room fits, read, decideTarget_owned takes.endReceipt ok]

/-- The values of a WRITE_LOAD are refused where R46 says. -/
theorem loadFieldsOk_eq_false {f : LoadFields} : loadFieldsOk f = false
    ↔ 15 < f.space ∨ 7 < f.shedRank ∨ 1000 < f.shedLevel ∨ 400 < f.ratedPower ∨ 64 < f.minDuty := by
  simp only [loadFieldsOk, Bool.and_eq_false_iff, decide_eq_false_iff_not, Nat.not_le, or_assoc]

/-- A rewritten load has the configuration written (R47). -/
theorem LoadRec.rewritten_config (l : LoadRec) (c : LoadConfig) : (l.rewritten c).toLoadConfig = c := by
  have reconfigured : (l.reconfigure c).toLoadConfig = c := by
    unfold LoadRec.reconfigure
    extract_lets w
    split <;> simp [w]
  simp only [LoadRec.rewritten, LoadRec.recount_config, LoadRec.reshed]
  split_ifs <;> simp [reconfigured]

/-! ### The written part, before the budget's answer -/

/-- The load is claimed, and is moved into another space, which is claimed (R37). -/
def State.movesClaimed (s : State) (n : LoadNo) (space : SpaceNo) : Bool :=
  decide (space ≠ (s.load n).space) && ((s.claims.any fun x => x.target == .load n)
    && s.claims.any fun x => x.target == .space space)

theorem State.movesClaimed_iff {s : State} {n : LoadNo} {space : SpaceNo} : s.movesClaimed n space = true
    ↔ space ≠ (s.load n).space ∧ (∃ x ∈ s.claims, x.target = .load n) ∧ ∃ x ∈ s.claims, x.target = .space space := by
  simp [State.movesClaimed]

/-- The part once WRITE_LOAD has written its load, before the budget answers the change of the draw (R47 to R51). -/
def State.loadWritten (s : State) (n : LoadNo) (c : LoadConfig) : State :=
  let l := s.load n
  let l' := l.rewritten c
  let freed := l.shed && !l'.shed
  let w := s.withLoad n l' (decide (c.kind ≠ l.kind) || decide (c.minDuty ≠ l.minDuty))
  { w with
    budget := { w.budget with shedList := if freed then s.budget.shedList.erase n else s.budget.shedList }
    notices := { s.notices with shedChange := s.notices.shedChange || freed }
    claims := if s.movesClaimed n c.space then s.claims.filter fun x => x.target != .load n else s.claims
    returnStacks := Vector.replicate 16 []
    axes := if c.kind = .none then (s.dropCourtesy n).axes else s.axes }

theorem State.withLoad_staged {s : State} {n : LoadNo} {l : LoadRec} {r : Bool}
    (h : (r = true ∨ l.level ≠ (s.load n).level) ∧ s.settle = none) :
    s.withLoad n l r = { (s.setLoad n l).setOutput n { s.output n with staged := some l.duty } with
      budget := { s.budget with committed := s.budget.committed + l.countedDraw - (s.load n).countedDraw } } := by
  simp only [State.withLoad, if_pos h]

theorem State.withLoad_unstaged {s : State} {n : LoadNo} {l : LoadRec} {r : Bool}
    (h : ¬ ((r = true ∨ l.level ≠ (s.load n).level) ∧ s.settle = none)) :
    s.withLoad n l r = { s.setLoad n l with
      budget := { s.budget with committed := s.budget.committed + l.countedDraw - (s.load n).countedDraw } } := by
  simp only [State.withLoad, if_neg h]

theorem State.withLoad_only (s : State) (n : LoadNo) (l : LoadRec) (r : Bool) : OnlyLoads s (s.withLoad n l r) := by
  rw [← State.storeLoad_eq_withLoad]; exact s.storeLoad_only n l r

theorem State.withLoad_claims (s : State) (n : LoadNo) (l : LoadRec) (r : Bool) : (s.withLoad n l r).claims = s.claims := by
  rw [s.withLoad_only n l r]

/-- A record written leaves stacks, axes, notices and the shed list as they are. -/
theorem State.withLoad_records (s : State) (n : LoadNo) (l : LoadRec) (r : Bool) (list : List LoadNo) (p : Notices)
    (frames : Vector (List StackFrame) 16) (axes : Vector AxisRec 3) :
    ({ s with budget := { s.budget with shedList := list }, notices := p, returnStacks := frames, axes := axes } : State).withLoad
        n l r
      = { s.withLoad n l r with
          budget := { (s.withLoad n l r).budget with shedList := list }
          notices := p, returnStacks := frames, axes := axes } := by
  by_cases staged : (r = true ∨ l.level ≠ (s.load n).level) ∧ s.settle = none
  · rw [State.withLoad_staged staged]; exact State.withLoad_staged staged
  · rw [State.withLoad_unstaged staged]; exact State.withLoad_unstaged staged

/-- What `dropCourtesy` and `retireMoved` leave and the record just written, as the model takes them in turn (R47 to R51). -/
theorem State.writeLoad_eq (s : State) (n : LoadNo) (c : LoadConfig) :
    s.writeLoad n c
      = (if ((s.load n).rewritten c).countedDraw < (s.load n).countedDraw then (s.loadWritten n c).afterFall
        else if (s.load n).countedDraw < ((s.load n).rewritten c).countedDraw then
          if s.budget.deficit then (s.loadWritten n c).reduceInDeficit n (s.load n).countedDraw s.budget.committed
          else if (s.loadWritten n c).withinBudget then s.loadWritten n c else (s.loadWritten n c).reduce
        else s.loadWritten n c) := by
  have config := (s.load n).rewritten_config c
  have space : ((s.load n).rewritten c).space = c.space := congrArg LoadConfig.space config
  have kind : ((s.load n).rewritten c).kind = c.kind := congrArg LoadConfig.kind config
  have duty : ((s.load n).rewritten c).minDuty = c.minDuty := congrArg LoadConfig.minDuty config
  unfold State.writeLoad
  extract_lets l l' s1 s2 s3 s4 s5
  have written : s5 = s.loadWritten n c := by
    have stored : s4 = { s.loadWritten n c with
        claims := (s.withLoad n l' (decide (c.kind ≠ l.kind) || decide (c.minDuty ≠ l.minDuty))).claims } := by
      have restaged : (l'.kind != l.kind || l'.minDuty != l.minDuty)
          = (decide (c.kind ≠ l.kind) || decide (c.minDuty ≠ l.minDuty)) := by rw [kind, duty]; simp [l, bne, beq_eq_decide]
      have eq2 : s2 = { s.clearStacks with
          budget := { s.budget with shedList := if l.shed && !l'.shed then s.budget.shedList.erase n else s.budget.shedList }
          notices := { s.notices with shedChange := s.notices.shedChange || (l.shed && !l'.shed) } } := by
        cases freed : l.shed && !l'.shed
        · simp only [s2, freed, Bool.or_false]; rfl
        · simp only [s2, freed, Bool.or_true]; rfl
      have eq3 : s3 = { s2 with axes := if c.kind = .none then (s.dropCourtesy n).axes else s.axes } := by
        by_cases none : c.kind = .none
        · simp only [s3, none, if_true, eq2]; rfl
        · simp only [s3, none, if_false, eq2]; rfl
      have eq4 : s4 = s3.withLoad n l' (decide (c.kind ≠ l.kind) || decide (c.minDuty ≠ l.minDuty)) := by
        rw [← restaged]; exact State.storeLoad_eq_withLoad _ _ _ _
      rw [eq4, eq3, eq2]
      exact s.withLoad_records n l' _ _ _ _ _
    have load : s4.load n = l' := (State.load_storeLoad s3 n n l' _).trans (if_pos rfl)
    have claims : s4.claims = s.claims := by rw [stored]; exact s.withLoad_claims n l' _
    have retired : s5 = s4.setClaims (if s.movesClaimed n c.space then s.claims.filter fun x => x.target != .load n
        else s.claims) := by
      simp only [s5, State.retireMoved, load, show l'.space = c.space from space, claims, State.movesClaimed, l]
      have same : s4.setClaims s.claims = s4 := by rw [← claims]; rfl
      by_cases stays : c.space = (s.load n).space
      · simp only [stays, ne_eq, not_true_eq_false, decide_false, Bool.false_and, if_false, Bool.false_eq_true, same]
      · simp only [stays, ne_eq, not_false_eq_true, decide_true, Bool.true_and, if_true]
        split
        · rfl
        · exact same.symm
    rw [retired, stored]
    rfl
  rw [written, State.answerFall_eq_afterFall]

end Sys2Proof.Machine

namespace Sys2Proof.Machine

/-! ### The axes while the budget answers a rise -/

/-- What the reduction procedure can make of the axes where no entry stops one (R115): an axis in WARN may be parked with
NO_BUDGET. -/
def Abandons (s t : State) : Prop :=
  s.Quiet → t.Quiet ∧ ∀ a, t.axis a = s.axis a ∧ t.channel a = s.channel a
    ∨ (s.axis a).state = .warn ∧ t.axis a = (s.axis a).parkedBy .noBudget ∧ t.channel a = (s.channel a).finish

theorem Abandons.refl (s : State) : Abandons s s := fun quiet => ⟨quiet, fun _ => .inl ⟨rfl, rfl⟩⟩

theorem Abandons.trans {s t u : State} (h : Abandons s t) (k : Abandons t u) : Abandons s u := by
  intro quiet
  obtain ⟨quiet', first⟩ := h quiet
  obtain ⟨quiet'', second⟩ := k quiet'
  refine ⟨quiet'', fun a => ?_⟩
  rcases first a with ⟨axis, channel⟩ | ⟨state, axis, channel⟩
  · have next := second a
    rw [axis, channel] at next
    exact next
  · rcases second a with ⟨axis', channel'⟩ | ⟨state', -⟩
    · exact .inr ⟨state, axis'.trans axis, channel'.trans channel⟩
    · rw [axis] at state'; cases state'

/-- Where loads and budget alone change, no axis is abandoned. -/
theorem OnlyLoads.abandons {s t : State} (h : OnlyLoads s t) : Abandons s t := by
  have axes : t.axes = s.axes := by rw [h]
  have channels : t.channels = s.channels := by rw [h]
  have calmer : Calmer s t := fun a => by
    rw [State.axis_congr axes]; exact ⟨rfl, rfl, id, .inl rfl⟩
  exact fun quiet => ⟨calmer.quiet (by rw [h]) quiet,
    fun a => .inl ⟨State.axis_congr axes a, State.channel_congr channels a⟩⟩

theorem State.abandon_abandons (s : State) (a : AxisNo) : Abandons s (s.abandon a) := by
  rw [State.abandon]
  split
  · rename_i state
    intro quiet
    obtain ⟨alone, after⟩ := State.Quiet.park quiet a .noBudget true
    obtain ⟨-, axes, channels⟩ := s.parkCore_spec a .noBudget true
    rw [alone]
    refine ⟨after, fun b => ?_⟩
    rw [axes, channels]
    by_cases hb : b = a
    · subst hb; rw [if_pos rfl, if_pos rfl]; exact .inr ⟨state, rfl, rfl⟩
    · rw [if_neg hb, if_neg hb]; exact .inl ⟨rfl, rfl⟩
  · exact .refl s

section
variable (s : State)

theorem State.reduceTwoSteps_abandons : Abandons s s.reduceTwoSteps := by
  have first : Abandons s s.reduceLoads := (State.shedAlong_run _ _ s).only.abandons
  have second : Abandons s s.reduceLoads.abandonWarned :=
    first.trans (foldl_rel Abandons.refl Abandons.trans State.abandon_abandons allAxes _)
  simp only [State.reduceTwoSteps]
  split
  · exact first.trans (State.setDeficit_run _ _).only.abandons
  · split
    · exact second.trans ((State.setDeficit_run _ _).trans (State.restorePass_run _)).only.abandons
    · exact second

theorem State.reduce_abandons : Abandons s s.reduce := by
  simp only [State.reduce]
  split
  · exact s.reduceTwoSteps_abandons
  · exact s.reduceTwoSteps_abandons.trans (State.setDeficit_run _ _).only.abandons

theorem State.reduceInDeficit_abandons (n : LoadNo) (c start : Nat) : Abandons s (s.reduceInDeficit n c start) := by
  simp only [State.reduceInDeficit]
  split
  · exact s.reduceTwoSteps_abandons
  · refine s.reduceTwoSteps_abandons.trans (Abandons.trans ?_ (State.setDeficit_run _ true).only.abandons)
    split
    · exact (State.storeLoad_only _ _ _ _).abandons
    · exact .refl _

/-- In deficit the trim is of the written load: no other SET TARGET moves (R118). -/
theorem State.reduceInDeficit_targets (n : LoadNo) (c start : Nat) (m : LoadNo) (other : m ≠ n) :
    ((s.reduceInDeficit n c start).load m).setTarget = (s.load m).setTarget := by
  have two := s.reduceTwoSteps_steady.targets m
  simp only [State.reduceInDeficit]
  split
  · exact two
  · rw [← two]
    refine ((State.setBudget_steady _ _).targets m).trans ?_
    split
    · rw [State.load_storeLoad, if_neg other]
    · rfl

end

/-! ### The answer of the budget -/

/-- What the budget's answer to the written load leaves: the claims, stacks and configurations as written, the SET TARGETs of the
other loads, and the axes but for those abandoned. -/
structure WriteAnswered (n : LoadNo) (w u : State) : Prop where
  run : MachineRun w u
  others : ∀ m, m ≠ n → (u.load m).setTarget = (w.load m).setTarget
  axes : Abandons w u

theorem Steady.writeAnswered {n : LoadNo} {w u : State} (h : Steady w u) (axes : Abandons w u) : WriteAnswered n w u :=
  ⟨h.toMachineRun, fun m _ => h.targets m, axes⟩

section
variable (s : State) (n : LoadNo) (c : LoadConfig)

theorem State.afterFall_run : LoadRun s s.afterFall := by rw [← State.answerFall_eq_afterFall]; exact s.answerFall_run

theorem State.writeLoad_answered : WriteAnswered n (s.loadWritten n c) (s.writeLoad n c) := by
  rw [State.writeLoad_eq]
  split_ifs
  · exact (State.afterFall_steady _).writeAnswered (State.afterFall_run _).only.abandons
  · exact ⟨State.reduceInDeficit_run _ n _ _, State.reduceInDeficit_targets _ n _ _, State.reduceInDeficit_abandons _ n _ _⟩
  · exact (Steady.refl _).writeAnswered (.refl _)
  · exact (State.reduce_steady _).writeAnswered (State.reduce_abandons _)
  · exact (Steady.refl _).writeAnswered (.refl _)

variable {s n c}

/-- The written SET TARGET is trimmed only where the draw rises in DEFICIT (R118). -/
theorem State.writeLoad_untrimmed
    (h : s.budget.deficit = false ∨ ((s.load n).rewritten c).countedDraw ≤ (s.load n).countedDraw) :
    Steady (s.loadWritten n c) (s.writeLoad n c) := by
  rw [State.writeLoad_eq]
  split_ifs with falls rises deficit
  · exact State.afterFall_steady _
  · rcases h with h | h
    · rw [h] at deficit; cases deficit
    · omega
  · exact .refl _
  · exact State.reduce_steady _
  · exact .refl _

theorem State.writeLoad_of_fall (h : ((s.load n).rewritten c).countedDraw < (s.load n).countedDraw) :
    s.writeLoad n c = (s.loadWritten n c).afterFall := by rw [State.writeLoad_eq, if_pos h]

theorem State.loadWritten_load (m : LoadNo) :
    (s.loadWritten n c).load m = if m = n then (s.load n).rewritten c else s.load m := by
  show (s.withLoad n _ _).load m = _
  rw [← State.storeLoad_eq_withLoad, State.load_storeLoad]

theorem State.loadWritten_committed : (s.loadWritten n c).budget.committed
    = s.budget.committed + ((s.load n).rewritten c).countedDraw - (s.load n).countedDraw := rfl

/-- Where the answer moves no load, at most DEFICIT is cleared (R111, R114). -/
theorem State.writeLoad_alone
    (h : let l := s.load n
      let l' := l.rewritten c
      l'.countedDraw = l.countedDraw
        ∨ l.countedDraw < l'.countedDraw ∧ s.budget.deficit = false
            ∧ s.budget.committed + l'.countedDraw - l.countedDraw ≤ s.budget.available
        ∨ l'.countedDraw < l.countedDraw
            ∧ (s.budget.shedList = [] ∨ s.budget.shedList = [n] ∧ l.shed = true ∧ l'.shed = false)) :
    ∃ d, s.writeLoad n c
      = { s.loadWritten n c with budget := { (s.loadWritten n c).budget with deficit := d } } := by
  rcases h with same | ⟨rises, deficit, fits⟩ | ⟨falls, list⟩
  · refine ⟨s.budget.deficit, ?_⟩
    rw [State.writeLoad_eq, if_neg same.not_lt, if_neg same.not_gt]
    rfl
  · have within : (s.loadWritten n c).withinBudget = true := decide_eq_true fits
    refine ⟨s.budget.deficit, ?_⟩
    rw [State.writeLoad_eq, if_neg rises.not_gt, if_pos rises, deficit, if_neg Bool.false_ne_true, if_pos within, ← deficit]
    rfl
  · have none : (s.loadWritten n c).budget.shedList = [] := by
      simp only [State.loadWritten]
      rcases list with list | ⟨list, shed, freed⟩
      · rw [list]; split <;> rfl
      · rw [list, shed, freed]; simp
    exact ⟨_, (State.writeLoad_of_fall falls).trans (State.afterFall_of_none_shed none)⟩

end

end Sys2Proof.Machine

namespace Sys2Proof.Machine

/-! ### What WRITE_LOAD leaves -/

section
variable (s : State) (n : LoadNo) (c : LoadConfig)

theorem State.loadWritten_frame : s.loadWritten n c = { s with
    loads := (s.loadWritten n c).loads, outputs := (s.loadWritten n c).outputs, budget := (s.loadWritten n c).budget
    notices := (s.loadWritten n c).notices, claims := (s.loadWritten n c).claims
    returnStacks := Vector.replicate 16 [], axes := (s.loadWritten n c).axes } := by
  have only := s.withLoad_only n ((s.load n).rewritten c)
    (decide (c.kind ≠ (s.load n).kind) || decide (c.minDuty ≠ (s.load n).minDuty))
  simp only [State.loadWritten]
  rw [only]

/-- A load made NONE is no axis's courtesy load; nothing else of an axis is written (R124). -/
theorem State.loadWritten_axis (a : AxisNo) : (s.loadWritten n c).axis a = { s.axis a with
    courtesy := if c.kind = .none ∧ (s.axis a).courtesy = some n then none else (s.axis a).courtesy } := by
  have axes : (s.loadWritten n c).axes = if c.kind = .none then (s.dropCourtesy n).axes else s.axes := rfl
  rw [State.axis, axes]
  by_cases none : c.kind = .none
  · simp only [none, if_true, true_and, State.dropCourtesy, State.axis, get_mapTable]
    split <;> rfl
  · simp only [none, if_false, false_and]
    rfl

theorem State.loadWritten_interlocks : (s.loadWritten n c).interlocks = s.interlocks := by rw [State.loadWritten_frame]

theorem State.loadWritten_channels : (s.loadWritten n c).channels = s.channels := by rw [State.loadWritten_frame]

/-- The duty of a changed level, or under a changed configuration, is staged, the settle interval being over (R44, R51). -/
theorem State.loadWritten_output (settled : s.settle = none) (m : LoadNo) : (s.loadWritten n c).output m
    = if m = n ∧ (((s.load n).rewritten c).level ≠ (s.load n).level ∨ c.kind ≠ (s.load n).kind
          ∨ c.minDuty ≠ (s.load n).minDuty) then
        { s.output m with staged := some ((s.load n).rewritten c).duty }
      else s.output m := by
  have outputs : (s.loadWritten n c).output m = (s.withLoad n ((s.load n).rewritten c)
      (decide (c.kind ≠ (s.load n).kind) || decide (c.minDuty ≠ (s.load n).minDuty))).output m := rfl
  have restage : (decide (c.kind ≠ (s.load n).kind) || decide (c.minDuty ≠ (s.load n).minDuty)) = true
      ↔ c.kind ≠ (s.load n).kind ∨ c.minDuty ≠ (s.load n).minDuty := by simp
  rw [outputs]
  by_cases staged : ((decide (c.kind ≠ (s.load n).kind) || decide (c.minDuty ≠ (s.load n).minDuty)) = true
      ∨ ((s.load n).rewritten c).level ≠ (s.load n).level) ∧ s.settle = none
  · have changed := staged.1
    rw [restage, or_comm] at changed
    rw [State.withLoad_staged staged]
    refine (State.output_setOutput (s.setLoad n _) n m _).trans ?_
    by_cases hm : m = n
    · subst hm; rw [if_pos rfl, if_pos ⟨rfl, changed⟩]
    · rw [if_neg hm, if_neg fun h => hm h.1]; rfl
  · rw [State.withLoad_unstaged staged, if_neg]
    · rfl
    · exact fun h => staged ⟨Or.comm.1 (h.2.imp_right restage.2), settled⟩

theorem State.loadWritten_calmer : Calmer s (s.loadWritten n c) := fun a => by
  rw [State.loadWritten_axis]; exact ⟨rfl, rfl, id, .inl rfl⟩

end

/-- Beside what an event of loads and axes may change, WRITE_LOAD writes claims and stacks alone (R93). -/
theorem State.writeLoad_frame (s : State) (n : LoadNo) (c : LoadConfig) : s.writeLoad n c = { s with
    loads := (s.writeLoad n c).loads, outputs := (s.writeLoad n c).outputs, budget := (s.writeLoad n c).budget
    notices := (s.writeLoad n c).notices, claims := (s.writeLoad n c).claims
    returnStacks := Vector.replicate 16 [], axes := (s.writeLoad n c).axes, channels := (s.writeLoad n c).channels } := by
  have only := (s.writeLoad_answered n c).run.only
  rw [only.claims]
  set u := s.writeLoad n c
  exact Eq.trans only (congrArg (fun x : State => { x with
    loads := u.loads, outputs := u.outputs, budget := u.budget, notices := u.notices, axes := u.axes
    channels := u.channels }) (s.loadWritten_frame n c))

theorem State.writeLoad_claims (s : State) (n : LoadNo) (c : LoadConfig) : (s.writeLoad n c).claims
    = if s.movesClaimed n c.space then s.claims.filter fun x => x.target != .load n else s.claims :=
  (s.writeLoad_answered n c).run.only.claims

theorem State.endReceipt_movesClaimed (s : State) (o : Origin) (n : LoadNo) (space : SpaceNo) :
    (s.endReceipt o).movesClaimed n space = s.movesClaimed n space := by
  simp only [State.movesClaimed, State.endReceipt_load, State.endReceipt_claims]

/-- A WRITE_LOAD of values in range to a load that is not forced is carried out (R46, R47). -/
theorem exec_writeLoad_done {s : State} {o : Origin} {n : LoadNo} {c : LoadConfig} (takes : s.Takes .writeLoad o)
    (forced : (s.load n).forced = false) (rank : c.shedRank ≤ 7) (level : c.shedLevel ≤ 1000) (power : c.ratedPower ≤ 400)
    (duty : c.minDuty ≤ 64) : exec (.writeLoad o ((Target.load n).bytes ++ loadConfigBytes c)) s
      = .next (((s.endReceipt o).writeLoad n c).answered o ReqKind.writeLoad.code (.plain .done)) := by
  have read := readWriteLoad_bytes (x := (Target.load n).raw) (c := c) (by show n.val < 65536; omega) (by omega) (by omega)
    (by omega) (by omega)
  have config : loadConfigOf ⟨c.kind, c.space.val, c.groupMask, c.shedRank, c.shedLevel, c.ratedPower, c.minDuty⟩ = c := by
    simp [loadConfigOf]
  have fits : ((Target.load n).bytes ++ loadConfigBytes c).length ≤ 60 := by
    simp [Target.bytes, targetBytes, bytesOf, loadConfigBytes]
  have decided := exec_writeLoad takes fits read
  rw [State.decideWriteLoad, State.endReceipt_load, if_neg (by rw [forced]; nofun),
    if_neg (by rw [loadFieldsOk_eq_false]; simp only; omega), config] at decided
  exact decided

/-- The record written depends on the records of loads and budget alone. -/
theorem SameBudget.loadWritten {s t : State} (h : SameBudget s t) (n : LoadNo) (c : LoadConfig) :
    SameBudget (s.loadWritten n c) (t.loadWritten n c) := by
  have stored := h.withLoad n ((s.load n).rewritten c)
    (decide (c.kind ≠ (s.load n).kind) || decide (c.minDuty ≠ (s.load n).minDuty))
  rw [State.loadWritten, State.loadWritten, h.load]
  refine ⟨stored.loads, stored.outputs, ?_, stored.settle, ?_⟩
  · exact congrArg₂ (fun (b b' : Budget) => { b with
      shedList := if (s.load n).shed && !((s.load n).rewritten c).shed then b'.shedList.erase n else b'.shedList })
      stored.budget h.budget
  · exact congrArg (· || ((s.load n).shed && !((s.load n).rewritten c).shed)) h.shedChange

/-- Settles O33: the load is written, and the budget answers the change of its draw. -/
theorem writeLoadWritesTheConfiguration : Obligations.write_load_writes_the_configuration := by
  intro s o n takes
  refine ⟨fun body f fits read => ?_, fun c forced rank level power duty law => ?_⟩
  · have decided := exec_writeLoad takes fits read
    rw [State.decideWriteLoad, State.endReceipt_load] at decided
    refine ⟨fun forced => ?_, fun free out => ?_⟩
    · rw [if_pos forced] at decided; exact decided
    · rw [if_neg (by rw [free]; nofun), if_pos (loadFieldsOk_eq_false.2 out)] at decided; exact decided
  · intro l l' r moved
    have load : ∀ m, r.load m = s.load m := s.endReceipt_load o
    have answered := r.writeLoad_answered n c
    set w := r.loadWritten n c with hw
    set u := r.writeLoad n c with hu
    have written : ∀ m, w.load m = if m = n then l' else s.load m := fun m => by
      rw [hw, State.loadWritten_load, load, load]
    have quiet : w.Quiet :=
      (r.loadWritten_calmer n c).quiet (r.loadWritten_interlocks n c) (State.endReceipt_quiet law.1 o)
    have channel : ∀ a, w.channel a = s.channel a := fun a => by
      rw [← s.endReceipt_channel o a]; exact State.channel_congr (r.loadWritten_channels n c) a
    have axis : ∀ a, w.axis a = { s.axis a with
        courtesy := if c.kind = .none ∧ (s.axis a).courtesy = some n then none else (s.axis a).courtesy } := fun a => by
      rw [hw, State.loadWritten_axis, State.endReceipt_axis]
    have claims := r.writeLoad_claims n c
    rw [← hu, State.endReceipt_movesClaimed, State.endReceipt_claims] at claims
    have same : SameBudget s r := ⟨s.endReceipt_loads o, s.endReceipt_outputs o, s.endReceipt_budget o, s.endReceipt_settle o,
      congrArg Notices.shedChange (s.endReceipt_notices o)⟩
    refine ⟨u, exec_writeLoad_done takes forced rank level power duty, r.writeLoad_frame n c, fun m => ?_, fun m other => ?_,
      fun h => ?_, fun h => ?_, fun h => ?_, fun a => ?_, fun h => ?_, fun falls => ?_⟩
    · rw [answered.run.configs m, written]
      split
      · exact LoadRec.rewritten_config _ c
      · rfl
    · rw [answered.others m other, written, if_neg other]
    · have steady : Steady w u := State.writeLoad_untrimmed (by rw [load, State.endReceipt_budget]; exact h)
      rw [steady.targets, written, if_pos rfl]
    · rw [claims, if_pos (State.movesClaimed_iff.2 h)]
    · rw [claims, if_neg fun moves => h (State.movesClaimed_iff.1 moves)]
    · have each := (answered.axes quiet).2 a
      rw [axis, channel] at each
      exact each
    · obtain ⟨d, eq⟩ := r.writeLoad_alone (n := n) (c := c) (by simp only [load, same.budget]; exact h)
      rw [← hw, ← hu] at eq
      rw [eq]
      refine ⟨written, fun m => ?_, ?_, ?_, axis⟩
      · have output := r.loadWritten_output n c ((s.endReceipt_settle o).trans takes.settled) m
        rw [load, s.endReceipt_output] at output
        exact output
      · have committed := r.loadWritten_committed (n := n) (c := c)
        rw [load, s.endReceipt_budget] at committed
        exact committed
      · have listed : w.budget.shedList = if (r.load n).shed && !((r.load n).rewritten c).shed then r.budget.shedList.erase n
            else r.budget.shedList := rfl
        simp only [load, same.budget, Bool.and_eq_true, Bool.not_eq_true'] at listed
        exact listed
    · intro freed v x
      have fall : u = w.afterFall := State.writeLoad_of_fall (by rw [load]; exact falls)
      have written := same.loadWritten n c
      have alike : SameBudget x w := ⟨written.loads, written.outputs, written.budget, written.settle, written.shedChange⟩
      have notices : w.notices = x.notices := by
        rw [hw, State.loadWritten, load]
        exact congrArg (fun p : Notices => { p with shedChange := p.shedChange || freed }) (s.endReceipt_notices o)
      refine ⟨fall ▸ alike.afterFall.sameLoads, ?_, fun a => ?_⟩
      · rw [fall, (State.afterFall_run w).notices, (State.afterFall_run x).notices, alike.afterFall.shedChange, notices]
      · have axes : u.axes = w.axes := by rw [fall, (State.afterFall_run w).only]
        rw [State.axis_congr axes, axis]

end Sys2Proof.Machine

namespace Sys2Proof.Machine

/-! ## The part after a power-on reset is lawful -/

section
variable (s : State) (low : Bool)

theorem State.powerOn_load (n : LoadNo) : (s.powerOn low).load n = LoadRec.reset := get_replicate _ n
theorem State.powerOn_axis (a : AxisNo) : (s.powerOn low).axis a = AxisRec.reset := get_replicate _ a
theorem State.powerOn_channel (a : AxisNo) : (s.powerOn low).channel a = Channel.idleWith Pattern.reset := get_replicate _ a
theorem State.powerOn_held (a : AxisNo) : (s.powerOn low).held a = 0 := get_replicate _ a
theorem State.powerOn_interlock (p : PlaceNo) : (s.powerOn low).interlock p = none := get_replicate _ p

/-- With every load dark and every axis parked, COMMITTED is 0 (R99, R100). -/
theorem State.powerOn_ledger : (s.powerOn low).LedgerLaw := by
  refine ⟨fun a => ?_, ?_⟩
  · rw [State.powerOn_held, State.powerOn_axis]; rfl
  · have draw : (s.powerOn low).totalDraw = 0 := by
      rw [State.totalDraw_eq]
      exact Finset.sum_eq_zero fun n _ => by rw [State.powerOn_load]; rfl
    rw [draw, State.totalHeld_eq, State.powerOn_held, State.powerOn_held, State.powerOn_held]
    rfl

/-- No axis is in motion, none names a courtesy load, and no load is forced (R124, R137). -/
theorem State.powerOn_force : (s.powerOn low).ForceLaw := by
  refine ⟨fun n => ⟨fun forced => ?_, fun ⟨a, moving, _⟩ => ?_⟩, fun n forced => ?_, fun a n courtesy => ?_⟩
  · rw [State.powerOn_load] at forced; cases forced
  · rw [State.powerOn_axis] at moving; cases moving
  · rw [State.powerOn_load] at forced; cases forced
  · rw [State.powerOn_axis] at courtesy; cases courtesy

theorem State.powerOn_interlocks : (s.powerOn low).InterlockLaw := by
  refine ⟨fun p e present => ?_, fun a warned => ?_⟩
  · rw [State.powerOn_interlock] at present; cases present
  · rw [State.powerOn_axis] at warned; cases warned

theorem State.powerOn_kind : (s.powerOn low).KindLaw := by
  refine ⟨fun n switch => ?_, fun n _ => ?_, fun _ _ n => ?_⟩
  · rw [State.powerOn_load] at switch; cases switch
  · rw [State.powerOn_load]; exact ⟨rfl, rfl⟩
  · rw [State.powerOn_load]; rfl

/-- The laws of the tables hold as they hold of cleared tables; those of loads and axes, as every load is dark and NONE and
every axis is parked (R22, R41, R91, R99, R103, R154). -/
theorem State.powerOn_lawful : (s.powerOn low).Lawful := by
  obtain ⟨queue, ⟨claimRoom, coverage, stack, entry⟩⟩ := s.powerOn_bounded low
  have load := s.powerOn_load low
  have axis := s.powerOn_axis low
  exact {
    queue, claimRoom, coverage, stack, entry
    level := fun n => by rw [load]; exact ⟨by decide, by decide, by decide, by decide⟩
    derived := fun n => by rw [load]; exact ⟨rfl, rfl⟩
    kind := s.powerOn_kind low
    fade := fun n f fading => by rw [load] at fading; cases fading
    ledger := s.powerOn_ledger low
    budget := fun _ => Nat.le_refl 0
    shed := ⟨List.nodup_nil, fun n => by rw [load]; exact ⟨nofun, nofun⟩, fun n shed => by rw [load] at shed; cases shed⟩
    force := s.powerOn_force low
    hold := fun a driven => by rw [axis] at driven; cases driven
    lockout := fun a => by rw [axis]; exact ⟨by decide, by decide⟩
    interlock := s.powerOn_interlocks low
    sounding := fun a => by rw [axis, State.powerOn_channel]; exact ⟨nofun, nofun⟩
    output := s.powerOn_output low
    range := fun a => by rw [axis]; unfold AxisRec.InRange; decide }

end

/-- Settles O57: `State.reset` is what a power-on reset makes of it. -/
theorem resetIsLawful : Obligations.reset_is_lawful := by
  refine ⟨State.reset.powerOn_lawful false, fun s low t next => ?_⟩
  have completed : (s.powerOn low).complete = .next (s.powerOn low) := congrArg Host.Outcome.next (s.powerOn_output low)
  cases completed.symm.trans next
  exact s.powerOn_lawful low

end Sys2Proof.Machine

namespace Sys2Proof.Machine

/-! ## A warm reset -/

/-! ### What a warm reset makes of one record -/

/-- A load goes dark, unforced and without a fade, and its derived values follow (R42, R43, R45). -/
theorem LoadRec.warm_eq (x : LoadRec) : x.warm = (let l := ({ x with forced := false } : LoadRec)
    { l with fade := none, level := 0, effTarget := l.effectiveTarget, countedDraw := l.drawAt l.effectiveTarget }) := by
  let l : LoadRec := { x with forced := false }
  exact congrArg (fun m : Nat => ({ l with
    fade := none, level := 0, effTarget := l.effectiveTarget, countedDraw := l.drawAt m } : LoadRec))
    (Nat.zero_max l.effectiveTarget)

/-- A motion, and the rest it waits in, end with RESET; a parked axis and one locked out stay so (R126). -/
theorem AxisRec.warm_eq (ax : AxisRec) : ax.warm = (let out := ({ ax with
      speed := 0, pending := none, restRemaining := none, verified := false, runDistance := 0, rampTimer := none
      brakeTimer := none, confirmTimer := none, monitoring := false, pulseWatch := none, overCurrentTimer := none } : AxisRec)
    match ax.state with
    | .warn | .run | .stopping | .rest => { out with state := .parked, endReason := .reset }
    | .parked | .lockout => out) := by
  cases state : ax.state with
  | warn | run | stopping | rest => simp [AxisRec.warm, AxisRec.atRest, state]
  | parked | lockout => simp [AxisRec.warm, AxisRec.atRest, state]

/-- A staged pattern becomes live, and the channel goes idle (R168). -/
theorem Channel.warm_eq (ch : Channel) : ch.warm = { ch with
    live := match ch.staged with | some p => p | none => ch.live
    staged := none, state := .idle, cycle := none, phase := none, gapLeft := 0, warnCount := 0, discard := false
    markTimer := none, cycleTimer := none } := by
  cases staged : ch.staged <;> simp only [Channel.warm, Channel.adoptStaged, staged, Channel.idleWith]

/-- A warm reset keeps the run state (R176). -/
theorem Device.warm_runState (d : Device) (within : Option SettleKind) (cause : ResetCause) (motion : Bool) :
    (d.warm within cause motion).runState = d.runState := by
  cases within with
  | none => rfl
  | some k => cases k <;> rfl

/-! ### The part after a warm reset -/

section
variable (s : State) (cause : WarmCause) (persists : Bool)

theorem State.warmReset_supplyLow :
    (s.warmReset cause persists).supplyLow = if cause = .brownout then persists else s.supplyLow := by cases cause <;> rfl

theorem State.warmReset_resetInput :
    (s.warmReset cause persists).resetInput = if cause = .pin then persists else s.resetInput := by cases cause <;> rfl

/-- Beside its source pin, a warm reset leaves the records of `warmRecords` and its own budget, device and settle interval. -/
theorem State.warmReset_eq : s.warmReset cause persists = { s.warmRecords with
    resetInput := (s.warmReset cause persists).resetInput, supplyLow := (s.warmReset cause persists).supplyLow
    budget := s.budget.warm s.warmRecords.totalDraw
    device := s.device.warm (s.settle.map (·.kind)) (WarmCause.resetCause cause) s.anyMotion
    settle := (s.warmReset cause persists).settle } := by
  cases cause <;> rfl

theorem State.warmReset_settle : (s.warmReset cause persists).settle = some (settleFor (warmKind (s.settle.map (·.kind)))
    ((s.warmReset cause persists).resetInput || (s.warmReset cause persists).supplyLow)) := rfl

theorem State.anyMotion_iff : s.anyMotion = true
    ↔ ∃ a, (s.axis a).state = .warn ∨ (s.axis a).state = .run ∨ (s.axis a).state = .stopping := by
  have moving : ∀ a, (s.axis a).inMotion = true
      ↔ (s.axis a).state = .warn ∨ (s.axis a).state = .run ∨ (s.axis a).state = .stopping := fun a => by
    cases state : (s.axis a).state <;> simp [AxisRec.inMotion, state]
  simp only [State.anyMotion, List.any_eq_true, moving, allAxes_complete, true_and]

/-- The cause recorded: that of an unfinished power-on, or else its own (R178). -/
theorem State.warmReset_resetCause : (s.warmReset cause persists).device.resetCause = (match s.settle with
    | some { kind := .powerOn, .. } => .powerOn
    | _ => match cause with | .brownout => .brownout | .pin => .pin) := by
  have device : (s.warmReset cause persists).device
      = s.device.warm (s.settle.map (·.kind)) (WarmCause.resetCause cause) s.anyMotion := by rw [State.warmReset_eq]
  rw [device]
  rcases s.settle with - | ⟨kind, timer⟩
  · rfl
  · cases kind <;> rfl

/-- Within the settle interval of a warm reset the record of the motion is kept; else it is made anew (R178). -/
theorem State.warmReset_motion :
    (∀ timer, s.settle = some { kind := .warm, timer := timer } →
        (s.warmReset cause persists).device.motionAtReset = s.device.motionAtReset)
      ∧ ((∀ timer, s.settle ≠ some { kind := .warm, timer := timer }) →
        (s.warmReset cause persists).device.motionAtReset = s.anyMotion) := by
  have device : (s.warmReset cause persists).device
      = s.device.warm (s.settle.map (·.kind)) (WarmCause.resetCause cause) s.anyMotion := by rw [State.warmReset_eq]
  rw [device]
  refine ⟨fun timer within => by rw [within]; rfl, fun other => ?_⟩
  rcases settle : s.settle with - | ⟨kind, timer⟩
  · rfl
  · cases kind with
    | powerOn => rfl
    | warm => exact absurd settle (other timer)

/-- Within the settle interval of a power-on reset, that interval begins again; else one of a warm reset (R178). -/
theorem State.warmReset_interval {low pin : Bool} :
    some (settleFor (warmKind (s.settle.map (·.kind))) (pin || low)) = some (match s.settle with
      | some { kind := .powerOn, .. } =>
        { kind := .powerOn, timer := if low = true ∨ pin = true then none else some 250 }
      | _ => { kind := .warm, timer := if low = true ∨ pin = true then none else some 100 }) := by
  rcases s.settle with - | ⟨kind, timer⟩
  · cases low <;> cases pin <;> rfl
  · cases kind <;> cases low <;> cases pin <;> rfl

/-! ### The end of a source -/

theorem State.sourceActive_eq_false : s.sourceActive = false ↔ s.supplyLow = false ∧ s.resetInput = false := by
  rw [State.sourceActive, Bool.or_eq_false_iff, and_comm]

/-- A settle timer that waits starts once no source persists (R178). -/
theorem State.startSettle_waiting {k : SettleKind} (waits : s.settle = some { kind := k, timer := none }) :
    s.startSettle = { s with settle := some (settleFor k s.sourceActive) } := by simp only [State.startSettle, waits]

/-- While a source persists, or where no settle timer waits, no timer starts (R178). -/
theorem State.startSettle_still (still : s.sourceActive = true ∨ ∀ k, s.settle ≠ some { kind := k, timer := none }) :
    s.startSettle = s := by
  rcases settle : s.settle with - | ⟨k, - | ms⟩
  · simp only [State.startSettle, settle]
  · rcases still with active | other
    · rw [s.startSettle_waiting settle, active, settleFor, if_pos rfl, ← settle]
    · exact absurd settle (other k)
  · simp only [State.startSettle, settle]

end

/-- Settles O56: record by record what a warm reset leaves, and which settle timer the end of a source starts. -/
theorem warmResetAndSourceEnd : Obligations.warm_reset_and_source_end := by
  refine fun s => ⟨fun cause persists => ⟨(s.warmReset cause persists).driveOutputs, rfl, ?_⟩, fun source => ?_⟩
  · have supply := s.warmReset_supplyLow cause persists
    have pin := s.warmReset_resetInput cause persists
    have cause' := s.warmReset_resetCause cause persists
    have motion := s.warmReset_motion cause persists
    have settle := s.warmReset_settle cause persists
    have eq := s.warmReset_eq cause persists
    set w := s.warmReset cause persists
    have loads : w.loads = mapTable LoadRec.warm s.loads := congrArg State.loads eq
    have budget : w.budget = s.budget.warm w.totalDraw := by
      rw [State.totalDraw_congr (t := w) (s := s.warmRecords) loads]; exact congrArg State.budget eq
    have load : ∀ n, w.load n = (s.load n).warm := fun n => by rw [State.load, loads, get_mapTable]; rfl
    refine ⟨(congrArg State.pending eq :), (congrArg State.busRx eq :), (congrArg State.linkRx eq :),
      (congrArg State.busReplies eq :), (congrArg State.linkReply eq :), (congrArg State.stations eq :),
      (congrArg State.claims eq :), (congrArg State.interlocks eq :), (congrArg State.axisInputs eq :),
      fun n => (load n).trans (LoadRec.warm_eq _), fun n => ?_, fun v => ?_, fun p => ?_,
      (congrArg Budget.available budget :), (congrArg Budget.shedList budget :), fun a => ?_, ?_, ?_, fun a => ?_, fun a => ?_,
      fun a => ⟨?_, ?_⟩, ?_, rfl, ?_, cause', motion.1, fun other => ?_, supply, pin, ?_⟩
    · exact (congrArg (fun t : State => t.output n) eq).trans (get_replicate _ n)
    · exact (congrArg (fun t : State => t.scene v) eq).trans (get_mapTable _ _ v)
    · exact (congrArg (fun t : State => t.returnStack p) eq).trans (get_replicate _ p)
    · show w.held a = 0
      rw [State.held, budget]
      exact get_replicate _ a
    · rw [← Fin.sum_univ_def]
      exact (congrArg Budget.committed budget).trans w.totalDraw_eq
    · show w.budget.deficit = true ↔ w.budget.available < w.budget.committed
      rw [budget]
      exact decide_eq_true_iff
    · exact ((congrArg (fun t : State => t.axis a) eq).trans (get_mapTable _ _ a)).trans (AxisRec.warm_eq _)
    · exact ((congrArg (fun t : State => t.channel a) eq).trans (get_mapTable _ _ a)).trans (Channel.warm_eq _)
    · exact get_mapTable _ _ a
    · exact get_mapTable _ _ a
    · exact congrArg (fun p : Notices => { p with axisLockout := w.anyLockout, deficit := w.budget.deficit })
        (congrArg State.notices eq)
    · exact (congrArg (fun t : State => t.device.runState) eq :).trans (Device.warm_runState _ _ _ _)
    · rw [← State.anyMotion_iff, ← motion.2 other]; rfl
    · exact settle.trans (s.warmReset_interval)
  · intro t ended
    have source' : s.endSource source = t := by cases source <;> rfl
    have settle : t.settle = s.settle := by cases source <;> rfl
    have runs : exec (.resetSourceEnd source) s = .next t.startSettle.driveOutputs := by
      rw [← source']; rfl
    have still : ended ↔ t.sourceActive = false := t.sourceActive_eq_false.symm
    refine ⟨fun k waits idle => ?_, fun stays => ?_⟩
    · rw [runs, t.startSettle_waiting (settle.trans waits), still.1 idle]
      cases k <;> rfl
    · rw [runs, t.startSettle_still]
      rw [settle]
      exact stays.imp_left fun persists => Bool.of_not_eq_false fun idle => persists (still.2 idle)

end Sys2Proof.Machine

namespace Sys2Proof.Machine

/-! ## A step with no command waiting -/

section
variable {s : State}

/-! ### What is due -/

/-- The expiry of a timer is due where the timer has run out. -/
theorem mem_dueIf {timer : Option Nat} {i j : Instr} : j ∈ dueIf timer i ↔ timer = some 0 ∧ j = i := by
  unfold dueIf
  split <;> simp [*]

/-- The expiry of a lease is due where the lease has run out (R25). -/
theorem mem_dueLease {c : Claim} {j : Instr} :
    (j ∈ if c.lease = .left 0 then [Instr.leaseExpiry c.target] else []) ↔ c.lease = .left 0 ∧ j = .leaseExpiry c.target := by
  split <;> simp [*]

theorem State.mem_due {j : Instr} : j ∈ s.due
    ↔ (∃ c ∈ s.claims, c.lease = .left 0 ∧ j = .leaseExpiry c.target)
      ∨ (∃ n, (s.load n).fade.map (·.stepTimer) = some 0 ∧ j = .fadeStep n)
      ∨ (∃ n, (s.output n).period = some 0 ∧ j = .outputPeriodEnd n)
      ∨ (∃ a, j ∈ s.dueOfAxis a)
      ∨ s.settle.bind (·.timer) = some 0 ∧ j = .settleExpiry := by
  simp only [State.due, List.mem_append, List.mem_flatMap, mem_dueLease, mem_dueIf, allLoads_complete, allAxes_complete,
    true_and, or_assoc]

theorem State.mem_dueOfAxis {a : AxisNo} {j : Instr} : j ∈ s.dueOfAxis a
    ↔ (s.axis a).rampTimer = some 0 ∧ j = .rampExpiry a
      ∨ (s.axis a).brakeTimer = some 0 ∧ j = .brakeSettleExpiry a
      ∨ (s.axis a).confirmTimer = some 0 ∧ j = .confirmWindowExpiry a
      ∨ (s.axis a).pulseWatch = some 0 ∧ j = .pulseWatchExpiry a
      ∨ (s.axis a).overCurrentTimer = some 0 ∧ j = .overCurrentExpiry a
      ∨ (s.axis a).restRemaining = some 0 ∧ j = .restExpiry a
      ∨ (s.channel a).markTimer = some 0 ∧ j = .signalMarkEnd a
      ∨ (s.channel a).cycleTimer = some 0 ∧ j = .signalCycleEnd a := by
  simp only [State.dueOfAxis, List.mem_append, mem_dueIf, or_assoc]

/-! ### What is taken -/

/-- Of the expiries due together one is chosen. -/
theorem choose_mem (first : Instr) (others : List Instr) (tie : Nat) : choose first others tie ∈ first :: others := by
  have within : Config.tieBreak tie % (others.length + 1) < (first :: others).length :=
    Nat.mod_lt _ (Nat.succ_pos _)
  rw [choose, List.getD_eq_getElem _ _ within]
  exact List.getElem_mem within

theorem State.idle_of_due (due : s.due ≠ []) : ∃ i ∈ s.due, ∃ k, s.idle = exec i { s with tieCount := k } := by
  rcases list : s.due with - | ⟨i, - | ⟨j, others⟩⟩
  · exact absurd list due
  · exact ⟨i, .head _, s.tieCount, by simp only [State.idle, list]⟩
  · exact ⟨_, choose_mem i (j :: others) s.tieCount, s.tieCount + 1, by simp only [State.idle, list]⟩

theorem State.idle_of_none_due (none : s.due = []) : s.idle = .next s.tick := by simp only [State.idle, none]

theorem step_idle (idle : s.pending = []) : step s = s.idle := by simp only [step, State.takeStep, idle]

end

/-- Settles O2: the one taken is due, and the clock reaches every timer once. -/
theorem stepWithNoCommandRunsTheClock : Obligations.step_with_no_command_runs_the_clock := by
  intro s idle
  rw [step_idle idle]
  refine ⟨State.idle_of_due, fun none => ⟨s.tick, State.idle_of_none_due none, rfl, ?_, fun n => get_mapTable _ _ n,
    fun n => get_mapTable _ _ n, fun a => get_mapTable _ _ a, fun a => get_mapTable _ _ a, rfl⟩, fun x => ?_, fun n => ?_,
    fun n => ?_, fun a => ?_, ?_⟩
  · refine List.map_congr_left fun c _ => ?_
    cases c.lease <;> rfl
  · have lease : .leaseExpiry x ∈ s.due ↔ ∃ c ∈ s.claims, c.lease = .left 0 ∧ x = c.target := by
      simp [State.mem_due, State.mem_dueOfAxis]
    rw [lease]
    exact exists_congr fun c => and_congr_right fun _ => by rw [and_comm, eq_comm]
  · simp [State.mem_due, State.mem_dueOfAxis]
  · simp [State.mem_due, State.mem_dueOfAxis]
  · simp [State.mem_due, State.mem_dueOfAxis]
  · have settle : .settleExpiry ∈ s.due ↔ s.settle.bind (·.timer) = some 0 := by
      simp [State.mem_due, State.mem_dueOfAxis]
    rw [settle, Option.bind_eq_some_iff]
    exact ⟨fun ⟨x, under, out⟩ => ⟨x.kind, by rw [under, ← out]⟩, fun ⟨k, under⟩ => ⟨_, under, rfl⟩⟩

end Sys2Proof.Machine

namespace Sys2Proof.Machine

/-! # Proofs of the statements on the Load Table, its fades and its budget

What one record keeps comes first (`LoadRec.KindSound` beside `LoadRec.Sound`), then the laws of loads and budget as one
invariant (`State.Books`), the relation that every operation but a few keeps (`Kept`), and the few by themselves. -/

/-! ## One load record -/

/-- What `State.KindLaw` says of one load; `dark` tells that a warm reset's settle interval may hold a SWITCH load at 0. -/
def LoadRec.KindSound (l : LoadRec) (dark : Prop) : Prop :=
  (l.kind = .switch → (l.setTarget = 0 ∨ l.setTarget = 1000) ∧ (l.level = l.effTarget ∨ l.level = 0 ∧ dark))
    ∧ (l.kind = .none → l.setTarget = 0 ∧ l.level = 0)

/-- A SET TARGET that the kind of the load allows (R48, R53). -/
def LoadRec.TargetFits (l : LoadRec) (v : Nat) : Prop :=
  (l.kind = .switch → v = 0 ∨ v = 1000) ∧ (l.kind = .none → v = 0)

theorem LoadRec.KindSound.targetFits {l : LoadRec} {dark : Prop} (h : l.KindSound dark) : l.TargetFits l.setTarget :=
  ⟨fun k => (h.1 k).1, fun k => (h.2 k).1⟩

theorem LoadRec.followSwitch_of_switch {l : LoadRec} (h : l.kind = .switch) :
    l.followSwitch = { l with level := l.effTarget } := if_pos h

theorem LoadRec.followSwitch_of_other {l : LoadRec} (h : l.kind ≠ .switch) : l.followSwitch = l := if_neg h

/-- Only a DIM load fades (R61). -/
theorem LoadRec.startFade_of_other {l : LoadRec} (h : l.kind ≠ .dim) (k : Nat) : l.startFade k = l :=
  if_neg fun dim => h dim.1

theorem LoadRec.startFade_of_forced {l : LoadRec} (h : l.forced = true) (k : Nat) : l.startFade k = l :=
  if_neg fun free => by rw [h] at free; cases free.2

theorem LoadRec.dropToTarget_of_switch {l : LoadRec} (h : l.kind = .switch) (old : Nat) :
    l.dropToTarget old = l.followSwitch := by
  simp only [LoadRec.dropToTarget, h]

theorem LoadRec.dropToTarget_of_none {l : LoadRec} (h : l.kind = .none) (old : Nat) : l.dropToTarget old = l := by
  simp only [LoadRec.dropToTarget, h]

/-- A SWITCH load follows its effective target in every change, unless nothing changes (R53). -/
theorem LoadRec.Change.switch_level {l l' : LoadRec} (h : LoadRec.Change l l') (sound : l.Sound) (switch : l.kind = .switch) :
    l'.level = l'.effTarget ∨ l'.level = l.level ∧ l'.effTarget = l.effTarget := by
  have follows : ∀ u : LoadRec, u.kind = .switch → u.followSwitch.recount.level = u.followSwitch.recount.effTarget :=
    fun u hu => by rw [LoadRec.followSwitch_of_switch hu]; rfl
  cases h with
  | shed _ _ =>
    rw [LoadRec.toShed, LoadRec.dropToTarget_of_switch (l := ({ l with shed := true } : LoadRec).retarget) switch]
    exact .inl (follows _ switch)
  | restored => exact .inl (follows _ (by simpa using switch))
  | forced =>
    rw [LoadRec.toForced]
    split
    · exact .inr ⟨rfl, rfl⟩
    · exact .inl rfl
  | unforced =>
    rw [LoadRec.toUnforced]
    split
    · refine .inl ?_
      simp only [LoadRec.retarget_config, switch]
      exact follows _ switch
    · exact .inr ⟨rfl, rfl⟩
  | target v k _ => exact .inl (follows _ (by simpa using switch))
  | step f fading =>
    have dim := (sound.fades f fading).1
    rw [switch] at dim; cases dim
  | fadeIn => exact .inl (follows _ (by simpa using switch))

/-- A NONE load keeps its level in every change. -/
theorem LoadRec.Change.none_level {l l' : LoadRec} (h : LoadRec.Change l l') (sound : l.Sound) (none : l.kind = .none) :
    l'.level = l.level := by
  have stays : ∀ (u : LoadRec) (k : Nat), u.kind = .none → (u.startFade k).followSwitch.level = u.level := fun u k hu => by
    rw [LoadRec.startFade_of_other (by simp [hu]), LoadRec.followSwitch_of_other (by simp [hu])]
  cases h with
  | shed _ _ =>
    rw [LoadRec.toShed, LoadRec.dropToTarget_of_none (l := ({ l with shed := true } : LoadRec).retarget) none]
    rfl
  | restored => exact stays _ _ none
  | forced => rw [LoadRec.toForced, if_pos (.inr none)]
  | unforced =>
    rw [LoadRec.toUnforced]
    split
    · simp only [LoadRec.retarget_config, none]
      rfl
    · rfl
  | target v k _ => exact stays _ _ none
  | step f fading =>
    have dim := (sound.fades f fading).1
    rw [none] at dim; cases dim
  | fadeIn => exact stays _ _ none

/-- A change whose SET TARGET fits the kind keeps what the kind asks of a record (R48, R53). -/
theorem LoadRec.Change.kindSound {l l' : LoadRec} {dark : Prop} (h : LoadRec.Change l l') (sound : l.Sound)
    (fits : l.TargetFits l'.setTarget) (kind : l.KindSound dark) : l'.KindSound dark := by
  have same : l'.kind = l.kind := by rw [h.config]
  refine ⟨fun k => ?_, fun k => ?_⟩ <;> rw [same] at k
  · refine ⟨fits.1 k, ?_⟩
    rcases h.switch_level sound k with e | ⟨level, target⟩
    · exact .inl e
    · rw [level, target]; exact (kind.1 k).2
  · exact ⟨fits.2 k, by rw [h.none_level sound k]; exact (kind.2 k).2⟩

end Sys2Proof.Machine

namespace Sys2Proof.Machine

/-! ## The laws of loads and budget, and what keeps them -/

/-- The settle interval of a warm reset is under way (R178). -/
def State.WarmSettle (s : State) : Prop := ∃ timer, s.settle = some { kind := .warm, timer := timer }

theorem State.kindLaw_iff {s : State} : s.KindLaw ↔ (∀ n, (s.load n).KindSound s.WarmSettle)
    ∧ ∀ timer, s.settle = some { kind := .powerOn, timer := timer } → ∀ n, (s.load n).kind = .none :=
  ⟨fun ⟨switch, unlit, dark⟩ => ⟨fun n => ⟨switch n, unlit n⟩, dark⟩,
   fun ⟨each, dark⟩ => ⟨fun n => (each n).1, fun n => (each n).2, dark⟩⟩

/-- The laws of loads and budget but for `State.BudgetLaw`, which the reduction procedure finds broken (R114). -/
structure State.Books (s : State) : Prop where
  loads : s.LoadsSound
  kind : s.KindLaw
  ledger : s.LedgerLaw
  shed : s.ShedLaw

theorem State.Books.kindSound {s : State} (h : s.Books) (n : LoadNo) : (s.load n).KindSound s.WarmSettle :=
  (State.kindLaw_iff.1 h.kind).1 n

/-- A lawful part keeps its books: a forced load stands at 1000 (R137). -/
theorem State.Lawful.books {s : State} (h : s.Lawful) : s.Books where
  loads n := ⟨h.derived n, h.fade n, h.level n, fun forced _ => (h.force.2.1 n forced).1⟩
  kind := h.kind
  ledger := h.ledger
  shed := h.shed

/-- All that the laws of loads and budget look at is the same. -/
structure SameBooks (s t : State) : Prop where
  loads : t.loads = s.loads
  budget : t.budget = s.budget
  settle : t.settle = s.settle
  demands : ∀ a, (t.axis a).movingDemand = (s.axis a).movingDemand

theorem SameBooks.refl (s : State) : SameBooks s s := ⟨rfl, rfl, rfl, fun _ => rfl⟩

theorem SameBooks.trans {s t u : State} (h : SameBooks s t) (k : SameBooks t u) : SameBooks s u :=
  ⟨k.loads.trans h.loads, k.budget.trans h.budget, k.settle.trans h.settle, fun a => (k.demands a).trans (h.demands a)⟩

theorem SameBooks.books {s t : State} (h : SameBooks s t) (books : s.Books) : t.Books := by
  have load : ∀ n, t.load n = s.load n := State.load_congr h.loads
  obtain ⟨loads, kind, ⟨held, committed⟩, shed⟩ := books
  refine ⟨fun n => by rw [load]; exact loads n, ?_, ⟨fun a => ?_, ?_⟩, ?_⟩
  · simpa only [State.KindLaw, load, h.settle] using kind
  · rw [State.held_congr h.budget, h.demands]; exact held a
  · rw [h.budget, State.totalDraw_congr h.loads, State.totalHeld_congr (congrArg Budget.heldDemand h.budget)]
    exact committed
  · simpa only [State.ShedLaw, load, h.budget] using shed

/-- DEFICIT is not set anew, and while it stays set nothing that COMMITTED is the sum of rises (R99, R117). -/
structure NoRise (s t : State) : Prop where
  deficit : t.budget.deficit = true → s.budget.deficit = true
  draws : t.budget.deficit = true → ∀ n, (t.load n).countedDraw ≤ (s.load n).countedDraw
  held : t.budget.deficit = true → ∀ a, t.held a ≤ s.held a

theorem NoRise.trans {s t u : State} (h : NoRise s t) (k : NoRise t u) : NoRise s u :=
  ⟨fun d => h.deficit (k.deficit d), fun d n => (k.draws d n).trans (h.draws (k.deficit d) n),
   fun d a => (k.held d a).trans (h.held (k.deficit d) a)⟩

/-- COMMITTED is a sum, so it does not rise where none of its parts does (R99). -/
theorem State.LedgerLaw.committed_le {s t : State} (hs : s.LedgerLaw) (ht : t.LedgerLaw)
    (draws : ∀ n, (t.load n).countedDraw ≤ (s.load n).countedDraw) (held : ∀ a, t.held a ≤ s.held a) :
    t.budget.committed ≤ s.budget.committed := by
  rw [hs.2, ht.2, State.totalDraw_eq, State.totalDraw_eq, State.totalHeld_eq, State.totalHeld_eq]
  have draw := Finset.sum_le_sum fun n (_ : n ∈ Finset.univ) => draws n
  have h0 := held 0
  have h1 := held 1
  have h2 := held 2
  omega

/-- What every operation on loads and axes keeps, a new configuration and the reduction procedure apart: the laws of loads and
budget, `State.BudgetLaw` where it holds, and COMMITTED from rising in deficit (R116, R117). -/
structure Kept (s t : State) : Prop where
  books : s.Books → t.Books
  budget : s.Books → s.BudgetLaw → t.BudgetLaw
  noRise : s.Books → NoRise s t

theorem SameBooks.kept {s t : State} (h : SameBooks s t) : Kept s t where
  books := h.books
  budget _ law := law.congr h.budget
  noRise _ := ⟨fun d => by rwa [h.budget] at d, fun _ n => by rw [State.load_congr h.loads],
    fun _ a => by rw [State.held_congr h.budget]⟩

theorem Kept.refl (s : State) : Kept s s := (SameBooks.refl s).kept

theorem Kept.trans {s t u : State} (h : Kept s t) (k : Kept t u) : Kept s u :=
  ⟨fun b => k.books (h.books b), fun b l => k.budget (h.books b) (h.budget b l),
   fun b => (h.noRise b).trans (k.noRise (h.books b))⟩

theorem Kept.foldl {α : Type} {f : State → α → State} (h : ∀ s a, Kept s (f s a)) (l : List α) (s : State) :
    Kept s (l.foldl f s) :=
  foldl_rel Kept.refl Kept.trans h l s

/-! ### Changes of one load -/

theorem LoadRun.settle {s t : State} (h : LoadRun s t) : t.settle = s.settle := by rw [h.only]

theorem LoadRun.held_eq {s t : State} (h : LoadRun s t) (a : AxisNo) : t.held a = s.held a := by
  simp only [State.held, h.held]

/-- A run of load changes keeps the ledger (R99). -/
theorem LoadRun.ledger {s t : State} (h : LoadRun s t) (law : s.LedgerLaw) : t.LedgerLaw := by
  refine ⟨fun a => ?_, ?_⟩
  · rw [h.held_eq, State.axis_congr h.only.axes]; exact law.1 a
  · rw [State.totalHeld_congr h.held]; exact h.owes _ law.owes

/-- Loads that each keep what their kind asks keep the law of kinds, in the same settle interval. -/
theorem LoadRun.kindLaw {s t : State} (h : LoadRun s t) (law : s.KindLaw)
    (each : ∀ n, (s.load n).KindSound s.WarmSettle → (t.load n).KindSound s.WarmSettle) : t.KindLaw := by
  rw [State.kindLaw_iff] at law ⊢
  have warm : t.WarmSettle = s.WarmSettle := by rw [State.WarmSettle, h.settle]; rfl
  refine ⟨fun n => warm ▸ each n (law.1 n), fun timer power n => ?_⟩
  rw [h.settle] at power
  rw [(h.changes n).config]
  exact law.2 timer power n

/-- One load changes, its draw rises by HEADROOM at most, and COMMITTED takes the change in (R99, R105). -/
theorem Kept.of_change {s t : State} {n : LoadNo} (run : LoadRun s t)
    (load : ∀ m, t.load m = if m = n then t.load n else s.load m) (change : LoadRec.Change (s.load n) (t.load n))
    (committed : t.budget.committed = s.budget.committed + (t.load n).countedDraw - (s.load n).countedDraw)
    (deficit : t.budget.deficit = s.budget.deficit)
    (fits : s.Books → (s.load n).TargetFits (t.load n).setTarget)
    (draw : s.Books → (t.load n).countedDraw ≤ (s.load n).countedDraw + s.headroom) : Kept s t where
  books h := by
    refine ⟨run.sound h.loads, run.kindLaw h.kind fun m kind => ?_, run.ledger h.ledger, run.shedLaw h.shed⟩
    rw [load m]
    split
    · rename_i e
      subst e
      exact change.kindSound (h.loads m) (fits h) kind
    · exact kind
  budget h law clear := by
    rw [deficit] at clear
    have rise := draw h
    have room := State.headroom_add clear (law clear)
    rw [committed, run.available]
    omega
  noRise h := by
    refine ⟨fun d => deficit ▸ d, fun d m => ?_, fun _ a => (run.held_eq a).le⟩
    rw [load m]
    split
    · rename_i e
      subst e
      have rise := draw h
      rwa [State.headroom_deficit (deficit ▸ d), Nat.add_zero] at rise
    · exact le_rfl

/-- A changed record is stored, its SHED flag as it was (R43, R99). -/
theorem Kept.store {s : State} {n : LoadNo} {l : LoadRec} (change : LoadRec.Change (s.load n) l)
    (shed : l.shed = (s.load n).shed) (fits : s.Books → (s.load n).TargetFits l.setTarget)
    (draw : s.Books → l.countedDraw ≤ (s.load n).countedDraw + s.headroom) : Kept s (s.storeLoad n l) := by
  have stored : (s.storeLoad n l).load n = l := by rw [State.load_storeLoad, if_pos rfl]
  refine .of_change (n := n) (LoadRun.store change shed) (fun m => ?_) ?_ ?_ (by simp) ?_ ?_ <;> rw [stored]
  · exact State.load_storeLoad s n m l false
  · exact change
  · simp
  · exact fits
  · exact draw

/-- A change that leaves SET TARGET as it was leaves one that fits. -/
theorem State.Books.targetFits {s : State} (h : s.Books) (n : LoadNo) {v : Nat} (same : v = (s.load n).setTarget) :
    (s.load n).TargetFits v := same ▸ (h.kindSound n).targetFits

/-! ### Restores, sheds and the answer to a fall -/

theorem State.load_restoreOne (s : State) (n m : LoadNo) :
    (s.restoreOne n).load m = if m = n then (s.load n).toRestored else s.load m := by
  rw [State.restoreOne, State.load_congr (State.raiseShedChange_loads _)]
  exact State.load_storeLoad (s.setShedList _) n m _ false

theorem State.restoreOne_kept {s : State} {n : LoadNo} (fits : s.restoreFits n = true) : Kept s (s.restoreOne n) := by
  have restored : (s.restoreOne n).load n = (s.load n).toRestored := by rw [State.load_restoreOne, if_pos rfl]
  refine .of_change (n := n) State.restoreOne_run (fun m => ?_) ?_ ?_ (by simp [State.restoreOne]) ?_ ?_ <;> rw [restored]
  · exact s.load_restoreOne n m
  · exact .restored _
  · simp [State.restoreOne, State.load]
  · exact fun h => h.targetFits n (LoadRec.toRestored_setTarget _)
  · exact fun _ => of_decide_eq_true fits

theorem State.restoreAlong_kept (ns : List LoadNo) (s : State) : Kept s (State.restoreAlong ns s) := by
  induction ns generalizing s with
  | nil => exact .refl s
  | cons n ns ih =>
    simp only [State.restoreAlong]
    split
    · rename_i fits; exact (State.restoreOne_kept fits).trans (ih _)
    · exact .refl s

theorem State.restorePass_kept (s : State) : Kept s s.restorePass := State.restoreAlong_kept _ s

/-- Only the laws of loads and the ledger are left to keep once DEFICIT is clear and COMMITTED is within AVAILABLE (R119). -/
theorem State.clearDeficit_kept {s : State} (within : s.budget.committed ≤ s.budget.available) : Kept s (s.setDeficit false) where
  books h := ⟨h.loads, h.kind, h.ledger, h.shed⟩
  budget _ _ _ := within
  noRise _ := ⟨nofun, nofun, nofun⟩

theorem State.answerFall_kept (s : State) : Kept s s.answerFall := by
  simp only [State.answerFall]
  split
  · split
    · rename_i within; exact (State.clearDeficit_kept within).trans (State.restorePass_kept _)
    · exact .refl s
  · exact s.restorePass_kept

theorem State.shedOne_kept {s : State} {n : LoadNo} (may : (s.load n).sheddable = true) : Kept s (s.shedOne n) := by
  obtain ⟨_, _, _, shed, forced, _⟩ := LoadRec.sheddable_spec may
  have dark : (s.shedOne n).load n = (s.load n).toShed := by rw [State.load_shedOne, if_pos rfl]
  refine .of_change (n := n) (State.shedOne_run may) (fun m => ?_) ?_ ?_ (by simp [State.shedOne]) ?_ ?_ <;> rw [dark]
  · exact s.load_shedOne n m
  · exact .shed _ shed forced
  · simp [State.shedOne]
  · exact fun h => h.targetFits n (LoadRec.toShed_setTarget _)
  · intro h
    have fall := LoadRec.toShed_draw (h.loads n).derived shed forced
    omega

theorem State.shedAlong_kept (enough : State → Bool) (ns : List LoadNo) (s : State) :
    Kept s (State.shedAlong enough ns s) := by
  induction ns generalizing s with
  | nil => exact .refl s
  | cons n ns ih =>
    simp only [State.shedAlong]
    split
    · exact .refl s
    · split
      · rename_i may; exact (State.shedOne_kept may).trans (ih _)
      · exact ih _

/-! ### Reports -/

theorem State.reportLoad_kept {s : State} {n : LoadNo} {l : LoadRec} (change : LoadRec.Change (s.load n) l)
    (shed : l.shed = (s.load n).shed) (fits : s.Books → (s.load n).TargetFits l.setTarget)
    (draw : s.Books → l.countedDraw ≤ (s.load n).countedDraw + s.headroom) : Kept s (s.reportLoad n l) := by
  have stored := Kept.store change shed fits draw
  simp only [State.reportLoad]
  split
  · exact stored.trans (State.answerFall_kept _)
  · exact stored

theorem State.fadeStep_kept (s : State) (n : LoadNo) : Kept s (s.fadeStep n) := by
  rcases s.fadeStep_cases n with ⟨-, e⟩ | ⟨f, fading, -, e⟩ <;> rw [e]
  · exact .refl s
  · refine State.reportLoad_kept (.step _ f fading) (by simp) (fun h => h.targetFits n (by simp)) fun h => ?_
    have fall := LoadRec.stepFade_draw (h.loads n).derived (h.loads n).fades fading
    omega

/-- A SWITCH load is asked for 0 or 1000, and its limit is 1000 or the SET TARGET it has (R52, R53, R54). -/
theorem State.limitedTarget_fits {s : State} {n : LoadNo} (h : s.Books) (kind : (s.load n).kind ≠ .none) (level : Nat) :
    (s.load n).TargetFits (s.limitedTarget n level) := by
  refine ⟨fun switch => ?_, fun none => absurd none kind⟩
  have asked : (s.load n).levelAsked level = 0 ∨ (s.load n).levelAsked level = 1000 := by
    simp only [LoadRec.levelAsked, switch, if_true]; split <;> simp
  have limit : s.raiseLimit n 1000 = 1000 ∨ s.raiseLimit n 1000 = (s.load n).setTarget := by
    simp only [State.raiseLimit, switch]; split <;> simp
  have had := (h.kindSound n).targetFits.1 switch
  simp only [State.limitedTarget]
  split
  · rcases asked with e | e <;> rw [e] <;> omega
  · exact asked

theorem State.setLevelOn_kept {s : State} {n : LoadNo} (kind : (s.load n).kind ≠ .none) (level fade : Nat) :
    Kept s (s.setLevelOn n level fade).1 := by
  refine State.reportLoad_kept (.target _ _ _ (s.limitedTarget_ok n level)) (by simp [LoadRec.withSetTarget])
    (fun h => ?_) fun h => State.limitedTarget_draw n level _ (h.loads n).derived (h.loads n).range
  rw [LoadRec.withSetTarget_setTarget]
  exact State.limitedTarget_fits h kind level

/-- A request on many loads that reaches no NONE load (R16, R52, R87). -/
theorem applyEntries_kept {skip : State → LoadNo → Bool} {fade : Nat} {es : List (LoadNo × Nat)} (k : Tally) {s : State}
    (reaches : ∀ t, LoadRun s t → ∀ e ∈ es, skip t e.1 = false → (t.load e.1).kind ≠ .none) :
    Kept s (applyEntries skip fade es k s).2 := by
  induction es generalizing k s with
  | nil => exact .refl s
  | cons e es ih =>
    obtain ⟨n, level⟩ := e
    simp only [applyEntries]
    split
    · exact ih _ fun t run e mem => reaches t run e (.tail _ mem)
    · rename_i reached
      refine (State.setLevelOn_kept (reaches s (.refl s) _ (.head _) (by simpa using reached)) level fade).trans (ih _ ?_)
      exact fun t run e mem => reaches t ((s.setLevelOn_run n level fade).trans run) e (.tail _ mem)

end Sys2Proof.Machine

namespace Sys2Proof.Machine

/-! ## Events of axes -/

section
variable (s : State) (a : AxisNo)

theorem State.setAxis_same {s : State} {a : AxisNo} {x : AxisRec}
    (h : x.movingDemand = (s.axis a).movingDemand := by rfl) : SameBooks s (s.setAxis a x) := by
  refine ⟨rfl, rfl, rfl, fun b => ?_⟩
  rw [State.axis_setAxis]
  split
  · rename_i e; rw [e, h]
  · rfl

theorem State.setAxis_kept {s : State} {a : AxisNo} {x : AxisRec}
    (h : x.movingDemand = (s.axis a).movingDemand := by rfl) : Kept s (s.setAxis a x) := (State.setAxis_same h).kept

theorem State.setChannel_same (x : Channel) : SameBooks s (s.setChannel a x) := ⟨rfl, rfl, rfl, fun _ => rfl⟩
theorem State.setAxisIn_same (x : AxisInputs) : SameBooks s (s.setAxisIn a x) := ⟨rfl, rfl, rfl, fun _ => rfl⟩
theorem State.setNotices_same (p : Notices) : SameBooks s { s with notices := p } := ⟨rfl, rfl, rfl, fun _ => rfl⟩
theorem State.setClaims_same (cs : List Claim) : SameBooks s (s.setClaims cs) := ⟨rfl, rfl, rfl, fun _ => rfl⟩

/-! ### Leaving motion -/

/-- An axis out of motion gives back the demand it held (R110). -/
theorem State.releaseDemand_kept {y : AxisRec} (out : y.inMotion = false) : Kept s ((s.setAxis a y).releaseDemand a) := by
  have held : ∀ b, ((s.setAxis a y).releaseDemand a).held b = if b = a then 0 else s.held b := fun b => by
    rw [← State.held_setHeld s a b 0]; rfl
  have total : ((s.setAxis a y).releaseDemand a).totalHeld + s.held a = s.totalHeld + 0 := State.totalHeld_set s a 0 _ rfl
  have committed : ((s.setAxis a y).releaseDemand a).budget.committed = s.budget.committed - s.held a := rfl
  refine ⟨fun h => ⟨h.loads, h.kind, ⟨fun b => ?_, ?_⟩, h.shed⟩, fun _ law clear => ?_,
    fun _ => ⟨id, fun _ _ => le_rfl, fun _ b => ?_⟩⟩
  · have axis : ((s.setAxis a y).releaseDemand a).axis b = if b = a then y else s.axis b := State.axis_setAxis s a b y
    rw [held, axis]
    split
    · rw [AxisRec.movingDemand, out]; rfl
    · exact h.ledger.1 b
  · have draw : ((s.setAxis a y).releaseDemand a).totalDraw = s.totalDraw := State.totalDraw_congr rfl
    have sum := h.ledger.2
    omega
  · have within := law clear
    rw [committed]
    exact (Nat.sub_le _ _).trans within
  · rw [held]; split
    · exact Nat.zero_le _
    · exact le_rfl

theorem State.releaseCourtesy_kept : Kept s (s.releaseCourtesy a) := by
  simp only [State.releaseCourtesy]
  split
  · exact .refl s
  · split
    · exact .refl s
    · rename_i n _ _
      refine .store (.unforced _) (LoadRec.toUnforced_shed _) (fun h => h.targetFits n (LoadRec.toUnforced_setTarget _)) fun h => ?_
      have fall := LoadRec.toUnforced_draw (h.loads n).derived (h.loads n).range
      omega

theorem State.giveBack_kept {y : AxisRec} (out : y.inMotion = false) (exempt : Bool) :
    Kept s ((s.setAxis a y).giveBack a exempt) := by
  have released := (s.releaseDemand_kept a out).trans (State.releaseCourtesy_kept _ a)
  rcases (s.setAxis a y).giveBack_run a exempt with e | e <;> rw [e]
  · exact released
  · exact released.trans (State.answerFall_kept _)

theorem State.endMotion_sameBooks (st : AxisState) : SameBooks s (s.endMotion a st) := by
  simp only [State.endMotion]
  split
  · exact s.setChannel_same a _
  · exact (s.setChannel_same a _).trans State.setAxis_same

theorem State.leaveMotion_kept {y : AxisRec} {st : AxisState} (out : st = .parked ∨ st = .rest ∨ st = .lockout) (exempt : Bool) :
    Kept s ((s.setAxis a y).leaveMotion a st exempt) := by
  simp only [State.leaveMotion, State.axis_setAxis_self, State.setAxis_setAxis]
  exact (s.giveBack_kept a (AxisRec.atRest_inMotion out) exempt).trans (State.endMotion_sameBooks _ a st).kept

theorem State.parkCore_kept (er : EndReason) (exempt : Bool) : Kept s (s.parkCore a er exempt) :=
  s.leaveMotion_kept a (.inl rfl) exempt

theorem State.stopCore_same {s : State} {a : AxisNo} (run : (s.axis a).state = .run) (er : EndReason) :
    SameBooks s (s.stopCore a er) :=
  State.setAxis_same (AxisRec.movingDemand_congr (by simp only [AxisRec.inMotion, AxisRec.toStopping, run]) rfl)

theorem State.blockCore_kept : Kept s (s.blockCore a) := by
  simp only [State.blockCore]
  split
  · exact s.parkCore_kept a _ _
  · rename_i run; exact (State.stopCore_same run _).kept
  · exact .refl s

theorem State.tellInterlocks_kept : Kept s (s.tellInterlocks a) :=
  State.passChange_rel Kept.refl Kept.trans State.blockCore_kept 3 a s

theorem State.park_kept (er : EndReason) (exempt : Bool) : Kept s (s.park a er exempt) :=
  (s.parkCore_kept a er exempt).trans (State.tellInterlocks_kept _ a)

theorem State.stopMotion_kept {s : State} {a : AxisNo} (run : (s.axis a).state = .run) (er : EndReason) :
    Kept s (s.stopMotion a er) :=
  (State.stopCore_same run er).kept.trans (State.tellInterlocks_kept _ a)

/-- A record of an axis in RUN rewritten and the axis then stopped. -/
theorem State.setAxis_stopMotion_kept {s : State} {a : AxisNo} {x : AxisRec} (run : x.state = .run)
    (er : EndReason)
    (h : x.movingDemand = (s.axis a).movingDemand := by rfl) : Kept s ((s.setAxis a x).stopMotion a er) :=
  (State.setAxis_kept h).trans (State.stopMotion_kept (by rw [State.axis_setAxis_self]; exact run) er)

theorem State.abandon_kept : Kept s (s.abandon a) := by
  simp only [State.abandon]
  split
  · exact s.park_kept a _ _
  · exact .refl s

theorem State.axisHalt_kept : Kept s (s.axisHalt a) := by
  simp only [State.axisHalt]
  split
  · exact s.park_kept a _ _
  · exact s.park_kept a _ _
  · rename_i run; exact State.setAxis_stopMotion_kept (by exact run) _
  · exact .refl s

theorem State.claimEnded_kept (er : EndReason) : Kept s (s.claimEnded a er) := by
  have told : ∀ lost : Bool, SameBooks s (if lost then s.raiseMotionLeaseLost else s) := fun lost => by
    cases lost
    · exact .refl s
    · exact s.setNotices_same _
  have axis : ∀ lost : Bool, (if lost then s.raiseMotionLeaseLost else s).axis a = s.axis a := fun lost => by cases lost <;> rfl
  simp only [State.claimEnded]
  split
  · exact (told _).kept.trans (State.park_kept _ a _ _)
  · rename_i run
    exact (told _).kept.trans (State.stopMotion_kept (by rw [axis]; exact run) _)
  · exact ((told _).trans State.setAxis_same).kept
  · exact .refl s

theorem State.noLoadLockout_kept : Kept s (s.noLoadLockout a) :=
  ((s.leaveMotion_kept a (.inr (.inr rfl)) _).trans (State.tellInterlocks_kept _ a)).trans (State.setNotices_same _ _).kept

theorem State.stall_kept : Kept s (s.stall a) := by
  have left : ∀ x st, st = .parked ∨ st = .rest ∨ st = .lockout →
      Kept s ((((s.setAxis a x).leaveMotion a st).tellInterlocks a).raiseAxisFault) := fun x st out =>
    ((s.leaveMotion_kept a out _).trans (State.tellInterlocks_kept _ a)).trans (State.setNotices_same _ _).kept
  simp only [State.stall]
  split
  · exact left _ _ (.inr (.inr rfl))
  · exact left _ _ (.inr (.inl rfl))

/-! ### Runs and ends of runs -/

theorem State.testEnds_kept (home : Bool) : Kept s (s.testEnds a home) := by
  simp only [State.testEnds]
  split
  · rename_i run
    split
    · exact State.stopMotion_kept run _
    · exact .refl s
  · exact .refl s

theorem State.moveTo_kept (position : Nat) : Kept s (s.moveTo a position) := by
  simp only [State.moveTo]
  split
  · exact .refl s
  · exact Kept.trans State.setAxis_kept (State.tellInterlocks_kept _ a)

theorem State.foundHome_kept : Kept s (s.foundHome a) := by
  simp only [State.foundHome]
  split
  · exact State.setAxis_kept
  · exact Kept.trans State.setAxis_kept (State.tellInterlocks_kept _ a)

theorem State.enterRun_kept : Kept s (s.enterRun a) := by
  have ends : ∀ t b, Kept t ((t.testEnds a b).tellInterlocks a) := fun t b =>
    (t.testEnds_kept a b).trans (State.tellInterlocks_kept _ a)
  simp only [State.enterRun]
  split
  · rename_i warn
    have runs : SameBooks s (s.setAxis a (s.axis a).toRun) :=
      State.setAxis_same (AxisRec.movingDemand_congr (by simp only [AxisRec.inMotion, AxisRec.toRun, warn]) rfl)
    split
    · exact (runs.kept.trans (State.foundHome_kept _ a)).trans (ends _ _)
    · exact runs.kept.trans (ends _ _)
  · exact .refl s

theorem State.pulse_kept : Kept s (s.pulse a) := by
  simp only [State.pulse]
  split
  · exact (Kept.trans State.setAxis_kept (State.moveTo_kept _ a _)).trans (State.testEnds_kept _ a _)
  · exact s.moveTo_kept a _

theorem State.homeFound_kept : Kept s (s.homeFound a) :=
  ((s.setAxisIn_same a _).kept.trans (State.foundHome_kept _ a)).trans (State.testEnds_kept _ a _)

theorem State.edgePressed_kept : Kept s (s.edgePressed a) := by
  refine (s.setAxisIn_same a { s.axisIn a with edge := true }).kept.trans ?_
  set t := s.setAxisIn a { s.axisIn a with edge := true }
  show Kept t (match (t.axis a).state with
    | .warn => (t.park a .obstructed).raiseAxisFault
    | .run => (t.quickStop a .obstructed).raiseAxisFault
    | .stopping => if 0 < (t.axis a).speed
        then t.setAxis a { t.axis a with speed := 0, rampTimer := none, brakeTimer := some brakeSettleMs } else t
    | .rest | .parked | .lockout => t)
  split
  · exact (t.park_kept a _ _).trans (State.setNotices_same _ _).kept
  · rename_i run
    exact (State.setAxis_stopMotion_kept (by exact run) _).trans (State.setNotices_same _ _).kept
  · split
    · exact State.setAxis_kept
    · exact .refl t
  all_goals exact .refl t

theorem AxisRec.currentMoved_demand (x : AxisRec) (old new : Nat) : (x.currentMoved old new).movingDemand = x.movingDemand := by
  simp only [AxisRec.currentMoved]
  split_ifs <;> rfl

theorem State.setCurrent_same (v : Nat) : SameBooks s (s.setCurrent a v) :=
  (s.setAxisIn_same a _).trans (State.setAxis_same (AxisRec.currentMoved_demand _ _ _))

/-! ### Requests to an axis -/

theorem State.stopAxis_kept : Kept s (s.stopAxis a) := by
  simp only [State.stopAxis]
  split
  · exact s.park_kept a _ _
  · rename_i run; exact State.stopMotion_kept run _
  · exact State.setAxis_kept
  all_goals exact .refl s

theorem State.clearLockout_kept : Kept s (s.clearLockout a) := by
  simp only [State.clearLockout]
  split
  · rename_i lockout
    have parked : SameBooks s (s.setAxis a
        { s.axis a with state := .parked, stallCount := 0, jam := none, endReason := .cleared }) :=
      State.setAxis_same (AxisRec.movingDemand_congr (by simp only [AxisRec.inMotion, lockout]) rfl)
    exact parked.kept.trans (State.tellInterlocks_kept _ a)
  · exact .refl s

theorem State.blockSubject_kept (e : Interlock) : Kept s (s.blockSubject e) := by
  simp only [State.blockSubject]
  split
  · exact (s.blockCore_kept _).trans (State.tellInterlocks_kept _ _)
  · exact .refl s

/-! ### Expiries of an axis -/

theorem AxisRec.armWatch_demand (x : AxisRec) : x.armWatch.movingDemand = x.movingDemand := by
  simp only [AxisRec.armWatch]
  split <;> rfl

theorem State.ramp_same : SameBooks s (s.ramp a) := by
  rcases s.ramp_cases a with ⟨_, e⟩ | ⟨_, _, e⟩ | ⟨_, _, e⟩ <;> rw [e]
  · exact .refl s
  · exact State.setAxis_same (AxisRec.armWatch_demand _)
  · exact State.setAxis_same rfl

theorem State.brakeSettled_kept : Kept s (s.brakeSettled a) := by
  rcases s.brakeSettled_cases a with ⟨_, e⟩ | ⟨_, e⟩ <;> rw [e]
  · exact .refl s
  · exact s.park_kept a _ _

theorem State.confirmWindow_kept : Kept s (s.confirmWindow a) := by
  rcases s.confirmWindow_cases a with ⟨_, e⟩ | ⟨_, e⟩ <;> rw [e]
  · exact .refl s
  · split
    · exact State.setAxis_kept (by rw [AxisRec.confirmed, AxisRec.armWatch_demand]; rfl)
    · exact s.noLoadLockout_kept a

theorem State.pulseWatchEnd_kept : Kept s (s.pulseWatchEnd a) := by
  rcases s.pulseWatchEnd_cases a with ⟨_, e⟩ | ⟨_, e⟩ <;> rw [e]
  · exact .refl s
  · exact s.stall_kept a

theorem State.overCurrentEnd_kept : Kept s (s.overCurrentEnd a) := by
  rcases s.overCurrentEnd_cases a with ⟨_, e⟩ | ⟨_, e⟩ <;> rw [e]
  · exact .refl s
  · exact s.stall_kept a

theorem State.markEnd_same : SameBooks s (s.markEnd a) := by
  rcases s.markEnd_cases a with ⟨_, e⟩ | ⟨_, e⟩ <;> rw [e]
  · exact .refl s
  · exact s.setChannel_same a _

theorem State.cycleEnd_kept : Kept s (s.cycleEnd a) := by
  rcases s.cycleEnd_cases a with ⟨_, e⟩ | ⟨c, _, _, e⟩ <;> rw [e]
  · exact .refl s
  · dsimp only
    split
    · exact (s.setChannel_same a _).kept.trans (State.enterRun_kept _ a)
    · exact (s.setChannel_same a _).kept

end

end Sys2Proof.Machine

namespace Sys2Proof.Machine

/-! ## What an event upholds -/

/-- What every event does to the laws of loads and budget: they hold after it where they held before, and in deficit before and
after it COMMITTED has not risen (R117). -/
def Upholds (s t : State) : Prop := s.Books → s.BudgetLaw → t.Books ∧ t.BudgetLaw
  ∧ (s.budget.deficit = true → t.budget.deficit = true → t.budget.committed ≤ s.budget.committed)

/-- Kept laws and an unbroken deficit keep COMMITTED from rising (R117). -/
theorem Kept.committed_le {s t : State} (h : Kept s t) (books : s.Books) (deficit : t.budget.deficit = true) :
    t.budget.committed ≤ s.budget.committed :=
  books.ledger.committed_le (h.books books).ledger ((h.noRise books).draws deficit) ((h.noRise books).held deficit)

theorem Kept.upholds {s t : State} (h : Kept s t) : Upholds s t := fun books law =>
  ⟨h.books books, h.budget books law, fun _ deficit => h.committed_le books deficit⟩

theorem Upholds.refl (s : State) : Upholds s s := (Kept.refl s).upholds

theorem Upholds.trans_kept {s t u : State} (h : Upholds s t) (k : Kept t u) : Upholds s u := by
  intro books law
  obtain ⟨books', law', fall⟩ := h books law
  exact ⟨k.books books', k.budget books' law', fun before after =>
    (k.committed_le books' after).trans (fall before ((k.noRise books').deficit after))⟩

theorem SameBooks.trans_upholds {s t u : State} (h : SameBooks s t) (k : Upholds t u) : Upholds s u := by
  intro books law
  have event := k (h.books books) (law.congr h.budget)
  rwa [h.budget] at event

/-! ### The entry to WARN -/

/-- The record of an axis in WARN with a PENDING MOTION (R129). -/
def AxisRec.warned (x : AxisRec) (p : Pending) : AxisRec :=
  { x with pending := some p, state := .warn, speed := 0, restRemaining := none }

theorem State.storeLoad_setAxis (s : State) (a : AxisNo) (x : AxisRec) (n : LoadNo) (l : LoadRec) :
    (s.setAxis a x).storeLoad n l = (s.storeLoad n l).setAxis a x := by
  have level : (s.setAxis a x).load n = s.load n := rfl
  have staged : ((s.setAxis a x).setLoad n l).stageDuty n = ((s.setLoad n l).stageDuty n).setAxis a x := by
    rw [State.stageDuty_setLoad, State.stageDuty_setLoad]
    show (if s.settle = none then _ else _) = _
    split <;> rfl
  simp only [State.storeLoad, level, staged]
  split <;> rfl

/-- The entry to WARN in another order: the axis record is written before the courtesy load is forced (R129). -/
theorem State.enterWarn_eq (s : State) (a : AxisNo) (p : Pending) :
    ∃ ch, s.enterWarn a p
      = (((s.setAxis a ((s.axis a).warned p)).forceCourtesy a).setChannel a ch).tellInterlocks a := by
  have forced : ∀ x y : AxisRec, x.courtesy = y.courtesy →
      ((s.setAxis a x).forceCourtesy a).setAxis a y = (s.setAxis a y).forceCourtesy a := fun x y same => by
    simp only [State.forceCourtesy, State.axis_setAxis_self, same]
    split
    · exact State.setAxis_setAxis s a x y
    · rw [State.storeLoad_setAxis, State.storeLoad_setAxis, State.setAxis_setAxis]; rfl
  have axis : (((s.setAxis a { s.axis a with pending := some p }).forceCourtesy a).axis a)
      = { s.axis a with pending := some p } := by
    rw [State.axis_congr (State.forceCourtesy_run _ a).only.axes, State.axis_setAxis_self]
  simp only [State.enterWarn, axis]
  exact ⟨_, congrArg (fun x : State => (x.setChannel a (x.channel a).start).tellInterlocks a)
    (forced _ ((s.axis a).warned p) rfl)⟩

/-- A force raises the counted draw by the courtesy increment at most (R107). -/
theorem State.forceCourtesy_kept {s : State} {a : AxisNo}
    (room : s.courtesyIncrement (s.axis a).courtesy ≤ s.headroom) : Kept s (s.forceCourtesy a) := by
  simp only [State.forceCourtesy]
  split
  · exact .refl s
  · rename_i n courtesy
    refine .store (.forced _) (LoadRec.toForced_shed _) (fun h => h.targetFits n (LoadRec.toForced_setTarget _)) fun _ => ?_
    simp only [courtesy, State.courtesyIncrement] at room
    rw [LoadRec.toForced]
    split
    · exact Nat.le_add_right _ _
    · rename_i lit
      rw [if_neg (or_comm.not.1 lit)] at room
      show (s.load n).drawAt (max 1000 1000) ≤ _
      rw [Nat.max_self]
      omega

/-- An axis that enters motion takes its demand on (R99, R110). -/
theorem State.Books.addDemand {s : State} (h : s.Books) {a : AxisNo} {y : AxisRec} (out : (s.axis a).inMotion = false)
    (moving : y.inMotion = true) (demand : y.demand = (s.axis a).demand) : ((s.addDemand a).setAxis a y).Books := by
  have idle : s.held a = 0 := by rw [h.ledger.1, AxisRec.movingDemand, out]; rfl
  have held : ∀ b, ((s.addDemand a).setAxis a y).held b = if b = a then s.held a + (s.axis a).demand else s.held b := fun b => by
    rw [← State.held_setHeld s a b]; rfl
  have total : ((s.addDemand a).setAxis a y).totalHeld + s.held a = s.totalHeld + (s.held a + (s.axis a).demand) :=
    State.totalHeld_set s a _ _ rfl
  have draw : ((s.addDemand a).setAxis a y).totalDraw = s.totalDraw := State.totalDraw_congr rfl
  refine ⟨h.loads, h.kind, ⟨fun b => ?_, ?_⟩, h.shed⟩
  · have axis : ((s.addDemand a).setAxis a y).axis b = if b = a then y else s.axis b := State.axis_setAxis s a b y
    rw [held, axis]
    split
    · rw [AxisRec.movingDemand, moving, idle, demand, if_pos rfl, Nat.zero_add]
    · exact h.ledger.1 b
  · have committed : ((s.addDemand a).setAxis a y).budget.committed = s.budget.committed + (s.axis a).demand := rfl
    have sum := h.ledger.2
    omega

theorem State.addDemand_kindLaw {s : State} (h : s.KindLaw) (a : AxisNo) : (s.addDemand a).KindLaw := h

/-- A grant leaves every load as its kind asks (R108). -/
theorem State.grant_kindLaw {s t : State} {a : AxisNo} (grant : s.grant a = some t) (h : s.Books) : t.KindLaw := by
  simp only [State.grant] at grant
  split at grant
  · split at grant
    · cases grant; exact State.addDemand_kindLaw h.kind a
    · cases grant
  · split at grant
    · cases grant; exact State.addDemand_kindLaw h.kind a
    · split at grant
      · cases grant
      · cases grant; exact State.addDemand_kindLaw ((State.shedAlong_kept _ _ s).books h).kind a

/-- A granted motion takes on no more than the grant made room for (R107 to R110). -/
theorem State.enterWarn_upholds {s t : State} {a : AxisNo} (grant : s.grant a = some t) (out : (s.axis a).inMotion = false)
    (p : Pending) : Upholds s (t.enterWarn a p) := by
  intro books law
  obtain ⟨u, run, rfl, axes, deficit, courtesy, inDeficit, clear⟩ := State.grant_spec grant
  obtain ⟨ch, e⟩ := (u.addDemand a).enterWarn_eq a p
  have axis : u.axis a = s.axis a := State.axis_congr axes a
  set v := (u.addDemand a).setAxis a (((u.addDemand a).axis a).warned p) with hv
  have kind : (u.addDemand a).KindLaw := State.grant_kindLaw grant books
  have books' : u.Books :=
    ⟨run.sound books.loads, kind, run.ledger books.ledger, run.shedLaw books.shed⟩
  have taken : v.Books := books'.addDemand (by rw [axis]; exact out) rfl rfl
  have committed : v.budget.committed = u.budget.committed + (s.axis a).demand := by rw [← axis]; rfl
  have available : v.budget.available = u.budget.available := rfl
  have deficit' : v.budget.deficit = s.budget.deficit := deficit
  have increment : v.courtesyIncrement (v.axis a).courtesy = s.courtesyIncrement (s.axis a).courtesy := by
    have same : (v.axis a).courtesy = (s.axis a).courtesy := by rw [hv, State.axis_setAxis_self, ← axis]; rfl
    rw [same]
    cases named : (s.axis a).courtesy with
    | none => rfl
    | some n =>
      have load : v.load n = s.load n := courtesy n named
      simp only [State.courtesyIncrement, load]
  have need : s.motionNeed a = (s.axis a).demand + s.courtesyIncrement (s.axis a).courtesy := rfl
  -- HEADROOM covers the courtesy increment, the demand being counted already
  have room : v.BudgetLaw ∧ v.courtesyIncrement (v.axis a).courtesy ≤ v.headroom := by
    rw [increment]
    by_cases d : s.budget.deficit = true
    · obtain ⟨-, free⟩ := inDeficit d
      exact ⟨fun c => absurd (deficit'.symm.trans c) (by rw [d]; decide), by omega⟩
    · rw [Bool.not_eq_true] at d
      obtain ⟨fits, within⟩ := clear d books.loads _ books.ledger.owes law
      have left := State.headroom_add (deficit.trans d) within
      have law' : v.BudgetLaw := fun _ => by omega
      have left' := State.headroom_add (deficit'.trans d) (law' (deficit'.trans d))
      exact ⟨law', by omega⟩
  have after : Kept v ((u.addDemand a).enterWarn a p) := by
    rw [e]
    exact ((State.forceCourtesy_kept room.2).trans (State.setChannel_same _ a ch).kept).trans (State.tellInterlocks_kept _ a)
  refine ⟨after.books taken, after.budget taken room.1, fun before still => (after.committed_le taken still).trans ?_⟩
  obtain ⟨rfl, free⟩ := inDeficit before
  omega

theorem State.startMove_upholds {s : State} {a : AxisNo} (parked : (s.axis a).state = .parked) (o : Origin) (d : Direction)
    (position : Nat) : Upholds s (s.startMove o a d position).2 := by
  simp only [State.startMove]
  split
  · exact .refl s
  split
  · exact .refl s
  split
  · exact .refl s
  · rename_i grant
    have out : (s.axis a).inMotion = false := by rw [AxisRec.inMotion, parked]
    dsimp only
    exact State.enterWarn_upholds grant out _

theorem State.retryTests_grant {s t : State} {a : AxisNo} {p : Pending} (h : s.retryTests a = .retry t p) :
    s.grant a = some t := by
  simp only [State.retryTests] at h
  repeat' split at h
  all_goals cases h
  assumption

theorem State.restOver_upholds {s : State} {a : AxisNo} (rest : (s.axis a).state = .rest) : Upholds s (s.restOver a) := by
  have rested : SameBooks s (s.setAxis a { s.axis a with restRemaining := none }) := State.setAxis_same
  simp only [State.restOver]
  split
  · rename_i retry
    refine rested.trans_upholds (State.enterWarn_upholds (State.retryTests_grant retry) ?_ _)
    rw [State.axis_setAxis_self, AxisRec.inMotion, rest]
  · exact (rested.kept.trans (State.park_kept _ a _ _)).upholds
  · split
    · exact ((rested.kept.trans (State.park_kept _ a _ _)).trans (State.setNotices_same _ _).kept).upholds
    · exact (rested.kept.trans (State.park_kept _ a _ _)).upholds

theorem State.restEnd_upholds (s : State) (a : AxisNo) : Upholds s (s.restEnd a) := by
  rcases s.restEnd_cases a with ⟨_, e⟩ | ⟨⟨_, rest⟩, e⟩ <;> rw [e]
  · exact .refl s
  · exact State.restOver_upholds rest

end Sys2Proof.Machine

namespace Sys2Proof.Machine

/-! ## The record a WRITE_LOAD leaves -/

/-! ### Case by case (R47, R48, R50) -/

section
variable {l w : LoadRec} {c : LoadConfig}

/-- A load made NONE goes dark and leaves the shed list (R48). -/
theorem LoadRec.reconfigure_to_none (kind : l.kind ≠ .none) (empty : c.kind = .none) : l.reconfigure c
    = ({ l with toLoadConfig := c, setTarget := 0, level := 0, fade := none, shed := false } : LoadRec).retarget := by
  simp only [LoadRec.reconfigure, empty]
  cases h : l.kind
  · exact absurd h kind
  · rfl
  · rfl

/-- A DIM load made a SWITCH load is switched to 0 or full (R48). -/
theorem LoadRec.reconfigure_to_switch (dim : l.kind = .dim) (switch : c.kind = .switch) : l.reconfigure c
    = (({ l with toLoadConfig := c, fade := none, setTarget := if 0 < l.setTarget then 1000 else 0 } : LoadRec).retarget).followSwitch := by
  simp only [LoadRec.reconfigure, dim, switch]

/-- Any other change of KIND, and none, keeps the live fields (R48). -/
theorem LoadRec.reconfigure_other (other : c.kind = l.kind ∨ c.kind = .dim ∨ l.kind = .none) :
    l.reconfigure c = ({ l with toLoadConfig := c } : LoadRec).retarget := by
  cases hl : l.kind <;> cases hc : c.kind <;> simp_all [LoadRec.reconfigure]

/-- A load that is not shed, or whose shedding fields stand, is as it was configured (R50). -/
theorem LoadRec.reshed_same (same : w.shed = false ∨ w.shedRank = l.shedRank ∧ w.shedLevel = l.shedLevel) :
    LoadRec.reshed l w = w := by
  refine if_neg ?_
  rintro ⟨shed, changed⟩
  rcases same with free | ⟨rank, level⟩
  · rw [free] at shed; cases shed
  · exact changed.elim (absurd rank) (absurd level)

section
variable (shed : w.shed = true) (changed : w.shedRank ≠ l.shedRank ∨ w.shedLevel ≠ l.shedLevel)
include shed changed

/-- A shed load given SHED RANK 0 is restored (R50). -/
theorem LoadRec.reshed_restored (rank : w.shedRank = 0) :
    LoadRec.reshed l w = (({ w with shed := false } : LoadRec).retarget.startFade restoreSteps).followSwitch := by
  rw [LoadRec.reshed, if_pos ⟨shed, changed⟩, if_pos rank]

/-- A shed load whose effective target falls follows it as at a shed (R50, R56). -/
theorem LoadRec.reshed_lower (rank : w.shedRank ≠ 0) (lower : w.effTarget < l.effTarget) :
    LoadRec.reshed l w = w.dropToTarget l.effTarget := by
  rw [LoadRec.reshed, if_pos ⟨shed, changed⟩, if_neg rank, if_pos lower]

/-- A shed load whose effective target rises fades to it, or is switched (R50, R69). -/
theorem LoadRec.reshed_higher (rank : w.shedRank ≠ 0) (higher : l.effTarget < w.effTarget) :
    LoadRec.reshed l w = (w.startFade restoreSteps).followSwitch := by
  rw [LoadRec.reshed, if_pos ⟨shed, changed⟩, if_neg rank, if_neg higher.not_gt, if_pos higher]

/-- A shed load whose effective target stands is left as it is (R50). -/
theorem LoadRec.reshed_level (rank : w.shedRank ≠ 0) (level : w.effTarget = l.effTarget) : LoadRec.reshed l w = w := by
  rw [LoadRec.reshed, if_pos ⟨shed, changed⟩, if_neg rank, if_neg level.not_lt, if_neg level.not_gt]

end
end

/-! ### What every case keeps -/

/-- The laws of an unforced load record, but for those that look at its level and its fade together. -/
structure LoadRec.Framed (w : LoadRec) : Prop where
  target : w.effTarget = w.effectiveTarget
  range : w.InRange
  free : w.forced = false
  placed : w.FadePlaced
  fits : w.TargetFits w.setTarget
  dark : w.kind = .none → w.level = 0

/-- The laws of an unforced load record, but for COUNTED DRAW. -/
structure LoadRec.Settled (w : LoadRec) : Prop extends LoadRec.Framed w where
  fades : w.FadeSound
  follows : w.kind = .switch → w.level = w.effTarget

theorem LoadRec.Settled.sound {w : LoadRec} (h : w.Settled) : w.recount.Sound where
  derived := LoadRec.derived_recount h.target
  fades := LoadRec.recount_sound h.fades
  range := h.range
  full forced := by rw [w.recount_forced, h.free] at forced; cases forced

theorem LoadRec.Settled.kindSound {w : LoadRec} (h : w.Settled) (dark : Prop) : w.recount.KindSound dark :=
  ⟨fun switch => ⟨h.fits.1 switch, .inl (h.follows switch)⟩, fun empty => ⟨h.fits.2 empty, h.dark empty⟩⟩

/-- A record with another level and fade, and all else as it was, is settled where these two are. -/
theorem LoadRec.Framed.settled {w u : LoadRec} (h : w.Framed) (config : u.toLoadConfig = w.toLoadConfig)
    (target : u.setTarget = w.setTarget) (eff : u.effTarget = w.effTarget) (shed : u.shed = w.shed)
    (forced : u.forced = w.forced) (level : u.level = w.level ∨ u.level = w.effTarget) (fades : u.FadeSound)
    (follows : u.kind = .switch → u.level = u.effTarget) : u.Settled := by
  have kind : u.kind = w.kind := by rw [config]
  have limit : u.shedLevel = w.shedLevel := by rw [config]
  have off : w.kind = .none → w.effTarget = 0 := fun empty => by rw [h.target]; simp only [LoadRec.effectiveTarget, empty]
  obtain ⟨range1, range2, range3, range4⟩ := h.range
  refine ⟨⟨?_, ⟨?_, ?_, ?_, ?_⟩, by rw [forced, h.free], fades.placed, ?_, fun empty => ?_⟩, fades, follows⟩
  · rw [eff, h.target, LoadRec.effectiveTarget_congr config target shed forced]
  · omega
  · omega
  · omega
  · omega
  · rw [target, LoadRec.TargetFits, kind]; exact h.fits
  · rw [kind] at empty
    have dark := h.dark empty
    have zero := off empty
    omega

/-- Where the effective target of a framed record has fallen below `old`, its level follows (R56). -/
theorem LoadRec.Framed.drop {w : LoadRec} (h : w.Framed) {old : Nat} (lower : w.effTarget < old ∨ w.FadeSound) :
    (w.dropToTarget old).Settled :=
  h.settled (w.dropToTarget_config old) (w.dropToTarget_setTarget old) (w.dropToTarget_effTarget old)
    (w.dropToTarget_shed old) (w.dropToTarget_forced old) (w.dropToTarget_level old)
    (LoadRec.dropToTarget_sound old h.placed fun stays => lower.resolve_left stays)
    fun switch => by
      rw [w.dropToTarget_config] at switch
      rw [LoadRec.dropToTarget_of_switch switch, LoadRec.followSwitch_of_switch switch]

/-- A fade, or a switch, to the effective target (R53, R62). -/
theorem LoadRec.Framed.fade {w : LoadRec} (h : w.Framed) (k : Nat) : (w.startFade k).followSwitch.Settled := by
  have level : (w.startFade k).followSwitch.level = w.level ∨ (w.startFade k).followSwitch.level = w.effTarget := by
    have follow := (w.startFade k).followSwitch_level
    have start := w.startFade_level k
    rw [w.startFade_effTarget] at follow
    omega
  refine h.settled (by simp) (by simp) (by simp) (by simp) (by simp) level
    (LoadRec.followSwitch_sound (LoadRec.startFade_sound k h.placed)) fun switch => ?_
  have switch' : (w.startFade k).kind = .switch := by simpa using switch
  rw [LoadRec.followSwitch_of_switch switch']

/-- A restore of a framed record leaves a framed one, before its fade (R57). -/
theorem LoadRec.Framed.unshed {w : LoadRec} (h : w.Framed) : ({ w with shed := false } : LoadRec).retarget.Framed := by
  obtain ⟨range1, range2, -, range4⟩ := h.range
  exact ⟨rfl, ⟨range1, range2, LoadRec.effectiveTarget_le range2, range4⟩, h.free, h.placed, h.fits, h.dark⟩

/-- What R48 asks of the record before the write. -/
structure LoadRec.Writable (l : LoadRec) (c : LoadConfig) : Prop where
  sound : l.Sound
  kind : l.KindSound False
  free : l.forced = false
  unshed : l.shed = true → l.kind ≠ .none
  level : c.shedLevel ≤ 1000

/-- A load that keeps its KIND and is not shed otherwise keeps its effective target (R42). -/
theorem LoadRec.effectiveTarget_reconfigured {l : LoadRec} {c : LoadConfig} (kind : c.kind = l.kind)
    (same : l.shed = false ∨ c.shedLevel = l.shedLevel) :
    ({ l with toLoadConfig := c } : LoadRec).effectiveTarget = l.effectiveTarget := by
  rcases same with free | level
  · simp only [LoadRec.effectiveTarget, kind, free, Bool.false_eq_true, if_false]
  · simp only [LoadRec.effectiveTarget, kind, level]

/-- The configured record, before R50: settled where its effective target stands or R50 has nothing to do (R48). -/
theorem LoadRec.Writable.reconfigured {l : LoadRec} {c : LoadConfig} (h : l.Writable c) :
    (l.reconfigure c).Framed
      ∧ ((l.reconfigure c).shed = false ∨ c.shedRank = l.shedRank ∧ c.shedLevel = l.shedLevel
          ∨ (l.reconfigure c).effTarget = l.effTarget → (l.reconfigure c).Settled) := by
  obtain ⟨range1, range2, -, -⟩ := h.sound.range
  by_cases darkened : l.kind ≠ .none ∧ c.kind = .none
  · obtain ⟨kind, empty⟩ := darkened
    rw [LoadRec.reconfigure_to_none kind empty]
    have framed : ({ l with toLoadConfig := c, setTarget := 0, level := 0, fade := none, shed := false } : LoadRec).retarget.Framed :=
      ⟨rfl, ⟨Nat.zero_le _, Nat.zero_le _, LoadRec.effectiveTarget_le (Nat.zero_le _), h.level⟩, h.free, nofun,
       ⟨fun _ => .inl rfl, fun _ => rfl⟩, fun _ => rfl⟩
    refine ⟨framed, fun _ => ⟨framed, LoadRec.fadeSound_none rfl, fun switch => ?_⟩⟩
    exact absurd (empty.symm.trans switch) (by decide)
  by_cases switched : l.kind = .dim ∧ c.kind = .switch
  · obtain ⟨dim, switch⟩ := switched
    rw [LoadRec.reconfigure_to_switch dim switch]
    set w : LoadRec := { l with toLoadConfig := c, fade := none, setTarget := if 0 < l.setTarget then 1000 else 0 }
    have target : w.setTarget = 0 ∨ w.setTarget = 1000 := by
      show (if 0 < l.setTarget then 1000 else 0) = 0 ∨ (if 0 < l.setTarget then 1000 else 0) = 1000
      split <;> simp
    have framed : w.retarget.Framed :=
      ⟨rfl, ⟨range1, by show w.setTarget ≤ 1000; omega, LoadRec.effectiveTarget_le (by omega), h.level⟩, h.free, nofun,
       ⟨fun _ => target, fun empty => absurd (empty.symm.trans switch) (by decide)⟩,
       fun empty => absurd (empty.symm.trans switch) (by decide)⟩
    have settled : w.retarget.followSwitch.Settled := by
      have fade := framed.fade 0
      rwa [LoadRec.startFade_of_other (by rw [w.retarget_config, switch]; decide)] at fade
    exact ⟨settled.toFramed, fun _ => settled⟩
  · have other : c.kind = l.kind ∨ c.kind = .dim ∨ l.kind = .none := by
      cases hl : l.kind <;> cases hc : c.kind <;> simp_all
    rw [LoadRec.reconfigure_other other]
    set w : LoadRec := { l with toLoadConfig := c }
    -- a load that was NONE is dark with SET TARGET 0, so its new effective target is 0 too
    have unlit : l.kind = .none → w.level = 0 ∧ w.effectiveTarget = 0 := fun empty => by
      obtain ⟨target, level⟩ := h.kind.2 empty
      refine ⟨level, ?_⟩
      have unshed : w.shed = false := Bool.not_eq_true _ ▸ fun shed => h.unshed shed empty
      have free : w.forced = false := h.free
      have zero : w.setTarget = 0 := target
      simp only [LoadRec.effectiveTarget, unshed, free, zero, Bool.false_eq_true, if_false]
      split <;> rfl
    have dims : ∀ f, l.fade = some f → c.kind = .dim := fun f fading => by
      have dim := (h.sound.fades f fading).1
      rcases other with kind | kind | kind
      · rw [kind, dim]
      · exact kind
      · rw [dim] at kind; cases kind
    have framed : w.retarget.Framed := by
      refine ⟨rfl, ⟨range1, range2, LoadRec.effectiveTarget_le range2, h.level⟩, h.free,
        fun f fading => ⟨dims f fading, h.free⟩, ⟨fun switch => ?_, fun empty => ?_⟩, fun empty => ?_⟩
      · rcases other with kind | kind | kind
        · exact (h.kind.1 (kind.symm.trans switch)).1
        · exact absurd (kind.symm.trans switch) (by decide)
        · exact .inl (h.kind.2 kind).1
      · rcases other with kind | kind | kind
        · exact (h.kind.2 (kind.symm.trans empty)).1
        · exact absurd (kind.symm.trans empty) (by decide)
        · exact (h.kind.2 kind).1
      · rcases other with kind | kind | kind
        · exact (h.kind.2 (kind.symm.trans empty)).2
        · exact absurd (kind.symm.trans empty) (by decide)
        · exact (h.kind.2 kind).2
    refine ⟨framed, fun stands => ⟨framed, ?_, fun switch => ?_⟩⟩
    all_goals
      have still : c.kind = l.kind → w.effectiveTarget = l.effTarget := fun kind => by
        rcases stands with free | ⟨-, level⟩ | eff
        · rw [LoadRec.effectiveTarget_reconfigured kind (.inl free), h.sound.derived.1]
        · rw [LoadRec.effectiveTarget_reconfigured kind (.inr level), h.sound.derived.1]
        · exact eff
    · intro f fading
      have dim := (h.sound.fades f fading).1
      exact (h.sound.fades.congr (l' := w.retarget) ((dims f fading).trans dim.symm) rfl rfl rfl
        (still ((dims f fading).trans dim.symm))) f fading
    · rcases other with kind | kind | kind
      · have level := (h.kind.1 (kind.symm.trans switch)).2
        show l.level = w.effectiveTarget
        rw [still kind]
        exact level.resolve_right fun x => x.2
      · exact absurd (kind.symm.trans switch) (by decide)
      · obtain ⟨level, eff⟩ := unlit kind
        exact level.trans eff.symm

theorem LoadRec.reconfigure_config (l : LoadRec) (c : LoadConfig) : (l.reconfigure c).toLoadConfig = c := by
  unfold LoadRec.reconfigure
  extract_lets w
  split <;> simp [w]

/-- R50 leaves a settled record. -/
theorem LoadRec.Writable.reshed {l : LoadRec} {c : LoadConfig} (h : l.Writable c) :
    (LoadRec.reshed l (l.reconfigure c)).Settled := by
  obtain ⟨framed, settled⟩ := h.reconfigured
  have config := l.reconfigure_config c
  set w := l.reconfigure c
  have rank : w.shedRank = c.shedRank := by rw [config]
  have level : w.shedLevel = c.shedLevel := by rw [config]
  by_cases same : w.shed = false ∨ w.shedRank = l.shedRank ∧ w.shedLevel = l.shedLevel
  · rw [LoadRec.reshed_same same]
    rw [rank, level] at same
    exact settled (same.imp_right .inl)
  · have shed : w.shed = true := by simpa using fun free => same (.inl free)
    have changed : w.shedRank ≠ l.shedRank ∨ w.shedLevel ≠ l.shedLevel := by tauto
    by_cases zero : w.shedRank = 0
    · rw [LoadRec.reshed_restored shed changed zero]
      exact framed.unshed.fade _
    · rcases lt_trichotomy w.effTarget l.effTarget with lower | stands | higher
      · rw [LoadRec.reshed_lower shed changed zero lower]
        exact framed.drop (.inl lower)
      · rw [LoadRec.reshed_level shed changed zero stands]
        exact settled (.inr (.inr stands))
      · rw [LoadRec.reshed_higher shed changed zero higher]
        exact framed.fade _

/-- A load is still shed after a write only where it was, has a kind, and may be shed (R48, R50, R103). -/
theorem LoadRec.rewritten_shed {l : LoadRec} {c : LoadConfig} (sheds : l.shed = true → l.kind ≠ .none ∧ 1 ≤ l.shedRank)
    (shed : (l.rewritten c).shed = true) : l.shed = true ∧ c.kind ≠ .none ∧ 1 ≤ c.shedRank := by
  have config := l.reconfigure_config c
  have before : (l.reconfigure c).shed = true → l.shed = true ∧ c.kind ≠ .none := fun h => by
    by_cases darkened : l.kind ≠ .none ∧ c.kind = .none
    · rw [LoadRec.reconfigure_to_none darkened.1 darkened.2] at h; cases h
    · have had : l.shed = true := by
        unfold LoadRec.reconfigure at h
        extract_lets w at h
        split at h
        · cases h
        · cases h
        · simpa [w] using h
        · exact h
      exact ⟨had, fun empty => darkened ⟨(sheds had).1, empty⟩⟩
  rw [LoadRec.rewritten, LoadRec.recount_shed] at shed
  set w := l.reconfigure c
  have rank : w.shedRank = c.shedRank := by rw [config]
  by_cases free : w.shed = false
  · rw [LoadRec.reshed_same (.inl free), free] at shed; cases shed
  · rw [Bool.not_eq_false] at free
    obtain ⟨had, kind⟩ := before free
    refine ⟨had, kind, ?_⟩
    by_contra zero
    have zero' : w.shedRank = 0 := by omega
    have changed : w.shedRank ≠ l.shedRank := by have := (sheds had).2; omega
    rw [LoadRec.reshed_restored free (.inl changed) zero'] at shed
    simp at shed

/-! ## The trim in deficit (R118) -/

theorem LoadRec.trim_shed (l : LoadRec) (c : Nat) : (l.trim c).shed = l.shed := by
  simp only [LoadRec.trim]
  split
  · rfl
  · simp only [LoadRec.recount_shed]; split <;> simp
  · split <;> simp

/-- The DIM load before its level follows: SET TARGET is cut to what the draw c allows (R118). -/
def LoadRec.cutTo (l : LoadRec) (c : Nat) : LoadRec :=
  ({ l with setTarget := min l.setTarget (c * 1000 / l.ratedPower) } : LoadRec).retarget

theorem LoadRec.trim_dim {l : LoadRec} (dim : l.kind = .dim) (c : Nat) : l.trim c
    = (if (l.cutTo c).effTarget < (l.cutTo c).level then { l.cutTo c with level := (l.cutTo c).effTarget, fade := none }
      else (l.cutTo c).dropToTarget l.effTarget).recount := by
  simp only [LoadRec.trim, dim]; rfl

theorem LoadRec.trim_switch {l : LoadRec} (switch : l.kind = .switch) (c : Nat) : l.trim c
    = if c < l.ratedPower then (({ l with setTarget := 0 } : LoadRec).retarget.followSwitch).recount else l := by
  simp only [LoadRec.trim, switch]

theorem LoadRec.trim_none {l : LoadRec} (empty : l.kind = .none) (c : Nat) : l.trim c = l := by
  simp only [LoadRec.trim, empty]

/-- The trimmed DIM load, before its draw is counted, is settled and stands no higher than its new SET TARGET. -/
theorem LoadRec.trim_dim_settled {l : LoadRec} (sound : l.Sound) (free : l.forced = false) (dim : l.kind = .dim) (c : Nat) :
    ∃ w : LoadRec, l.trim c = w.recount ∧ w.Settled ∧ w.toLoadConfig = l.toLoadConfig
      ∧ max w.level w.effTarget ≤ c * 1000 / l.ratedPower := by
  obtain ⟨range1, range2, range3, range4⟩ := sound.range
  set w := l.cutTo c with hw
  have target : w.setTarget = min l.setTarget (c * 1000 / l.ratedPower) := rfl
  have fits : w.TargetFits w.setTarget := ⟨fun switch => absurd (dim.symm.trans switch) (by decide),
    fun empty => absurd (dim.symm.trans empty) (by decide)⟩
  have framed : w.Framed := ⟨rfl, ⟨range1, by omega, LoadRec.effectiveTarget_le ((Nat.min_le_left _ _).trans range2), range4⟩, free,
    sound.fades.placed, fits, fun empty => absurd (dim.symm.trans empty) (by decide)⟩
  have eff : w.effTarget ≤ c * 1000 / l.ratedPower := by
    have le := LoadRec.effectiveTarget_le_setTarget w free dim
    rw [framed.target]
    omega
  have lower : w.effTarget ≤ l.effTarget := by
    rw [sound.derived.1]
    exact LoadRec.effectiveTarget_mono l (Nat.min_le_left _ _) range2
  refine ⟨_, LoadRec.trim_dim dim c, ?_⟩
  rw [← hw]
  split
  · refine ⟨framed.settled rfl rfl rfl rfl rfl (.inr rfl) (LoadRec.fadeSound_none rfl) fun _ => rfl, rfl, ?_⟩
    rw [Nat.max_self]
    exact eff
  · rename_i below
    refine ⟨framed.drop ?_, w.dropToTarget_config _, ?_⟩
    · rcases Nat.lt_or_eq_of_le lower with less | same
      · exact .inl less
      · exact .inr (sound.fades.congr rfl rfl rfl rfl same)
    · have level := w.dropToTarget_level l.effTarget
      rw [w.dropToTarget_effTarget]
      omega

/-- A trim keeps the record lawful. -/
theorem LoadRec.trim_lawful {l : LoadRec} {dark : Prop} (sound : l.Sound) (kind : l.KindSound dark) (free : l.forced = false)
    (c : Nat) : (l.trim c).Sound ∧ (l.trim c).KindSound dark := by
  cases k : l.kind with
  | none => rw [LoadRec.trim_none k]; exact ⟨sound, kind⟩
  | dim =>
    obtain ⟨w, e, settled, -, -⟩ := LoadRec.trim_dim_settled sound free k c
    rw [e]
    exact ⟨settled.sound, settled.kindSound dark⟩
  | switch =>
    rw [LoadRec.trim_switch k]
    split
    · obtain ⟨range1, -, -, range4⟩ := sound.range
      set w : LoadRec := ({ l with setTarget := 0 } : LoadRec).retarget
      have framed : w.Framed := ⟨rfl, ⟨range1, Nat.zero_le _, LoadRec.effectiveTarget_le (Nat.zero_le _), range4⟩, free,
        sound.fades.placed, ⟨fun _ => .inl rfl, fun _ => rfl⟩, fun empty => absurd (k.symm.trans empty) (by decide)⟩
      have settled : w.followSwitch.Settled := by
        have fade := framed.fade 0
        rwa [LoadRec.startFade_of_other (by rw [show w.kind = .switch from k]; decide)] at fade
      exact ⟨settled.sound, settled.kindSound dark⟩
    · exact ⟨sound, kind⟩

/-- A trimmed load counts no more than the draw it is trimmed to (R118). -/
theorem LoadRec.trim_draw {l : LoadRec} (sound : l.Sound) (free : l.forced = false) (c : Nat) :
    (l.trim c).countedDraw ≤ c := by
  cases k : l.kind with
  | none =>
    rw [LoadRec.trim_none k, sound.derived.2]
    simp only [LoadRec.drawAt, k, Nat.zero_le]
  | dim =>
    obtain ⟨w, e, -, config, most⟩ := LoadRec.trim_dim_settled sound free k c
    rw [e, w.recount_countedDraw, LoadRec.drawAt_congr config]
    simp only [LoadRec.drawAt, k]
    have bound : l.ratedPower * max w.level w.effTarget ≤ c * 1000 :=
      (Nat.mul_le_mul_left _ most).trans (Nat.mul_div_le _ _)
    omega
  | switch =>
    rw [LoadRec.trim_switch k]
    split
    · set w : LoadRec := ({ l with setTarget := 0 } : LoadRec).retarget
      have dark : w.effTarget = 0 := by
        show w.effectiveTarget = 0
        have switch : w.kind = .switch := k
        have unforced : w.forced = false := free
        have zero : w.setTarget = 0 := rfl
        simp only [LoadRec.effectiveTarget, switch, unforced, zero, Nat.zero_min]
        simp
      rw [LoadRec.followSwitch_of_switch (show w.kind = .switch from k)]
      show w.drawAt (max w.effTarget w.effTarget) ≤ c
      rw [dark, LoadRec.drawAt]
      simp only [show w.kind = .switch from k]
      exact Nat.zero_le c
    · rename_i fits
      rw [sound.derived.2]
      simp only [LoadRec.drawAt, k]
      split <;> omega

end Sys2Proof.Machine

namespace Sys2Proof.Machine

/-! ## The reduction procedure (R114 to R116, R118) -/

/-- The ledger does not look at AVAILABLE and DEFICIT. -/
theorem State.Books.rebudget {s : State} (h : s.Books) {b : Budget} (committed : b.committed = s.budget.committed)
    (held : b.heldDemand = s.budget.heldDemand) (list : b.shedList = s.budget.shedList) : ({ s with budget := b } : State).Books := by
  have owed : ∀ a, ({ s with budget := b } : State).held a = s.held a := fun a => by simp only [State.held, held]
  refine ⟨h.loads, h.kind, ⟨fun a => (owed a).trans (h.ledger.1 a), ?_⟩, ?_⟩
  · show b.committed = s.totalDraw + _
    rw [committed, State.totalHeld_congr (s := s) held]
    exact h.ledger.2
  · show b.shedList.Nodup ∧ _
    rw [list]
    exact h.shed

theorem State.Books.setDeficit {s : State} (h : s.Books) (d : Bool) : (s.setDeficit d).Books := h.rebudget rfl rfl rfl

theorem State.withinBudget_iff {s : State} : s.withinBudget = true ↔ s.budget.committed ≤ s.budget.available :=
  decide_eq_true_iff

theorem State.reduceTwoSteps_kept (s : State) : Kept s s.reduceTwoSteps := by
  have one : Kept s s.reduceLoads := State.shedAlong_kept _ _ s
  have two : Kept s s.reduceLoads.abandonWarned := one.trans (Kept.foldl State.abandon_kept _ _)
  simp only [State.reduceTwoSteps]
  split
  · rename_i within
    exact one.trans (State.clearDeficit_kept (State.withinBudget_iff.1 within))
  · split
    · rename_i within
      exact (two.trans (State.clearDeficit_kept (State.withinBudget_iff.1 within))).trans (State.restorePass_kept _)
    · exact two

/-- Where the first two steps end within AVAILABLE, DEFICIT is clear (R119). -/
theorem State.reduceTwoSteps_within {s : State} (books : s.Books) (within : s.reduceTwoSteps.withinBudget = true) :
    s.reduceTwoSteps.budget.deficit = false := by
  have one : Kept s s.reduceLoads := State.shedAlong_kept _ _ s
  have two : Kept s s.reduceLoads.abandonWarned := one.trans (Kept.foldl State.abandon_kept _ _)
  simp only [State.reduceTwoSteps] at within ⊢
  split
  · rfl
  · rename_i above
    rw [if_neg above] at within
    split
    · rename_i below
      have cleared := two.trans (State.clearDeficit_kept (State.withinBudget_iff.1 below))
      exact Bool.eq_false_iff.2 fun set => nomatch ((State.restorePass_kept _).noRise (cleared.books books)).deficit set
    · rename_i still
      rw [if_neg still] at within
      exact absurd within still

/-- Past the first two steps the part is within AVAILABLE with DEFICIT clear, or above it; in deficit throughout it is then still in
deficit, and nothing has risen (R115 to R117). -/
theorem State.reduceTwoSteps_above {s : State} (books : s.Books) (deficit : s.budget.deficit = true)
    (above : ¬ s.reduceTwoSteps.withinBudget = true) :
    s.reduceTwoSteps.budget.deficit = true ∧ NoRise s s.reduceTwoSteps := by
  have kept := s.reduceTwoSteps_kept
  have law := kept.budget books fun clear => absurd (deficit.symm.trans clear) (by decide)
  refine ⟨?_, kept.noRise books⟩
  by_contra clear
  exact above (State.withinBudget_iff.2 (law (by simpa using clear)))

/-- The reduction procedure makes good a budget found broken, and raises nothing in deficit (R114 to R117). -/
theorem State.reduce_upholds {s : State} (books : s.Books) : s.reduce.Books ∧ s.reduce.BudgetLaw
    ∧ (s.budget.deficit = true → s.reduce.budget.deficit = true → s.reduce.budget.committed ≤ s.budget.committed) := by
  have kept := s.reduceTwoSteps_kept
  rw [State.reduce]
  split
  · rename_i within
    refine ⟨kept.books books, fun _ => State.withinBudget_iff.1 within, fun _ set => ?_⟩
    rw [State.reduceTwoSteps_within books within] at set
    cases set
  · rename_i above
    refine ⟨(kept.books books).setDeficit true, nofun, fun deficit _ => ?_⟩
    exact kept.committed_le books (State.reduceTwoSteps_above books deficit above).1

/-! ### SET_BUDGET -/

theorem State.applyBudget_upholds (s : State) (v : Nat) : Upholds s (s.applyBudget v) := by
  intro books _
  have books' : (s.setBudget { s.budget with available := v }).Books := books.rebudget rfl rfl rfl
  simp only [State.applyBudget]
  split
  · rename_i within
    have cleared := (State.clearDeficit_kept (State.withinBudget_iff.1 within)).books books'
    have pass := State.restorePass_kept ((s.setBudget { s.budget with available := v }).setDeficit false)
    refine ⟨pass.books cleared, pass.budget cleared fun _ => State.withinBudget_iff.1 within, fun _ set => ?_⟩
    exact nomatch (pass.noRise cleared).deficit set
  · exact State.reduce_upholds books'

/-! ### No load is forced by a reduction -/

/-- No load is forced that was not. -/
def Unforces (s t : State) : Prop := ∀ n, (s.load n).forced = false → (t.load n).forced = false

theorem Unforces.refl (s : State) : Unforces s s := fun _ => id

theorem Unforces.trans {s t u : State} (h : Unforces s t) (k : Unforces t u) : Unforces s u := fun n free => k n (h n free)

theorem SameForced.unforces {s t : State} (h : SameForced s t) : Unforces s t := fun n free => (h n).trans free

theorem State.setDeficit_unforces (s : State) (d : Bool) : Unforces s (s.setDeficit d) := fun _ => id

theorem State.releaseCourtesy_unforces (s : State) (a : AxisNo) : Unforces s (s.releaseCourtesy a) := by
  intro m free
  simp only [State.releaseCourtesy]
  split
  · exact free
  · split
    · exact free
    · rw [State.load_storeLoad]
      split
      · exact LoadRec.toUnforced_forced _
      · exact free

theorem State.leaveMotion_unforces (s : State) (a : AxisNo) (st : AxisState) (exempt : Bool) :
    Unforces s (s.leaveMotion a st exempt) := by
  have given : Unforces s ((s.setAxis a ((s.axis a).atRest st)).giveBack a exempt) := by
    have released := State.releaseCourtesy_unforces ((s.setAxis a ((s.axis a).atRest st)).releaseDemand a) a
    rcases (s.setAxis a ((s.axis a).atRest st)).giveBack_run a exempt with e | e <;> rw [e]
    · exact released
    · exact released.trans (State.answerFall_sameForced _).unforces
  have ended : ∀ t : State, Unforces t (t.endMotion a st) := fun t => (SameForced.of_loads (t.endMotion_same a st).1).unforces
  rw [State.leaveMotion]
  exact given.trans (ended _)

theorem State.blockCore_unforces (s : State) (a : AxisNo) : Unforces s (s.blockCore a) := by
  simp only [State.blockCore]
  split
  · exact State.leaveMotion_unforces (s.setAxis a { s.axis a with endReason := .interlock }) a .parked false
  · exact .refl s
  · exact .refl s

theorem State.abandon_unforces (s : State) (a : AxisNo) : Unforces s (s.abandon a) := by
  simp only [State.abandon]
  split
  · exact (State.leaveMotion_unforces (s.setAxis a { s.axis a with endReason := .noBudget }) a .parked true).trans
      (State.passChange_rel Unforces.refl Unforces.trans State.blockCore_unforces 3 a _)
  · exact .refl s

theorem State.reduceTwoSteps_unforces (s : State) : Unforces s s.reduceTwoSteps := by
  have one : Unforces s s.reduceLoads := (State.shedAlong_sameForced _ _ s).unforces
  have two : Unforces s s.reduceLoads.abandonWarned :=
    one.trans (foldl_rel Unforces.refl Unforces.trans State.abandon_unforces allAxes _)
  simp only [State.reduceTwoSteps]
  split
  · exact one.trans (State.setDeficit_unforces _ _)
  · split
    · exact (two.trans (State.setDeficit_unforces _ _)).trans (State.restoreAlong_sameForced _ _).unforces
    · exact two

/-! ## WRITE_LOAD -/

/-- A record written that is no change of R52 to R59, the SHED flags and the shed list agreeing (R99, R103). -/
theorem State.Books.write {s t : State} (h : s.Books) {n : LoadNo} {l : LoadRec} (loads : t.loads = s.loads.set n l)
    (settle : t.settle = s.settle) (held : t.budget.heldDemand = s.budget.heldDemand)
    (demands : ∀ a, (t.axis a).movingDemand = (s.axis a).movingDemand)
    (committed : t.budget.committed = s.budget.committed + l.countedDraw - (s.load n).countedDraw)
    (sound : l.Sound) (kind : l.KindSound s.WarmSettle)
    (power : ∀ timer, s.settle = some { kind := .powerOn, timer := timer } → l.kind = .none) (shed : t.ShedLaw) : t.Books := by
  have load : ∀ m, t.load m = if m = n then l else s.load m := fun m => by
    rw [← State.load_setLoad]; exact State.load_congr loads m
  have warm : t.WarmSettle = s.WarmSettle := by rw [State.WarmSettle, settle]; rfl
  refine ⟨fun m => ?_, State.kindLaw_iff.2 ⟨fun m => ?_, fun timer on m => ?_⟩, ⟨fun a => ?_, ?_⟩, shed⟩
  · rw [load]; split
    · exact sound
    · exact h.loads m
  · rw [load, warm]; split
    · exact kind
    · exact h.kindSound m
  · rw [settle] at on
    rw [load]; split
    · exact power timer on
    · exact (State.kindLaw_iff.1 h.kind).2 timer on m
  · rw [demands, State.held, held]; exact h.ledger.1 a
  · have sum := h.ledger.2
    have total := State.totalDraw_setLoad s n l
    have part := s.le_totalDraw n
    rw [committed, State.totalHeld_congr held, State.totalDraw_congr (s := s.setLoad n l) loads]
    omega

/-- A record stored with its configuration and its SHED flag as they were. -/
theorem State.Books.store {s : State} (h : s.Books) {n : LoadNo} {l : LoadRec} (config : l.toLoadConfig = (s.load n).toLoadConfig)
    (shed : l.shed = (s.load n).shed) (sound : l.Sound) (kind : l.KindSound s.WarmSettle) : (s.storeLoad n l).Books := by
  refine h.write (State.storeLoad_loads s n l false) ?_ ?_ (fun a => ?_) ?_ sound kind (fun timer on => ?_)
    ⟨?_, fun m => ?_, fun m => ?_⟩
  · rw [State.storeLoad_eq]
  · rw [State.storeLoad_budget]
  · rw [State.storeLoad_eq]; rfl
  · rw [State.storeLoad_budget]
  · rw [config]; exact (State.kindLaw_iff.1 h.kind).2 timer on n
  · rw [State.storeLoad_budget]; exact h.shed.1
  · rw [State.load_storeLoad, State.storeLoad_budget]
    refine (h.shed.2.1 m).trans ?_
    split
    · rename_i e; rw [e, shed]
    · rfl
  · rw [State.load_storeLoad]
    split
    · rw [shed, config]; exact h.shed.2.2 n
    · exact h.shed.2.2 m

/-- The answer to a rise in deficit: COMMITTED ends within AVAILABLE, or no higher than it was before the write (R118). -/
theorem State.reduceInDeficit_upholds {s w : State} {n : LoadNo} (before : s.LedgerLaw) (books : w.Books)
    (deficit : w.budget.deficit = true) (free : (w.load n).forced = false)
    (others : ∀ m, m ≠ n → (w.load m).countedDraw = (s.load m).countedDraw) (held : ∀ a, w.held a = s.held a) :
    let u := w.reduceInDeficit n (s.load n).countedDraw s.budget.committed
    u.Books ∧ u.BudgetLaw ∧ (u.budget.deficit = true → u.budget.committed ≤ s.budget.committed) := by
  intro u
  have books' := w.reduceTwoSteps_kept.books books
  simp only [u, State.reduceInDeficit]
  split
  · rename_i within
    refine ⟨books', fun _ => State.withinBudget_iff.1 within, fun set => ?_⟩
    rw [State.reduceTwoSteps_within books within] at set
    cases set
  · rename_i above
    obtain ⟨still, noRise⟩ := State.reduceTwoSteps_above books deficit above
    have free' := w.reduceTwoSteps_unforces n free
    generalize w.reduceTwoSteps = t at *
    split
    · obtain ⟨sound, kind⟩ := LoadRec.trim_lawful (books'.loads n) (books'.kindSound n) free' (s.load n).countedDraw
      have trimmed := books'.store (LoadRec.trim_config _ _) (LoadRec.trim_shed _ _) sound kind
      suffices low : (t.storeLoad n ((t.load n).trim (s.load n).countedDraw)).budget.committed ≤ s.budget.committed from
        ⟨trimmed.setDeficit true, nofun, fun _ => low⟩
      refine before.committed_le trimmed.ledger (fun m => ?_) fun a => ?_
      · rw [State.load_storeLoad]
        split
        · rename_i e
          rw [e]
          exact LoadRec.trim_draw (books'.loads n) free' _
        · rename_i other
          exact (noRise.draws still m).trans (others m other).le
      · simp only [State.held, State.storeLoad_budget]
        exact (noRise.held still a).trans (held a).le
    · rename_i low
      exact ⟨books'.setDeficit true, nofun, fun _ => Nat.le_of_not_lt low⟩

/-- A WRITE_LOAD in range, to a load that is not forced, with the settle interval over (R46). -/
structure State.MayWrite (s : State) (n : LoadNo) (c : LoadConfig) : Prop where
  settled : s.settle = none
  free : (s.load n).forced = false
  rank : c.shedRank ≤ 7
  level : c.shedLevel ≤ 1000

theorem State.MayWrite.writable {s : State} {n : LoadNo} {c : LoadConfig} (h : s.MayWrite n c) (books : s.Books) :
    (s.load n).Writable c := by
  have light : ¬ s.WarmSettle := fun ⟨timer, under⟩ => by rw [h.settled] at under; cases under
  have kind := books.kindSound n
  rw [eq_false light] at kind
  exact ⟨books.loads n, kind, h.free, fun shed => (books.shed.2.2 n shed).1, h.level⟩

/-- The shed list follows the SHED flag of the written load (R48, R50, R103). -/
theorem State.loadWritten_shedLaw {s : State} {n : LoadNo} {c : LoadConfig} (books : s.Books) (rank : c.shedRank ≤ 7) :
    (s.loadWritten n c).ShedLaw := by
  obtain ⟨nodup, listed, sheddable⟩ := books.shed
  have rewritten := LoadRec.rewritten_shed (l := s.load n) (c := c) fun shed => ⟨(sheddable n shed).1, (sheddable n shed).2.1⟩
  have config := (s.load n).rewritten_config c
  have list : (s.loadWritten n c).budget.shedList
      = if (s.load n).shed && !((s.load n).rewritten c).shed then s.budget.shedList.erase n else s.budget.shedList := rfl
  have member : ∀ m, m ∈ (s.loadWritten n c).budget.shedList ↔ m ∈ s.budget.shedList
      ∧ (m = n → ((s.load n).rewritten c).shed = true) := fun m => by
    rw [list]
    by_cases freed : ((s.load n).shed && !((s.load n).rewritten c).shed) = true
    · rw [if_pos freed, nodup.mem_erase_iff]
      simp only [Bool.and_eq_true, Bool.not_eq_true'] at freed
      rw [freed.2]
      simp only [Bool.false_eq_true, imp_false]
      exact and_comm
    · rw [if_neg freed]
      refine ⟨fun mem => ⟨mem, fun e => ?_⟩, fun h => h.1⟩
      subst e
      rw [(listed m).1 mem] at freed
      simpa using freed
  refine ⟨?_, fun m => ?_, fun m => ?_⟩
  · rw [list]; split
    · exact nodup.erase n
    · exact nodup
  · rw [member, listed, State.loadWritten_load]
    by_cases e : m = n
    · subst e
      rw [if_pos rfl]
      exact ⟨fun h => h.2 rfl, fun h => ⟨(rewritten h).1, fun _ => h⟩⟩
    · rw [if_neg e]
      exact ⟨fun h => h.1, fun h => ⟨h, fun e' => absurd e' e⟩⟩
  · rw [State.loadWritten_load]
    split
    · intro shed
      obtain ⟨-, kind, low⟩ := rewritten shed
      rw [config]
      exact ⟨kind, low, rank⟩
    · exact sheddable m

theorem State.loadWritten_books {s : State} {n : LoadNo} {c : LoadConfig} (books : s.Books) (may : s.MayWrite n c) :
    (s.loadWritten n c).Books := by
  have settled := (may.writable books).reshed
  have loads : (s.loadWritten n c).loads = s.loads.set n ((s.load n).rewritten c) := by
    show (s.withLoad n _ _).loads = _
    rw [← State.storeLoad_eq_withLoad, State.storeLoad_loads]
  refine books.write loads ?_ rfl (fun a => ?_) rfl settled.sound (settled.kindSound _) (fun timer on => ?_)
    (State.loadWritten_shedLaw books may.rank)
  · rw [State.loadWritten_frame]
  · rw [State.loadWritten_axis]; rfl
  · rw [may.settled] at on; cases on

theorem State.writeLoad_upholds {s : State} {n : LoadNo} {c : LoadConfig} (may : s.MayWrite n c) :
    Upholds s (s.writeLoad n c) := by
  intro books law
  have books' := State.loadWritten_books books may
  have committed := State.loadWritten_committed (s := s) (n := n) (c := c)
  have part : (s.load n).countedDraw ≤ s.budget.committed := by
    have total := s.le_totalDraw n
    have sum := books.ledger.2
    omega
  have deficit : (s.loadWritten n c).budget.deficit = s.budget.deficit := rfl
  have available : (s.loadWritten n c).budget.available = s.budget.available := rfl
  rw [State.writeLoad_eq]
  split_ifs with falls rises inDeficit within
  · have law' : (s.loadWritten n c).BudgetLaw := fun clear => by
      have room := law (deficit ▸ clear)
      omega
    have answered : Kept (s.loadWritten n c) (s.loadWritten n c).afterFall := by
      rw [← State.answerFall_eq_afterFall]; exact State.answerFall_kept _
    refine ⟨answered.books books', answered.budget books' law', fun _ still => ?_⟩
    have fallen := answered.committed_le books' still
    omega
  · have free : ((s.loadWritten n c).load n).forced = false := by
      rw [State.loadWritten_load, if_pos rfl]
      exact (may.writable books).reshed.free
    obtain ⟨upheld, law', fall⟩ := State.reduceInDeficit_upholds books.ledger books' inDeficit free
      (fun m other => by rw [State.loadWritten_load, if_neg other]) (fun _ => rfl)
    exact ⟨upheld, law', fun _ => fall⟩
  · refine ⟨books', fun _ => State.withinBudget_iff.1 within, fun set => absurd set inDeficit⟩
  · obtain ⟨upheld, law', -⟩ := State.reduce_upholds books'
    exact ⟨upheld, law', fun set => absurd set inDeficit⟩
  · have same : (s.loadWritten n c).budget.committed = s.budget.committed := by omega
    refine ⟨books', fun clear => ?_, fun _ _ => same.le⟩
    rw [same, available]
    exact law (deficit ▸ clear)

theorem State.decideWriteLoad_upholds {s : State} (settled : s.settle = none) (n : LoadNo) (f : LoadFields) :
    Upholds s (s.decideWriteLoad n f).2 := by
  simp only [State.decideWriteLoad]
  split_ifs with forced bad
  · exact .refl s
  · exact .refl s
  · have good : ¬ (15 < f.space ∨ 7 < f.shedRank ∨ 1000 < f.shedLevel ∨ 400 < f.ratedPower ∨ 64 < f.minDuty) :=
      fun out => bad (loadFieldsOk_eq_false.2 out)
    have may : s.MayWrite n (loadConfigOf f) :=
      ⟨settled, by simpa using forced, by show f.shedRank ≤ 7; omega, by show f.shedLevel ≤ 1000; omega⟩
    exact State.writeLoad_upholds may

end Sys2Proof.Machine

namespace Sys2Proof.Machine

/-! ## The statements on one record (R42, R43, R52 to R59) -/

/-! ### A fade started and a level dropped, case by case -/

section
variable {l : LoadRec}

theorem LoadRec.startFade_of_reached (dim : l.kind = .dim) (free : l.forced = false) (there : l.effTarget = l.level) (k : Nat) :
    l.startFade k = { l with fade := none } := by
  simp only [LoadRec.startFade, dim, free, there, Nat.sub_self, and_self, if_true]

theorem LoadRec.startFade_at_once (dim : l.kind = .dim) (free : l.forced = false) (away : l.effTarget ≠ l.level) :
    l.startFade 0 = { l with fade := none, level := l.effTarget } := by
  have delta : l.effTarget - l.level + (l.level - l.effTarget) ≠ 0 := by omega
  simp only [LoadRec.startFade, dim, free, delta, and_self, if_true, if_false]

/-- The fade record of R62: the distance is split in `k` steps of the quotient, and the remainder is spread over them. -/
theorem LoadRec.startFade_record (dim : l.kind = .dim) (free : l.forced = false) (away : l.effTarget ≠ l.level) {k : Nat}
    (steps : 0 < k) :
    let distance := if l.level < l.effTarget then l.effTarget - l.level else l.level - l.effTarget
    l.startFade k = { l with
      fade := some { rising := decide (l.level < l.effTarget), q := distance / k, r := distance % k, n := k
                     remaining := k, acc := 0, stepTimer := fadeStepMs } } := by
  intro distance
  have delta : l.effTarget - l.level + (l.level - l.effTarget) = distance := by
    simp only [distance]; split <;> omega
  have far : distance ≠ 0 := by simp only [distance]; split <;> omega
  have rest : distance - distance / k * k = distance % k := by rw [Nat.mod_def, Nat.mul_comm]
  simp only [LoadRec.startFade, dim, free, delta, far, steps.ne', rest, and_self, if_true, if_false]

section
variable {old : Nat} (dim : l.kind = .dim)
include dim

theorem LoadRec.dropToTarget_cut (lower : l.effTarget < old) (above : l.effTarget < l.level) :
    l.dropToTarget old = { l with level := l.effTarget, fade := none } := by
  simp only [LoadRec.dropToTarget, dim, lower, above, if_true]

theorem LoadRec.dropToTarget_refade (lower : l.effTarget < old) (below : l.level ≤ l.effTarget) {f : Fade}
    (fading : l.fade = some f) : l.dropToTarget old = l.startFade f.remaining := by
  simp only [LoadRec.dropToTarget, dim, lower, below.not_gt, fading, if_true, if_false]

theorem LoadRec.dropToTarget_stays (same : ¬ l.effTarget < old) : l.dropToTarget old = l := by
  simp only [LoadRec.dropToTarget, dim, same, if_false]

end

/-- A load neither forced nor shed is to be at its SET TARGET (R42). -/
theorem LoadRec.effectiveTarget_of_free (kind : l.kind ≠ .none) (free : l.forced = false) (full : l.shed = false) :
    l.effectiveTarget = l.setTarget := by
  cases k : l.kind
  · exact absurd k kind
  all_goals simp only [LoadRec.effectiveTarget, k, free, full, Bool.false_eq_true, if_false]

end

/-! ### EFFECTIVE TARGET and COUNTED DRAW -/

/-- Settles O12: the draw of a DIM load is a thousandth of rating times level, rounded up. -/
theorem effectiveTargetAndCountedDraw : Obligations.effective_target_and_counted_draw := by
  intro l
  refine ⟨fun unlit => ?_, fun kind forced => LoadRec.forced_effectiveTarget forced kind, fun dim free shed => ?_,
    fun switch free shed => ?_, LoadRec.effectiveTarget_of_free, fun m => ⟨fun unlit => ?_, fun switch => ?_, fun dim => ?_⟩⟩
  · simp only [LoadRec.effectiveTarget, unlit]
  · simp only [LoadRec.effectiveTarget, dim, free, shed, Bool.false_eq_true, if_false, if_true]
  · simp only [LoadRec.effectiveTarget, switch, free, shed, Bool.false_eq_true, if_false, if_true]
  · simp only [LoadRec.drawAt, unlit]
  · simp only [LoadRec.drawAt, switch]
  · have rounded : l.drawAt m = (l.ratedPower * m + 999) / 1000 := by simp only [LoadRec.drawAt, dim]
    omega

/-! ### A new SET TARGET -/

/-- Settles O13: R52 steps 4 to 7 by the kind of the load, a DIM load by its distance and its steps. -/
theorem aNewSetTargetInTheRecord : Obligations.a_new_set_target_in_the_record := by
  intro l target steps e distance record
  set w : LoadRec := ({ l with setTarget := target } : LoadRec).retarget with hw
  have made : l.withSetTarget target steps = ((w.startFade steps).followSwitch).recount := rfl
  refine ⟨fun switch => ?_, fun still => ?_, fun dim free => ?_⟩
  · have kind : w.kind = .switch := switch
    rw [made, LoadRec.startFade_of_other (by rw [kind]; decide), LoadRec.followSwitch_of_switch kind]
    rfl
  · have stays : w.startFade steps = w ∧ w.followSwitch = w := by
      rcases still with unlit | ⟨dim, forced⟩
      · have kind : w.kind = .none := unlit
        exact ⟨LoadRec.startFade_of_other (by rw [kind]; decide) _, LoadRec.followSwitch_of_other (by rw [kind]; decide)⟩
      · have kind : w.kind = .dim := dim
        exact ⟨LoadRec.startFade_of_forced (l := w) forced _, LoadRec.followSwitch_of_other (by rw [kind]; decide)⟩
    rw [made, stays.1, stays.2]
    rfl
  · have follow : (w.startFade steps).followSwitch = w.startFade steps :=
      LoadRec.followSwitch_of_other (by rw [LoadRec.startFade_config]; show l.kind ≠ .switch; rw [dim]; decide)
    rw [made, follow]
    refine ⟨fun there => ?_, fun away zero => ?_, fun away many => ?_⟩
    · rw [LoadRec.startFade_of_reached (l := w) dim free there]; rfl
    · subst zero
      rw [LoadRec.startFade_at_once (l := w) dim free away]; rfl
    · rw [LoadRec.startFade_record (l := w) dim free away many]; rfl

/-! ### Sheds, restores, forces and unforces -/

/-- Settles O19: each change by the kind of the load, through the cases of R56 and R62. -/
theorem shedRestoreForceUnforceInTheRecord : Obligations.shed_restore_force_unforce_in_the_record := by
  intro l counted fading shed restored freed
  have shedding : l.toShed = counted (shed.dropToTarget l.effTarget) := rfl
  have restoring : l.toRestored = counted (restored.startFade 50).followSwitch := rfl
  refine ⟨fun dim => ?_, fun switch => ?_, fun kind free => ?_, fun forced => ?_, fun free => ?_, rfl, ?_⟩
  · have other : ∀ k, (restored.startFade k).followSwitch = restored.startFade k := fun k =>
      LoadRec.followSwitch_of_other (by rw [LoadRec.startFade_config]; show l.kind ≠ .switch; rw [dim]; decide)
    have freeing : l.forced = true → l.toUnforced
        = counted (if freed.shed then { freed with level := freed.effTarget, fade := none } else freed.startFade 50) :=
      fun forced => by
        simp only [LoadRec.toUnforced, forced, if_true, LoadRec.retarget_config, dim]; rfl
    rw [restoring, other, shedding]
    refine ⟨fun lower above => ?_, fun lower below f fade _ => ?_, fun same => ?_, fun _ => rfl, fun forced => ?_,
      fun forced cut => ?_, fun forced full => ?_⟩
    · rw [LoadRec.dropToTarget_cut (l := shed) dim lower above]
    · rw [LoadRec.dropToTarget_refade (l := shed) dim lower below fade]
    · rw [LoadRec.dropToTarget_stays (l := shed) dim same.not_lt]
    · rw [LoadRec.startFade_of_forced (l := restored) forced]
    · rw [freeing forced, if_pos (show freed.shed = true from cut)]
    · rw [freeing forced, if_neg (show ¬ freed.shed = true by rw [show freed.shed = l.shed from rfl, full]; decide)]
  · refine ⟨?_, ?_, fun forced => ?_⟩
    · rw [shedding, LoadRec.dropToTarget_of_switch (l := shed) switch, LoadRec.followSwitch_of_switch (l := shed) switch]
    · rw [restoring, LoadRec.startFade_of_other (l := restored) (by rw [show restored.kind = l.kind from rfl, switch]; decide),
        LoadRec.followSwitch_of_switch (l := restored) switch]
    · simp only [LoadRec.toUnforced, forced, if_true, LoadRec.retarget_config, switch]
      rw [LoadRec.followSwitch_of_switch (l := ({ l with forced := false } : LoadRec).retarget) switch]
      rfl
  · rw [LoadRec.toForced, if_neg (by rw [free]; simpa using kind)]
    rfl
  · rw [LoadRec.toForced, if_pos (.inl forced)]
  · rw [LoadRec.toUnforced, if_neg (by rw [free]; decide)]
  · simp only [LoadRec.sheddable, Bool.and_eq_true, bne_iff_ne, decide_eq_true_iff, Bool.not_eq_true', and_assoc]

end Sys2Proof.Machine

namespace Sys2Proof.Machine

/-! ## WRITE_LOAD in the record (R48, R50) -/

/-- The record R48 leaves where it only changes the configuration. -/
def LoadRec.configured (l : LoadRec) (c : LoadConfig) : LoadRec := ({ l with toLoadConfig := c } : LoadRec).retarget

section
variable {l : LoadRec} {c : LoadConfig}

theorem LoadRec.rewritten_other (other : c.kind = l.kind ∨ c.kind = .dim ∨ l.kind = .none) :
    l.rewritten c = (LoadRec.reshed l (l.configured c)).recount := by
  rw [LoadRec.rewritten, LoadRec.reconfigure_other other]; rfl

/-- A shed load given SHED RANK 0 is restored, its effective target its SET TARGET (R42, R50, R57). -/
theorem LoadRec.rewritten_restored (other : c.kind = l.kind ∨ c.kind = .dim ∨ l.kind = .none) (kind : c.kind ≠ .none)
    (free : l.forced = false) (shed : l.shed = true) (changed : c.shedRank ≠ l.shedRank ∨ c.shedLevel ≠ l.shedLevel)
    (rank : c.shedRank = 0) : l.rewritten c
      = ((({ l with toLoadConfig := c, shed := false, effTarget := l.setTarget } : LoadRec).startFade 50).followSwitch).recount := by
  have target : ({ l.configured c with shed := false } : LoadRec).retarget
      = { l with toLoadConfig := c, shed := false, effTarget := l.setTarget } := by
    simp only [LoadRec.retarget]
    rw [LoadRec.effectiveTarget_of_free (l := { l.configured c with shed := false }) kind free rfl]
    rfl
  rw [LoadRec.rewritten_other other, LoadRec.reshed_restored (w := l.configured c) shed changed rank, target]
  rfl

end

/-- Settles O32: the cases of R48 first, and R50 where the load is shed and its shedding fields change. -/
theorem writeLoadInTheRecord : Obligations.write_load_in_the_record := by
  intro l c w e counted
  have ofSwitch : ∀ (u : LoadRec) (k : Nat), u.kind = .switch → (u.startFade k).followSwitch = { u with level := u.effTarget } :=
    fun u k switch => by
      rw [LoadRec.startFade_of_other (by rw [switch]; decide), LoadRec.followSwitch_of_switch switch]
  have ofDim : ∀ (u : LoadRec) (k : Nat), u.kind = .dim → (u.startFade k).followSwitch = u.startFade k := fun u k dim =>
    LoadRec.followSwitch_of_other (by rw [LoadRec.startFade_config, dim]; decide)
  refine ⟨fun empty kind => ?_, fun dim switch same => ?_, fun was switch shed changed => ⟨fun rank free => ?_, fun rank moved => ?_⟩,
    fun other => ⟨fun same => ?_, fun dim free shed changed => ⟨fun rank => ?_, fun rank => ⟨fun lower above => ?_,
      fun lower below f fade => ?_, fun higher => ?_, fun level => ?_⟩⟩⟩⟩
  · rw [LoadRec.rewritten, LoadRec.reconfigure_to_none kind empty, LoadRec.reshed_same (.inl rfl)]
    have dark : ({ w with setTarget := 0, level := 0, fade := none, shed := false } : LoadRec).effectiveTarget = 0 := by
      simp only [LoadRec.effectiveTarget, w, empty]
    simp only [LoadRec.recount, LoadRec.retarget, dark, LoadRec.drawAt, empty, w]
  · rw [LoadRec.rewritten, LoadRec.reconfigure_to_switch dim switch]
    set u : LoadRec := ({ l with toLoadConfig := c, fade := none, setTarget := if 0 < l.setTarget then 1000 else 0 } : LoadRec).retarget
    rw [LoadRec.followSwitch_of_switch (l := u) switch, LoadRec.reshed_same (w := { u with level := u.effTarget }) same]
    rfl
  · rw [LoadRec.rewritten_restored (.inl (switch.trans was.symm)) (by rw [switch]; decide) free shed changed rank,
      ofSwitch _ 50 switch]
    rfl
  · rw [LoadRec.rewritten_other (.inl (switch.trans was.symm))]
    rcases Nat.lt_or_gt_of_ne moved with lower | higher
    · rw [LoadRec.reshed_lower (w := l.configured c) shed changed rank lower,
        LoadRec.dropToTarget_of_switch (l := l.configured c) switch, LoadRec.followSwitch_of_switch (l := l.configured c) switch]
      rfl
    · rw [LoadRec.reshed_higher (w := l.configured c) shed changed rank higher, ofSwitch _ restoreSteps switch]
      rfl
  · rw [LoadRec.rewritten_other other, LoadRec.reshed_same (w := l.configured c) same]
    rfl
  · rw [LoadRec.rewritten_restored other (by rw [dim]; decide) free shed changed rank, ofDim _ 50 dim]
    rfl
  · rw [LoadRec.rewritten_other other, LoadRec.reshed_lower (w := l.configured c) shed changed rank lower,
      LoadRec.dropToTarget_cut (l := l.configured c) dim lower above]
    rfl
  · rw [LoadRec.rewritten_other other, LoadRec.reshed_lower (w := l.configured c) shed changed rank lower,
      LoadRec.dropToTarget_refade (l := l.configured c) dim lower below fade]
    rfl
  · rw [LoadRec.rewritten_other other, LoadRec.reshed_higher (w := l.configured c) shed changed rank higher,
      ofDim _ restoreSteps dim]
    rfl
  · rw [LoadRec.rewritten_other other, LoadRec.reshed_level (w := l.configured c) shed changed rank level]
    rfl

end Sys2Proof.Machine

namespace Sys2Proof.Machine

/-! ## FADE_STEP (R64, R66, R72) -/

/-- A fade just started has its first step 20 ms away (R72). -/
theorem LoadRec.startFade_timer {l : LoadRec} (dim : l.kind = .dim) (free : l.forced = false) {k : Nat} {f : Fade}
    (fading : (l.startFade k).fade = some f) : f.stepTimer = fadeStepMs := by
  by_cases there : l.effTarget = l.level
  · rw [LoadRec.startFade_of_reached dim free there] at fading; cases fading
  rcases Nat.eq_zero_or_pos k with zero | steps
  · rw [zero, LoadRec.startFade_at_once dim free there] at fading; cases fading
  · rw [LoadRec.startFade_record dim free there steps] at fading; cases fading; rfl

/-- The larger of level and effective target does not rise with a step, and stands with a rising one (R65, R66). -/
theorem LoadRec.stepFade_max {l : LoadRec} {f : Fade} (sound : l.FadeSound) (fading : l.fade = some f) :
    max (l.stepFade f).level l.effTarget ≤ max l.level l.effTarget
      ∧ (f.rising = true → max (l.stepFade f).level l.effTarget = max l.level l.effTarget) := by
  obtain ⟨-, up, down⟩ := LoadRec.stepFade_sound sound fading
  cases rising : f.rising
  · have falls := down rising
    exact ⟨by omega, nofun⟩
  · have rises := up rising
    exact ⟨by omega, fun _ => by omega⟩

theorem LoadRec.stepFade_recount_draw {l : LoadRec} {f : Fade} (sound : l.FadeSound) (fading : l.fade = some f)
    (counted : l.countedDraw = l.drawAt (max l.level l.effTarget)) :
    (l.stepFade f).recount.countedDraw ≤ l.countedDraw
      ∧ (f.rising = true → (l.stepFade f).recount.countedDraw = l.countedDraw) := by
  obtain ⟨falls, stands⟩ := LoadRec.stepFade_max sound fading
  have draw : (l.stepFade f).recount.countedDraw = l.drawAt (max (l.stepFade f).level l.effTarget) := rfl
  rw [draw, counted]
  exact ⟨l.drawAt_mono falls, fun rising => by rw [stands rising]⟩

/-- The duty of a new level is staged, but for the settle interval (R44, R78). -/
theorem State.output_withLoad_settle (s : State) (n m : LoadNo) (l : LoadRec) :
    (s.withLoad n l).output m = if m = n ∧ l.level ≠ (s.load n).level ∧ s.settle = none
      then { s.output m with staged := some l.duty } else s.output m := by
  by_cases ended : s.settle = none
  · rw [State.output_withLoad ended]
    simp only [ended, and_true]
  · rw [State.withLoad_unstaged fun staged => ended staged.2, if_neg fun staged => ended staged.2.2]
    rfl

/-- A step moves neither the SET TARGET nor the FORCED flag of a load (R64). -/
theorem State.fadeStep_setTarget (s : State) (n m : LoadNo) : ((s.fadeStep n).load m).setTarget = (s.load m).setTarget := by
  rcases s.fadeStep_cases n with ⟨-, e⟩ | ⟨f, fading, due, -⟩
  · rw [e]
  · have stored : ((s.withLoad n ((s.load n).stepFade f).recount).load m).setTarget = (s.load m).setTarget := by
      rw [State.load_withLoad]
      split
      · rename_i e; rw [e]; rfl
      · rfl
    rw [State.fadeStep_eq fading due]
    split
    · rw [(State.afterFall_steady _).targets, stored]
    · exact stored

/-- Where the draw does not fall, or no load is shed, a step only writes its record (R64, R111). -/
theorem State.fadeStep_plain {s : State} {n : LoadNo} {f : Fade} (fading : (s.load n).fade = some f) (due : f.stepTimer = 0) :
    let l' := ((s.load n).stepFade f).recount
    ¬ l'.countedDraw < (s.load n).countedDraw ∨ s.budget.shedList = [] →
      ∃ d, s.fadeStep n
        = { s.withLoad n l' with budget := { (s.withLoad n l').budget with deficit := d } } := by
  intro l' plain
  rw [State.fadeStep_eq fading due]
  split
  · rename_i falls
    have list : (s.withLoad n l').budget.shedList = [] := by
      rw [State.withLoad_budget]
      exact plain.resolve_left (not_not_intro falls)
    exact ⟨_, State.afterFall_of_none_shed list⟩
  · exact ⟨_, rfl⟩

/-- Settles O17: the step is `LoadRec.stepFade`, and only a fall that reaches a shed load is answered by a restore. -/
theorem fadeStepEvent : Obligations.fade_step_event := by
  intro s n
  have event : exec (.fadeStep n) s = .next (s.fadeStep n).driveOutputs := rfl
  have idle : (∀ f, (s.load n).fade = some f → f.stepTimer ≠ 0) → exec (.fadeStep n) s = .next s.driveOutputs := by
    intro waits
    rcases s.fadeStep_cases n with ⟨-, e⟩ | ⟨f, fading, due, -⟩
    · rw [event, e]
    · exact absurd due (waits f fading)
  refine ⟨idle, fun l steps dim free started => idle fun f fading => ?_, fun f fading due sound counted => ?_⟩
  · rw [started] at fading
    rw [LoadRec.startFade_timer dim free fading]
    decide
  · intro l carry move level l'
    obtain ⟨-, -, -, -, left, -⟩ := sound f fading
    have record : ((s.load n).stepFade f).recount = l' := by
      have last : f.remaining ≤ 1 ↔ f.remaining = 1 := by omega
      simp only [LoadRec.recount, LoadRec.stepFade, last, decide_eq_true_eq, l', level, move, carry, l]
      rfl
    obtain ⟨falls, stands⟩ := LoadRec.stepFade_recount_draw sound fading counted
    have made := State.fadeStep_eq fading due
    have plain := State.fadeStep_plain fading due
    rw [record] at falls stands made plain
    refine ⟨s.fadeStep n, event, (s.fadeStep_run n).only, fun m => ((s.fadeStep_run n).changes m).config,
      fun m => ⟨s.fadeStep_setTarget n m, s.fadeStep_sameForced n m⟩, fun rising => ⟨?_, stands rising⟩,
      fun fall => by rw [made, if_pos fall], fun quiet => ?_⟩
    · rw [made, if_neg (stands rising).not_lt, State.withLoad_budget, stands rising, Nat.add_sub_cancel]
    · obtain ⟨d, e⟩ := plain (by
        rcases quiet with rising | same | list
        · exact .inl (stands rising).not_lt
        · exact .inl same.not_lt
        · exact .inr list)
      rw [e]
      refine ⟨(s.load_withLoad n · l'), s.withLoad_notices n l', ?_, (s.output_withLoad_settle n · l')⟩
      show (s.withLoad n l').budget.committed = _
      rw [State.withLoad_budget]

end Sys2Proof.Machine

namespace Sys2Proof.Machine

/-! ## The end of the settle interval (R45, R70, R179) -/

/-- The part with the settle interval over and every output in its first period, before a fade-in (R179). -/
def State.begun (s : State) : State :=
  { s with settle := none, outputs := mapTable (fun x => { x with period := some outputPeriodMs }) s.outputs }

theorem State.endSettle_powerOn (s : State) : s.endSettle .powerOn = s.begun := rfl
theorem State.endSettle_warm (s : State) : s.endSettle .warm = allLoads.foldl State.fadeInLoad s.begun := rfl

theorem State.begun_output (s : State) (n : LoadNo) : s.begun.output n = { s.output n with period := some outputPeriodMs } :=
  get_mapTable _ _ n

/-! ### Every load faded in, one after another -/

theorem State.load_fadeInLoad (s : State) (n m : LoadNo) :
    (s.fadeInLoad n).load m = if m = n then (s.load n).fadeIn else s.load m := State.load_storeLoad s n m _ false

theorem State.load_fadeInLoads {ns : List LoadNo} (nodup : ns.Nodup) (s : State) (m : LoadNo) :
    (ns.foldl State.fadeInLoad s).load m = if m ∈ ns then (s.load m).fadeIn else s.load m := by
  induction ns generalizing s with
  | nil => rfl
  | cons n ns ih =>
    obtain ⟨fresh, nodup⟩ := List.nodup_cons.1 nodup
    rw [List.foldl_cons, ih nodup, s.load_fadeInLoad]
    by_cases e : m = n
    · subst e; simp [fresh]
    · simp [e]

theorem State.output_fadeInLoads {ns : List LoadNo} (nodup : ns.Nodup) {s : State} (settled : s.settle = none) (m : LoadNo) :
    (ns.foldl State.fadeInLoad s).output m
      = if m ∈ ns ∧ (s.load m).fadeIn.level ≠ (s.load m).level then { s.output m with staged := some (s.load m).fadeIn.duty }
        else s.output m := by
  induction ns generalizing s with
  | nil => rw [if_neg fun h => nomatch h.1]; rfl
  | cons n ns ih =>
    obtain ⟨fresh, nodup⟩ := List.nodup_cons.1 nodup
    have output : (s.fadeInLoad n).output m = _ :=
      (congrArg (·.output m) (s.storeLoad_eq_withLoad n _ false)).trans (State.output_withLoad settled n m _)
    rw [List.foldl_cons, ih nodup ((s.fadeInLoad_run n).settle.trans settled), s.load_fadeInLoad, output]
    by_cases e : m = n
    · subst e; simp [fresh]
    · simp [e]

/-- A fade-in that keeps every counted draw keeps the budget record. -/
theorem State.budget_fadeInLoads {ns : List LoadNo} (nodup : ns.Nodup) {s : State}
    (draws : ∀ m ∈ ns, (s.load m).fadeIn.countedDraw = (s.load m).countedDraw) :
    (ns.foldl State.fadeInLoad s).budget = s.budget := by
  induction ns generalizing s with
  | nil => rfl
  | cons n ns ih =>
    obtain ⟨fresh, nodup⟩ := List.nodup_cons.1 nodup
    have one : (s.fadeInLoad n).budget = s.budget := by
      rw [State.fadeInLoad, State.storeLoad_budget, draws n (.head _), Nat.add_sub_cancel]
    rw [List.foldl_cons, ih nodup fun m mem => ?_, one]
    have other : m ≠ n := fun e => fresh (e ▸ mem)
    rw [s.load_fadeInLoad, if_neg other]
    exact draws m (.tail _ mem)

theorem State.notices_fadeInLoads (ns : List LoadNo) (s : State) : (ns.foldl State.fadeInLoad s).notices = s.notices := by
  induction ns generalizing s with
  | nil => rfl
  | cons n ns ih => rw [List.foldl_cons, ih]; exact State.storeLoad_notices s n _ false

theorem allLoads_nodup : allLoads.Nodup := List.nodup_finRange 96

/-! ### The fade-in of a dark load -/

/-- A record as a warm reset leaves it: dark, not forced, with no fade (R178). -/
structure LoadRec.Dark (l : LoadRec) : Prop where
  derived : l.Derived
  level : l.level = 0
  fade : l.fade = none
  free : l.forced = false

section
variable {l : LoadRec} (h : l.Dark)
include h

theorem LoadRec.Dark.draw : l.countedDraw = l.drawAt l.effTarget := by
  rw [h.derived.2, h.level, Nat.zero_max]

theorem LoadRec.Dark.recount_lit {level : Nat} (low : level ≤ l.effTarget) (f : Option Fade) :
    ({ l with level := level, fade := f } : LoadRec).recount = { l with level := level, fade := f } := by
  have draw : l.drawAt (max level l.effTarget) = l.countedDraw := by rw [h.draw, Nat.max_eq_right low]
  simp only [LoadRec.recount, LoadRec.mk.injEq, true_and]
  exact draw

theorem LoadRec.Dark.recount : l.recount = l :=
  h.recount_lit (level := l.level) (h.level ▸ Nat.zero_le _) l.fade

theorem LoadRec.Dark.fadeIn_none (empty : l.kind = .none) : l.fadeIn = l := by
  rw [LoadRec.fadeIn, LoadRec.startFade_of_other (by rw [empty]; decide), LoadRec.followSwitch_of_other (by rw [empty]; decide),
    h.recount]

theorem LoadRec.Dark.fadeIn_switch (switch : l.kind = .switch) : l.fadeIn = { l with level := l.effTarget } := by
  rw [LoadRec.fadeIn, LoadRec.startFade_of_other (by rw [switch]; decide), LoadRec.followSwitch_of_switch switch]
  exact h.recount_lit le_rfl l.fade

theorem LoadRec.Dark.fadeIn_dim (dim : l.kind = .dim) :
    let fade : Fade := { rising := true, q := l.effTarget / 100, r := l.effTarget % 100, n := 100, remaining := 100
                         acc := 0, stepTimer := 20 }
    l.fadeIn = { l with fade := if l.effTarget = 0 then none else some fade } := by
  intro fade
  have follow : (l.startFade fadeInSteps).followSwitch = l.startFade fadeInSteps :=
    LoadRec.followSwitch_of_other (by rw [LoadRec.startFade_config, dim]; decide)
  have counted : ∀ f, ({ l with fade := f } : LoadRec).recount = { l with fade := f } :=
    h.recount_lit (h.level ▸ Nat.zero_le _)
  rw [LoadRec.fadeIn, follow]
  by_cases zero : l.effTarget = 0
  · rw [LoadRec.startFade_of_reached dim h.free (zero.trans h.level.symm), counted, if_pos zero]
  · have rising : l.level < l.effTarget := by have := h.level; omega
    rw [LoadRec.startFade_record dim h.free rising.ne' (by decide), counted]
    simp only [h.level, zero, if_true, if_false, Nat.sub_zero, decide_true, Nat.pos_of_ne_zero zero]
    rfl

theorem LoadRec.Dark.fadeIn_draw : l.fadeIn.countedDraw = l.countedDraw := by
  cases kind : l.kind with
  | none => rw [h.fadeIn_none kind]
  | dim => rw [h.fadeIn_dim kind]
  | switch => rw [h.fadeIn_switch kind]

/-- Only a SWITCH load that is to be on gets a level, and with it a staged duty, as the fade-in starts (R45, R75). -/
theorem LoadRec.Dark.fadeIn_level : l.fadeIn.level ≠ l.level ↔ l.kind = .switch ∧ 0 < l.effTarget := by
  cases kind : l.kind with
  | none => rw [h.fadeIn_none kind]; simp
  | dim => rw [h.fadeIn_dim kind]; simp
  | switch => rw [h.fadeIn_switch kind, h.level]; simp [Nat.pos_iff_ne_zero]

theorem LoadRec.Dark.fadeIn_duty (switch : l.kind = .switch) (on : 0 < l.effTarget) : l.fadeIn.duty = 4095 := by
  rw [h.fadeIn_switch switch]
  simp only [LoadRec.duty, switch, on, if_true]

end

/-- Settles O54: the fade-in goes over the loads one by one, and no counted draw changes with it. -/
theorem theSettleIntervalEnds : Obligations.the_settle_interval_ends := by
  intro s
  have event : exec .settleExpiry s = .next s.settleOver.driveOutputs := rfl
  refine ⟨fun waits => ?_, fun due => ⟨s.begun, ?_, rfl, s.begun_output⟩, fun due derived still => ?_⟩
  · rcases s.settleOver_cases with ⟨-, e⟩ | ⟨k, due, -⟩
    · rw [event, e]
    · exact absurd due (waits k)
  · rw [event, State.settleOver, due]; rfl
  · have dark : ∀ n, (s.load n).Dark := fun n => ⟨derived n, (still n).1, (still n).2.1, (still n).2.2⟩
    set t := allLoads.foldl State.fadeInLoad s.begun with ht
    have budget : t.budget = s.budget := State.budget_fadeInLoads allLoads_nodup fun n _ => (dark n).fadeIn_draw
    have notices : t.notices = s.notices := State.notices_fadeInLoads _ _
    have only : OnlyLoads s.begun t := (LoadRun.foldl State.fadeInLoad_run _ _).only
    have load : ∀ n, t.load n = (s.load n).fadeIn := fun n => by
      rw [ht, State.load_fadeInLoads allLoads_nodup, if_pos (allLoads_complete n)]; rfl
    refine ⟨t, ?_, ?_, fun n => ?_, fun n => ?_⟩
    · rw [event, State.settleOver, due]; rfl
    · rw [OnlyLoads, budget, notices] at only
      exact only
    · intro e fade
      rw [load]
      cases kind : (s.load n).kind with
      | none => exact (dark n).fadeIn_none kind
      | dim => exact (dark n).fadeIn_dim kind
      | switch => exact (dark n).fadeIn_switch kind
    · have output : t.output n = _ := State.output_fadeInLoads allLoads_nodup rfl n
      have same : s.begun.load n = s.load n := rfl
      simp only [allLoads_complete, true_and, same, (dark n).fadeIn_level, s.begun_output] at output
      rw [output]
      by_cases lit : (s.load n).kind = .switch ∧ 0 < (s.load n).effTarget
      · rw [if_pos lit, if_pos lit, (dark n).fadeIn_duty lit.1 lit.2]; rfl
      · rw [if_neg lit, if_neg lit]; rfl

end Sys2Proof.Machine

namespace Sys2Proof.Machine

/-! ## The clock, the resets and the settle interval -/

theorem State.settle_kind {s : State} {k : SettleKind} :
    (∃ timer, s.settle = some { kind := k, timer := timer }) ↔ s.settle.map (·.kind) = some k := by
  rcases s.settle with - | ⟨kind, timer⟩
  · simp
  · exact ⟨fun ⟨_, e⟩ => by cases e; rfl, fun e => ⟨timer, by cases e; rfl⟩⟩

theorem State.warmSettle_iff {s : State} : s.WarmSettle ↔ s.settle.map (·.kind) = some .warm := State.settle_kind

/-! ### Timers -/

theorem LoadRec.Sound.refaded {l : LoadRec} (h : l.Sound) {f : Option Fade} (fades : ({ l with fade := f } : LoadRec).FadeSound) :
    ({ l with fade := f } : LoadRec).Sound where
  derived := h.derived
  fades := fades
  range := h.range
  full := h.full

/-- What only moves the timers of fades and of the settle interval keeps the books. -/
theorem Kept.of_timers {s t : State} (load : ∀ n, ∃ f, t.load n = { s.load n with fade := f })
    (fades : ∀ n, (s.load n).FadeSound → (t.load n).FadeSound) (settle : t.settle.map (·.kind) = s.settle.map (·.kind))
    (budget : t.budget = s.budget) (demands : ∀ a, (t.axis a).movingDemand = (s.axis a).movingDemand) : Kept s t := by
  have draw : ∀ n, (t.load n).countedDraw = (s.load n).countedDraw := fun n => by obtain ⟨f, e⟩ := load n; rw [e]
  have held : ∀ a, t.held a = s.held a := State.held_congr budget
  refine ⟨fun h => ⟨fun n => ?_, State.kindLaw_iff.2 ⟨fun n => ?_, fun timer power n => ?_⟩, ⟨fun a => ?_, ?_⟩, ?_⟩,
    fun _ law => law.congr budget, fun _ => ⟨fun d => by rwa [budget] at d, fun _ n => (draw n).le, fun _ a => (held a).le⟩⟩
  · have sound := fades n (h.loads n).fades
    obtain ⟨f, e⟩ := load n
    rw [e] at sound ⊢
    exact (h.loads n).refaded sound
  · have warm : t.WarmSettle = s.WarmSettle := by
      rw [eq_iff_iff, State.warmSettle_iff, State.warmSettle_iff, settle]
    obtain ⟨f, e⟩ := load n
    rw [e, warm]
    exact h.kindSound n
  · obtain ⟨timer, power⟩ := State.settle_kind.2 (settle.symm.trans (State.settle_kind.1 ⟨timer, power⟩))
    obtain ⟨f, e⟩ := load n
    rw [e]
    exact (State.kindLaw_iff.1 h.kind).2 timer power n
  · rw [held, demands]; exact h.ledger.1 a
  · have total : t.totalDraw = s.totalDraw := by simp only [State.totalDraw_eq, draw]
    rw [budget, total, State.totalHeld_congr (congrArg Budget.heldDemand budget)]
    exact h.ledger.2
  · obtain ⟨nodup, listed, sheddable⟩ := h.shed
    refine ⟨budget ▸ nodup, fun n => ?_, fun n => ?_⟩
    · obtain ⟨f, e⟩ := load n
      rw [e, budget]; exact listed n
    · obtain ⟨f, e⟩ := load n
      rw [e]; exact sheddable n

theorem LoadRec.FadeSound.tick {l : LoadRec} (h : l.FadeSound) : l.tick.FadeSound := by
  intro f fading
  obtain ⟨g, running, rfl⟩ := Option.map_eq_some_iff.1 fading
  exact h g running

theorem State.tick_kept (s : State) : Kept s s.tick := by
  have load : ∀ n, s.tick.load n = (s.load n).tick := fun n => get_mapTable _ _ n
  have axis : ∀ a, s.tick.axis a = (s.axis a).tick := fun a => get_mapTable _ _ a
  refine .of_timers (fun n => ⟨_, load n⟩) (fun n sound => load n ▸ sound.tick) ?_ rfl fun a => ?_
  · show (s.settle.map _).map _ = _
    rw [Option.map_map]; rfl
  · rw [axis]; rfl

theorem State.startSettle_kept (s : State) : Kept s s.startSettle := by
  simp only [State.startSettle]
  split
  · rename_i waits
    exact .of_timers (fun n => ⟨(s.load n).fade, rfl⟩) (fun _ => id) (by rw [waits]; rfl) rfl fun _ => rfl
  · exact .refl s

theorem State.endSource_kept (s : State) (source : ResetSource) : Kept s (s.endSource source).startSettle := by
  have ended : SameBooks s (s.endSource source) := by cases source <;> exact ⟨rfl, rfl, rfl, fun _ => rfl⟩
  exact ended.kept.trans (State.startSettle_kept _)

theorem State.endPeriod_same (s : State) (n : LoadNo) : SameBooks s (s.endPeriod n) := by
  rcases s.endPeriod_cases n with ⟨_, e⟩ | ⟨_, e⟩ <;> rw [e]
  · exact .refl s
  · exact ⟨rfl, rfl, rfl, fun _ => rfl⟩

/-! ### The resets -/

theorem State.powerOn_upholds (s : State) (low : Bool) : Upholds s (s.powerOn low) := fun _ _ =>
  ⟨(s.powerOn_lawful low).books, (s.powerOn_lawful low).budget, fun _ => nofun⟩

/-- A load after a warm reset is lawful, and dark until the fade-in (R45). -/
theorem LoadRec.Sound.warm {l : LoadRec} (h : l.Sound) : l.warm.Sound where
  derived := LoadRec.derived_recount rfl
  fades := LoadRec.fadeSound_none rfl
  range := ⟨Nat.zero_le _, h.range.2.1, LoadRec.effectiveTarget_le h.range.2.1, h.range.2.2.2⟩
  full := nofun

/-- A warm reset raises no counted draw: it ends forces and takes levels to 0 (R45). -/
theorem LoadRec.Sound.warm_draw {l : LoadRec} (h : l.Sound) : l.warm.countedDraw ≤ l.countedDraw := by
  have draw : l.warm.countedDraw = l.drawAt ({ l with forced := false } : LoadRec).effectiveTarget := by
    rw [LoadRec.warm_eq]; rfl
  rw [draw]
  refine (LoadRec.drawAt_mono l ?_).trans_eq h.derived.2.symm
  cases kind : l.kind with
  | none => simp only [LoadRec.effectiveTarget, kind, Nat.zero_le]
  | dim | switch =>
    by_cases forced : l.forced = true
    · have full : l.level = 1000 := h.full forced (by rw [kind]; decide)
      have low : ({ l with forced := false } : LoadRec).effectiveTarget ≤ 1000 := LoadRec.effectiveTarget_le h.range.2.1
      omega
    · have same : ({ l with forced := false } : LoadRec).effectiveTarget = l.effTarget :=
        (LoadRec.effectiveTarget_congr (l := l) (l' := { l with forced := false }) rfl rfl rfl
          (Bool.eq_false_iff.2 forced).symm).trans h.derived.1.symm
      rw [same]
      exact Nat.le_max_right _ _

theorem AxisRec.warm_demand (x : AxisRec) : x.warm.movingDemand = 0 := by
  have out : x.warm.inMotion = false := AxisRec.atRest_inMotion (x := x) (by split <;> simp)
  rw [AxisRec.movingDemand, out]; rfl

theorem State.warmReset_upholds (s : State) (cause : WarmCause) (persists : Bool) : Upholds s (s.warmReset cause persists) := by
  intro books _
  have eq := s.warmReset_eq cause persists
  have settle := s.warmReset_settle cause persists
  set w := s.warmReset cause persists
  have loads : w.loads = mapTable LoadRec.warm s.loads := congrArg State.loads eq
  have load : ∀ n, w.load n = (s.load n).warm := fun n => by rw [State.load, loads, get_mapTable]; rfl
  have axis : ∀ a, w.axis a = (s.axis a).warm := fun a => (congrArg (fun t : State => t.axis a) eq).trans (get_mapTable _ _ a)
  have budget : w.budget = s.budget.warm w.totalDraw := by
    rw [State.totalDraw_congr (t := w) (s := s.warmRecords) loads]; exact congrArg State.budget eq
  have kind : w.settle.map (·.kind) = some (warmKind (s.settle.map (·.kind))) := by rw [settle]; rfl
  have held : ∀ a, w.held a = 0 := fun a => by
    rw [State.held, budget]; exact get_replicate _ a
  have books' : w.Books := by
    refine ⟨fun n => load n ▸ (books.loads n).warm, State.kindLaw_iff.2 ⟨fun n => ?_, fun timer power n => ?_⟩,
      ⟨fun a => by rw [held, axis, AxisRec.warm_demand], ?_⟩, ?_⟩
    · rw [load]
      obtain ⟨switch, empty⟩ := books.kindSound n
      refine ⟨fun k => ⟨(switch k).1, .inr ⟨rfl, ?_⟩⟩, fun k => ⟨(empty k).1, rfl⟩⟩
      -- in the settle interval of a power-on reset there is no SWITCH load
      rw [State.warmSettle_iff, kind, warmKind, if_neg]
      intro power
      obtain ⟨timer, power⟩ := State.settle_kind.2 power
      exact absurd ((State.kindLaw_iff.1 books.kind).2 timer power n) (by rw [show (s.load n).kind = .switch from k]; decide)
    · have power := State.settle_kind.1 ⟨timer, power⟩
      rw [kind, warmKind, Option.some.injEq] at power
      split at power
      · rename_i within
        obtain ⟨timer, within⟩ := State.settle_kind.2 within
        rw [load]
        exact (State.kindLaw_iff.1 books.kind).2 timer within n
      · cases power
    · have committed : w.budget.committed = w.totalDraw := congrArg Budget.committed budget
      rw [State.totalHeld_eq, held, held, held, committed, Nat.add_zero]
    · obtain ⟨nodup, listed, sheddable⟩ := books.shed
      refine ⟨by rw [budget]; exact nodup, fun n => ?_, fun n => ?_⟩
      · rw [load, budget]; exact listed n
      · rw [load]; exact sheddable n
  refine ⟨books', fun clear => ?_, fun _ _ => ?_⟩
  · rw [budget] at clear ⊢
    exact Nat.le_of_not_lt (of_decide_eq_false clear)
  · exact books.ledger.committed_le books'.ledger (fun n => load n ▸ (books.loads n).warm_draw)
      fun a => (held a).le.trans (Nat.zero_le _)

/-! ### The end of the settle interval -/

/-- The fade-in brings a SWITCH load to its effective target and leaves a NONE load dark (R45). -/
theorem LoadRec.KindSound.fadeIn {l : LoadRec} {dark : Prop} (h : l.KindSound dark) (after : Prop) : l.fadeIn.KindSound after := by
  have target : l.fadeIn.setTarget = l.setTarget := by simp [LoadRec.fadeIn]
  refine ⟨fun k => ?_, fun k => ?_⟩ <;> rw [LoadRec.fadeIn_config] at k <;> rw [target]
  · refine ⟨(h.1 k).1, .inl ?_⟩
    rw [LoadRec.fadeIn, LoadRec.startFade_of_other (by rw [k]; decide), LoadRec.followSwitch_of_switch k]; rfl
  · refine ⟨(h.2 k).1, ?_⟩
    rw [LoadRec.fadeIn, LoadRec.startFade_of_other (by rw [k]; decide), LoadRec.followSwitch_of_other (by rw [k]; decide)]
    exact (h.2 k).2

theorem State.deficit_fadeInLoads (ns : List LoadNo) (s : State) :
    (ns.foldl State.fadeInLoad s).budget.deficit = s.budget.deficit := by
  induction ns generalizing s with
  | nil => rfl
  | cons n ns ih => rw [List.foldl_cons, ih, State.fadeInLoad, State.storeLoad_budget]

theorem State.endSettle_powerOn_kept {s : State} {timer : Option Nat} (power : s.settle = some { kind := .powerOn, timer := timer }) :
    Kept s s.begun where
  books h := by
    have empty := (State.kindLaw_iff.1 h.kind).2 timer power
    refine ⟨h.loads, State.kindLaw_iff.2 ⟨fun n => ⟨fun k => ?_, (h.kindSound n).2⟩, fun _ => nofun⟩, h.ledger, h.shed⟩
    exact absurd ((empty n).symm.trans k) (by decide)
  budget _ law := law
  noRise _ := ⟨id, fun _ _ => le_rfl, fun _ _ => le_rfl⟩

theorem State.endSettle_warm_kept (s : State) : Kept s (allLoads.foldl State.fadeInLoad s.begun) := by
  have run : LoadRun s.begun (allLoads.foldl State.fadeInLoad s.begun) := LoadRun.foldl State.fadeInLoad_run _ _
  have deficit := State.deficit_fadeInLoads allLoads s.begun
  have load : ∀ n, (allLoads.foldl State.fadeInLoad s.begun).load n = (s.load n).fadeIn := fun n => by
    rw [State.load_fadeInLoads allLoads_nodup, if_pos (allLoads_complete n)]; rfl
  set t := allLoads.foldl State.fadeInLoad s.begun
  have draws : s.Books → ∀ n, (t.load n).countedDraw ≤ (s.load n).countedDraw := fun h n => by
    rw [load]; exact LoadRec.fadeIn_draw (h.loads n).derived
  have books : s.Books → t.Books := fun h => by
    refine ⟨run.sound h.loads, State.kindLaw_iff.2 ⟨fun n => ?_, fun timer power => ?_⟩, run.ledger h.ledger, run.shedLaw h.shed⟩
    · rw [load]; exact (h.kindSound n).fadeIn _
    · rw [run.settle] at power; cases power
  refine ⟨books, fun h law clear => ?_, fun h => ⟨fun d => deficit ▸ d, fun _ => draws h, fun _ a => (run.held_eq a).le⟩⟩
  have fallen := h.ledger.committed_le (books h).ledger (draws h) fun a => (run.held_eq a).le
  rw [run.available]
  exact fallen.trans (law (deficit ▸ clear))

theorem State.settleOver_kept (s : State) : Kept s s.settleOver := by
  rcases s.settleOver_cases with ⟨_, e⟩ | ⟨k, due, e⟩ <;> rw [e]
  · exact .refl s
  · cases k with
    | powerOn => rw [State.endSettle_powerOn]; exact State.endSettle_powerOn_kept due
    | warm => rw [State.endSettle_warm]; exact s.endSettle_warm_kept

end Sys2Proof.Machine

namespace Sys2Proof.Machine

/-! ## Requests -/

/-! ### Ports -/

theorem State.endReceipt_same (s : State) (o : Origin) : SameBooks s (s.endReceipt o) := by
  refine ⟨by simp, by simp, by simp, fun a => ?_⟩
  rw [State.axis_congr (s.endReceipt_axes o)]

theorem State.postReply_same (s : State) (o : Origin) (kind : Byte) (b : ReplyBody) : SameBooks s (s.postReply o kind b) := by
  simp only [State.postReply]
  split
  · exact ⟨rfl, rfl, rfl, fun _ => rfl⟩
  · exact ⟨rfl, rfl, rfl, fun _ => rfl⟩

theorem State.driveOutputs_same (s : State) : SameBooks s s.driveOutputs := ⟨rfl, rfl, rfl, fun _ => rfl⟩

theorem State.answered_same (s : State) (o : Origin) (kind : Byte) (b : ReplyBody) : SameBooks s (s.answered o kind b) :=
  (s.postReply_same o kind b).trans (State.driveOutputs_same _)

theorem State.endFrame_same (s : State) (p : Port) : SameBooks s (s.endFrame p) := by
  cases p <;> exact ⟨rfl, rfl, rfl, fun _ => rfl⟩

theorem State.sendReply_same (s : State) : SameBooks s s.sendReply := by
  simp only [State.sendReply]
  split
  · exact ⟨rfl, rfl, rfl, fun _ => rfl⟩
  · exact .refl s

theorem State.readReply_same (s : State) : SameBooks s s.readReply := by
  simp only [State.readReply]
  split
  · exact ⟨rfl, rfl, rfl, fun _ => rfl⟩
  · exact .refl s

/-! ### Loads and scenes -/

/-- A SET_LEVEL on entries that all name loads with a KIND (R15, R16). -/
theorem applyEntries_configured_kept {skip : State → LoadNo → Bool} {fade : Nat} {es : List (LoadNo × Nat)} (k : Tally)
    {s : State} (configured : ∀ e ∈ es, (s.load e.1).kind ≠ .none) : Kept s (applyEntries skip fade es k s).2 := by
  refine applyEntries_kept k fun t run e mem _ => ?_
  rw [(run.changes e.1).config]
  exact configured e mem

/-- A load of a resolved group, space or ALL has a KIND (R16). -/
theorem State.configured_of_resolve {s : State} {t : Target} {n : LoadNo} (many : ∀ m, t ≠ .load m) (mem : n ∈ s.resolve t) :
    (s.load n).kind ≠ .none := by
  cases t with
  | load m => exact absurd rfl (many m)
  | group tag | space p | all => simp [State.resolve] at mem; tauto
  | _ => cases mem

theorem State.mem_of_filterPermitted {s : State} {o : Origin} {t : Target} {ns : List LoadNo} {n : LoadNo}
    (mem : n ∈ s.filterPermitted o t ns) : n ∈ ns := by
  simp only [State.filterPermitted] at mem
  split at mem
  · exact mem
  · exact (List.mem_filter.1 mem).1

theorem State.setLevels_kept {s : State} (o : Origin) {t : Target} (configured : s.unconfigured .setLevel t = false)
    (level fade : Nat) : Kept s (s.setLevels o t level fade).2 := by
  simp only [State.setLevels]
  split
  · split
    · exact .refl s
    · refine applyEntries_configured_kept _ fun e mem => ?_
      rw [List.mem_singleton.1 mem]
      simpa [State.unconfigured, ReqKind.namesAnyLoad] using configured
  · rename_i many
    split
    · exact .refl s
    · refine applyEntries_configured_kept _ fun e mem => ?_
      obtain ⟨n, kept, rfl⟩ := List.mem_map.1 mem
      exact State.configured_of_resolve many (State.mem_of_filterPermitted kept)

/-- A recall and a return skip the loads of kind NONE (R87). -/
theorem applyEntries_skipped_kept (o : Origin) (p : SpaceNo) (fade : Nat) (es : List (LoadNo × Nat)) (k : Tally) (s : State) :
    Kept s (applyEntries (State.entrySkipped o p) fade es k s).2 := by
  refine applyEntries_kept k fun t _ e _ reached empty => ?_
  simp [State.entrySkipped, empty] at reached

theorem State.setReturnStack_same (s : State) (p : SpaceNo) (fs : List StackFrame) : SameBooks s (s.setReturnStack p fs) :=
  ⟨rfl, rfl, rfl, fun _ => rfl⟩

theorem State.setScene_same (s : State) (v : SceneNo) (x : Scene) : SameBooks s (s.setScene v x) := ⟨rfl, rfl, rfl, fun _ => rfl⟩

theorem State.recall_kept (s : State) (o : Origin) (v : SceneNo) (fade : Nat) : Kept s (s.recall o v fade).2 := by
  simp only [State.recall]
  split
  · exact .refl s
  · have applied := applyEntries_skipped_kept o (sceneSpace v) (recallFade fade (s.scene v).defaultFade) (s.scene v).entries
      Tally.zero s
    dsimp only
    split
    · exact applied
    · exact applied.trans (State.setReturnStack_same _ _ _).kept

theorem State.returnScene_kept (s : State) (o : Origin) (p : SpaceNo) (fade : Nat) : Kept s (s.returnScene o p fade).2 := by
  simp only [State.returnScene]
  split
  · exact .refl s
  · exact (s.setReturnStack_same p _).kept.trans (applyEntries_skipped_kept o p fade _ _ _)

theorem State.decideWriteScene_kept (s : State) (v : SceneNo) (f : SceneFields) : Kept s (s.decideWriteScene v f).2 := by
  simp only [State.decideWriteScene]
  split
  · exact .refl s
  · split
    · exact .refl s
    · exact ((s.setScene_same v _).trans (State.setReturnStack_same _ _ _)).kept

/-! ### Claims -/

theorem State.tellHeldAxis_kept (s : State) (t : ClaimTarget) (er : EndReason) : Kept s (s.tellHeldAxis t er) := by
  cases t with
  | axis a => exact s.claimEnded_kept a er
  | load n => exact .refl s
  | space p => exact .refl s

theorem State.makeClaim_kept (s : State) (o : Origin) (t : ClaimTarget) (lease : Nat) : Kept s (s.makeClaim o t lease) := by
  have preempted : Kept s (s.preempt o t) := by
    refine (s.setClaims_same (s.claims.filter fun c => !(s.conflicts o t).contains c)).kept.trans ?_
    simp only [State.preempt]
    split
    · split
      · exact .refl _
      · exact State.claimEnded_kept _ _ _
    · exact .refl _
  rw [State.makeClaim_eq]
  exact preempted.trans (State.setClaims_same _ _).kept

theorem State.decideClaim_kept (s : State) (o : Origin) (t : ClaimTarget) (k : ClaimKind) (lease : Nat) :
    Kept s (s.decideClaim o t k lease).2 := by
  simp only [State.decideClaim]
  split_ifs
  · exact .refl s
  · exact (s.setClaims_same _).kept
  · exact .refl s
  · exact .refl s
  · exact .refl s
  · exact s.makeClaim_kept o t lease

theorem State.decideRenew_kept (s : State) (o : Origin) (t : ClaimTarget) (lease : Nat) : Kept s (s.decideRenew o t lease).2 := by
  simp only [State.decideRenew]
  split
  · exact (s.setClaims_same _).kept
  · exact .refl s

theorem State.decideRelease_kept (s : State) (o : Origin) (t : ClaimTarget) : Kept s (s.decideRelease o t).2 := by
  simp only [State.decideRelease]
  split
  · exact (s.setClaims_same _).kept.trans (State.tellHeldAxis_kept _ t _)
  · exact .refl s

theorem State.expireLease_kept (s : State) (t : ClaimTarget) : Kept s (s.expireLease t) := by
  simp only [State.expireLease]
  split
  · exact (s.setClaims_same _).kept.trans (State.tellHeldAxis_kept _ t _)
  · exact .refl s

/-! ### Axes, tables and run control -/

theorem State.decideMove_upholds (s : State) (o : Origin) (a : AxisNo) (d : Direction) (position : Nat) :
    Upholds s (s.decideMove o a d position).2 := by
  have replaced : SameBooks s (s.replaceTarget a position) := State.setAxis_same
  simp only [State.decideMove]
  split
  · exact .refl s
  split
  · exact .refl s
  · exact .refl s
  · exact .refl s
  · split
    · exact replaced.kept.upholds
    · exact .refl s
  · split
    · exact (replaced.kept.trans (State.testEnds_kept _ a _)).upholds
    · exact .refl s
  · rename_i parked
    exact State.startMove_upholds parked o d position

/-- The demand of an axis out of motion is not counted, so a write to it moves nothing (R99, R123). -/
theorem State.decideWriteAxis_kept (s : State) (a : AxisNo) (f : AxisFields) : Kept s (s.decideWriteAxis a f).2 := by
  simp only [State.decideWriteAxis]
  split
  · exact .refl s
  split
  · exact .refl s
  · rename_i idle _
    have out : (s.axis a).inMotion = false := by
      cases state : (s.axis a).state <;> simp_all [AxisRec.engaged, AxisRec.inMotion]
    have out' : ({ s.axis a with toAxisConfig := f.config } : AxisRec).inMotion = false := out
    exact State.setAxis_kept (by rw [AxisRec.movingDemand, AxisRec.movingDemand, out, out']; rfl)

theorem State.decideWriteSignal_kept (s : State) (a : AxisNo) (p : Pattern) : Kept s (s.decideWriteSignal a p).2 := by
  simp only [State.decideWriteSignal]
  split
  · exact (s.setChannel_same a _).kept
  · exact .refl s

theorem State.tellIfLost_kept (lost : List Claim) (s : State) (a : AxisNo) : Kept s (s.tellIfLost lost a) := by
  simp only [State.tellIfLost]
  split
  · exact s.claimEnded_kept a _
  · exact .refl s

theorem State.decideWriteStation_kept (s : State) (f : StationFields) : Kept s (s.decideWriteStation f).2 := by
  simp only [State.decideWriteStation]
  split
  · exact .refl s
  · rename_i p e _
    have written : SameBooks s { s with stations := s.stations.set p e } := ⟨rfl, rfl, rfl, fun _ => rfl⟩
    exact (written.trans (State.setClaims_same _ _)).kept.trans (Kept.foldl (State.tellIfLost_kept _) _ _)

theorem State.decideWriteInterlock_kept (s : State) (f : InterlockFields) : Kept s (s.decideWriteInterlock f).2 := by
  simp only [State.decideWriteInterlock]
  split
  · exact .refl s
  · rename_i p e _
    have written : SameBooks s (s.setInterlock p e) := ⟨rfl, rfl, rfl, fun _ => rfl⟩
    cases e with
    | none => exact written.kept
    | some x => exact written.kept.trans (State.blockSubject_kept _ x)

theorem State.decideSetBudget_upholds (s : State) (v : Nat) : Upholds s (s.decideSetBudget v).2 := by
  simp only [State.decideSetBudget]
  split
  · exact .refl s
  · exact s.applyBudget_upholds v

theorem State.setRunState_same (s : State) (r : RunState) : SameBooks s (s.setRunState r) := ⟨rfl, rfl, rfl, fun _ => rfl⟩
theorem State.clearStacks_same (s : State) : SameBooks s s.clearStacks := ⟨rfl, rfl, rfl, fun _ => rfl⟩

theorem State.haltPart_kept (s : State) : Kept s s.haltPart :=
  (Kept.foldl State.axisHalt_kept allAxes s).trans
    (((State.setClaims_same _ _).trans (State.clearStacks_same _)).trans (State.setRunState_same _ _)).kept

theorem State.viewOf_same (s : State) (t : Target) : (s.viewOf t).2 = s := by cases t <;> rfl

/-! ### The Dispatcher -/

section
variable {α : Type} {k : ReqKind} {o : Origin} {s t : State}

theorem State.settled_of_admission (h : s.admission o = none) : s.settle = none := by
  by_contra settling
  rw [State.admission_settling o settling] at h
  cases h

/-- An owner is reached only with the settle interval over, and a refusal before it changes no record (R8, R12). -/
theorem decideBody_upholds {parsed : Option α} {owner : α → State → Decision}
    (owned : ∀ x s, s.settle = none → Upholds s (owner x s).2) (s : State) : Upholds s (decideBody k o parsed owner s).2 := by
  cases admitted : s.admission o with
  | some c => rw [decideBody_refused admitted]; exact .refl s
  | none =>
    cases screened : s.screen k o parsed.isSome with
    | some c => rw [decideBody_screened admitted screened]; exact .refl s
    | none =>
      obtain ⟨x, -, e⟩ := decideBody_owned (owner := owner) admitted screened
      rw [e]
      exact owned x s (State.settled_of_admission admitted)

theorem State.configured_of_checkTarget {x : RawTarget} {t : Target} (h : s.checkTarget k o x = .ok t) :
    s.unconfigured k t = false := by
  by_cases listed : x.cls ∈ k.classes
  · cases typed : x.typed with
    | none => rw [State.checkTarget_value typed] at h; cases h
    | some u =>
      rw [State.checkTarget_typed listed typed] at h
      split_ifs at h with unconfigured
      cases h
      simpa using unconfigured
  · rw [State.checkTarget_class listed] at h; cases h

/-- Its owner is handed a target that the checks let through (R15). -/
theorem decideTarget_upholds {parsed : Option (RawTarget × α)} {owner : Target → α → State → Decision}
    (owned : ∀ t x s, s.settle = none → s.unconfigured k t = false → Upholds s (owner t x s).2) (s : State) :
    Upholds s (decideTarget k o parsed owner s).2 := by
  refine decideBody_upholds (fun x s settled => ?_) s
  split
  · exact .refl s
  · rename_i checked
    exact owned _ _ s settled (State.configured_of_checkTarget checked)

theorem serve_upholds {kind : Byte} {body : List Byte} {f : State → Decision} (decided : ∀ r, Upholds r (f r).2)
    (run : serve o kind body f s = .next t) : Upholds s t := by
  have ended := s.endReceipt_same o
  by_cases h : body.length ≤ 60 ∧ s.hasRoom o = true
  · rw [serve_decided h.2 h.1] at run
    cases run
    exact ended.trans_upholds ((decided _).trans_kept (State.answered_same _ _ _ _).kept)
  · have dropped : s.hasRoom o = false ∨ 60 < body.length := by
      rcases Bool.eq_false_or_eq_true (s.hasRoom o) with room | none
      · exact .inr (by by_contra fits; exact h ⟨by omega, room⟩)
      · exact .inl none
    rw [serve_dropped dropped] at run
    cases run
    exact ended.kept.upholds

theorem targeted_upholds {body : List Byte} {parsed : Option (RawTarget × α)} {owner : Target → α → State → Decision}
    (run : serve o k.code body (decideTarget k o parsed owner) s = .next t)
    (owned : ∀ t x s, s.settle = none → s.unconfigured k t = false → Upholds s (owner t x s).2) : Upholds s t :=
  serve_upholds (decideTarget_upholds owned) run

theorem untargeted_upholds {body : List Byte} {parsed : Option α} {owner : α → State → Decision}
    (run : serve o k.code body (decideBody k o parsed owner) s = .next t)
    (owned : ∀ x s, s.settle = none → Upholds s (owner x s).2) : Upholds s t :=
  serve_upholds (decideBody_upholds owned) run

end

/-- Every request upholds the laws of loads and budget, by its owner. -/
theorem request_upholds {s t : State} (k : ReqKind) (o : Origin) (body : List Byte) (run : execRequest k o body s = .next t) :
    Upholds s t := by
  cases k with
  | query =>
    refine targeted_upholds run fun t _ s _ _ => ?_
    rw [State.viewOf_same]; exact .refl s
  | setLevel => exact targeted_upholds run fun t x s _ configured => (State.setLevels_kept o configured x.1 x.2).upholds
  | recallScene =>
    refine targeted_upholds run fun t fade s _ _ => ?_
    cases t with
    | scene v => exact (s.recall_kept o v fade).upholds
    | _ => exact .refl s
  | returnScene =>
    refine targeted_upholds run fun t fade s _ _ => ?_
    cases t with
    | space p => exact (s.returnScene_kept o p fade).upholds
    | _ => exact .refl s
  | claim =>
    refine targeted_upholds run fun t x s _ _ => ?_
    cases claimTargetOf t with
    | some ct => exact (s.decideClaim_kept o ct x.1 x.2).upholds
    | none => exact .refl s
  | renew =>
    refine targeted_upholds run fun t lease s _ _ => ?_
    cases claimTargetOf t with
    | some ct => exact (s.decideRenew_kept o ct lease).upholds
    | none => exact .refl s
  | release =>
    refine targeted_upholds run fun t _ s _ _ => ?_
    cases claimTargetOf t with
    | some ct => exact (s.decideRelease_kept o ct).upholds
    | none => exact .refl s
  | move =>
    refine targeted_upholds run fun t x s _ _ => ?_
    cases t with
    | axis a => exact s.decideMove_upholds o a x.1 x.2
    | _ => exact .refl s
  | stop =>
    refine targeted_upholds run fun t _ s _ _ => ?_
    cases t with
    | axis a => exact (s.stopAxis_kept a).upholds
    | _ => exact .refl s
  | writeStation => exact untargeted_upholds run fun f s _ => (s.decideWriteStation_kept f).upholds
  | writeLoad =>
    refine targeted_upholds run fun t f s settled _ => ?_
    cases t with
    | load n => exact State.decideWriteLoad_upholds settled n f
    | _ => exact .refl s
  | writeAxis =>
    refine targeted_upholds run fun t f s _ _ => ?_
    cases t with
    | axis a => exact (s.decideWriteAxis_kept a f).upholds
    | _ => exact .refl s
  | writeInterlock => exact untargeted_upholds run fun f s _ => (s.decideWriteInterlock_kept f).upholds
  | writeSignal =>
    refine targeted_upholds run fun t p s _ _ => ?_
    cases t with
    | axis a => exact (s.decideWriteSignal_kept a p).upholds
    | _ => exact .refl s
  | takeScene =>
    refine targeted_upholds run fun t _ s _ _ => ?_
    cases t with
    | scene v => exact (s.setScene_same v _).kept.upholds
    | _ => exact .refl s
  | writeScene =>
    refine targeted_upholds run fun t f s _ _ => ?_
    cases t with
    | scene v => exact (s.decideWriteScene_kept v f).upholds
    | _ => exact .refl s
  | giveScene =>
    refine targeted_upholds run fun t _ s _ _ => ?_
    cases t with
    | scene v => exact (s.setScene_same v _).kept.upholds
    | _ => exact .refl s
  | setBudget => exact untargeted_upholds run fun v s _ => s.decideSetBudget_upholds v
  | clearLockout =>
    refine targeted_upholds run fun t _ s _ _ => ?_
    cases t with
    | axis a => exact (s.clearLockout_kept a).upholds
    | _ => exact .refl s
  | start => exact untargeted_upholds run fun _ s _ => (s.setRunState_same _).kept.upholds
  | halt => exact untargeted_upholds run fun _ s _ => s.haltPart_kept.upholds
  | readNotice => exact untargeted_upholds run fun _ s _ => (s.setNotices_same _).kept.upholds

theorem unknownKind_upholds {s t : State} {o : Origin} {kind : Byte} {body : List Byte}
    (run : execUnknownKind o kind body s = .next t) : Upholds s t := by
  unfold execUnknownKind at run
  split at run
  · exact request_upholds _ o body run
  · refine serve_upholds (fun r => ?_) run
    obtain ⟨c, e⟩ := refuseKind_eq o r
    rw [e]; exact .refl r

theorem frameDropped_upholds {s t : State} {p : Port} {bytes : List Byte} (run : execFrameDropped p bytes s = .next t) :
    Upholds s t := by
  unfold execFrameDropped at run
  split at run
  · cases run
    exact (s.endFrame_same p).kept.upholds
  · exact unknownKind_upholds run

/-! ## Every step -/

theorem Upholds.complete {s u t : State} (h : Upholds s u) (run : u.complete = .next t) : Upholds s t := by
  cases run
  exact h.trans_kept u.driveOutputs_same.kept

theorem exec_upholds {s t : State} (i : Instr) (run : exec i s = .next t) : Upholds s t := by
  cases i with
  | query o b => exact request_upholds .query o b run
  | setLevel o b => exact request_upholds .setLevel o b run
  | recallScene o b => exact request_upholds .recallScene o b run
  | returnScene o b => exact request_upholds .returnScene o b run
  | claim o b => exact request_upholds .claim o b run
  | renew o b => exact request_upholds .renew o b run
  | release o b => exact request_upholds .release o b run
  | move o b => exact request_upholds .move o b run
  | stop o b => exact request_upholds .stop o b run
  | writeStation o b => exact request_upholds .writeStation o b run
  | writeLoad o b => exact request_upholds .writeLoad o b run
  | writeAxis o b => exact request_upholds .writeAxis o b run
  | writeInterlock o b => exact request_upholds .writeInterlock o b run
  | writeSignal o b => exact request_upholds .writeSignal o b run
  | takeScene o b => exact request_upholds .takeScene o b run
  | writeScene o b => exact request_upholds .writeScene o b run
  | giveScene o b => exact request_upholds .giveScene o b run
  | setBudget o b => exact request_upholds .setBudget o b run
  | clearLockout o b => exact request_upholds .clearLockout o b run
  | start o b => exact request_upholds .start o b run
  | halt o b => exact request_upholds .halt o b run
  | readNotice o b => exact request_upholds .readNotice o b run
  | unknownKind o kind b => exact unknownKind_upholds run
  | frameDropped p bytes => exact frameDropped_upholds run
  | replySent => exact s.sendReply_same.kept.upholds.complete run
  | replyRead => exact s.readReply_same.kept.upholds.complete run
  | leaseExpiry x => exact (s.expireLease_kept x).upholds.complete run
  | fadeStep n => exact (s.fadeStep_kept n).upholds.complete run
  | outputPeriodEnd n => exact (s.endPeriod_same n).kept.upholds.complete run
  | rampExpiry a => exact (s.ramp_same a).kept.upholds.complete run
  | brakeSettleExpiry a => exact (s.brakeSettled_kept a).upholds.complete run
  | confirmWindowExpiry a => exact (s.confirmWindow_kept a).upholds.complete run
  | pulseWatchExpiry a => exact (s.pulseWatchEnd_kept a).upholds.complete run
  | overCurrentExpiry a => exact (s.overCurrentEnd_kept a).upholds.complete run
  | restExpiry a => exact (s.restEnd_upholds a).complete run
  | signalMarkEnd a => exact (s.markEnd_same a).kept.upholds.complete run
  | signalCycleEnd a => exact (s.cycleEnd_kept a).upholds.complete run
  | settleExpiry => exact s.settleOver_kept.upholds.complete run
  | positionPulse a => exact (s.pulse_kept a).upholds.complete run
  | homeActive a => exact (s.homeFound_kept a).upholds.complete run
  | homeInactive a => exact (s.setAxisIn_same a _).kept.upholds.complete run
  | safetyEdgeActive a => exact (s.edgePressed_kept a).upholds.complete run
  | safetyEdgeInactive a => exact (s.setAxisIn_same a _).kept.upholds.complete run
  | currentRise a v => exact (s.setCurrent_same a _).kept.upholds.complete run
  | currentFall a v => exact (s.setCurrent_same a _).kept.upholds.complete run
  | powerOnReset low => exact (s.powerOn_upholds low).complete run
  | warmReset cause persists => exact (s.warmReset_upholds cause persists).complete run
  | resetSourceEnd source => exact (s.endSource_kept source).upholds.complete run

theorem State.setQueue_same (s : State) (queue : List Instr) (tie : Nat) :
    SameBooks s { s with pending := queue, tieCount := tie } := ⟨rfl, rfl, rfl, fun _ => rfl⟩

theorem idle_upholds {s t : State} (run : s.idle = .next t) : Upholds s t := by
  unfold State.idle at run
  split at run
  · cases run
    exact s.tick_kept.upholds
  · exact exec_upholds _ run
  · exact (s.setQueue_same s.pending _).trans_upholds (exec_upholds _ run)

theorem step_upholds {s t : State} (run : step s = .next t) : Upholds s t := by
  unfold step State.takeStep at run
  split at run
  · exact (s.setQueue_same _ s.tieCount).trans_upholds (exec_upholds _ run)
  · exact idle_upholds run

/-- Settles O59: each event upholds the books of a lawful part; COMMITTED is a sum, no part of which rises in deficit. -/
theorem everyStepKeepsLoadsAndBudget : Obligations.every_step_keeps_loads_and_budget := by
  intro s t lawful run
  obtain ⟨⟨loads, kind, ledger, shed⟩, budget, fall⟩ := step_upholds run lawful.books lawful.budget
  exact ⟨fun n => (loads n).range, fun n => (loads n).derived, kind, fun n => (loads n).fades, shed, ledger, budget, fall⟩

end Sys2Proof.Machine

namespace Sys2Proof.Machine

/-! ## The course of an undisturbed fade (R65) -/

/-! ### The way gone after k steps

R65 places a fade after k of its N steps at k · Q + ⌊k · R / N⌋, and its ACC at k · R mod N. -/

/-- How far a fade over `distance` in `steps` steps has moved the level after `k` of them. -/
def fadeTravel (distance steps k : Nat) : Nat := k * (distance / steps) + k * (distance % steps) / steps

section
variable {distance steps : Nat}

theorem fadeTravel_zero : fadeTravel distance steps 0 = 0 := by simp [fadeTravel]

theorem fadeTravel_all (many : 0 < steps) : fadeTravel distance steps steps = distance := by
  rw [fadeTravel, Nat.mul_div_cancel_left _ many, Nat.div_add_mod]

/-- R64, steps 2 and 3: ACC carries once it reaches N. -/
theorem fadeAcc_succ {r : Nat} (below : r < steps) (k : Nat) :
    (k + 1) * r % steps = if steps ≤ k * r % steps + r then k * r % steps + r - steps else k * r % steps + r := by
  rw [Nat.succ_mul, Nat.add_mod_eq_ite, Nat.mod_eq_of_lt below]

/-- A step goes Q, and one more where ACC carries. -/
theorem fadeTravel_succ (many : 0 < steps) (k : Nat) :
    fadeTravel distance steps (k + 1) = fadeTravel distance steps k
      + (distance / steps + if steps ≤ k * (distance % steps) % steps + distance % steps then 1 else 0) := by
  have below : distance % steps < steps := Nat.mod_lt _ many
  rw [fadeTravel, fadeTravel, Nat.succ_mul, Nat.succ_mul, Nat.add_div many, Nat.div_eq_of_lt below, Nat.mod_eq_of_lt below]
  omega

theorem fadeTravel_mono (many : 0 < steps) : Monotone (fadeTravel distance steps) :=
  monotone_nat_of_le_succ fun k => by rw [fadeTravel_succ many]; exact Nat.le_add_right _ _

theorem fadeTravel_le (many : 0 < steps) {k : Nat} (within : k ≤ steps) : fadeTravel distance steps k ≤ distance :=
  (fadeTravel_mono many within).trans_eq (fadeTravel_all many)

/-- A step goes Q or Q + 1, and never more than the distance over N, rounded up: with R = 0 no step carries. -/
theorem fadeTravel_move (many : 0 < steps) (k : Nat) :
    let move := fadeTravel distance steps (k + 1) - fadeTravel distance steps k
    (move = distance / steps ∨ move = distance / steps + 1) ∧ move ≤ (distance + steps - 1) / steps := by
  have parts : distance / steps * steps + distance % steps = distance := Nat.div_add_mod' _ _
  rw [fadeTravel_succ many, Nat.add_sub_cancel_left]
  dsimp only
  rw [Nat.le_div_iff_mul_le many]
  split
  · rename_i carries
    have spread : 0 < distance % steps := by have := Nat.mod_lt (k * (distance % steps)) many; omega
    rw [Nat.add_one_mul]
    exact ⟨.inr rfl, by omega⟩
  · exact ⟨.inl rfl, by rw [Nat.add_zero]; omega⟩

end

/-! ### The record on its way -/

/-- What a load has to go to its effective target. -/
def LoadRec.toGo (l : LoadRec) : Nat :=
  if l.level < l.effTarget then l.effTarget - l.level else l.level - l.effTarget

/-- The level reached `way` from the present one, toward the effective target. -/
def LoadRec.levelAfter (l : LoadRec) (way : Nat) : Nat :=
  if l.level < l.effTarget then l.level + way else l.level - way

/-- The fade record of R62 as R65 gives it after `k` steps. -/
def LoadRec.fadeAfter (l : LoadRec) (steps k : Nat) : Fade :=
  { rising := decide (l.level < l.effTarget), q := l.toGo / steps, r := l.toGo % steps, n := steps
    remaining := steps - k, acc := k * (l.toGo % steps) % steps, stepTimer := fadeStepMs }

/-- A load on its way, `k` of `steps` steps gone. -/
def LoadRec.onWay (l : LoadRec) (steps k : Nat) : LoadRec :=
  { l with
    level := l.levelAfter (fadeTravel l.toGo steps k)
    fade := if k < steps then some (l.fadeAfter steps k) else none }

section
variable {l : LoadRec} {steps k : Nat}

theorem LoadRec.levelAfter_zero : l.levelAfter 0 = l.level := by simp [LoadRec.levelAfter]

theorem LoadRec.levelAfter_toGo : l.levelAfter l.toGo = l.effTarget := by
  simp only [LoadRec.levelAfter, LoadRec.toGo]
  split <;> omega

theorem LoadRec.levelAfter_add (way move : Nat) :
    l.levelAfter (way + move) = if l.level < l.effTarget then l.levelAfter way + move else l.levelAfter way - move := by
  simp only [LoadRec.levelAfter]
  split <;> omega

/-- On its way a load moves toward its target and not past it, as far as the way it goes. -/
theorem LoadRec.levelAfter_toward {way way' : Nat} (on : way ≤ way') (within : way' ≤ l.toGo) :
    let a := l.levelAfter way
    let b := l.levelAfter way'
    (if l.level < l.effTarget then a ≤ b ∧ b ≤ l.effTarget else b ≤ a ∧ l.effTarget ≤ b)
      ∧ (if l.level < l.effTarget then b - a else a - b) = way' - way := by
  simp only [LoadRec.levelAfter, LoadRec.toGo] at within ⊢
  by_cases rises : l.level < l.effTarget
  · simp only [rises, if_true] at within ⊢
    omega
  · simp only [rises, if_false] at within ⊢
    omega

theorem LoadRec.onWay_zero (many : 0 < steps) : l.onWay steps 0 = { l with fade := some (l.fadeAfter steps 0) } := by
  rw [LoadRec.onWay, fadeTravel_zero, LoadRec.levelAfter_zero, if_pos many]

/-- A fade is started with nothing of its way gone (R62). -/
theorem LoadRec.startFade_onWay (dim : l.kind = .dim) (free : l.forced = false) (away : l.effTarget ≠ l.level)
    (many : 0 < steps) : l.startFade steps = l.onWay steps 0 := by
  rw [LoadRec.startFade_record dim free away many, LoadRec.onWay_zero many, LoadRec.fadeAfter, Nat.zero_mul, Nat.zero_mod]
  rfl

/-- One step of R64 takes a load from its place after `k` steps to its place after one more, whether ACC carries or
not. -/
theorem LoadRec.stepFade_onWay (left : k < steps) :
    (l.onWay steps k).stepFade (l.fadeAfter steps k) = l.onWay steps (k + 1) := by
  have many : 0 < steps := by omega
  have last : steps - k ≤ 1 ↔ ¬ k + 1 < steps := by omega
  have acc := fadeAcc_succ (Nat.mod_lt l.toGo many) k
  by_cases carries : steps ≤ k * (l.toGo % steps) % steps + l.toGo % steps <;>
    simp only [LoadRec.stepFade, LoadRec.onWay, LoadRec.fadeAfter, fadeTravel_succ many, LoadRec.levelAfter_add, acc, last,
      carries, ite_not, decide_eq_true_eq, Nat.sub_sub, if_true, if_false]

/-- An undisturbed fade is after each step where R65 places it. -/
theorem LoadRec.afterSteps_onWay (within : k ≤ steps) : (l.onWay steps 0).afterSteps k = l.onWay steps k := by
  induction k with
  | zero => rfl
  | succ k ih =>
    have fading : (l.onWay steps k).fade = some (l.fadeAfter steps k) := if_pos within
    rw [LoadRec.afterSteps, ih (Nat.le_of_succ_le within), fading]
    exact LoadRec.stepFade_onWay within

/-- At its last step the fade stands at the target, and its record is gone. -/
theorem LoadRec.onWay_all (many : 0 < steps) : l.onWay steps steps = { l with level := l.effTarget, fade := none } := by
  rw [LoadRec.onWay, fadeTravel_all many, LoadRec.levelAfter_toGo, if_neg (Nat.lt_irrefl _)]

end

/-- Settles O16: the course of the record by induction over the steps, the bounds from the way gone. -/
theorem aFadeLandsOnItsTarget : Obligations.a_fade_lands_on_its_target := by
  intro l steps dim free apart many rising distance q r record
  have rest : r = l.toGo % steps := (Nat.mod_eq_sub_div_mul).symm
  have recorded (k : Nat) : record k = l.fadeAfter steps k := by simp only [record, rest]; rfl
  have started := LoadRec.startFade_onWay dim free (Ne.symm apart) many
  have course (k : Nat) (within : k ≤ steps) : (l.startFade steps).afterSteps k = l.onWay steps k := by
    rw [started, LoadRec.afterSteps_onWay within]
  refine ⟨?_, fun k _ within => ?_, fun k left => ?_, fun k left => ?_, ?_⟩
  · rw [started, recorded, LoadRec.onWay_zero many]
  · rw [course k within, rest]; rfl
  · rw [course k left.le, recorded]; exact if_pos left
  · rw [course k left.le, course (k + 1) left]
    obtain ⟨toward, moved⟩ := l.levelAfter_toward (fadeTravel_mono many k.le_succ) (fadeTravel_le many left)
    obtain ⟨size, longest⟩ := fadeTravel_move (distance := l.toGo) many k
    rw [← moved] at size longest
    exact ⟨toward, size, longest⟩
  · rw [course steps le_rfl, LoadRec.onWay_all many]

/-! ## The duty of a level and the output period (R74 to R76) -/

/-- The base of R75: 4095 thousandths of thousandths of the level squared, rounded to the nearest with a half up. -/
def dutyBase (level : Nat) : Nat := (level * level * 4095 + 500000) / 1000000

theorem dutyBase_mono : Monotone dutyBase := fun a b le => by
  have squares : a * a ≤ b * b := Nat.mul_le_mul le le
  unfold dutyBase
  omega

theorem dutyBase_le {level : Nat} (range : level ≤ 1000) : dutyBase level ≤ 4095 := dutyBase_mono range

/-- The base rounds to 0 up to level 11, 0.495 of a count, and from level 12 on, 0.589 of one, no more. -/
theorem dutyBase_eq_zero_iff (level : Nat) : dutyBase level = 0 ↔ level ≤ 11 := by
  constructor
  · intro zero
    by_contra above
    have one : dutyBase 12 ≤ dutyBase level := dutyBase_mono (by omega)
    rw [zero] at one
    exact absurd one (by decide)
  · exact fun low => Nat.le_zero.mp (dutyBase_mono low)

section
variable {l : LoadRec}

theorem LoadRec.duty_none (unlit : l.kind = .none) : l.duty = 0 := by simp only [LoadRec.duty, unlit]

theorem LoadRec.duty_switch (switch : l.kind = .switch) : l.duty = if 0 < l.level then 4095 else 0 := by
  simp only [LoadRec.duty, switch]

theorem LoadRec.duty_dim (dim : l.kind = .dim) : l.duty = if l.level = 0 then 0 else max (dutyBase l.level) l.minDuty := by
  simp only [LoadRec.duty, dim]; rfl

theorem LoadRec.duty_dim_lit (dim : l.kind = .dim) (lit : 1 ≤ l.level) : l.duty = max (dutyBase l.level) l.minDuty := by
  rw [LoadRec.duty_dim dim, if_neg (Nat.ne_of_gt lit)]

/-- A DIM load at a higher level has no lower duty. -/
theorem LoadRec.duty_le_of_level_le (dim : l.kind = .dim) (lit : 1 ≤ l.level) {m : Nat} (le : l.level ≤ m) :
    l.duty ≤ ({ l with level := m } : LoadRec).duty := by
  rw [LoadRec.duty_dim_lit dim lit, LoadRec.duty_dim_lit (l := { l with level := m }) dim (lit.trans le)]
  exact max_le_max_right _ (dutyBase_mono le)

end

/-- Settles O18: Table 4-3 by the kind of the load, and the end of a period by whether it has run out. -/
theorem outputDutyAndPeriod : Obligations.output_duty_and_period := by
  refine ⟨fun l => ⟨LoadRec.duty_none, fun switch off => ?_, fun switch on => ?_, fun dim off => ?_,
    fun dim lit range => ⟨?_, dutyBase_le range, dutyBase_eq_zero_iff _, fun full => ?_,
      fun m le _ => LoadRec.duty_le_of_level_le dim lit le⟩⟩, fun s n => ?_⟩
  · rw [LoadRec.duty_switch switch, off]; rfl
  · rw [LoadRec.duty_switch switch, on]; rfl
  · rw [LoadRec.duty_dim dim, if_pos off]
  · rw [LoadRec.duty_dim_lit dim lit, max_comm, max_def]; rfl
  · rw [full]
  · have event : exec (.outputPeriodEnd n) s = .next (s.endPeriod n).driveOutputs := rfl
    rcases s.endPeriod_cases n with ⟨runs, e⟩ | ⟨ended, e⟩
    · rw [event, e, if_pos runs]
    · rw [event, e, if_neg (not_not_intro ended), Output.nextPeriod]
      cases (s.output n).staged <;> rfl

end Sys2Proof.Machine

/-! # Proofs of the statements on scenes and return stacks

A recall and a return give the entries they name one SET_LEVEL each. `EntriesGiven` says once what that makes of the loads and
of the three counts; the two differ in where the entries come from and in what becomes of the return stack. -/

namespace Sys2Proof.Machine

/-! ## The requests -/

section
variable {s : State} {o : Origin}

/-- A request whose body is read and whose target passes its checks is decided by its owner and answered (R12 to R15). -/
theorem serve_targeted {α : Type} {k : ReqKind} {body : List Byte} {t : Target} {y : α}
    {owner : Target → α → State → Decision} (takes : s.Takes k o) (fits : body.length ≤ 60) (hx : t.raw.Names t)
    (hc : t.raw.cls ∈ k.classes) (configured : s.unconfigured k t = false) (permitted : s.permitted k o t = true) :
    serve o k.code body (decideTarget k o (some (t.raw, y)) owner) s
      = .next ((owner t y (s.endReceipt o)).2.answered o k.code (owner t y (s.endReceipt o)).1) := by
  have ok : (s.endReceipt o).checkTarget k o t.raw = .ok t := by
    rw [State.endReceipt_checkTarget]; exact State.checkTarget_names hx hc configured permitted
  rw [serve_decided takes.room fits, decideTarget_owned takes.endReceipt ok]

theorem targetWordBody_fits (x : RawTarget) (w : Nat) : (targetWordBody x w).length ≤ 60 := by
  simp [targetWordBody, targetBytes, bytesOf]

theorem exec_recallScene {v : SceneNo} {fade : Nat} (hf : fade < 65536) (takes : s.Takes .recallScene o)
    (permits : s.permitsSpace o (sceneSpace v) = true) :
    exec (.recallScene o (targetWordBody (Target.scene v).raw fade)) s
      = .next (((s.endReceipt o).recall o v fade).2.answered o ReqKind.recallScene.code
          ((s.endReceipt o).recall o v fade).1) := by
  have named := Target.raw_names (t := .scene v) nofun
  show execRecallScene o _ s = _
  rw [execRecallScene, readTargetWord_body named.1 hf,
    serve_targeted takes (targetWordBody_fits _ _) named (by simp [Target.raw, ReqKind.classes]) rfl permits]

theorem exec_returnScene {p : SpaceNo} {fade : Nat} (hf : fade < 65536) (takes : s.Takes .returnScene o)
    (permits : s.permitsSpace o p = true) :
    exec (.returnScene o (targetWordBody (Target.space p).raw fade)) s
      = .next (((s.endReceipt o).returnScene o p fade).2.answered o ReqKind.returnScene.code
          ((s.endReceipt o).returnScene o p fade).1) := by
  have named := Target.raw_names (t := .space p) nofun
  show execReturnScene o _ s = _
  rw [execReturnScene, readTargetWord_body named.1 hf,
    serve_targeted takes (targetWordBody_fits _ _) named (by simp [Target.raw, ReqKind.classes]) rfl permits]

/-- Management is permitted every space (R11). -/
theorem State.permitsSpace_of_management {k : ReqKind} (takes : s.Takes k o) (only : k.managementOnly = true) (p : SpaceNo) :
    s.permitsSpace o p = true := by
  simp [State.permitsSpace, takes.origin only]

theorem exec_takeScene {v : SceneNo} (takes : s.Takes .takeScene o) :
    exec (.takeScene o (Target.scene v).bytes) s
      = .next (((s.endReceipt o).ownScene v .management).answered o ReqKind.takeScene.code (.plain .done)) := by
  have named := Target.raw_names (t := .scene v) nofun
  show execTakeScene o _ s = _
  rw [execTakeScene, Target.bytes, readTargetBody_bytes named.1,
    serve_targeted takes (by simp [targetBytes, bytesOf]) named (by simp [Target.raw, ReqKind.classes]) rfl
      (State.permitsSpace_of_management takes rfl _)]
  rfl

theorem exec_giveScene {v : SceneNo} (takes : s.Takes .giveScene o) :
    exec (.giveScene o (Target.scene v).bytes) s
      = .next (((s.endReceipt o).ownScene v .live).answered o ReqKind.giveScene.code (.plain .done)) := by
  have named := Target.raw_names (t := .scene v) nofun
  show execGiveScene o _ s = _
  rw [execGiveScene, Target.bytes, readTargetBody_bytes named.1,
    serve_targeted takes (by simp [targetBytes, bytesOf]) named (by simp [Target.raw, ReqKind.classes]) rfl
      (State.permitsSpace_of_management takes rfl _)]
  rfl

/-- Up to 18 entries fit the body of a frame (R1, R5). -/
theorem writeScene_fits {x : RawTarget} {fade : Nat} {es : List (Nat × Nat)} (len : es.length ≤ 18) :
    (targetBytes x ++ sceneBytes fade es).length ≤ 60 := by
  simp [targetBytes, sceneBytes, bytesOf, List.length_flatMap]; omega

theorem exec_writeScene {v : SceneNo} {fade : Nat} {es : List (Nat × Nat)} (hf : fade < 65536) (len : es.length ≤ 18)
    (range : ∀ e ∈ es, e.1 < 256 ∧ e.2 < 65536) (takes : s.Takes .writeScene o) :
    exec (.writeScene o ((Target.scene v).bytes ++ sceneBytes fade es)) s
      = .next (((s.endReceipt o).decideWriteScene v ⟨fade, es⟩).2.answered o ReqKind.writeScene.code
          ((s.endReceipt o).decideWriteScene v ⟨fade, es⟩).1) := by
  have named := Target.raw_names (t := .scene v) nofun
  show execWriteScene o _ s = _
  rw [execWriteScene, Target.bytes, readWriteScene_bytes named.1 hf (by omega) range,
    serve_targeted takes (writeScene_fits len) named (by simp [Target.raw, ReqKind.classes]) rfl
      (State.permitsSpace_of_management takes rfl _)]

end

/-! ## The Scene Store -/

section
variable (s : State) (o : Origin)

@[simp] theorem State.endReceipt_scene (v : SceneNo) : (s.endReceipt o).scene v = s.scene v := by
  simp only [State.endReceipt]; split <;> rfl

@[simp] theorem State.endReceipt_returnStack (p : SpaceNo) : (s.endReceipt o).returnStack p = s.returnStack p := by
  simp only [State.endReceipt]; split <;> rfl

theorem State.endReceipt_sceneFieldsOk (p : SpaceNo) (f : SceneFields) :
    (s.endReceipt o).sceneFieldsOk p f = s.sceneFieldsOk p f := by
  simp only [State.sceneFieldsOk, State.endReceipt_load]

end

theorem State.recall_management {s : State} {o : Origin} {v : SceneNo} (owned : (s.scene v).owner = .management) (fade : Nat) :
    s.recall o v fade = (.plain .sceneOwned, s) := by
  simp only [State.recall, owned]; rfl

theorem State.decideWriteScene_live {s : State} {v : SceneNo} (owned : (s.scene v).owner = .live) (f : SceneFields) :
    s.decideWriteScene v f = (.plain .sceneLive, s) := by
  simp only [State.decideWriteScene, owned]; rfl

theorem State.decideWriteScene_management {s : State} {v : SceneNo} (owned : (s.scene v).owner = .management)
    (f : SceneFields) :
    s.decideWriteScene v f = if s.sceneFieldsOk (sceneSpace v) f = false then (.plain .badValue, s)
      else (.plain .done, (s.setScene v
        { owner := .management, defaultFade := f.defaultFade, entries := sceneEntries f.entries }).setReturnStack
          (sceneSpace v) []) := by
  simp only [State.decideWriteScene, owned]; rfl

/-- In range, the number a scene holds is the number the body carries (R83). -/
theorem sceneEntries_val {es : List (Nat × Nat)} (h : ∀ e ∈ es, e.1 ≤ 95) :
    (sceneEntries es).map (fun x => (x.1.val, x.2)) = es := by
  rw [sceneEntries, List.map_map]
  refine (List.map_congr_left fun e he => ?_).trans (List.map_id es)
  have small : e.1 % 96 = e.1 := Nat.mod_eq_of_lt (by have := h e he; omega)
  simp [small]

/-- Every load that the entries name is of the scene's space (R80, R83). -/
theorem sceneEntries_all_space {s : State} {es : List (Nat × Nat)} (h : ∀ e ∈ es, e.1 ≤ 95) (p : SpaceNo) :
    ((sceneEntries es).all fun e => (s.load e.1).space == p) = true
      ↔ ∀ e ∈ es, ∀ n : LoadNo, n.val = e.1 → (s.load n).space.val = p.val := by
  simp only [sceneEntries, List.all_map, List.all_eq_true, Function.comp_apply, beq_iff_eq]
  refine forall₂_congr fun e he => ?_
  have number : ∀ n : LoadNo, n.val = e.1 ↔ n = Fin.ofNat 96 e.1 := fun n => by
    rw [Fin.ext_iff, Fin.val_ofNat, Nat.mod_eq_of_lt (by have := h e he; omega)]
  simp only [number, forall_eq]
  exact Fin.ext_iff

/-- The tests of R83, one by one. -/
theorem State.sceneFieldsOk_iff (s : State) (p : SpaceNo) (fade : Nat) (es : List (Nat × Nat)) :
    s.sceneFieldsOk p ⟨fade, es⟩ = true
      ↔ es.length ≤ 12 ∧ fade ≤ 600 ∧ (∀ e ∈ es, e.1 ≤ 95 ∧ e.2 ≤ 1000) ∧ (es.map Prod.fst).Nodup
        ∧ ∀ e ∈ es, ∀ n : LoadNo, n.val = e.1 → (s.load n).space.val = p.val := by
  rw [State.sceneFieldsOk]
  simp only [Bool.and_eq_true, decide_eq_true_eq]
  rw [List.all_eq_true]
  simp only [Bool.and_eq_true, decide_eq_true_eq]
  constructor
  · rintro ⟨⟨⟨⟨len, fade⟩, range⟩, nodup⟩, space⟩
    exact ⟨len, fade, range, nodup, (sceneEntries_all_space (fun e he => (range e he).1) p).1 space⟩
  · rintro ⟨len, fade, range, nodup, space⟩
    exact ⟨⟨⟨⟨len, fade⟩, range⟩, nodup⟩, (sceneEntries_all_space (fun e he => (range e he).1) p).2 space⟩

/-- The values of a WRITE_SCENE are bad exactly where one of the tests of R83 fails. -/
theorem State.sceneFieldsOk_eq_false (s : State) (p : SpaceNo) (fade : Nat) (es : List (Nat × Nat)) :
    s.sceneFieldsOk p ⟨fade, es⟩ = false
      ↔ 12 < es.length ∨ 600 < fade ∨ (∃ e ∈ es, 95 < e.1 ∨ 1000 < e.2) ∨ ¬ (es.map Prod.fst).Nodup
        ∨ ∃ e ∈ es, ∃ n : LoadNo, n.val = e.1 ∧ (s.load n).space.val ≠ p.val := by
  rw [← Bool.not_eq_true, State.sceneFieldsOk_iff]
  simp only [not_and_or, not_forall, not_le, exists_prop, ne_eq]

/-- Settles O20: each request by the owner of the scene, and WRITE_SCENE by the tests of R83. -/
theorem scenesAreTakenWrittenAndGiven : Obligations.scenes_are_taken_written_and_given := by
  intro s o v
  refine ⟨fun takes => ?_, fun takes => ?_, fun fade hf takes permits owned => ?_, fun fade es takes hf len range => ?_⟩
  · rw [exec_takeScene takes, State.ownScene, State.endReceipt_scene]
  · rw [exec_giveScene takes, State.ownScene, State.endReceipt_scene]
  · rw [exec_recallScene hf takes permits, State.recall_management (by rw [State.endReceipt_scene, owned])]
  · intro answer bad
    have decided := exec_writeScene (v := v) hf len range takes
    have bad_iff : s.sceneFieldsOk (sceneSpace v) ⟨fade, es⟩ = false ↔ bad := s.sceneFieldsOk_eq_false (sceneSpace v) fade es
    refine ⟨fun owned => ?_, fun owned isBad => ?_, fun owned good => ⟨sceneEntries es, sceneEntries_val fun e he => ?_, ?_⟩⟩
    · rw [State.decideWriteScene_live (by rw [State.endReceipt_scene, owned])] at decided
      exact decided
    · rw [State.decideWriteScene_management (by rw [State.endReceipt_scene, owned]), State.endReceipt_sceneFieldsOk,
        if_pos (bad_iff.2 isBad)] at decided
      exact decided
    · by_contra high
      exact good (.inr (.inr (.inl ⟨e, he, .inl (not_le.1 high)⟩)))
    · rw [State.decideWriteScene_management (by rw [State.endReceipt_scene, owned]), State.endReceipt_sceneFieldsOk,
        if_neg fun isBad => good (bad_iff.1 isBad)] at decided
      exact decided

end Sys2Proof.Machine

namespace Sys2Proof.Machine

/-! ## The entries of a recall and of a return -/

/-! ### Which entries are reached -/

/-- The rule of R87 looks at what no SET_LEVEL changes: KIND, space and the lock. -/
theorem State.entrySkipped_stable (o : Origin) (p : SpaceNo) : StableSkip (State.entrySkipped o p) := fun s t run n => by
  rw [State.entrySkipped, State.entrySkipped, run.locked o n, (run.changes n).config]

theorem State.entrySkipped_congr {s t : State} (loads : t.loads = s.loads) (claims : t.claims = s.claims)
    (stations : t.stations = s.stations) (o : Origin) (p : SpaceNo) (n : LoadNo) :
    State.entrySkipped o p t n = State.entrySkipped o p s n := by
  have lock := State.lockAgainst_congr claims stations (fun m => by rw [State.load_congr loads]) o n
  rw [State.entrySkipped, State.entrySkipped, State.locked, State.locked, lock, State.load_congr loads]

/-- The entries that R87 leaves, as the statements write them. -/
theorem reachedEntries_entrySkipped (s : State) (o : Origin) (p : SpaceNo) (es : List (LoadNo × Nat)) :
    reachedEntries (State.entrySkipped o p) s es
      = es.filter fun e => (s.load e.1).kind != .none && (s.load e.1).space == p && (s.lockAgainst o e.1).isNone := by
  refine List.filter_congr fun e _ => ?_
  simp [State.entrySkipped, State.locked, bne]

/-! ### What the entries make of the loads -/

/-- One SET_LEVEL with no load shed: the record of its load alone differs, and no load comes to be shed (R52, R111). -/
theorem State.setLevelOn_of_none_shed {s : State} (settled : s.settle = none) (list : s.budget.shedList = []) (n : LoadNo)
    (level fade : Nat) :
    let t := (s.setLevelOn n level fade).1
    t.settle = none ∧ t.budget.shedList = []
      ∧ ∀ m, t.load m = if m = n then (s.load n).withSetTarget (s.limitedTarget n level) (fadeSteps fade) else s.load m := by
  intro t
  have only : OnlyLoads s t := (s.setLevelOn_run n level fade).only
  obtain ⟨loads, -, -, budget⟩ := State.setLevelOn_plain (n := n) (level := level) (fade := fade) settled (.inr list)
  exact ⟨by rw [only]; exact settled, by rw [budget]; exact list, loads⟩

section
variable {skip : State → LoadNo → Bool} (fade : Nat) {s : State} {n : LoadNo} (es : List (LoadNo × Nat)) (level : Nat) (k : Tally)

theorem applyEntries_cons_skipped (h : skip s n = true) :
    applyEntries skip fade ((n, level) :: es) k s = applyEntries skip fade es { k with skipped := k.skipped + 1 } s := by
  rw [applyEntries, if_pos h]

theorem applyEntries_cons_reached (h : skip s n = false) : ∃ k' : Tally, k'.pairs = k.pairs ++ [(n, (s.load n).setTarget)]
    ∧ applyEntries skip fade ((n, level) :: es) k s = applyEntries skip fade es k' (s.setLevelOn n level fade).1 := by
  rw [applyEntries, h, if_neg Bool.false_ne_true]
  exact ⟨_, by split <;> rfl, rfl⟩

theorem reachedEntries_cons_skipped (h : skip s n = true) :
    reachedEntries skip s ((n, level) :: es) = reachedEntries skip s es := by
  simp [reachedEntries, h]

theorem reachedEntries_cons_reached (h : skip s n = false) :
    reachedEntries skip s ((n, level) :: es) = (n, level) :: reachedEntries skip s es := by
  simp [reachedEntries, h]

/-- A load no entry names is reached by none. -/
theorem not_mem_reachedEntries (new : n ∉ es.map Prod.fst) : n ∉ (reachedEntries skip s es).map Prod.fst :=
  fun h => new ((List.filter_sublist.map _).subset h)

theorem ne_of_mem_reachedEntries (new : n ∉ es.map Prod.fst) {e : LoadNo × Nat} (h : e ∈ reachedEntries skip s es) :
    e.1 ≠ n := by
  rintro rfl
  exact not_mem_reachedEntries es new (List.mem_map_of_mem h)

end

section
variable {skip : State → LoadNo → Bool} (stable : StableSkip skip) (fade : Nat)
include stable

/-- The pairs kept for the push are the reached loads with the SET TARGETs they had (R90). -/
theorem applyEntries_pairs_eq (es : List (LoadNo × Nat)) (nodup : (es.map Prod.fst).Nodup) (k : Tally) (s : State) :
    (applyEntries skip fade es k s).1.pairs
      = k.pairs ++ (reachedEntries skip s es).map fun e => (e.1, (s.load e.1).setTarget) := by
  induction es generalizing k s with
  | nil => exact (List.append_nil _).symm
  | cons e es ih =>
    obtain ⟨n, level⟩ := e
    obtain ⟨new, nodup⟩ := List.nodup_cons.1 nodup
    cases skipped : skip s n with
    | true => rw [applyEntries_cons_skipped fade es level k skipped, reachedEntries_cons_skipped es level skipped, ih nodup]
    | false =>
      obtain ⟨k', pairs, rest⟩ := applyEntries_cons_reached fade es level k skipped
      have kept : ∀ e ∈ reachedEntries skip s es,
          ((s.setLevelOn n level fade).1.load e.1).setTarget = (s.load e.1).setTarget := fun e he => by
        rw [State.setLevelOn_setTarget, if_neg (ne_of_mem_reachedEntries es new he)]
      rw [rest, ih nodup, pairs, stable.reachedEntries (s.setLevelOn_run n level fade),
        reachedEntries_cons_reached es level skipped, List.append_assoc]
      exact congrArg (k.pairs ++ (n, (s.load n).setTarget) :: ·) (List.map_congr_left fun e he => by rw [kept e he])

/-- With no load shed, a load that no entry reaches stays as it is. -/
theorem applyEntries_load_unreached (es : List (LoadNo × Nat)) (k : Tally) (s : State) (settled : s.settle = none)
    (list : s.budget.shedList = []) (n : LoadNo) (h : n ∉ (reachedEntries skip s es).map Prod.fst) :
    (applyEntries skip fade es k s).2.load n = s.load n := by
  induction es generalizing k s with
  | nil => rfl
  | cons e es ih =>
    obtain ⟨m, level⟩ := e
    cases skipped : skip s m with
    | true =>
      rw [reachedEntries_cons_skipped es level skipped] at h
      rw [applyEntries_cons_skipped fade es level k skipped, ih _ _ settled list h]
    | false =>
      obtain ⟨k', -, rest⟩ := applyEntries_cons_reached fade es level k skipped
      obtain ⟨settled', list', loads⟩ := State.setLevelOn_of_none_shed settled list m level fade
      rw [reachedEntries_cons_reached es level skipped, List.map_cons, List.mem_cons, not_or,
        ← stable.reachedEntries (s.setLevelOn_run m level fade)] at h
      rw [rest, ih _ _ settled' list' h.2, loads, if_neg h.1]

/-- With no load shed, a reached load of entries that name no load twice has the record SET_LEVEL makes of it (R52, R88). -/
theorem applyEntries_load_reached (es : List (LoadNo × Nat)) (nodup : (es.map Prod.fst).Nodup) (k : Tally) (s : State)
    (settled : s.settle = none) (list : s.budget.shedList = []) (e : LoadNo × Nat) (h : e ∈ reachedEntries skip s es) :
    let final := (applyEntries skip fade es k s).2.load e.1
    final = (s.load e.1).withSetTarget final.setTarget (fadeSteps fade) := by
  induction es generalizing k s with
  | nil => cases h
  | cons d es ih =>
    obtain ⟨m, level⟩ := d
    obtain ⟨new, nodup⟩ := List.nodup_cons.1 nodup
    cases skipped : skip s m with
    | true =>
      rw [reachedEntries_cons_skipped es level skipped] at h
      rw [applyEntries_cons_skipped fade es level k skipped]
      exact ih nodup _ s settled list h
    | false =>
      obtain ⟨k', -, rest⟩ := applyEntries_cons_reached fade es level k skipped
      obtain ⟨settled', list', loads⟩ := State.setLevelOn_of_none_shed settled list m level fade
      have run := s.setLevelOn_run m level fade
      rw [reachedEntries_cons_reached es level skipped] at h
      rw [rest]
      rcases List.mem_cons.1 h with rfl | later
      · have kept := applyEntries_load_unreached stable fade es k' _ settled' list' m (not_mem_reachedEntries es new)
        simp only [kept, loads, if_true, LoadRec.withSetTarget_setTarget]
      · have given := ih nodup k' _ settled' list' (by rwa [stable.reachedEntries run])
        rwa [loads, if_neg (ne_of_mem_reachedEntries es new later)] at given

end

/-! ### The entries given -/

/-- What entries of space p, each one SET_LEVEL of `steps` steps for origin o, make of the loads of s, and the counts of the
reply (R20, R87 to R89). -/
structure EntriesGiven (o : Origin) (p : SpaceNo) (steps : Nat) (es : List (LoadNo × Nat)) (s u : State) (b : ReplyBody) :
    Prop where
  reply :
    let reached := reachedEntries (State.entrySkipped o p) s es
    let applied := (reached.filter fun e => (u.load e.1).setTarget == (s.load e.1).levelAsked e.2).length
    let limited := reached.length - applied
    let skipped := es.length - reached.length
    b = .counts (if 0 < skipped then .donePartial else if 0 < limited then .doneLimited else .done) applied limited skipped
  configs : SameConfigs s u
  unreached : ∀ n, n ∉ (reachedEntries (State.entrySkipped o p) s es).map Prod.fst → (u.load n).setTarget = (s.load n).setTarget
  reached : ∀ e ∈ reachedEntries (State.entrySkipped o p) s es, (u.load e.1).setTarget = (s.load e.1).levelAsked e.2
    ∨ (s.load e.1).setTarget ≤ (u.load e.1).setTarget ∧ (u.load e.1).setTarget < (s.load e.1).levelAsked e.2
  records : s.budget.shedList = [] → ∀ e ∈ reachedEntries (State.entrySkipped o p) s es,
    u.load e.1 = (s.load e.1).withSetTarget (u.load e.1).setTarget steps

theorem applyEntries_given {s : State} (settled : s.settle = none) (o : Origin) (p : SpaceNo) (fade : Nat)
    {es : List (LoadNo × Nat)} (nodup : (es.map Prod.fst).Nodup) :
    let r := applyEntries (State.entrySkipped o p) fade es Tally.zero s
    EntriesGiven o p (fadeSteps fade) es s r.2 r.1.reply := by
  intro r
  have stable := State.entrySkipped_stable o p
  have run := applyEntries_run (State.entrySkipped o p) fade es Tally.zero s
  refine ⟨?_, fun n => (run.changes n).config, applyEntries_setTarget_unreached stable fade es _ s,
    applyEntries_setTarget_reached stable fade es nodup _ s,
    fun list => applyEntries_load_reached stable fade es nodup _ s settled list⟩
  intro reached applied limited skipped
  obtain ⟨count, taken, passed⟩ := applyEntries_counts stable fade es nodup Tally.zero s
  have hApplied : applied = r.1.applied := by rw [count]; exact (Nat.zero_add _).symm
  simp only [Tally.zero, zero_add] at taken passed
  have hLimited : limited = r.1.limited := by
    show reached.length - applied = _
    rw [hApplied, ← taken]; exact Nat.add_sub_cancel_left _ _
  have hSkipped : skipped = r.1.skipped := by
    show es.length - reached.length = _
    rw [← passed]; exact Nat.add_sub_cancel _ _
  rw [hApplied, hLimited, hSkipped]; rfl

/-- Ports, return stacks and other records that no load's record reads may differ on both sides. -/
theorem EntriesGiven.congr {o : Origin} {p : SpaceNo} {steps : Nat} {es : List (LoadNo × Nat)} {s t u w : State} {b : ReplyBody}
    (h : EntriesGiven o p steps es t u b) (loads : t.loads = s.loads) (claims : t.claims = s.claims)
    (stations : t.stations = s.stations) (budget : t.budget = s.budget) (final : w.loads = u.loads) :
    EntriesGiven o p steps es s w b := by
  have same : reachedEntries (State.entrySkipped o p) t es = reachedEntries (State.entrySkipped o p) s es :=
    List.filter_congr fun e _ => by rw [State.entrySkipped_congr loads claims stations]
  have before := State.load_congr loads
  have after := State.load_congr final
  obtain ⟨reply, configs, unreached, reached, records⟩ := h
  simp only [same, before, budget, ← after, SameConfigs] at reply configs unreached reached records
  exact ⟨reply, configs, unreached, reached, records⟩

end Sys2Proof.Machine

namespace Sys2Proof.Machine

/-! ## RECALL_SCENE and RETURN_SCENE -/

theorem OnlyLoads.setReturnStack {s t : State} (h : OnlyLoads s t) (p : SpaceNo) (stack : List StackFrame) :
    OnlyLoads (s.setReturnStack p stack) (t.setReturnStack p stack) :=
  congrArg (fun u : State => u.setReturnStack p stack) h

theorem State.setReturnStack_returnStack (s : State) (p : SpaceNo) : s.setReturnStack p (s.returnStack p) = s := by
  rw [State.setReturnStack, State.returnStack, set_get_self]

/-- A recall of a LIVE scene: its entries given, and one frame pushed where any was reached (R88 to R92). -/
theorem State.recall_live {s : State} (o : Origin) {v : SceneNo} (owned : (s.scene v).owner = .live)
    (nodup : ((s.scene v).entries.map Prod.fst).Nodup) (fade : Nat) :
    let c := s.scene v
    let p := sceneSpace v
    let r := applyEntries (State.entrySkipped o p) (recallFade fade c.defaultFade) c.entries Tally.zero s
    let reached := reachedEntries (State.entrySkipped o p) s c.entries
    s.recall o v fade = (r.1.reply, r.2.setReturnStack p (if reached = [] then s.returnStack p
      else pushFrame (s.returnStack p) (reached.map fun e => (e.1, (s.load e.1).setTarget)))) := by
  intro c p r reached
  have pairs : r.1.pairs = reached.map fun e => (e.1, (s.load e.1).setTarget) :=
    applyEntries_pairs_eq (State.entrySkipped_stable o p) _ c.entries nodup Tally.zero s
  have stack : r.2.returnStack p = s.returnStack p := by
    rw [(applyEntries_run (State.entrySkipped o p) _ c.entries Tally.zero s).only]; rfl
  have unfolded : s.recall o v fade = (r.1.reply, if r.1.pairs = [] then r.2
      else r.2.setReturnStack p (pushFrame (r.2.returnStack p) r.1.pairs)) := by
    simp only [State.recall, owned]; rfl
  rw [unfolded, pairs, stack]
  by_cases empty : reached = []
  · rw [if_pos (by rw [empty]; rfl), if_pos empty, ← stack, State.setReturnStack_returnStack]
  · rw [if_neg (by simpa using empty), if_neg empty]

theorem State.returnScene_empty {s : State} (o : Origin) {p : SpaceNo} (h : s.returnStack p = []) (fade : Nat) :
    s.returnScene o p fade = (.plain .empty, s) := by
  simp only [State.returnScene, h]

/-- A return pops the newest frame and gives its pairs as entries (R94, R96). -/
theorem State.returnScene_cons {s : State} (o : Origin) {p : SpaceNo} {frame : StackFrame} {rest : List StackFrame}
    (h : s.returnStack p = frame :: rest) (fade : Nat) :
    let r := applyEntries (State.entrySkipped o p) fade frame Tally.zero (s.setReturnStack p rest)
    s.returnScene o p fade = (r.1.reply, r.2) := by
  simp only [State.returnScene, h]

/-- Settles O21: the recall by its entries given, and the frame pushed by the pairs they leave. -/
theorem recallAppliesEntriesAndPushes : Obligations.recall_applies_entries_and_pushes := by
  intro s o v fade law takes hf permits owned entries steps reached asked stack
  have nodup := (law.1 v).2
  have decided := exec_recallScene hf takes permits
  have recalled := State.recall_live (s := s.endReceipt o) o (v := v) (by rw [State.endReceipt_scene, owned])
    (by rwa [State.endReceipt_scene]) fade
  have given := applyEntries_given (s := s.endReceipt o) takes.endReceipt.settled o (sceneSpace v)
    (recallFade fade (s.scene v).defaultFade) nodup
  have run := applyEntries_run (State.entrySkipped o (sceneSpace v)) (recallFade fade (s.scene v).defaultFade) entries
    Tally.zero (s.endReceipt o)
  have left : reachedEntries (State.entrySkipped o (sceneSpace v)) (s.endReceipt o) entries = reached := by
    rw [reachedEntries_entrySkipped]; simp only [State.endReceipt_load, State.endReceipt_lockAgainst, reached]
  simp only [State.endReceipt_scene, State.endReceipt_returnStack, State.endReceipt_load] at recalled
  rw [left] at recalled
  rw [recalled] at decided
  have final := given.congr (s := s) (w := _) (by simp) (by simp) (by simp) (by simp)
    (State.setReturnStack_loads _ (sceneSpace v) stack)
  obtain ⟨reply, configs, unreached, hit, records⟩ := final
  rw [reachedEntries_entrySkipped] at reply unreached hit records
  refine ⟨_, ?_, run.only.setReturnStack _ stack, configs, unreached, hit, records⟩
  rw [decided, reply]
  rfl

/-- Settles O22: an empty stack answers EMPTY, and a frame popped is given as entries. -/
theorem returnPopsOneFrame : Obligations.return_pops_one_frame := by
  intro s o p fade law takes hf permits
  have decided := exec_returnScene hf takes permits
  refine ⟨fun empty => ?_, fun frame rest top => ?_⟩
  · rw [decided, State.returnScene_empty o (by rw [State.endReceipt_returnStack, empty])]
  · intro reached asked
    obtain ⟨-, -, nodup, -⟩ := (law.2 p).2 frame (by rw [top]; exact List.mem_cons_self)
    set t := (s.endReceipt o).setReturnStack p rest with ht
    have given := applyEntries_given (s := t) takes.endReceipt.settled o p fade nodup
    have run := applyEntries_run (State.entrySkipped o p) fade frame Tally.zero t
    rw [State.returnScene_cons o (by rw [State.endReceipt_returnStack, top])] at decided
    obtain ⟨reply, configs, unreached, hit, records⟩ := given.congr (s := s) (by simp [ht]) (by simp [ht]) (by simp [ht])
      (by simp [ht]) rfl
    rw [reachedEntries_entrySkipped] at reply unreached hit records
    refine ⟨_, ?_, run.only, configs, unreached, hit, records⟩
    rw [decided, reply]
    rfl

end Sys2Proof.Machine

/-! # Proofs of the statements on the power budget and load shedding

The motions that take and give back demand come first: what an axis out of motion leaves (`LeavesMotion`), with the expiries and
the safety edge that stop it. Then the sheds of a grant and of a reduction as one run (`Sheds`), the restore pass, and the entry to
WARN on a grant (`Warns`). -/

namespace Sys2Proof.Machine

/-! ## An axis out of motion -/

/-- What passing a change to the Interlock Table makes of the record, the channel and the HELD DEMAND of each axis (R110, R141):
they stand, or the axis is parked out of WARN or stopped out of RUN. -/
def RecordsPassed (s t : State) : Prop := ∀ b, t.axisRecords b = s.axisRecords b
  ∨ ((s.axis b).state = .warn ∧ t.axisRecords b = ((s.axis b).parkedBy .interlock, (s.channel b).finish, 0))
  ∨ ((s.axis b).state = .run ∧ t.axisRecords b = ((s.axis b).stoppedBy .interlock, s.channel b, s.held b))

theorem RecordsPassed.refl (s : State) : RecordsPassed s s := fun _ => .inl rfl

theorem RecordsPassed.trans {s t u : State} (h : RecordsPassed s t) (k : RecordsPassed t u) : RecordsPassed s u := by
  intro b
  rcases h b with same | ⟨state, parked⟩ | ⟨state, stopped⟩
  · have axis : t.axis b = s.axis b := congrArg Prod.fst same
    have channel : t.channel b = s.channel b := congrArg (fun x => x.2.1) same
    have held : t.held b = s.held b := congrArg (fun x => x.2.2) same
    have next := k b
    rw [same, axis, channel, held] at next
    exact next
  · have axis : t.axis b = _ := congrArg Prod.fst parked
    rcases k b with same | ⟨state', -⟩ | ⟨state', -⟩
    · exact .inr (.inl ⟨state, same.trans parked⟩)
    all_goals rw [axis] at state'; cases state'
  · have axis : t.axis b = _ := congrArg Prod.fst stopped
    rcases k b with same | ⟨state', -⟩ | ⟨state', -⟩
    · exact .inr (.inr ⟨state, same.trans stopped⟩)
    all_goals rw [axis] at state'; cases state'

theorem State.stopCore_records (s : State) (a b : AxisNo) (er : EndReason) : (s.stopCore a er).axisRecords b
    = if b = a then ((s.axis b).stoppedBy er, s.channel b, s.held b) else s.axisRecords b := by
  have records : (s.stopCore a er).axisRecords b = ((s.stopCore a er).axis b, s.channel b, s.held b) := rfl
  rw [records, State.stopCore_axis]
  split
  · rename_i e; rw [e]; rfl
  · rfl

theorem State.blockCore_recordsPassed (s : State) (a : AxisNo) : RecordsPassed s (s.blockCore a) := by
  intro b
  cases state : (s.axis a).state with
  | warn =>
    have eq : s.blockCore a = s.parkCore a .interlock := by simp only [State.blockCore, state]
    rw [eq, State.parkCore_records]
    split
    · rename_i e; exact .inr (.inl ⟨by rw [e, state], rfl⟩)
    · exact .inl rfl
  | run =>
    have eq : s.blockCore a = s.stopCore a .interlock := by simp only [State.blockCore, state]
    rw [eq, State.stopCore_records]
    split
    · rename_i e; exact .inr (.inr ⟨by rw [e, state], rfl⟩)
    · exact .inl rfl
  | parked | stopping | rest | lockout =>
    have eq : s.blockCore a = s := by simp only [State.blockCore, state]
    rw [eq]
    exact .inl rfl

theorem State.tellInterlocks_recordsPassed (s : State) (a : AxisNo) : RecordsPassed s (s.tellInterlocks a) :=
  State.passChange_rel RecordsPassed.refl RecordsPassed.trans State.blockCore_recordsPassed 3 a s

/-- The HELD DEMAND of an axis out of WARN stands while a change is passed on (R110). -/
theorem RecordsPassed.held {s t : State} (h : RecordsPassed s t) {a : AxisNo} (warn : (s.axis a).state ≠ .warn) :
    t.held a = s.held a := by
  rcases h a with same | ⟨state, -⟩ | ⟨-, stopped⟩
  · exact congrArg (fun x => x.2.2) same
  · exact absurd state warn
  · exact congrArg (fun x => x.2.2) stopped

/-- The axis is out of WARN, RUN and STOPPING in this state. -/
def AxisState.Still (st : AxisState) : Prop := st = .parked ∨ st = .rest ∨ st = .lockout

/-- The record of an axis out of motion; a rest keeps its PENDING MOTION (R135, R150). -/
def AxisRec.leftIn (ax : AxisRec) (st : AxisState) : AxisRec :=
  { ax.atRest st with pending := if st = .rest then ax.pending else none }

/-- What the end of a motion of axis a makes of the part, its record ending as y; AXIS_FAULT is raised where `fault` holds (R110,
R111, R135, R137). -/
structure LeavesMotion (a : AxisNo) (y : AxisRec) (fault : Bool) (s u : State) : Prop where
  frame : AxisFrame a s u
  axis : u.axis a = y
  channel : u.channel a = (s.channel a).finish
  held : u.held a = 0
  gives : GivesBack a s u
  notices : u.notices = { s.notices with axisFault := s.notices.axisFault || fault, shedChange := u.notices.shedChange }
  freed : ∀ n, (s.axis a).courtesy = some n → (∀ b, b ≠ a → ¬ s.Forces b n) → (u.load n).forced = false

/-- No entry watches axis a in t where none does in s, the entries being the same. -/
theorem State.Unwatched.congr {s t : State} {a : AxisNo} (h : s.Unwatched a) (entries : t.interlocks = s.interlocks) :
    t.Unwatched a := fun p e he => h p e (by rw [← State.interlock_congr entries]; exact he)

section
variable (s : State) (a : AxisNo) {st : AxisState}

/-- The budget and the notices of an axis out of motion, its change not yet passed on: its demand is given back (R110). -/
theorem State.leaveMotion_budget :
    Calm s (s.leaveMotion a st) ∧ (s.leaveMotion a st).held a = 0 := by
  set y := (s.axis a).atRest st with hy
  have run := (s.setAxis a y).giveBack_loadRun a false
  obtain ⟨-, -, budget, notices⟩ := ((s.setAxis a y).giveBack a false).endMotion_same a st
  have eq : s.leaveMotion a st = ((s.setAxis a y).giveBack a false).endMotion a st := rfl
  refine ⟨⟨s.leaveMotion_steady a st false, ?_, ?_⟩, ?_⟩ <;> rw [eq]
  · rw [budget]; exact run.available
  · rw [notices]; exact run.notices
  · rw [State.held_congr budget, State.held, run.held]
    exact get_set_self _ _ _

/-- The loads, the outputs and the budget of an axis out of motion are those of the motion's end (R110, R111). -/
theorem State.leaveMotion_gives_back : SameLoads (s.afterMotion a) (s.leaveMotion a st) := by
  set y := (s.axis a).atRest st with hy
  have same : SameBudget s (s.setAxis a y) := ⟨rfl, rfl, rfl, rfl, rfl⟩
  have after := same.afterMotion (a := a) (by simp [hy]) (fun b hb => by rw [State.axis_setAxis, if_neg hb])
  rw [← State.giveBack_eq_afterMotion (s.setAxis a y)] at after
  obtain ⟨loads, outputs, budget, -⟩ := ((s.setAxis a y).giveBack a false).endMotion_same a st
  exact ⟨loads.trans after.loads, outputs.trans after.outputs, budget.trans after.budget⟩

/-- The courtesy load of an axis out of motion is free unless another axis in motion names it (R135, R137). -/
theorem State.leaveMotion_frees {n : LoadNo} (courtesy : (s.axis a).courtesy = some n)
    (alone : ∀ b, b ≠ a → ¬ s.Forces b n) : ((s.leaveMotion a st).load n).forced = false := by
  set t := (s.setAxis a ((s.axis a).atRest st)).releaseDemand a with ht
  have axis : ∀ b, t.axis b = if b = a then (s.axis a).atRest st else s.axis b := fun b => s.axis_setAxis a b _
  have named : (t.axis a).courtesy = some n := by rw [axis, if_pos rfl]; exact courtesy
  have others : t.otherForces a n = false := by
    refine Bool.eq_false_iff.2 fun forces => ?_
    obtain ⟨b, hb, forces⟩ := (t.otherForces_iff a n).1 forces
    rw [State.Forces, axis, if_neg hb] at forces
    exact alone b hb forces
  have released : ((t.releaseCourtesy a).load n).forced = false := by
    rw [State.releaseCourtesy, named]
    simp only [others, Bool.false_eq_true, if_false, State.load_storeLoad, if_true]
    exact LoadRec.toUnforced_forced _
  have given : (((s.setAxis a ((s.axis a).atRest st)).giveBack a false).load n).forced = false := by
    rcases (s.setAxis a ((s.axis a).atRest st)).giveBack_run a false with e | e <;> rw [e]
    · exact released
    · exact (State.answerFall_sameForced _ n).trans released
  rw [State.leaveMotion, State.load_congr (State.endMotion_same _ a st).1]
  exact given

theorem AxisState.Still.out {st : AxisState} (h : st.Still) : st ≠ .warn ∧ st ≠ .run := by
  rcases h with e | e | e <;> subst e <;> exact ⟨nofun, nofun⟩

/-- An axis leaves motion, and its change is passed on (R135, R144). -/
theorem State.leaveMotion_leaves (still : st.Still) :
    LeavesMotion a ((s.axis a).leftIn st) false s ((s.leaveMotion a st).tellInterlocks a) := by
  obtain ⟨only, axes, channels⟩ := s.leaveMotion_spec a st false
  obtain ⟨calm, held⟩ := s.leaveMotion_budget a (st := st)
  have ripples := State.tellInterlocks_ripples (s.leaveMotion a st) a
  have passed := State.tellInterlocks_recordsPassed (s.leaveMotion a st) a
  have left : (s.leaveMotion a st).axis a = (s.axis a).leftIn st := by rw [axes, if_pos rfl]; rfl
  have state : ((s.leaveMotion a st).axis a).state = st := by rw [left]; rfl
  obtain ⟨warn, run⟩ := still.out
  obtain ⟨axis, channel⟩ := ripples.still (a := a) (by rwa [state]) (by rwa [state])
  refine ⟨ripples.axisFrame calm (fun b hb => ?_) (fun b hb => ?_), axis.trans left, ?_, ?_, fun unwatched => ?_, ?_,
    fun n courtesy alone => ?_⟩
  · rw [axes, if_neg hb]
  · rw [channels, if_neg hb]
  · rw [channel, channels, if_pos rfl]
  · rw [passed.held (by rwa [state]), held]
  · rw [(unwatched.congr only.interlocks).tellInterlocks]
    exact s.leaveMotion_gives_back a
  · rw [Bool.or_false]; exact (calm.trans ripples.toCalm).notices
  · refine State.passChange_rel Unforces.refl Unforces.trans State.blockCore_unforces 3 a _ n ?_
    exact s.leaveMotion_frees a courtesy alone

end

namespace LeavesMotion
variable {a : AxisNo} {y : AxisRec} {fault : Bool} {s u : State}

/-- The axis faults as well (R148, R150, R156). -/
theorem faulted (h : LeavesMotion a y false s u) : LeavesMotion a y true s u.raiseAxisFault := by
  have notices := h.notices
  have raised : OnlyMachines u u.raiseAxisFault := rfl
  refine ⟨⟨h.frame.only.trans raised, h.frame.configs, h.frame.targets, h.frame.available, h.frame.axes, h.frame.channels⟩, h.axis,
    h.channel, h.held, h.gives, ?_, h.freed⟩
  rw [State.raiseAxisFault, notices, Bool.or_true]

/-- The record of the axis was rewritten first, its courtesy load as it was. -/
theorem of_own {x : AxisRec} (h : LeavesMotion a y fault (s.setAxis a x) u) (courtesy : x.courtesy = (s.axis a).courtesy) :
    LeavesMotion a y fault s u := by
  have axes : ∀ b, b ≠ a → (s.setAxis a x).axis b = s.axis b := fun b hb => by rw [State.axis_setAxis, if_neg hb]
  have same : SameBudget s (s.setAxis a x) := ⟨rfl, rfl, rfl, rfl, rfl⟩
  refine ⟨⟨(s.setAxis_only a x).trans h.frame.only, h.frame.configs, h.frame.targets, h.frame.available, fun b hb => ?_,
    fun b hb => ?_⟩, h.axis, h.channel, h.held, fun unwatched => ?_, h.notices, fun n named alone => ?_⟩
  · rw [← axes b hb]; exact h.frame.axes b hb
  · rw [← axes b hb]; exact h.frame.channels b hb
  · have after := same.afterMotion (a := a) (by rw [State.axis_setAxis_self, courtesy]) axes
    obtain ⟨loads, outputs, budget⟩ := h.gives unwatched
    exact ⟨loads.trans after.loads, outputs.trans after.outputs, budget.trans after.budget⟩
  · refine h.freed n (by rw [State.axis_setAxis_self, courtesy, named]) fun b hb => ?_
    rw [State.Forces, axes b hb]
    exact alone b hb

end LeavesMotion

section
variable (s : State) (a : AxisNo)

/-- An axis is rewritten, leaves motion, and its change is passed on. -/
theorem State.setAxis_leaves {x : AxisRec} {st : AxisState} (courtesy : x.courtesy = (s.axis a).courtesy) (still : st.Still) :
    LeavesMotion a (x.leftIn st) false s (((s.setAxis a x).leaveMotion a st).tellInterlocks a) := by
  have leaves := (s.setAxis a x).leaveMotion_leaves a still
  rw [State.axis_setAxis_self] at leaves
  exact leaves.of_own courtesy

/-- The axis parks (R135). -/
theorem State.park_leaves (er : EndReason) : LeavesMotion a ((s.axis a).parkedBy er) false s (s.park a er) :=
  s.setAxis_leaves a (x := { s.axis a with endReason := er }) rfl (.inl rfl)

/-- A lockout for NO_LOAD (R148). -/
theorem State.noLoadLockout_leaves :
    LeavesMotion a { (s.axis a).parkedBy .noLoad with state := .lockout } true s (s.noLoadLockout a) :=
  (s.setAxis_leaves a (x := { s.axis a with endReason := .noLoad }) rfl (.inr (.inr rfl))).faulted

/-- A stall short of the eighth rests the axis (R150). -/
theorem State.stall_rests (few : (s.axis a).stallCount < 7) :
    LeavesMotion a { (s.axis a).parkedBy .stall with
      state := .rest, stallCount := (s.axis a).stallCount + 1, pending := (s.axis a).pending
      restRemaining := some (restMs ((s.axis a).stallCount + 1)) } true s (s.stall a) := by
  have leaves := (s.setAxis_leaves a (x := { s.axis a with
    stallCount := (s.axis a).stallCount + 1, endReason := .stall
    restRemaining := some (restMs ((s.axis a).stallCount + 1)) }) rfl (st := .rest) (.inr (.inl rfl))).faulted
  have short : ¬ 8 ≤ (s.axis a).stallCount + 1 := by omega
  simp only [State.stall, if_neg short]
  exact leaves

/-- The eighth stall locks the axis out (R150). -/
theorem State.stall_locks_out (many : 7 ≤ (s.axis a).stallCount) :
    LeavesMotion a { (s.axis a).parkedBy .stall with
      state := .lockout, stallCount := 8, jam := some (s.axis a).position } true s (s.stall a) := by
  have leaves := (s.setAxis_leaves a (x := { s.axis a with
    stallCount := 8, endReason := .stall, jam := some (s.axis a).position }) rfl (st := .lockout) (.inr (.inr rfl))).faulted
  have full : 8 ≤ (s.axis a).stallCount + 1 := by omega
  simp only [State.stall, if_pos full]
  exact leaves

/-- AXIS_LOCKOUT is pending while an axis is locked out (R157, R181). -/
theorem State.driveOutputs_axisLockout {u : State} {a : AxisNo} (out : (u.axis a).state = .lockout) :
    u.driveOutputs.notices.axisLockout = true :=
  List.any_eq_true.2 ⟨a, allAxes_complete a, beq_iff_eq.2 out⟩

end

end Sys2Proof.Machine

namespace Sys2Proof.Machine

/-! ### Ramps and the brake settle -/

theorem AxisRec.armWatch_eq (ax : AxisRec) : ax.armWatch = { ax with
    pulseWatch := if ax.monitoring = true ∧ ax.pulseWatch = none ∧ ax.creepSpeed ≤ ax.speed
      then some (ax.stallWindow * 10) else ax.pulseWatch } := by
  unfold AxisRec.armWatch
  split <;> rfl

/-- The speed limit as R132 words it: CREEP SPEED unverified and within APPROACH of the target. -/
theorem AxisRec.speedLimit_eq (ax : AxisRec) : ax.speedLimit
    = if ax.verified = false then ax.creepSpeed
      else match ax.pending with
        | some { target := some t, .. } =>
          if (if t ≤ ax.position then ax.position - t else t - ax.position) ≤ ax.approach then ax.creepSpeed else ax.runSpeed
        | _ => ax.runSpeed := by
  unfold AxisRec.speedLimit
  cases verified : ax.verified with
  | false => simp
  | true =>
    have distance : ∀ t, t - ax.position + (ax.position - t) = if t ≤ ax.position then ax.position - t else t - ax.position :=
      fun t => by split <;> omega
    rcases pending : ax.pending with _ | ⟨direction, target, origin⟩
    · simp
    · cases target <;> simp [distance]

/-- The drive and the brake of an axis follow its record outside the settle interval (R121). -/
theorem State.driveOutputs_pins {s : State} (settled : s.settle = none) (a : AxisNo) :
    s.driveOutputs.axisPins.get a = (s.axis a).pins false := by
  simp [State.inSettle, settled, State.axis]

theorem exec_rampExpiry (s : State) (a : AxisNo) : exec (.rampExpiry a) s = .next (s.ramp a).driveOutputs := rfl

theorem exec_brakeSettleExpiry (s : State) (a : AxisNo) :
    exec (.brakeSettleExpiry a) s = .next (s.brakeSettled a).driveOutputs := rfl

/-- Settles O41: the ramp by its three cases, and the brake settle as a motion's end. -/
theorem rampsAndTheBrakeSettle : Obligations.ramps_and_the_brake_settle := by
  intro s a ax limit v slow ramped slowed
  have limited : ax.speedLimit = limit := ax.speedLimit_eq
  have speed : ax.rampedSpeed = v := by simp only [AxisRec.rampedSpeed, limited, v]
  have pins : ∀ x : AxisRec, s.settle = none → (s.setAxis a x).driveOutputs.axisPins.get a = x.pins false := fun x settled => by
    rw [State.driveOutputs_pins (s := s.setAxis a x) settled, State.axis_setAxis_self]
  rw [exec_rampExpiry, exec_brakeSettleExpiry]
  refine ⟨fun due run => ?_, fun due stopping => ?_, fun idle => ?_, fun due stopping => ?_, fun idle => ?_⟩
  · have eq : s.ramp a = ramped := by
      rcases s.ramp_cases a with ⟨not, -⟩ | ⟨-, -, e⟩ | ⟨-, state, -⟩
      · rcases not with not | not
        · exact absurd due not
        · exact absurd run not.1
      · rw [show (s.axis a).rampedSpeed = v from speed] at e
        exact e.trans (congrArg (s.setAxis a) (AxisRec.armWatch_eq _))
      · rw [run] at state; cases state
    rw [eq]
    refine ⟨rfl, fun settled => (pins _ settled).trans ?_⟩
    simp only [AxisRec.pins, run, Bool.false_eq_true, if_false]
  · have eq : s.ramp a = slowed := by
      rcases s.ramp_cases a with ⟨not, -⟩ | ⟨-, state, -⟩ | ⟨-, -, e⟩
      · rcases not with not | not
        · exact absurd due not
        · exact absurd stopping not.2
      · rw [stopping] at state; cases state
      · exact e
    rw [eq]
    refine ⟨rfl, fun settled => (pins _ settled).trans ?_⟩
    simp only [AxisRec.pins, stopping, Bool.false_eq_true, if_false]
  · rcases s.ramp_cases a with ⟨-, e⟩ | ⟨due, state, -⟩ | ⟨due, state, -⟩
    · rw [e]
    · exact absurd idle (by rintro (e | e) <;> [exact e due; exact e.1 state])
    · exact absurd idle (by rintro (e | e) <;> [exact e due; exact e.2 state])
  · rcases s.brakeSettled_cases a with ⟨not, -⟩ | ⟨-, e⟩
    · exact absurd ⟨due, stopping⟩ not
    · have leaves := s.park_leaves a ax.endReason
      have notices := leaves.notices
      rw [Bool.or_false] at notices
      exact ⟨_, by rw [e], leaves.frame, leaves.axis, leaves.channel, leaves.held, leaves.gives, notices, leaves.freed⟩
  · rcases s.brakeSettled_cases a with ⟨-, e⟩ | ⟨⟨due, state⟩, -⟩
    · rw [e]
    · exact absurd idle (by rintro (e | e) <;> [exact e due; exact e state])

/-! ### The confirm window -/

theorem exec_confirmWindowExpiry (s : State) (a : AxisNo) :
    exec (.confirmWindowExpiry a) s = .next (s.confirmWindow a).driveOutputs := rfl

/-- Settles O42: the window by its cases, a lockout for NO_LOAD being a motion's end. -/
theorem theConfirmWindow : Obligations.the_confirm_window := by
  intro s a ax current
  rw [exec_confirmWindowExpiry]
  refine ⟨fun idle => ?_, fun due run loaded => ?_, fun due run light => ?_⟩
  · rcases s.confirmWindow_cases a with ⟨-, e⟩ | ⟨⟨due, state⟩, -⟩
    · rw [e]
    · exact absurd idle (by rintro (e | e) <;> [exact e due; exact e state])
  · rcases s.confirmWindow_cases a with ⟨not, -⟩ | ⟨-, e⟩
    · exact absurd ⟨due, run⟩ not
    · rw [e, if_pos loaded, AxisRec.confirmed, AxisRec.armWatch_eq]
      simp only [true_and]
      rfl
  · rcases s.confirmWindow_cases a with ⟨not, -⟩ | ⟨-, e⟩
    · exact absurd ⟨due, run⟩ not
    · have leaves := s.noLoadLockout_leaves a
      have notices := leaves.notices
      rw [Bool.or_true] at notices
      refine ⟨_, by rw [e, if_neg light.not_ge], leaves.frame, leaves.axis, leaves.channel, leaves.held, leaves.gives, notices,
        State.driveOutputs_axisLockout (a := a) ?_⟩
      rw [leaves.axis]

/-! ### Stalls -/

/-- The pulse watch and the over-current timer. -/
def AxisRec.stallTimer (ax : AxisRec) (watch : Bool) : Option Nat := if watch then ax.pulseWatch else ax.overCurrentTimer

/-- The expiry of either stall timer (R149, R150). -/
def stallEvent (a : AxisNo) (watch : Bool) : Instr := if watch then .pulseWatchExpiry a else .overCurrentExpiry a

/-- Either timer, run out in RUN, brings a stall, and else nothing. -/
theorem exec_stallEvent (s : State) (a : AxisNo) (watch : Bool) : exec (stallEvent a watch) s
    = .next (if (s.axis a).stallTimer watch = some 0 ∧ (s.axis a).state = .run then s.stall a else s).driveOutputs := by
  cases watch <;> rfl

/-- No axis has its pulse watch run out in RUN (R158). -/
def AxisRec.WatchFresh (ax : AxisRec) : Prop := ¬ (ax.pulseWatch = some 0 ∧ ax.state = .run)

/-- A change passed on starts and runs out no pulse watch. -/
theorem Ripples.watchFresh {s t : State} (h : Ripples s t) {a : AxisNo} (fresh : (s.axis a).WatchFresh) :
    (t.axis a).WatchFresh := by
  rcases h.each a with ⟨axis, -⟩ | ⟨-, axis, -⟩ | ⟨-, axis, -⟩ <;> rw [axis]
  · exact fresh
  · exact fun out => nomatch out.1
  · exact fun out => nomatch out.1

/-- A pulse leaves the pulse watch of a monitored axis fresh (R149, R158). -/
theorem State.pulse_watchFresh {s : State} {a : AxisNo} (monitoring : (s.axis a).monitoring = true)
    (window : 0 < (s.axis a).stallWindow) : ((s.pulse a).axis a).WatchFresh := by
  have moved : ∀ (t : State) (position : Nat), (t.axis a).WatchFresh → ((t.moveTo a position).axis a).WatchFresh := by
    intro t position fresh
    rw [State.moveTo]
    split
    · exact fresh
    · refine (State.tellInterlocks_ripples _ a).watchFresh ?_
      rw [State.axis_setAxis_self]
      exact fresh
  have tested : ∀ t : State, (t.axis a).WatchFresh → ((t.testEnds a false).axis a).WatchFresh := by
    intro t fresh
    rw [State.testEnds]
    split
    · split
      · refine (State.tellInterlocks_ripples _ a).watchFresh ?_
        rw [State.stopCore_axis, if_pos rfl]
        exact fun out => nomatch out.1
      · exact fresh
    · exact fresh
  by_cases run : (s.axis a).state = .run
  · have eq : s.pulse a = ((s.setAxis a (s.axis a).travelled).moveTo a (s.axis a).counted).testEnds a false := if_pos run
    rw [eq]
    refine tested _ (moved _ _ ?_)
    rw [State.axis_setAxis_self]
    rintro ⟨out, -⟩
    simp only [AxisRec.travelled, monitoring, if_true] at out
    cases watch : (s.axis a).pulseWatch <;> rw [watch] at out
    · cases out
    · have zero : (s.axis a).stallWindow * 10 = 0 := Option.some.inj out
      omega
  · have eq : s.pulse a = s.moveTo a (s.axis a).counted := if_neg run
    rw [eq]
    exact moved s _ fun out => run out.2

/-- After a pulse of a monitored axis the expiry of its pulse watch does not happen (R158). -/
theorem exec_pulseWatchExpiry_of_pulse {s : State} {a : AxisNo} (monitoring : (s.axis a).monitoring = true)
    (window : 0 < (s.axis a).stallWindow) :
    exec (.pulseWatchExpiry a) (s.pulse a).driveOutputs = .next (s.pulse a).driveOutputs := by
  have fresh : ¬ (((s.pulse a).driveOutputs.axis a).stallTimer true = some 0
      ∧ ((s.pulse a).driveOutputs.axis a).state = .run) := State.pulse_watchFresh monitoring window
  refine (exec_stallEvent _ a true).trans ?_
  rw [if_neg fresh, State.driveOutputs_driveOutputs]

/-- Settles O43: both timers bring the same stall, which is a motion's end by the count of stalls before it. -/
theorem aStallRestsOrLocksOut : Obligations.a_stall_rests_or_locks_out := by
  intro s a event ax timer either
  obtain ⟨watch, rfl, same⟩ : ∃ watch, event = stallEvent a watch ∧ timer = ax.stallTimer watch := by
    rcases either with e | e
    · exact ⟨true, e, if_pos e⟩
    · exact ⟨false, e, if_neg (by rw [e]; nofun)⟩
  rw [exec_stallEvent, same]
  refine ⟨fun idle => ?_, fun monitoring window => ?_, fun due run => ?_⟩
  · rw [if_neg fun ⟨due, state⟩ => idle.elim (· due) (· state)]
  · exact ⟨_, rfl, exec_pulseWatchExpiry_of_pulse monitoring window⟩
  · rw [if_pos ⟨due, run⟩]
    by_cases few : ax.stallCount < 7
    · have leaves := s.stall_rests a few
      have notices := leaves.notices
      rw [Bool.or_true] at notices
      exact ⟨_, rfl, leaves.frame, leaves.channel, leaves.held, leaves.gives, notices, leaves.freed,
        fun _ => leaves.axis, fun many => absurd few many.not_gt⟩
    · have leaves := s.stall_locks_out a (not_lt.1 few)
      have notices := leaves.notices
      rw [Bool.or_true] at notices
      refine ⟨_, rfl, leaves.frame, leaves.channel, leaves.held, leaves.gives, notices, leaves.freed,
        fun few' => absurd few' few, fun _ => ⟨leaves.axis, State.driveOutputs_axisLockout (a := a) ?_⟩⟩
      rw [leaves.axis]

/-! ### The safety edge -/

theorem exec_safetyEdgeActive (s : State) (a : AxisNo) :
    exec (.safetyEdgeActive a) s = .next (s.edgePressed a).driveOutputs := rfl

/-- An axis in RUN stops at once (R136, R156). -/
theorem State.quickStop_stops (s : State) (a : AxisNo) (er : EndReason) :
    AxisFrame a s (s.quickStop a er)
      ∧ (s.quickStop a er).axisRecords a
          = (({ s.axis a with speed := 0, pending := none } : AxisRec).stoppedBy er, s.channel a, s.held a)
      ∧ (s.quickStop a er).notices = { s.notices with shedChange := (s.quickStop a er).notices.shedChange } := by
  set t := s.setAxis a { s.axis a with speed := 0, pending := none } with ht
  have calm : Calm s (t.stopCore a er) := (s.setAxis_calm a _).trans (t.stopCore_calm a er)
  have ripples : Ripples (t.stopCore a er) (s.quickStop a er) := State.tellInterlocks_ripples _ a
  have passed : RecordsPassed (t.stopCore a er) (s.quickStop a er) := State.tellInterlocks_recordsPassed _ a
  have records : (t.stopCore a er).axisRecords a = _ := (t.stopCore_records a a er).trans (if_pos rfl)
  rw [ht, State.axis_setAxis_self, ← ht] at records
  have state : ((t.stopCore a er).axis a).state = .stopping := congrArg (fun x => x.1.state) records
  refine ⟨ripples.axisFrame calm (fun b hb => ?_) (fun b _ => rfl), ?_, (calm.trans ripples.toCalm).notices⟩
  · rw [State.stopCore_axis, if_neg hb, ht, State.axis_setAxis, if_neg hb]
  · rcases passed a with same | ⟨warn, -⟩ | ⟨run, -⟩
    · exact same.trans records
    · rw [state] at warn; cases warn
    · rw [state] at run; cases run

/-- What the safety edge brings, by the state of the axis (R156). -/
theorem State.edgePressed_eq (s : State) (a : AxisNo) :
    let r := s.setEdge a true
    s.edgePressed a = match (s.axis a).state with
      | .warn => (r.park a .obstructed).raiseAxisFault
      | .run => (r.quickStop a .obstructed).raiseAxisFault
      | .stopping => if 0 < (s.axis a).speed
        then r.setAxis a { s.axis a with speed := 0, rampTimer := none, brakeTimer := some brakeSettleMs } else r
      | .rest | .parked | .lockout => r := rfl

/-- A fault raised is within the frame of an event of an axis. -/
theorem AxisFrame.faulted {a : AxisNo} {s t : State} (h : AxisFrame a s t) : AxisFrame a s t.raiseAxisFault :=
  have raised : OnlyMachines t t.raiseAxisFault := rfl
  ⟨h.only.trans raised, h.configs, h.targets, h.available, h.axes, h.channels⟩

/-- The edge parks an axis in WARN, which faults (R156). -/
theorem State.edgePressed_warn {s : State} {a : AxisNo} (warn : (s.axis a).state = .warn) :
    LeavesMotion a ((s.axis a).parkedBy .obstructed) true (s.setEdge a true) (s.edgePressed a) := by
  have eq := s.edgePressed_eq a
  simp only [warn] at eq
  rw [eq]
  exact ((s.setEdge a true).park_leaves a .obstructed).faulted

/-- The edge stops an axis in RUN at once, which faults (R156). -/
theorem State.edgePressed_run {s : State} {a : AxisNo} (run : (s.axis a).state = .run) :
    AxisFrame a (s.setEdge a true) (s.edgePressed a)
      ∧ (s.edgePressed a).axisRecords a
          = (({ s.axis a with speed := 0, pending := none } : AxisRec).stoppedBy .obstructed, s.channel a, s.held a)
      ∧ (s.edgePressed a).notices
          = { s.notices with axisFault := true, shedChange := (s.edgePressed a).notices.shedChange } := by
  have eq := s.edgePressed_eq a
  simp only [run] at eq
  obtain ⟨frame, records, notices⟩ := (s.setEdge a true).quickStop_stops a .obstructed
  rw [eq]
  generalize (s.setEdge a true).quickStop a .obstructed = u at frame records notices ⊢
  refine ⟨frame.faulted, records, ?_⟩
  rw [State.raiseAxisFault, notices]
  rfl

/-- Settles O47: by the state of the axis. -/
theorem theSafetyEdge : Obligations.the_safety_edge := by
  intro s a ax r faulted
  have eq := s.edgePressed_eq a
  rw [exec_safetyEdgeActive]
  cases state : ax.state with
  | warn =>
    have leaves := State.edgePressed_warn state
    have same : SameBudget r s := ⟨rfl, rfl, rfl, rfl, rfl⟩
    generalize s.edgePressed a = u at leaves
    have notices := leaves.notices
    rw [Bool.or_true] at notices
    exact ⟨u, rfl, leaves.frame, leaves.axis, leaves.channel, leaves.held, notices, leaves.gives.congr same rfl rfl⟩
  | run =>
    have stops := State.edgePressed_run state
    generalize s.edgePressed a = u at stops
    obtain ⟨frame, records, notices⟩ := stops
    exact ⟨u, rfl, frame, congrArg Prod.fst records, congrArg (fun x => x.2.1) records, congrArg (fun x => x.2.2) records, notices⟩
  | stopping =>
    simp only [show (s.axis a).state = .stopping from state] at eq
    rw [eq]
    rfl
  | rest | parked | lockout =>
    simp only [show (s.axis a).state = _ from state] at eq
    rw [eq]
    rfl

end Sys2Proof.Machine

namespace Sys2Proof.Machine

/-! ## The restore pass (R112, R113) -/

/-! ### The increase of a restore -/

section
variable {l : LoadRec}

/-- A DIM load restored counts the larger of its level and its target (R57, R113). -/
theorem LoadRec.toRestored_draw_dim (dim : l.kind = .dim) :
    l.toRestored.countedDraw = l.drawAt (max l.level ({ l with shed := false } : LoadRec).effectiveTarget) := by
  have other : ∀ w : LoadRec, w.kind = .dim → w.followSwitch = w := fun w hw =>
    LoadRec.followSwitch_of_other (by rw [hw]; decide)
  rw [LoadRec.toRestored, other _ (by simpa using dim), LoadRec.recount_countedDraw, LoadRec.drawAt_congr (l := l) (by simp),
    LoadRec.startFade_level_pos _ (by decide), LoadRec.startFade_effTarget]
  rfl

/-- A SWITCH load restored counts its target (R53, R57, R113). -/
theorem LoadRec.toRestored_draw_switch (switch : l.kind = .switch) :
    l.toRestored.countedDraw = l.drawAt ({ l with shed := false } : LoadRec).effectiveTarget := by
  have kind : ({ l with shed := false } : LoadRec).retarget.kind = .switch := switch
  rw [LoadRec.toRestored, LoadRec.startFade_of_other (by rw [kind]; decide), LoadRec.followSwitch_of_switch kind,
    LoadRec.recount_countedDraw, LoadRec.drawAt_congr (l := l) rfl, Nat.max_self]
  rfl

/-- EFFECTIVE TARGET does not fall at a restore (R42). -/
theorem LoadRec.le_restored_effectiveTarget (shed : l.shed = true) :
    l.effectiveTarget ≤ ({ l with shed := false } : LoadRec).effectiveTarget := by
  by_cases forced : l.forced = true
  · by_cases kind : l.kind = .none
    · simp [LoadRec.effectiveTarget, kind]
    · rw [LoadRec.forced_effectiveTarget forced kind]
      exact (LoadRec.forced_effectiveTarget (l := { l with shed := false }) forced kind).ge
  · have le := LoadRec.shed_effectiveTarget_le { l with shed := false } rfl (by simpa using forced)
    exact (LoadRec.effectiveTarget_congr (l := { l with shed := true }) (l' := l) rfl rfl shed rfl).le.trans le

/-- The level of a SWITCH load is not above its target (R53). -/
theorem LoadRec.KindSound.level_le {dark : Prop} (kind : l.KindSound dark) (switch : l.kind = .switch) :
    max l.level l.effTarget = l.effTarget := by
  rcases (kind.1 switch).2 with e | ⟨e, -⟩ <;> omega

variable {dark : Prop} (derived : l.Derived) (kind : l.KindSound dark)
include derived kind

/-- A restore of a forced load counts nothing more (R113). -/
theorem LoadRec.toRestored_draw_forced (forced : l.forced = true) (lit : l.kind ≠ .none) :
    l.toRestored.countedDraw = l.countedDraw := by
  have same : ({ l with shed := false } : LoadRec).effectiveTarget = l.effTarget := by
    exact (LoadRec.forced_effectiveTarget (l := { l with shed := false }) forced lit).trans
      (derived.1.trans (LoadRec.forced_effectiveTarget forced lit)).symm
  cases k : l.kind with
  | none => exact absurd k lit
  | dim => rw [LoadRec.toRestored_draw_dim k, same, derived.2]
  | switch => rw [LoadRec.toRestored_draw_switch k, same, derived.2, kind.level_le k]

/-- A restore counts no less than before (R113). -/
theorem LoadRec.le_toRestored_draw (shed : l.shed = true) (lit : l.kind ≠ .none) :
    l.countedDraw ≤ l.toRestored.countedDraw := by
  have rises := LoadRec.le_restored_effectiveTarget shed
  rw [← derived.1] at rises
  cases k : l.kind with
  | none => exact absurd k lit
  | dim =>
    rw [LoadRec.toRestored_draw_dim k, derived.2]
    exact l.drawAt_mono (max_le_max le_rfl rises)
  | switch =>
    rw [LoadRec.toRestored_draw_switch k, derived.2, kind.level_le k]
    exact l.drawAt_mono rises

end

/-! ### The entries restored -/

/-- What a restore pass makes of the shed list: the newest entries are restored, and the newest of those kept does not fit (R112). -/
structure Restores (kept restored : List LoadNo) (s t : State) : Prop where
  split : s.budget.shedList = kept ++ restored
  list : t.budget.shedList = kept
  loads : ∀ n, t.load n = if n ∈ restored then (s.load n).toRestored else s.load n
  ends : ∀ n, kept.getLast? = some n → t.restoreFits n = false
  notices : t.notices = { s.notices with shedChange := s.notices.shedChange || !restored.isEmpty }

theorem State.restoreOne_shedList {s : State} {n : LoadNo} {older : List LoadNo} (list : s.budget.shedList = older ++ [n])
    (fresh : n ∉ older) : (s.restoreOne n).budget.shedList = older := by
  have erased : (s.restoreOne n).budget.shedList = s.budget.shedList.erase n := by simp [State.restoreOne]
  rw [erased, list, List.erase_append_right _ fresh]
  simp

/-- The newest entry is restored before the rest of the pass. -/
theorem Restores.after_newest {s t : State} {n : LoadNo} {older kept restored : List LoadNo}
    (list : s.budget.shedList = older ++ [n]) (fresh : n ∉ older) (h : Restores kept restored (s.restoreOne n) t) :
    Restores kept (restored ++ [n]) s t := by
  have split : older = kept ++ restored := (State.restoreOne_shedList list fresh).symm.trans h.split
  refine ⟨by rw [list, split, List.append_assoc], h.list, fun m => ?_, h.ends, ?_⟩
  · rw [h.loads, State.load_restoreOne]
    by_cases e : m = n
    · subst e
      have unlisted : m ∉ restored := fun mem => fresh (split ▸ List.mem_append_right kept mem)
      rw [if_neg unlisted, if_pos rfl, if_pos (List.mem_append_right restored List.mem_cons_self)]
    · simp [e]
  · have raised : (s.restoreOne n).notices = { s.notices with shedChange := true } := by simp [State.restoreOne]
    rw [h.notices, raised]
    simp

/-- The pass over the shed list, newest first (R112). -/
theorem State.restoreAlong_restores (ns : List LoadNo) {s : State} (list : s.budget.shedList = ns.reverse) (nodup : ns.Nodup) :
    ∃ kept restored, Restores kept restored s (State.restoreAlong ns s) := by
  induction ns generalizing s with
  | nil => exact ⟨[], [], ⟨list, list, fun n => by simp [State.restoreAlong], fun n => nofun, by simp [State.restoreAlong]⟩⟩
  | cons n ns ih =>
    obtain ⟨fresh, nodup⟩ := List.nodup_cons.1 nodup
    rw [List.reverse_cons] at list
    have fresh' : n ∉ ns.reverse := by simpa using fresh
    simp only [State.restoreAlong]
    split
    · obtain ⟨kept, restored, restores⟩ := ih (State.restoreOne_shedList list fresh') nodup
      exact ⟨kept, restored ++ [n], restores.after_newest list fresh'⟩
    · rename_i unfit
      refine ⟨ns.reverse ++ [n], [], ⟨by rw [list, List.append_nil], list, fun m => by simp, fun m last => ?_, by simp⟩⟩
      rw [List.getLast?_concat, Option.some.injEq] at last
      rw [← last]
      exact Bool.eq_false_iff.2 unfit

theorem State.restorePass_restores {s : State} (nodup : s.budget.shedList.Nodup) :
    ∃ kept restored, Restores kept restored s s.restorePass :=
  State.restoreAlong_restores _ (List.reverse_reverse _).symm (List.nodup_reverse.2 nodup)

theorem State.restoreAlong_deficit (ns : List LoadNo) (s : State) :
    (State.restoreAlong ns s).budget.deficit = s.budget.deficit := by
  induction ns generalizing s with
  | nil => rfl
  | cons n ns ih =>
    simp only [State.restoreAlong]
    split
    · rw [ih]; simp [State.restoreOne]
    · rfl

theorem State.restorePass_deficit (s : State) : s.restorePass.budget.deficit = s.budget.deficit := State.restoreAlong_deficit _ s

/-- A restore that does not fit would bring COMMITTED above AVAILABLE (R112). -/
theorem State.lt_of_restoreFits_eq_false {s : State} {n : LoadNo} (clear : s.budget.deficit = false)
    (unfit : s.restoreFits n = false) : s.budget.available
      < s.budget.committed + ((s.load n).toRestored.countedDraw - (s.load n).countedDraw) := by
  have above : (s.load n).countedDraw + s.headroom < (s.load n).toRestored.countedDraw := by
    simpa [State.restoreFits] using unfit
  have headroom : s.headroom = s.budget.available - s.budget.committed := by simp [State.headroom, Budget.headroom, clear]
  omega

/-- A pass that leaves DEFICIT clear ends where the newest entry kept does not fit (R112). -/
theorem Restores.kept_unfit {s t : State} {kept restored : List LoadNo} (h : Restores kept restored s t)
    (clear : t.budget.deficit = false) {n : LoadNo} (last : kept.getLast? = some n) : t.budget.available
      < t.budget.committed + ((t.load n).toRestored.countedDraw - (t.load n).countedDraw) :=
  State.lt_of_restoreFits_eq_false clear (h.ends n last)

/-- An entry kept is not restored. -/
theorem Restores.load_kept {s t : State} {kept restored : List LoadNo} (h : Restores kept restored s t)
    (nodup : s.budget.shedList.Nodup) {n : LoadNo} (mem : n ∈ kept) : t.load n = s.load n := by
  rw [h.split] at nodup
  rw [h.loads, if_neg fun restored => List.disjoint_of_nodup_append nodup mem restored]

/-- Settles O36: the increases by the kind of the load, and the pass by the entries it restores. -/
theorem theRestorePassRunsFromTheNewest : Obligations.the_restore_pass_runs_from_the_newest := by
  intro s law derived kind within clear
  have budget : s.BudgetLaw := fun _ => within
  refine ⟨fun n shed => ?_, ?_⟩
  · have lit := (law.2.2 n shed).1
    have sound := (State.kindLaw_iff.1 kind).1 n
    have full : ∀ free : (s.load n).forced = false,
        ({ s.load n with shed := false } : LoadRec).effectiveTarget = (s.load n).setTarget := fun free =>
      LoadRec.effectiveTarget_of_free (l := { s.load n with shed := false }) lit free rfl
    refine ⟨fun dim free => ?_, fun switch free => ?_, fun forced => LoadRec.toRestored_draw_forced (derived n) sound forced lit,
      LoadRec.le_toRestored_draw (derived n) sound shed lit⟩
    · rw [LoadRec.toRestored_draw_dim dim, full free]
    · rw [LoadRec.toRestored_draw_switch switch, full free]
      rcases (sound.1 switch).1 with e | e <;> simp [LoadRec.drawAt, switch, e]
  · obtain ⟨kept, restored, restores⟩ := State.restorePass_restores law.1
    have clear' : s.restorePass.budget.deficit = false := s.restorePass_deficit.trans clear
    refine ⟨kept, restored, restores.split, restores.list, s.restorePass_run.only, restores.loads,
      State.restorePass_budgetLaw budget clear', fun n last => ?_, restores.notices⟩
    have unfit := restores.kept_unfit clear' last
    rwa [restores.load_kept law.1 (List.mem_of_getLast? last)] at unfit

end Sys2Proof.Machine

namespace Sys2Proof.Machine

/-! ## Sheds in shed order (R103, R104) -/

/-! ### One shed -/

/-- A shed lowers the counted draw by the relief exactly (R104). -/
theorem LoadRec.toShed_draw_eq {l : LoadRec} (derived : l.Derived) (may : l.sheddable = true) :
    l.toShed.countedDraw + l.relief = l.countedDraw := by
  obtain ⟨lit, -, -, -, -, gain⟩ := LoadRec.sheddable_spec may
  set w := ({ l with shed := true } : LoadRec).retarget with hw
  have lower : w.effTarget < l.effTarget := by
    by_contra above
    simp only [LoadRec.relief, if_neg (show ¬ ({ l with shed := true } : LoadRec).effectiveTarget < l.effTarget from above)] at gain
    omega
  have relief : l.relief = l.countedDraw - l.drawAt w.effTarget := if_pos lower
  have settled : (w.dropToTarget l.effTarget).level ≤ w.effTarget := by
    cases k : l.kind with
    | none => exact absurd k lit
    | switch =>
      rw [LoadRec.dropToTarget_of_switch (l := w) k, LoadRec.followSwitch_of_switch (l := w) k]
    | dim =>
      by_cases above : w.effTarget < w.level
      · rw [LoadRec.dropToTarget_cut (l := w) k lower above]
      · rcases w.dropToTarget_level l.effTarget with e | e <;> omega
  have draw : l.toShed.countedDraw = l.drawAt w.effTarget := by
    rw [LoadRec.toShed, ← hw, LoadRec.recount_countedDraw, LoadRec.drawAt_congr (l := l) (by simp [hw]),
      LoadRec.dropToTarget_effTarget, Nat.max_eq_right settled]
  have part : l.drawAt w.effTarget ≤ l.countedDraw := by
    rw [derived.2]; exact l.drawAt_mono (lower.le.trans (Nat.le_max_right _ _))
  omega

theorem State.output_storeLoad (s : State) (n m : LoadNo) (l : LoadRec) : (s.storeLoad n l).output m
    = if m = n ∧ l.level ≠ (s.load n).level ∧ s.settle = none then { s.output m with staged := some l.duty } else s.output m := by
  rw [State.storeLoad_eq_withLoad]
  simp only [State.withLoad, Bool.false_eq_true, false_or]
  by_cases staged : l.level ≠ (s.load n).level ∧ s.settle = none
  · have written : State.output _ m = _ := State.output_setOutput (s.setLoad n l) n m { s.output n with staged := some l.duty }
    rw [if_pos staged]
    refine written.trans ?_
    by_cases e : m = n
    · subst e; rw [if_pos rfl, if_pos ⟨rfl, staged⟩]
    · rw [if_neg e, if_neg fun h => e h.1]; rfl
  · rw [if_neg staged, if_neg fun h => staged h.2]; rfl

/-! ### A run of sheds -/

/-- What shedding the loads of a list in turn makes of the part (R56, R103, R109). -/
structure Sheds (shed : List LoadNo) (s t : State) : Prop where
  run : LoadRun s t
  loads : ∀ n, t.load n = if n ∈ shed then (s.load n).toShed else s.load n
  outputs : ∀ n, t.output n = if n ∈ shed ∧ (s.load n).toShed.level ≠ (s.load n).level ∧ s.settle = none then
    { s.output n with staged := some (s.load n).toShed.duty } else s.output n
  list : t.budget.shedList = s.budget.shedList ++ shed
  notice : t.notices = { s.notices with shedChange := s.notices.shedChange || !shed.isEmpty }
  deficit : t.budget.deficit = s.budget.deficit
  committed : t.budget.committed + s.reliefOf shed = s.budget.committed

theorem Sheds.none (s : State) : Sheds [] s s :=
  ⟨.refl s, fun n => by simp, fun n => by simp, by simp, by simp, rfl, rfl⟩

theorem State.reliefOf_append (s : State) (shed spared : List LoadNo) :
    s.reliefOf (shed ++ spared) = s.reliefOf shed + s.reliefOf spared := by simp [State.reliefOf]

theorem State.reliefOf_concat (s : State) (shed : List LoadNo) (n : LoadNo) :
    s.reliefOf (shed ++ [n]) = s.reliefOf shed + (s.load n).relief := by simp [State.reliefOf]

/-- One more load is shed. -/
theorem Sheds.concat {shed : List LoadNo} {s t : State} {n : LoadNo} (h : Sheds shed s t) (fresh : n ∉ shed)
    (may : (s.load n).sheddable = true) (derived : (s.load n).Derived) {k : Nat} (owes : s.Owes k) :
    Sheds (shed ++ [n]) s (t.shedOne n) := by
  have same : t.load n = s.load n := by rw [h.loads, if_neg fresh]
  have draw := LoadRec.toShed_draw_eq derived may
  have owed := h.run.owes k owes
  have part : (s.load n).countedDraw ≤ t.budget.committed := by
    have le := t.le_totalDraw n
    rw [same] at le
    rw [owed]
    omega
  have outputs : ∀ m, (t.shedOne n).output m = (t.storeLoad n (s.load n).toShed).output m := fun m => by
    rw [← same]; rfl
  refine ⟨h.run.trans (State.shedOne_run (by rw [same]; exact may)), fun m => ?_, fun m => ?_, ?_, ?_, ?_, ?_⟩
  · rw [State.load_shedOne, same, h.loads]
    by_cases e : m = n
    · subst e; simp
    · simp [e]
  · rw [outputs, State.output_storeLoad, h.outputs, same, h.run.settle]
    by_cases e : m = n
    · subst e; simp [fresh]
    · simp [e]
  · simp [State.shedOne, h.list]
  · simp [State.shedOne, h.notice]
  · simp [State.shedOne, h.deficit]
  · have committed : (t.shedOne n).budget.committed
        = t.budget.committed + (s.load n).toShed.countedDraw - (s.load n).countedDraw := by
      simp [State.shedOne, same]
    have before := h.committed
    rw [committed, State.reliefOf_concat]
    omega

/-- Sheddable loads are shed in turn, each once. -/
theorem State.foldl_shedOne_sheds {s : State} (sound : s.LoadsSound) {k : Nat} (owes : s.Owes k) (shed : List LoadNo)
    (nodup : shed.Nodup) (may : ∀ n ∈ shed, (s.load n).sheddable = true) : Sheds shed s (shed.foldl State.shedOne s) := by
  induction shed using List.reverseRecOn with
  | nil => exact .none s
  | append_singleton kept n ih =>
    rw [List.foldl_concat]
    have once : kept.Nodup ∧ n ∉ kept := by
      rw [List.nodup_append] at nodup
      exact ⟨nodup.1, fun mem => nodup.2.2 n mem n List.mem_cons_self rfl⟩
    exact (ih once.1 fun m mem => may m (List.mem_append_left _ mem)).concat once.2
      (may n (List.mem_append_right _ List.mem_cons_self)) (sound n).derived owes

/-- Shedding along a list sheds the first of its sheddable loads, as many as it takes (R104, R109, R114). -/
theorem State.shedAlong_eq_foldl (enough : State → Bool) (ns : List LoadNo) (nodup : ns.Nodup) (s : State) :
    ∃ shed spared, ns.filter (fun n => (s.load n).sheddable) = shed ++ spared
      ∧ State.shedAlong enough ns s = shed.foldl State.shedOne s
      ∧ (spared = [] ∨ enough (shed.foldl State.shedOne s) = true)
      ∧ ∀ kept n more, shed = kept ++ n :: more → enough (kept.foldl State.shedOne s) = false := by
  induction ns generalizing s with
  | nil => exact ⟨[], [], rfl, rfl, .inl rfl, by simp⟩
  | cons n ns ih =>
    obtain ⟨fresh, nodup⟩ := List.nodup_cons.1 nodup
    simp only [State.shedAlong]
    split
    · rename_i done
      exact ⟨[], _, rfl, rfl, .inr done, by simp⟩
    · rename_i short
      split
      · rename_i may
        have left : ns.filter (fun m => ((s.shedOne n).load m).sheddable) = ns.filter fun m => (s.load m).sheddable := by
          refine List.filter_congr fun m mem => ?_
          rw [State.load_shedOne, if_neg (show ¬ m = n from fun e => fresh (e ▸ mem))]
        obtain ⟨shed, spared, split, along, ends, needed⟩ := ih nodup (s.shedOne n)
        rw [left] at split
        refine ⟨n :: shed, spared, by rw [List.filter_cons, if_pos may, split, List.cons_append], along, ends, ?_⟩
        intro kept m more cut
        cases kept with
        | nil => exact Bool.eq_false_iff.2 short
        | cons n' kept =>
          obtain ⟨rfl, rfl⟩ := List.cons.inj cut
          exact needed kept m more rfl
      · rename_i may
        obtain ⟨shed, spared, split, rest⟩ := ih nodup s
        exact ⟨shed, spared, by rw [List.filter_cons, if_neg may, split], rest⟩

/-! ### Shed order -/

theorem State.ShedsFirst.asymm {s : State} {m n : LoadNo} (h : s.ShedsFirst m n) : ¬ s.ShedsFirst n m := by
  simp only [State.ShedsFirst, Fin.lt_def] at *
  omega

theorem State.mem_shedOrder {s : State} {n : LoadNo} : n ∈ s.shedOrder ↔ 1 ≤ (s.load n).shedRank ∧ (s.load n).shedRank ≤ 7 := by
  have listed : n ∈ s.shedOrder ↔ (s.load n).shedRank ∈ [7, 6, 5, 4, 3, 2, 1] := by
    simp [State.shedOrder, allLoads_complete]
  rw [listed]
  simp only [List.mem_cons, List.not_mem_nil, or_false]
  omega

/-- The list the sheds follow stands in shed order (R104). -/
theorem State.shedOrder_pairwise (s : State) : s.shedOrder.Pairwise s.ShedsFirst := by
  rw [State.shedOrder, List.pairwise_flatMap]
  refine ⟨fun r _ => ?_, ?_⟩
  · have descending : allLoads.reverse.Pairwise fun m n => n < m := List.pairwise_reverse.2 (List.pairwise_lt_finRange 96)
    refine (descending.filter _).imp_of_mem fun hm hn lower => ?_
    simp only [List.mem_filter, beq_iff_eq] at hm hn
    exact .inr ⟨hn.2.trans hm.2.symm, lower⟩
  · have ranks : [7, 6, 5, 4, 3, 2, 1].Pairwise fun r r' : Nat => r' < r := by decide
    refine ranks.imp fun lower m hm n hn => ?_
    simp only [List.mem_filter, beq_iff_eq] at hm hn
    exact .inl (by rw [hm.2, hn.2]; exact lower)

/-- The relief of all loads that may be shed is a sum over the loads of the part (R104). -/
theorem State.reliefOf_eq_sum {s : State} {ns : List LoadNo} {may : LoadNo → Bool} (nodup : ns.Nodup)
    (mem : ∀ n, n ∈ ns ↔ may n = true) :
    s.reliefOf ns = ((List.finRange 96).map fun n => if may n then (s.load n).relief else 0).sum := by
  have all : ns.toFinset = Finset.univ.filter fun n => may n = true := by ext n; simp [mem]
  rw [← Fin.sum_univ_def, ← Finset.sum_filter, ← all, List.sum_toFinset _ nodup]
  rfl

/-- Where the first loads of those that may be shed are shed, in shed order, until the relief makes up what is short, they are
shed as R104 orders them. -/
theorem Sheds.inOrder {may : LoadNo → Prop} {short : Nat} {shed spared : List LoadNo} {s t : State} (h : Sheds shed s t)
    (order : (shed ++ spared).Pairwise s.ShedsFirst) (all : ∀ n, n ∈ shed ++ spared ↔ may n) (enough : short ≤ s.reliefOf shed)
    (needed : ∀ kept n, shed = kept ++ [n] → s.reliefOf kept < short) : ShedsInOrder may short shed s t where
  allowed n mem := (all n).1 (List.mem_append_left _ mem)
  order := (List.pairwise_append.1 order).1
  first m n allowed mem first := by
    rcases List.mem_append.1 ((all m).2 allowed) with shed | spared
    · exact shed
    · exact absurd first ((List.pairwise_append.1 order).2.2 n mem m spared).asymm
  enough := enough
  needed := needed
  loads := h.loads
  outputs := h.outputs
  list := h.list
  notice := h.notice

/-- The sheds are looked for in the records of loads, outputs, shed list and notices alone. -/
theorem ShedsInOrder.congr {may : LoadNo → Prop} {short : Nat} {shed : List LoadNo} {s t u : State}
    (h : ShedsInOrder may short shed s t) (loads : u.loads = t.loads) (outputs : u.outputs = t.outputs)
    (list : u.budget.shedList = t.budget.shedList) (notices : u.notices = t.notices) : ShedsInOrder may short shed s u :=
  { h with
    loads := fun n => (State.load_congr loads n).trans (h.loads n)
    outputs := fun n => by
      have same : u.output n = t.output n := by simp only [State.output, outputs]
      exact same.trans (h.outputs n)
    list := list.trans h.list
    notice := notices.trans h.notice }

/-- A sheddable load that is shed afterwards is among those shed, so no load before it in the order is passed over (R104). -/
theorem ShedsInOrder.none_passed {may : LoadNo → Prop} {short : Nat} {shed : List LoadNo} {s t : State}
    (h : ShedsInOrder may short shed s t) {m n : LoadNo} (first : s.ShedsFirst m n) (mayM : may m)
    (bright : (s.load n).shed = false) (dark : (t.load n).shed = true) : (t.load m).shed = true := by
  have mem : n ∈ shed := by
    by_contra spared
    rw [h.loads, if_neg spared, bright] at dark
    cases dark
  rw [h.loads, if_pos (h.first m n mayM mem first)]
  simp [LoadRec.toShed]

/-- Shedding along an order, `enough` asking for a relief of `short`: the loads that may be shed are shed in shed order until what
is short is made up, or all of them where it cannot be; never more (R104, R109, R114). -/
theorem State.shedAlong_sheds {s : State} (sound : s.LoadsSound) {k : Nat} (owes : s.Owes k) {ns : List LoadNo}
    (nodup : ns.Nodup) (order : ns.Pairwise s.ShedsFirst) {may : LoadNo → Prop}
    (all : ∀ n, n ∈ ns ∧ (s.load n).sheddable = true ↔ may n) {short : Nat} {enough : State → Bool}
    (asks : ∀ shed t, Sheds shed s t → (enough t = true ↔ short ≤ s.reliefOf shed)) :
    let total := s.reliefOf (ns.filter fun n => (s.load n).sheddable)
    ∃ shed, Sheds shed s (State.shedAlong enough ns s) ∧ s.reliefOf shed ≤ total
      ∧ ShedsInOrder may (min short total) shed s (State.shedAlong enough ns s) := by
  intro total
  obtain ⟨shed, spared, split, along, ends, needed⟩ := s.shedAlong_eq_foldl enough ns nodup
  have sheddable : ∀ n ∈ shed ++ spared, (s.load n).sheddable = true := fun n mem => by
    rw [← split, List.mem_filter] at mem; exact mem.2
  have nodup' : (shed ++ spared).Nodup := split ▸ nodup.filter _
  have sheds : ∀ kept more, shed = kept ++ more → Sheds kept s (kept.foldl State.shedOne s) := fun kept more cut => by
    refine s.foldl_shedOne_sheds sound owes kept ?_ fun n mem => sheddable n ?_
    · exact (cut ▸ nodup'.of_append_left).of_append_left
    · exact List.mem_append_left _ (cut ▸ List.mem_append_left _ mem)
  have whole := sheds shed [] (List.append_nil _).symm
  have relief : total = s.reliefOf shed + s.reliefOf spared := by simp only [total, split, State.reliefOf_append]
  rw [along]
  refine ⟨shed, whole, by omega, whole.inOrder (split ▸ order.filter _) (fun n => ?_) ?_ fun kept n cut => ?_⟩
  · rw [← split, List.mem_filter]; exact all n
  · rcases ends with rfl | done
    · exact (min_le_right _ _).trans relief.le
    · exact (min_le_left _ _).trans ((asks _ _ whole).1 done)
  · have gain := (LoadRec.sheddable_spec (sheddable n (List.mem_append_left _ (cut ▸ List.mem_append_right _
      List.mem_cons_self)))).2.2.2.2.2
    have last : s.reliefOf shed = s.reliefOf kept + (s.load n).relief := by rw [cut, State.reliefOf_concat]
    refine lt_min (not_le.1 fun reached => ?_) (by omega)
    have short' := needed kept n [] cut
    rw [(asks _ _ (sheds kept [n] cut)).2 reached] at short'
    cases short'

end Sys2Proof.Machine

namespace Sys2Proof.Machine

/-! ## The motion grant (R107 to R110) -/

/-- The loads a grant for axis a may shed (R104, R108). -/
def State.maySpare (s : State) (a : AxisNo) (n : LoadNo) : Bool := (s.load n).sheddable && (s.axis a).courtesy != some n

section
variable (s : State) (a : AxisNo)

theorem State.maySpare_iff (n : LoadNo) :
    s.maySpare a n = true ↔ (s.load n).sheddable = true ∧ (s.axis a).courtesy ≠ some n := by simp [State.maySpare]

theorem State.mem_grantOrder (n : LoadNo) :
    n ∈ s.grantOrder a ∧ (s.load n).sheddable = true ↔ s.maySpare a n = true := by
  rw [State.maySpare_iff, State.grantOrder, List.mem_filter, State.mem_shedOrder, bne_iff_ne]
  refine ⟨fun ⟨⟨_, other⟩, may⟩ => ⟨may, other⟩, fun ⟨may, other⟩ => ⟨⟨?_, other⟩, may⟩⟩
  obtain ⟨-, low, high, -⟩ := LoadRec.sheddable_spec may
  exact ⟨low, high⟩

theorem State.reliefAlong_eq (ns : List LoadNo) :
    s.reliefAlong ns = s.reliefOf (ns.filter fun n => (s.load n).sheddable) := by
  induction ns with
  | nil => rfl
  | cons n ns ih =>
    have step : s.reliefAlong (n :: ns) = (if (s.load n).sheddable then (s.load n).relief else 0) + s.reliefAlong ns := rfl
    rw [step, ih, List.filter_cons]
    split
    · rfl
    · rw [Nat.zero_add]

/-- The relief a grant can find is that of all loads that may be shed for it (R108). -/
theorem State.grantRelief_eq_sum : s.grantRelief a
    = ((List.finRange 96).map fun n => if s.maySpare a n then (s.load n).relief else 0).sum := by
  rw [State.grantRelief_eq, State.reliefAlong_eq]
  refine State.reliefOf_eq_sum ((s.grantOrder_nodup a).filter _) fun n => ?_
  rw [List.mem_filter]
  exact s.mem_grantOrder a n

/-- The courtesy increment of a configured load is what its rating has left (R43, R107). -/
theorem State.courtesyIncrement_some {n : LoadNo} (lit : (s.load n).kind ≠ .none) : s.courtesyIncrement (some n)
    = if (s.load n).forced then 0 else (s.load n).ratedPower - (s.load n).countedDraw := by
  have full : (s.load n).drawAt 1000 = (s.load n).ratedPower := by
    cases k : (s.load n).kind with
    | none => exact absurd k lit
    | dim => simp only [LoadRec.drawAt, k]; omega
    | switch => simp [LoadRec.drawAt, k]
  simp only [State.courtesyIncrement, lit, false_or, full]

/-- Where the grant is refused (R108, R117). -/
theorem State.grant_eq_none_iff : s.grant a = none ↔ if s.budget.deficit then 0 < s.motionNeed a
    else s.budget.available - s.budget.committed + s.grantRelief a < s.motionNeed a := by
  cases deficit : s.budget.deficit with
  | true =>
    simp only [State.grant, deficit, if_true]
    split <;> simp <;> omega
  | false =>
    have headroom : s.headroom = s.budget.available - s.budget.committed := by simp [State.headroom, Budget.headroom, deficit]
    simp only [State.grant, deficit, Bool.false_eq_true, if_false, headroom]
    split
    · simp; omega
    · split
      · simpa
      · simp; omega

variable {s a}

/-- A grant made: the loads that may be shed are shed in shed order, no more than it takes, and the demand is added (R108 to R110). -/
theorem State.grant_sheds {t : State} (sound : s.LoadsSound) (ledger : s.LedgerLaw) (budget : s.BudgetLaw)
    (grant : s.grant a = some t) :
    let free := s.budget.available - s.budget.committed
    ∃ shed u, t = u.addDemand a ∧ Sheds shed s u
      ∧ ShedsInOrder (fun n => s.maySpare a n = true) (s.motionNeed a - free) shed s u
      ∧ (s.motionNeed a ≤ free ∨ s.budget.deficit = true → u = s) := by
  intro free
  have order : (s.grantOrder a).Pairwise s.ShedsFirst := s.shedOrder_pairwise.filter _
  have unshed : s.motionNeed a ≤ free →
      ShedsInOrder (fun n => s.maySpare a n = true) (s.motionNeed a - free) [] s s := fun fits => by
    refine (Sheds.none s).inOrder (spared := (s.grantOrder a).filter fun n => (s.load n).sheddable) (order.filter _)
      (fun n => ?_) (by omega) fun kept n cut => by simp at cut
    rw [List.nil_append, List.mem_filter]
    exact s.mem_grantOrder a n
  cases deficit : s.budget.deficit with
  | true =>
    simp only [State.grant, deficit, if_true] at grant
    split at grant
    · rename_i zero
      cases grant
      exact ⟨[], s, rfl, .none s, unshed (by omega), fun _ => rfl⟩
    · cases grant
  | false =>
    have headroom : s.headroom = free := by simp [free, State.headroom, Budget.headroom, deficit]
    have within := budget deficit
    simp only [State.grant, deficit, Bool.false_eq_true, if_false, headroom] at grant
    split at grant
    · rename_i fits
      cases grant
      exact ⟨[], s, rfl, .none s, unshed fits, fun _ => rfl⟩
    · rename_i tight
      split at grant
      · cases grant
      · rename_i relief
        cases grant
        have asks : ∀ shed v, Sheds shed s v →
            (decide (s.motionNeed a ≤ v.headroom) = true ↔ s.motionNeed a - free ≤ s.reliefOf shed) := fun shed v sheds => by
          have committed := sheds.committed
          have room : v.headroom = s.budget.available - v.budget.committed := by
            simp [State.headroom, Budget.headroom, sheds.deficit, deficit, sheds.run.available]
          rw [decide_eq_true_iff, room]
          omega
        obtain ⟨shed, sheds, -, inOrder⟩ := State.shedAlong_sheds sound ledger.owes (s.grantOrder_nodup a) order
          (s.mem_grantOrder a) asks
        rw [← State.reliefAlong_eq, ← State.grantRelief_eq, Nat.min_eq_left (by omega)] at inOrder
        exact ⟨shed, _, rfl, sheds, inOrder, fun unneeded => unneeded.elim (absurd · tight) nofun⟩

end

/-- Settles O35: where the grant is refused, and what it sheds where it is made. -/
theorem theMotionGrantIsAllOrNothing : Obligations.the_motion_grant_is_all_or_nothing := by
  intro s a law rise need free may relief
  have sound := law.books.loads
  have same : s.motionNeed a = need := by
    have increment : s.courtesyIncrement (s.axis a).courtesy = rise := by
      simp only [rise]
      cases courtesy : (s.axis a).courtesy with
      | none => rfl
      | some n => exact s.courtesyIncrement_some (law.force.2.2 a n courtesy)
    rw [State.motionNeed, increment]
  have all : s.grantRelief a = relief := s.grantRelief_eq_sum a
  refine ⟨by rw [State.grant_eq_none_iff, same, all], fun t grant => ?_⟩
  obtain ⟨shed, u, rfl, sheds, inOrder, alone⟩ := State.grant_sheds sound law.ledger law.budget grant
  rw [same] at inOrder alone
  have inOrder : ShedsInOrder may (need - free) shed s u := by
    simpa only [State.maySpare_iff] using inOrder
  have axis : u.axis a = s.axis a := State.axis_congr sheds.run.only.axes a
  have committed : (u.addDemand a).budget.committed = u.budget.committed + (s.axis a).demand := by rw [← axis]; rfl
  have taken := sheds.committed
  have bright : ∀ n, may n → (s.load n).shed = false := fun n h => (LoadRec.sheddable_spec h.1).2.2.2.1
  have demanded : OnlyLoads u (u.addDemand a) := rfl
  refine ⟨sheds.run.only.trans demanded, fun n => (sheds.run.changes n).config, fun b => ?_, fun n => ?_,
    fun unneeded => by rw [alone unneeded], fun clear => ?_, sheds.run.available, sheds.deficit, ⟨shed, ?_, by omega⟩,
    fun m n mayM mayN dark first => ?_⟩
  · have held : (u.addDemand a).held b = if b = a then u.held a + (u.axis a).demand else u.held b := u.held_setHeld a b _
    rw [held, axis, sheds.run.held_eq, sheds.run.held_eq]
  · rcases Decidable.em (n ∈ shed) with mem | spared
    · have listed : n ∈ u.budget.shedList := sheds.list ▸ List.mem_append_right _ mem
      exact .inr ⟨inOrder.allowed n mem, (sheds.loads n).trans (if_pos mem), listed⟩
    · exact .inl ((sheds.loads n).trans (if_neg spared))
  · have available : (u.addDemand a).budget.available = s.budget.available := sheds.run.available
    have within := law.budget clear
    have enough := inOrder.enough
    rw [committed, available]
    omega
  · exact inOrder.congr rfl rfl rfl rfl
  · exact inOrder.none_passed first mayM (bright n mayN) dark

end Sys2Proof.Machine

namespace Sys2Proof.Machine

/-! ## SET_BUDGET and the reduction procedure (R101, R114 to R116) -/

/-- A SET_BUDGET is decided by the Power Budget Monitor (R101). -/
theorem exec_setBudget {s : State} {o : Origin} {v : Nat} (hv : v < 65536) (takes : s.Takes .setBudget o) :
    exec (.setBudget o (bytesOf v)) s
      = .next (((s.endReceipt o).decideSetBudget v).2.answered o ReqKind.setBudget.code
          ((s.endReceipt o).decideSetBudget v).1) := by
  have read : readSetBudget (bytesOf v) = some v := by simp [readSetBudget, bytesOf, hv]
  obtain ⟨w, hw, owned⟩ := decideBody_owned (parsed := some v) (owner := fun v s => State.decideSetBudget s v)
    takes.endReceipt.admission takes.endReceipt.screen
  cases hw
  show execSetBudget o (bytesOf v) s = _
  rw [execSetBudget, serve_decided takes.room (by simp [bytesOf]), read, owned]

/-- The relief of all sheddable loads (R104). -/
def State.sheddableRelief (s : State) : Nat :=
  ((List.finRange 96).map fun n => if (s.load n).sheddable then (s.load n).relief else 0).sum

/-- The part with a new AVAILABLE (R101). -/
def State.withAvailable (s : State) (v : Nat) : State := { s with budget := { s.budget with available := v } }

section
variable {s : State} {v : Nat}

theorem State.applyBudget_of_within (within : s.budget.committed ≤ v) : s.applyBudget v
    = ({ s with budget := { s.budget with available := v, deficit := false } } : State).restorePass :=
  if_pos (decide_eq_true within)

theorem State.applyBudget_of_above (above : v < s.budget.committed) : s.applyBudget v = (s.withAvailable v).reduce :=
  if_neg fun within => absurd (of_decide_eq_true within) above.not_ge

/-- The first step sheds sheddable loads in shed order, no more than it takes, and all of them where that is too little (R114). -/
theorem State.reduceLoads_sheds (books : s.Books) :
    ∃ shed, Sheds shed s s.reduceLoads ∧ s.reliefOf shed ≤ s.sheddableRelief
      ∧ ShedsInOrder (fun n => (s.load n).sheddable = true)
          (min (s.budget.committed - s.budget.available) s.sheddableRelief) shed s s.reduceLoads := by
  have listed : ∀ n, n ∈ s.shedOrder ∧ (s.load n).sheddable = true ↔ (s.load n).sheddable = true := fun n => by
    refine ⟨fun h => h.2, fun may => ⟨State.mem_shedOrder.2 ?_, may⟩⟩
    obtain ⟨-, low, high, -⟩ := LoadRec.sheddable_spec may
    exact ⟨low, high⟩
  have total : s.reliefOf (s.shedOrder.filter fun n => (s.load n).sheddable) = s.sheddableRelief := by
    refine State.reliefOf_eq_sum (may := fun n => (s.load n).sheddable) (s.shedOrder_nodup.filter _) fun n => ?_
    rw [List.mem_filter]
    exact listed n
  have asks : ∀ shed t, Sheds shed s t →
      (t.withinBudget = true ↔ s.budget.committed - s.budget.available ≤ s.reliefOf shed) := fun shed t sheds => by
    have committed := sheds.committed
    rw [State.withinBudget_iff, sheds.run.available]
    omega
  have sheds := State.shedAlong_sheds books.loads books.ledger.owes s.shedOrder_nodup s.shedOrder_pairwise listed asks
  rwa [total] at sheds

/-- Where their relief suffices, the sheds are all that a reduction does but for clearing DEFICIT (R114, R119). -/
theorem State.reduce_of_relief (books : s.Books) (above : s.budget.available < s.budget.committed)
    (relief : s.budget.committed ≤ s.budget.available + s.sheddableRelief) :
    s.reduce = s.reduceLoads.setDeficit false ∧ s.reduceLoads.budget.committed ≤ s.budget.available
      ∧ ∃ shed, Sheds shed s s.reduceLoads
        ∧ ShedsInOrder (fun n => (s.load n).sheddable = true) (s.budget.committed - s.budget.available) shed s s.reduceLoads := by
  obtain ⟨shed, sheds, -, inOrder⟩ := State.reduceLoads_sheds books
  rw [Nat.min_eq_left (by omega)] at inOrder
  have committed := sheds.committed
  have enough := inOrder.enough
  have low : s.reduceLoads.budget.committed ≤ s.budget.available := by omega
  have within : s.reduceLoads.withinBudget = true := by rw [State.withinBudget_iff, sheds.run.available]; exact low
  have two : s.reduceTwoSteps = s.reduceLoads.setDeficit false := if_pos within
  refine ⟨?_, low, shed, sheds, inOrder⟩
  rw [State.reduce, two]
  exact if_pos within

/-- Where all relief is too little, every sheddable load is shed, and still COMMITTED is above AVAILABLE (R114). -/
theorem State.reduceLoads_of_short (books : s.Books) (short : s.budget.available + s.sheddableRelief < s.budget.committed) :
    ¬ s.reduceLoads.withinBudget = true ∧ ∃ shed, Sheds shed s s.reduceLoads
      ∧ ShedsInOrder (fun n => (s.load n).sheddable = true) s.sheddableRelief shed s s.reduceLoads := by
  obtain ⟨shed, sheds, most, inOrder⟩ := State.reduceLoads_sheds books
  rw [Nat.min_eq_right (by omega)] at inOrder
  refine ⟨?_, shed, sheds, inOrder⟩
  have committed := sheds.committed
  rw [State.withinBudget_iff, sheds.run.available]
  omega

/-! ### The axes abandoned (R115) -/

/-- What an abandonment makes of the record, the channel and the HELD DEMAND of an axis (R110, R115, R135). -/
def abandonView (x : AxisRec × Channel × Nat) : AxisRec × Channel × Nat :=
  if x.1.state = .warn then (x.1.parkedBy .noBudget, x.2.1.finish, 0) else x

/-- Where no entry stops an axis, an abandonment reaches its own axis alone (R115). -/
theorem State.Quiet.abandon {s : State} (quiet : s.Quiet) (a : AxisNo) : (s.abandon a).Quiet
    ∧ ∀ b, (s.abandon a).axisRecords b = if b = a then abandonView (s.axisRecords b) else s.axisRecords b := by
  by_cases warn : (s.axis a).state = .warn
  · obtain ⟨alone, after⟩ := State.Quiet.park quiet a .noBudget true
    have eq : s.abandon a = s.parkCore a .noBudget true := (if_pos warn).trans alone
    obtain ⟨-, axes, channels⟩ := s.parkCore_spec a .noBudget true
    have held := (s.parkCore_budget a .noBudget true).2.1
    rw [eq]
    refine ⟨after, fun b => ?_⟩
    simp only [State.axisRecords, axes, channels, held]
    by_cases hb : b = a
    · subst hb
      simp only [if_true, abandonView, warn]
      rfl
    · simp only [if_neg hb]
  · have eq : s.abandon a = s := if_neg warn
    rw [eq]
    refine ⟨quiet, fun b => ?_⟩
    split
    · rename_i hb
      subst hb
      exact (if_neg (show ¬ (s.axisRecords b).1.state = .warn from warn)).symm
    · rfl

theorem State.Quiet.abandonWarned {s : State} (quiet : s.Quiet) (b : AxisNo) :
    s.abandonWarned.axisRecords b = abandonView (s.axisRecords b) := by
  rw [State.abandonWarned, foldl_each_once (view := State.axisRecords) (g := abandonView) (keeps := State.Quiet)
    (fun _ a h => State.Quiet.abandon h a) allAxes (by decide) quiet b, if_pos (allAxes_complete b)]

/-- Where loads and budget alone change, no axis does. -/
theorem LoadRun.axisRecords {s t : State} (h : LoadRun s t) (b : AxisNo) : t.axisRecords b = s.axisRecords b := by
  simp only [State.axisRecords, State.axis_congr h.only.axes, State.channel_congr h.only.channels, h.held_eq]

/-- The restore pass keeps COMMITTED within AVAILABLE (R112). -/
theorem State.restorePass_within {t : State} (within : t.withinBudget = true) :
    (t.setDeficit false).restorePass.withinBudget = true :=
  State.withinBudget_iff.2 (State.restorePass_budgetLaw (s := t.setDeficit false) (fun _ => State.withinBudget_iff.1 within)
    (State.restorePass_deficit _))

/-- What a reduction leaves where all relief is too little: the axes in WARN parked, and then the restore pass run where that
suffices, or DEFICIT set (R114 to R116). -/
theorem State.reduce_of_short (short : ¬ s.reduceLoads.withinBudget = true) :
    let t := s.reduceLoads.abandonWarned
    t.withinBudget = true ∧ s.reduce = (t.setDeficit false).restorePass
      ∨ ¬ t.withinBudget = true ∧ s.reduce = t.setDeficit true := by
  intro t
  by_cases within : t.withinBudget = true
  · have two : s.reduceTwoSteps = (t.setDeficit false).restorePass := (if_neg short).trans (if_pos within)
    refine .inl ⟨within, ?_⟩
    rw [State.reduce, two]
    exact if_pos (State.restorePass_within within)
  · have two : s.reduceTwoSteps = t := (if_neg short).trans (if_neg within)
    refine .inr ⟨within, ?_⟩
    rw [State.reduce, two]
    exact if_neg within

theorem State.abandon_available (s : State) (a : AxisNo) : (s.abandon a).budget.available = s.budget.available := by
  rw [State.abandon]
  split
  · have ripples : Ripples (s.parkCore a .noBudget true) (s.park a .noBudget true) := State.tellInterlocks_ripples _ a
    exact ripples.available.trans (s.parkCore_calm a .noBudget true).available
  · rfl

theorem State.abandonWarned_available (s : State) : s.abandonWarned.budget.available = s.budget.available :=
  foldl_rel (R := fun s t : State => t.budget.available = s.budget.available) (fun _ => rfl) (fun h k => k.trans h)
    State.abandon_available allAxes s

/-- A reduction leaves AVAILABLE, and DEFICIT set exactly where COMMITTED is still above it (R116, R119). -/
theorem State.reduce_deficit : s.reduce.budget.available = s.budget.available
    ∧ (s.reduce.budget.deficit = true ↔ s.budget.available < s.reduce.budget.committed) := by
  have first : s.reduceLoads.budget.available = s.budget.available := (State.shedAlong_run _ _ s).available
  have second := s.reduceLoads.abandonWarned_available.trans first
  suffices settled : s.reduce.budget.available = s.budget.available
      ∧ (s.reduce.budget.deficit = true ↔ ¬ s.reduce.withinBudget = true) by
    refine ⟨settled.1, settled.2.trans ?_⟩
    rw [State.withinBudget_iff, settled.1, not_le]
  by_cases done : s.reduceLoads.withinBudget = true
  · have two : s.reduceTwoSteps = s.reduceLoads.setDeficit false := if_pos done
    have eq : s.reduce = s.reduceLoads.setDeficit false := by rw [State.reduce, two]; exact if_pos done
    have same : (s.reduceLoads.setDeficit false).withinBudget = s.reduceLoads.withinBudget := rfl
    rw [eq, same]
    exact ⟨first, iff_of_false Bool.false_ne_true (not_not_intro done)⟩
  · have ends := State.reduce_of_short done
    generalize s.reduceLoads.abandonWarned = t at second ends
    have kept : ∀ v, (t.setDeficit v).budget.available = s.budget.available := fun _ => second
    rcases ends with ⟨within, eq⟩ | ⟨above, eq⟩ <;> rw [eq]
    · have clear : (t.setDeficit false).restorePass.budget.deficit = false := State.restorePass_deficit _
      have stays := State.restorePass_within within
      have run := State.restorePass_run (t.setDeficit false)
      generalize (t.setDeficit false).restorePass = u at clear stays run
      exact ⟨run.available.trans (kept false), iff_of_false (by rw [clear]; decide) (not_not_intro stays)⟩
    · exact ⟨kept true, iff_of_true rfl above⟩

/-- What a reduction leaves of the axes where all relief is too little (R115). -/
theorem State.reduce_records (quiet : s.Quiet) (short : ¬ s.reduceLoads.withinBudget = true) (b : AxisNo) :
    s.reduce.axisRecords b = abandonView (s.axisRecords b) := by
  have shed : LoadRun s s.reduceLoads := State.shedAlong_run _ _ s
  have abandoned := State.Quiet.abandonWarned (shed.only.abandons quiet).1 b
  rw [shed.axisRecords] at abandoned
  rcases State.reduce_of_short short with ⟨-, eq⟩ | ⟨-, eq⟩ <;> rw [eq]
  · rw [(State.restorePass_run _).axisRecords, (State.setDeficit_run _ _).axisRecords, abandoned]
  · rw [(State.setDeficit_run _ _).axisRecords, abandoned]

/-- Where no axis is in WARN, no axis is abandoned (R115). -/
theorem State.abandonWarned_of_none {t : State} (none : ∀ a, (t.axis a).state ≠ .warn) : t.abandonWarned = t :=
  List.foldl_fixed' (fun a => if_neg (none a)) _

/-- A reduction that ends with DEFICIT clear for want of relief has run the restore pass to its end (R112, R115). -/
theorem State.reduce_newest_unfit (books : s.Books) (short : ¬ s.reduceLoads.withinBudget = true)
    (clear : s.reduce.budget.deficit = false) {n : LoadNo} (last : s.reduce.budget.shedList.getLast? = some n) :
    s.reduce.budget.available < s.reduce.budget.committed
      + ((s.reduce.load n).toRestored.countedDraw - (s.reduce.load n).countedDraw) := by
  rcases State.reduce_of_short short with ⟨-, eq⟩ | ⟨-, eq⟩ <;> rw [eq] at clear last ⊢
  · have one : Kept s s.reduceLoads := State.shedAlong_kept _ _ s
    have two : Kept s s.reduceLoads.abandonWarned := one.trans (Kept.foldl State.abandon_kept _ _)
    obtain ⟨kept, restored, restores⟩ := State.restorePass_restores ((two.books books).setDeficit false).shed.1
    exact restores.kept_unfit clear (by rw [← restores.list]; exact last)
  · cases clear

end

/-- The sheds of a part are those of one with the same loads, outputs, shed list, notices and settle interval. -/
theorem ShedsInOrder.rebase {may : LoadNo → Prop} {short : Nat} {shed : List LoadNo} {s t u : State}
    (h : ShedsInOrder may short shed t u) (loads : t.loads = s.loads) (outputs : t.outputs = s.outputs)
    (list : t.budget.shedList = s.budget.shedList) (notices : t.notices = s.notices) (settle : t.settle = s.settle) :
    ShedsInOrder may short shed s u := by
  have load : t.load = s.load := funext (State.load_congr loads)
  have output : t.output = s.output := funext fun n => by simp only [State.output, outputs]
  have first : t.ShedsFirst = s.ShedsFirst := by funext m n; simp only [State.ShedsFirst, load]
  have relief : t.reliefOf = s.reliefOf := by funext ns; simp only [State.reliefOf, load]
  obtain ⟨allowed, order, passed, enough, needed, loads', outputs', list', notice⟩ := h
  rw [first] at order passed
  rw [relief] at enough needed
  rw [load] at loads' outputs'
  rw [output, settle] at outputs'
  exact ⟨allowed, order, passed, enough, needed, loads', outputs', list'.trans (by rw [list]), notice.trans (by rw [notices])⟩

/-- Settles O34: the restore pass at or above COMMITTED, and below it the reduction by whether the relief suffices. -/
theorem setBudgetRestoresOrReduces : Obligations.set_budget_restores_or_reduces := by
  intro s o v hv takes
  rw [exec_setBudget hv takes]
  refine ⟨fun high => ?_, fun low law => ⟨(s.endReceipt o).applyBudget v, ?_⟩⟩
  · rw [State.decideSetBudget, if_pos high]; rfl
  intro relief
  rw [State.decideSetBudget, if_neg low.not_gt]
  set r := s.endReceipt o with hr
  set b := r.withAvailable v with hb
  have load : ∀ n, r.load n = s.load n := s.endReceipt_load o
  have committed : r.budget.committed = s.budget.committed := by rw [hr, State.endReceipt_budget]
  have list : r.budget.shedList = s.budget.shedList := by rw [hr, State.endReceipt_budget]
  have steady := r.applyBudget_steady v
  have axes : r.axes = s.axes := s.endReceipt_axes o
  have channels : r.channels = s.channels := s.endReceipt_channels o
  have books : b.Books := ((s.endReceipt_same o).books law.books).rebudget rfl rfl rfl
  have quiet : b.Quiet := State.endReceipt_quiet law.interlock.1 o
  have total : b.sheddableRelief = relief := by
    simp only [State.sheddableRelief, relief, show b.load = s.load from funext load]
  have rebase : ∀ {short shed u}, ShedsInOrder (fun n => (b.load n).sheddable = true) short shed b u →
      ShedsInOrder (fun n => (s.load n).sheddable = true) short shed s u := fun h => by
    rw [show b.load = s.load from funext load] at h
    exact h.rebase (s.endReceipt_loads o) (s.endReceipt_outputs o) list (s.endReceipt_notices o) (s.endReceipt_settle o)
  have reliefOf : ∀ shed, b.reliefOf shed = s.reliefOf shed := fun shed => by
    simp only [State.reliefOf, show b.load = s.load from funext load]
  refine ⟨rfl, steady.only, fun n => ?_, fun n => ?_, ?_⟩
  · rw [steady.configs]; exact congrArg LoadRec.toLoadConfig (load n)
  · rw [steady.targets]; exact congrArg LoadRec.setTarget (load n)
  by_cases within : s.budget.committed ≤ v
  · rw [State.applyBudget_of_within (committed.trans_le within), hr, State.endReceipt_budget, ← hr]
    set w := ({ r with budget := { s.budget with available := v, deficit := false } } : State) with hw
    have run := w.restorePass_run
    have clear : w.restorePass.budget.deficit = false := w.restorePass_deficit
    have low := State.restorePass_budgetLaw (s := w) (fun _ => within) clear
    rw [run.available] at low
    obtain ⟨kept, restored, restores⟩ := State.restorePass_restores (s := w) law.shed.1
    refine ⟨run.available, ?_, fun _ => rfl, fun _ => ⟨run.only.axes.trans axes, run.only.channels.trans channels, fun n => ?_⟩,
      fun above => absurd within above.not_ge, fun above => absurd within (by omega), fun above => absurd within (by omega)⟩
    · rw [clear]; exact iff_of_false nofun low.not_gt
    · rw [restores.loads]
      split
      · rename_i mem
        refine .inr ⟨(law.shed.2.1 n).1 ?_, congrArg LoadRec.toRestored (load n)⟩
        have listed : n ∈ w.budget.shedList := restores.split ▸ List.mem_append_right _ mem
        exact listed
      · exact .inl (load n)
  · have above : b.budget.available < b.budget.committed := by rw [hb]; exact (not_le.1 within).trans_eq committed.symm
    have available : b.budget.available = v := rfl
    have owed : b.budget.committed = s.budget.committed := committed
    obtain ⟨stands, deficit⟩ := State.reduce_deficit (s := b)
    rw [State.applyBudget_of_above (s := r) (v := v) above, ← hb]
    refine ⟨stands, deficit, fun h => absurd h within, fun h => absurd h within, fun _ few => ?_, fun many a => ?_,
      fun many => ⟨fun none => ?_, fun clear n last => ?_⟩⟩
    · obtain ⟨eq, low, shed, sheds, inOrder⟩ := State.reduce_of_relief books above (by omega)
      have inOrder := rebase inOrder
      have left := sheds.committed
      rw [owed, available] at inOrder
      rw [eq]
      refine ⟨sheds.run.only.axes.trans axes, sheds.run.only.channels.trans channels, low, ⟨shed, inOrder.congr rfl rfl rfl rfl, ?_⟩,
        fun n => ?_, fun m n dark mayM mayN first => ?_⟩
      · rw [← reliefOf, ← owed]; exact left
      · rcases Decidable.em (n ∈ shed) with mem | spared
        · exact .inr ⟨inOrder.allowed n mem, (inOrder.loads n).trans (if_pos mem)⟩
        · exact .inl ((inOrder.loads n).trans (if_neg spared))
      · exact inOrder.none_passed first mayM (LoadRec.sheddable_spec mayN).2.2.2.1 dark
    all_goals obtain ⟨short, shed, sheds, inOrder⟩ := State.reduceLoads_of_short books (by omega)
    · have records := State.reduce_records quiet short a
      have before : b.axisRecords a = (s.axis a, s.channel a, s.held a) := by
        have held : b.held a = s.held a := State.held_congr (s.endReceipt_budget o) a
        simp only [State.axisRecords, held, show b.axis a = s.axis a from State.axis_congr axes a,
          show b.channel a = s.channel a from State.channel_congr channels a]
      rw [before, abandonView] at records
      split at records
      · rename_i warn
        rw [if_pos warn]
        simpa only [State.axisRecords, Prod.mk.injEq] using records
      · rename_i calm
        rw [if_neg calm]
        simpa only [State.axisRecords, Prod.mk.injEq] using records
    · have alone : b.reduceLoads.abandonWarned = b.reduceLoads := State.abandonWarned_of_none fun a => by
        rw [State.axis_congr sheds.run.only.axes]
        exact fun warn => none a (by rw [← State.axis_congr axes]; exact warn)
      rcases State.reduce_of_short short with ⟨done, -⟩ | ⟨-, eq⟩
      · rw [alone] at done; exact absurd done short
      · rw [eq, alone]
        have inOrder := rebase inOrder
        rw [total] at inOrder
        refine ⟨shed, inOrder.congr rfl rfl rfl rfl, ?_⟩
        rw [← reliefOf, ← owed]; exact sheds.committed
    · rw [← available, ← stands]
      exact State.reduce_newest_unfit books short clear last

end Sys2Proof.Machine

namespace Sys2Proof.Machine

/-! ## The entry to WARN on a grant (R129) -/

/-! ### An axis that no entry stops keeps its motion while changes are passed on -/

/-- The effect of one block on a pass, each block being that of the subject of an entry that stops it (R165). -/
theorem State.passChange_stops {R : State → State → Prop} (hr : ∀ s, R s s) (ht : ∀ {s t u}, R s t → R t u → R s u)
    (hb : ∀ s p e, s.interlock p = some e → s.entryStops e = true → R s (s.blockCore e.subject)) (depth : Nat) (c : AxisNo)
    (s : State) : R s (State.passChange depth c s) := by
  induction depth generalizing c s with
  | zero => exact hr s
  | succ depth ih =>
    rw [State.passChange]
    refine foldl_rel hr ht (fun s p => ?_) allPlaces s
    cases present : s.interlock p with
    | none => exact hr s
    | some e =>
      dsimp only
      split
      · rename_i stops
        exact ht (hb s p e present stops.2) (ih _ _)
      · exact hr s

/-- No entry stops axis a (R165). -/
def State.Free (s : State) (a : AxisNo) : Prop := ∀ p e, s.interlock p = some e → e.subject = a → s.entryStops e = false

/-- An entry that stops its subject in a calmer part did before (R162, R163). -/
theorem Calmer.entryStops {s t : State} (h : Calmer s t) {e : Interlock} (now : t.entryStops e = true) :
    s.entryStops e = true := by
  obtain ⟨-, -, -, same | none⟩ := h e.subject
  · rw [State.entryStops, same] at now
    rw [State.entryStops]
    cases moving : (s.axis e.subject).movingDirection with
    | none => rw [moving] at now; exact now
    | some d =>
      simp only [moving, State.entryBlocks, Bool.and_eq_true] at now ⊢
      exact ⟨⟨h.satisfied now.1.1, now.1.2⟩, now.2⟩
  · rw [State.entryStops, none] at now
    cases now

section
variable (s : State) (b : AxisNo)

/-- A block makes its axis calmer (R135, R136, R141). -/
theorem State.blockCore_calmer : Calmer s (s.blockCore b) := by
  cases state : (s.axis b).state with
  | warn =>
    have eq : s.blockCore b = s.parkCore b .interlock := by simp only [State.blockCore, state]
    rw [eq]
    exact Calmer.of_axis (fun c => s.parkCore_axis b c .interlock) rfl rfl (fun engaged => by cases engaged) (.inr rfl)
  | run =>
    have eq : s.blockCore b = s.stopCore b .interlock := by simp only [State.blockCore, state]
    have engaged : (s.axis b).engaged = true := by simp [AxisRec.engaged, state]
    rw [eq]
    exact Calmer.of_axis (fun c => s.stopCore_axis b c .interlock) rfl rfl (fun _ => engaged) (.inr rfl)
  | parked | stopping | rest | lockout =>
    have eq : s.blockCore b = s := by simp only [State.blockCore, state]
    rw [eq]
    exact fun _ => ⟨rfl, rfl, id, .inl rfl⟩

/-- A block leaves the records of every other axis (R141). -/
theorem State.blockCore_axisRecords {a : AxisNo} (other : a ≠ b) : (s.blockCore b).axisRecords a = s.axisRecords a := by
  cases state : (s.axis b).state with
  | warn =>
    have eq : s.blockCore b = s.parkCore b .interlock := by simp only [State.blockCore, state]
    rw [eq, State.parkCore_records, if_neg other]
  | run =>
    have eq : s.blockCore b = s.stopCore b .interlock := by simp only [State.blockCore, state]
    rw [eq, State.stopCore_records, if_neg other]
  | parked | stopping | rest | lockout =>
    have eq : s.blockCore b = s := by simp only [State.blockCore, state]
    rw [eq]

end

/-- Passing on a change leaves the records of an axis that no entry stops (R165, R166). -/
theorem State.Free.tellInterlocks {s : State} {a : AxisNo} (free : s.Free a) (c : AxisNo) :
    (s.tellInterlocks c).axisRecords a = s.axisRecords a := by
  refine (State.passChange_stops (R := fun s t => s.Free a → t.Free a ∧ t.axisRecords a = s.axisRecords a)
    (fun _ free => ⟨free, rfl⟩) (fun h k free => ?_) (fun s p e present stops free => ?_) 3 c s free).2
  · obtain ⟨free, first⟩ := h free
    obtain ⟨free, second⟩ := k free
    exact ⟨free, second.trans first⟩
  · have other : a ≠ e.subject := fun own => by rw [free p e present own.symm] at stops; cases stops
    refine ⟨fun q f there own => ?_, s.blockCore_axisRecords e.subject other⟩
    have before := free q f (by rw [← State.interlock_congr (s.blockCore_spec e.subject).1.interlocks]; exact there) own
    exact Bool.eq_false_iff.2 fun now => Bool.eq_false_iff.1 before ((s.blockCore_calmer e.subject).entryStops now)

/-! ### The courtesy loads of the axes in motion stay forced -/

/-- The courtesy load of each axis in motion is forced (R137). -/
def State.CourtesyLit (s : State) : Prop := ∀ b n, s.Forces b n → (s.load n).forced = true

/-- A load that another axis holds stays as it is (R137). -/
theorem State.releaseCourtesy_load_held {s : State} {a : AxisNo} {n : LoadNo} (held : s.otherForces a n = true) :
    (s.releaseCourtesy a).load n = s.load n := by
  rw [State.releaseCourtesy]
  cases (s.axis a).courtesy with
  | none => rfl
  | some m =>
    dsimp only
    split
    · rfl
    · rename_i loose
      rw [State.load_storeLoad, if_neg fun e : n = m => loose (e ▸ held)]

theorem State.blockCore_courtesyLit {s : State} (lit : s.CourtesyLit) (b : AxisNo) : (s.blockCore b).CourtesyLit := by
  cases state : (s.axis b).state with
  | warn =>
    have eq : s.blockCore b = s.parkCore b .interlock := by simp only [State.blockCore, state]
    rw [eq]
    intro c n forces
    rw [State.Forces, State.parkCore_axis] at forces
    have other : c ≠ b := fun e => by rw [if_pos e] at forces; cases forces.1
    rw [if_neg other] at forces
    set y := ({ s.axis b with endReason := .interlock } : AxisRec).atRest .parked with hy
    have held : ((s.setAxis b y).releaseDemand b).otherForces b n = true := by
      refine (State.otherForces_iff _ b n).2 ⟨c, other, ?_⟩
      have axis : ((s.setAxis b y).releaseDemand b).axis c = s.axis c := (s.axis_setAxis b c y).trans (if_neg other)
      rw [State.Forces, axis]
      exact forces
    have released : ((((s.setAxis b y).releaseDemand b).releaseCourtesy b).load n).forced = true := by
      rw [State.releaseCourtesy_load_held held]
      exact lit c n forces
    rw [State.parkCore_eq, State.load_congr (State.endMotion_same _ b .parked).1]
    rcases (s.setAxis b y).giveBack_run b false with e | e <;> rw [e]
    · exact released
    · exact (State.answerFall_sameForced _ n).trans released
  | run =>
    have eq : s.blockCore b = s.stopCore b .interlock := by simp only [State.blockCore, state]
    rw [eq]
    intro c n forces
    refine lit c n ?_
    rw [State.Forces, State.stopCore_axis] at forces
    split at forces
    · rename_i e
      subst e
      exact ⟨by rw [AxisRec.inMotion, state], forces.2⟩
    · exact forces
  | parked | stopping | rest | lockout =>
    have eq : s.blockCore b = s := by simp only [State.blockCore, state]
    rw [eq]
    exact lit

theorem State.tellInterlocks_courtesyLit {s : State} (lit : s.CourtesyLit) (a : AxisNo) : (s.tellInterlocks a).CourtesyLit :=
  State.passChange_rel (R := fun s t => s.CourtesyLit → t.CourtesyLit) (fun _ => id) (fun h k lit => k (h lit))
    (fun _ b lit => State.blockCore_courtesyLit lit b) 3 a s lit

end Sys2Proof.Machine

namespace Sys2Proof.Machine

/-! ### The courtesy load forced (R58, R110, R137) -/

/-- A forced load that is not NONE stands at full (R42, R61, R137). -/
theorem LoadRec.Sound.full_of_forced {l : LoadRec} (sound : l.Sound) (forced : l.forced = true) (lit : l.kind ≠ .none) :
    l.level = 1000 ∧ l.effTarget = 1000 ∧ l.fade = none := by
  refine ⟨sound.full forced lit, sound.derived.1.trans (LoadRec.forced_effectiveTarget forced lit), ?_⟩
  cases fade : l.fade with
  | none => rfl
  | some f =>
    obtain ⟨-, free, -⟩ := sound.fades f fade
    rw [forced] at free
    cases free

section
variable {l : LoadRec} (sound : l.Sound) (lit : l.kind ≠ .none)
include sound lit

/-- A force takes the level to full (R58). -/
theorem LoadRec.toForced_level : l.toForced.level = 1000 := by
  rw [LoadRec.toForced]
  split
  · rename_i h
    exact sound.full (h.resolve_right lit) lit
  · rfl

/-- A force raises the counted draw to the rating, by the courtesy increment (R43, R107). -/
theorem LoadRec.toForced_increment : l.toForced.countedDraw
    = l.countedDraw + if l.forced then 0 else l.drawAt 1000 - l.countedDraw := by
  rw [LoadRec.toForced]
  by_cases forced : l.forced = true
  · rw [if_pos (.inl forced), if_pos forced, Nat.add_zero]
  · rw [if_neg (by simp [forced, lit]), if_neg forced]
    have low : max l.level l.effTarget ≤ 1000 := Nat.max_le.2 ⟨sound.range.1, sound.range.2.2.1⟩
    have below : l.countedDraw ≤ l.drawAt 1000 := by rw [sound.derived.2]; exact l.drawAt_mono low
    have full : (LoadRec.recount { l with forced := true, effTarget := 1000, level := 1000, fade := none }).countedDraw
      = l.drawAt 1000 := LoadRec.recount_countedDraw _
    omega

end

/-- From s the courtesy load of axis a is forced (R58, R110). -/
theorem State.forceCourtesy_enters {s : State} {a : AxisNo} (sound : s.LoadsSound)
    (lit : ∀ n, (s.axis a).courtesy = some n → (s.load n).kind ≠ .none) : EntersWarn a s (s.forceCourtesy a) := by
  cases courtesy : (s.axis a).courtesy with
  | none =>
    have eq : s.forceCourtesy a = s := by simp only [State.forceCourtesy, courtesy]
    rw [eq]
    exact ⟨fun n => by simp [courtesy], fun n => by simp [courtesy], by simp [courtesy], rfl, rfl⟩
  | some n =>
    have eq : s.forceCourtesy a = s.storeLoad n (s.load n).toForced := by simp only [State.forceCourtesy, courtesy]
    have level := LoadRec.toForced_level (sound n) (lit n courtesy)
    have rises : (s.load n).countedDraw ≤ (s.load n).toForced.countedDraw := by
      rw [LoadRec.toForced_increment (sound n) (lit n courtesy)]; exact Nat.le_add_right _ _
    rw [eq]
    refine ⟨fun m => ?_, fun m => ?_, ?_, ?_, State.storeLoad_notices _ _ _ _⟩
    · rw [courtesy, State.load_storeLoad]
      by_cases e : m = n
      · subst e; rw [if_pos rfl, if_pos rfl]
      · rw [if_neg e, if_neg fun h => e (Option.some.inj h).symm]
    · rw [courtesy, State.output_storeLoad, level]
      by_cases e : m = n
      · subst e; simp only [true_and, ne_comm]
      · rw [if_neg fun h => e h.1, if_neg fun h => e (Option.some.inj h.1).symm]
    · rw [State.storeLoad_budget, courtesy]
      exact Nat.add_sub_assoc rises _
    · rw [State.storeLoad_budget]

/-- What is forced from g on depends on its loads, its budget and its courtesy load alone. -/
theorem EntersWarn.congr {a : AxisNo} {g g' u u' : State} (h : EntersWarn a g u) (before : SameBudget g g')
    (courtesy : (g'.axis a).courtesy = (g.axis a).courtesy) (notices : g'.notices = g.notices) (after : SameBudget u u')
    (told : u'.notices = u.notices) : EntersWarn a g' u' := by
  obtain ⟨loads, outputs, committed, budget, same⟩ := h
  refine ⟨fun n => ?_, fun n => ?_, ?_, ?_, ?_⟩
  · rw [after.load, before.load, courtesy]; exact loads n
  · rw [after.output, before.output, before.load, courtesy, before.settle]; exact outputs n
  · rw [after.budget, before.budget, courtesy]; simp only [before.load]; exact committed
  · rw [after.budget, before.budget]; exact budget
  · rw [told, notices]; exact same

/-! ### The entry, its change not yet passed on -/

/-- What the entry to WARN makes of the part before its change is passed on (R129, R171). -/
structure Entered (a : AxisNo) (p : Pending) (g m : State) : Prop where
  calm : Calm g m
  axes : ∀ b, m.axis b = if b = a then (g.axis a).warned p else g.axis b
  channels : ∀ b, m.channel b = if b = a then (g.channel a).start else g.channel b
  enters : EntersWarn a g m

theorem State.enterWarn_entered {g : State} {a : AxisNo} (p : Pending) (sound : g.LoadsSound)
    (lit : ∀ n, (g.axis a).courtesy = some n → (g.load n).kind ≠ .none) :
    ∃ m, g.enterWarn a p = m.tellInterlocks a ∧ Entered a p g m := by
  set x := g.setAxis a { g.axis a with pending := some p } with hx
  have asked : x.axis a = { g.axis a with pending := some p } := g.axis_setAxis_self a _
  have run := x.forceCourtesy_run a
  have forced : EntersWarn a x (x.forceCourtesy a) :=
    State.forceCourtesy_enters sound fun n named => lit n (by rw [asked] at named; exact named)
  have axis : (x.forceCourtesy a).axis a = { g.axis a with pending := some p } := (State.axis_congr run.only.axes a).trans asked
  have calm : Calm x (x.forceCourtesy a) := ⟨x.forceCourtesy_steady a, run.available, run.notices⟩
  set y := x.forceCourtesy a with hy
  set z := (y.setAxis a ((g.axis a).warned p)) with hz
  refine ⟨z.setChannel a (z.channel a).start, ?_, ?_, fun b => ?_, fun b => ?_, ?_⟩
  · simp only [State.enterWarn, ← hx, ← hy, axis]
    rfl
  · exact (((g.setAxis_calm a _).trans calm).trans (y.setAxis_calm a _)).trans ⟨State.setChannel_steady _ a _, rfl, rfl⟩
  · have own : (z.setChannel a (z.channel a).start).axis b = if b = a then (g.axis a).warned p else y.axis b := y.axis_setAxis a b _
    have others : y.axis b = x.axis b := State.axis_congr run.only.axes b
    rw [own]
    split
    · rfl
    · rename_i hb
      rw [others, hx, State.axis_setAxis, if_neg hb]
  · have kept : ∀ b, z.channel b = g.channel b := State.channel_congr (run.only.channels : y.channels = x.channels)
    rw [State.channel_setChannel, kept, kept]
  · exact forced.congr ⟨rfl, rfl, rfl, rfl, rfl⟩ (by rw [asked]) rfl ⟨rfl, rfl, rfl, rfl, rfl⟩ rfl

end Sys2Proof.Machine

namespace Sys2Proof.Machine

/-! ### The grant reads and writes the budget alone -/

theorem State.addDemand_budget (s : State) (a : AxisNo) : (s.addDemand a).budget = { s.budget with
    heldDemand := s.budget.heldDemand.set a (s.held a + (s.axis a).demand)
    committed := s.budget.committed + (s.axis a).demand } := rfl

namespace SameBudget
variable {s t : State} (h : SameBudget s t)
include h

theorem headroom : t.headroom = s.headroom := by rw [State.headroom, State.headroom, h.budget]

theorem shedOne (n : LoadNo) : SameBudget (s.shedOne n) (t.shedOne n) := by
  have stored := h.withLoad n (s.load n).toShed false
  have listed : SameBudget ((s.withLoad n (s.load n).toShed).setShedList (s.budget.shedList ++ [n]))
      ((t.withLoad n (s.load n).toShed).setShedList (t.budget.shedList ++ [n])) := by
    rw [h.budget]
    exact ⟨stored.loads, stored.outputs, by simp [stored.budget], stored.settle, stored.shedChange⟩
  rw [State.shedOne, State.shedOne, State.storeLoad_eq_withLoad, State.storeLoad_eq_withLoad, h.load]
  exact listed.raiseShedChange

theorem shedAlong {enough : State → Bool} (asks : ∀ {s t : State}, SameBudget s t → enough t = enough s) (ns : List LoadNo) :
    SameBudget (State.shedAlong enough ns s) (State.shedAlong enough ns t) := by
  induction ns generalizing s t with
  | nil => exact h
  | cons n ns ih =>
    simp only [State.shedAlong, asks h, h.load]
    split
    · exact h
    · split
      · exact ih (h.shedOne n)
      · exact ih h

/-- A grant is made in either of two parts with the same budget, or in neither (R107 to R110). -/
theorem grant {a : AxisNo} (config : (t.axis a).toAxisConfig = (s.axis a).toAxisConfig) :
    Option.Rel SameBudget (s.grant a) (t.grant a) := by
  have demand : (t.axis a).demand = (s.axis a).demand := congrArg AxisConfig.demand config
  have courtesy : (t.axis a).courtesy = (s.axis a).courtesy := congrArg AxisConfig.courtesy config
  have load : t.load = s.load := funext h.load
  have need : t.motionNeed a = s.motionNeed a := by simp only [State.motionNeed, State.courtesyIncrement, demand, courtesy, load]
  have order : t.grantOrder a = s.grantOrder a := by simp only [State.grantOrder, State.shedOrder, courtesy, load]
  have relief : t.grantRelief a = s.grantRelief a := by simp only [State.grantRelief, order, load]
  have added : ∀ {u v : State}, SameBudget u v → u.axes = s.axes → v.axes = t.axes →
      SameBudget (u.addDemand a) (v.addDemand a) := fun {u v} same before after => by
    have taken : (v.axis a).demand = (u.axis a).demand := by rw [State.axis_congr before, State.axis_congr after, demand]
    refine ⟨same.loads, same.outputs, ?_, same.settle, same.shedChange⟩
    simp only [State.addDemand_budget, taken, State.held_congr same.budget, same.budget]
  have asks : ∀ {u v : State}, SameBudget u v →
      decide (s.motionNeed a ≤ v.headroom) = decide (s.motionNeed a ≤ u.headroom) := fun same => by rw [same.headroom]
  have axes : ∀ u, (State.shedAlong (fun v => decide (s.motionNeed a ≤ v.headroom)) (s.grantOrder a) u).axes = u.axes := fun u =>
    (State.shedAlong_run _ _ u).only.axes
  simp only [State.grant, need, order, relief, h.headroom, h.budget]
  split
  · split
    · exact .some (added h rfl rfl)
    · exact .none
  · split
    · exact .some (added h rfl rfl)
    · split
      · exact .none
      · exact .some (added (h.shedAlong asks (s.grantOrder a)) (axes s) (axes t))

end SameBudget

end Sys2Proof.Machine

namespace Sys2Proof.Machine

/-! ### What a grant leaves -/

section
variable {s g : State} {a : AxisNo} (grant : s.grant a = some g)
include grant

/-- A grant changes loads and budget alone (R109, R110). -/
theorem State.grant_only : OnlyLoads s g := by
  obtain ⟨u, run, rfl, -⟩ := State.grant_spec grant
  exact run.only.trans rfl

theorem State.grant_calm : Calm s g := by
  obtain ⟨u, run, rfl, -⟩ := State.grant_spec grant
  exact ⟨State.grant_steady grant, run.available, run.notices⟩

theorem State.grant_sound (sound : s.LoadsSound) : g.LoadsSound := by
  obtain ⟨u, run, rfl, -⟩ := State.grant_spec grant
  exact run.sound sound

/-- A grant sheds loads that are not forced (R104). -/
theorem State.grant_sameForced : SameForced s g := by
  simp only [State.grant] at grant
  repeat' split at grant
  · cases grant; exact .of_loads rfl
  · cases grant
  · cases grant; exact .of_loads rfl
  · cases grant
  · cases grant; exact (State.shedAlong_sameForced _ _ s).trans (.of_loads rfl)

end

/-! ### The entry with its change passed on -/

/-- What the entry to WARN makes of a part s that grants its motion, g being the granted part (R110, R129, R137, R171). -/
structure Warns (a : AxisNo) (p : Pending) (s g u : State) : Prop where
  frame : AxisFrame a s u
  axis : u.axis a = (s.axis a).warned p
  channel : u.channel a = (s.channel a).start
  held : u.held a = (s.axis a).demand
  lit : ∀ n, (s.axis a).courtesy = some n →
    (u.load n).forced = true ∧ (u.load n).level = 1000 ∧ (u.load n).effTarget = 1000 ∧ (u.load n).fade = none
  notices : u.notices = { s.notices with shedChange := u.notices.shedChange }
  enters : s.Unwatched a → EntersWarn a g u

/-- The laws that an entry to WARN rests on (R99, R116, R137, R160). -/
structure State.Warnable (s : State) : Prop where
  books : s.Books
  budget : s.BudgetLaw
  force : s.ForceLaw
  entry : s.EntryLaw

theorem State.Lawful.warnable {s : State} (law : s.Lawful) : s.Warnable := ⟨law.books, law.budget, law.force, law.entry⟩

/-- A direction is blocked where an entry blocks it (R163). -/
theorem State.blocked_eq_false_iff {s : State} {a : AxisNo} {d : Direction} :
    s.blocked a d = false ↔ ∀ p e, s.interlock p = some e → s.entryBlocks e a d = false := by
  rw [State.blocked, List.any_eq_false]
  refine ⟨fun h p e present => ?_, fun h p _ => ?_⟩
  · have free := h p (allPlaces_complete p)
    rw [present] at free
    exact Bool.eq_false_iff.2 free
  · cases present : s.interlock p with
    | none => nofun
    | some e => exact Bool.eq_false_iff.1 (h p e present)

section
variable {s g m : State} {a : AxisNo} {p : Pending}

/-- An entry that blocks the asked direction in the part that enters WARN did before: none watches its own subject (R160). -/
theorem State.warned_free (entry : s.EntryLaw) (clear : s.blocked a p.direction = false) (entries : m.interlocks = s.interlocks)
    (axes : ∀ b, m.axis b = if b = a then (s.axis a).warned p else s.axis b) : m.Free a := by
  intro q e present own
  have present : s.interlock q = some e := by rw [← State.interlock_congr entries]; exact present
  have other : e.condition ≠ a := own ▸ entry q e present
  have before := State.blocked_eq_false_iff.1 clear q e present
  have same : m.satisfied e = s.satisfied e := by simp only [State.satisfied, axes, if_neg other]
  have moving : (m.axis e.subject).movingDirection = some p.direction := by rw [axes, if_pos own]; rfl
  rw [State.entryStops, moving]
  simp only [State.entryBlocks, same, own] at before ⊢
  exact before

/-- The courtesy loads of the axes in motion are forced as one more axis enters WARN (R137). -/
theorem Entered.courtesyLit (h : Entered a p g m) (lit : g.CourtesyLit)
    (kind : ∀ n, (g.axis a).courtesy = some n → (g.load n).kind ≠ .none) : m.CourtesyLit := by
  intro b n forces
  rw [h.enters.loads]
  split
  · rename_i named
    exact LoadRec.toForced_forced (kind n named)
  · rename_i unnamed
    rw [State.Forces, h.axes] at forces
    split at forces
    · exact absurd forces.2 unnamed
    · exact lit b n forces

/-- An axis out of motion whose motion is granted and not blocked enters WARN, and stays there (R129, R144). -/
theorem State.grant_warns (law : s.Warnable) (out : (s.axis a).inMotion = false) (clear : s.blocked a p.direction = false)
    (grant : s.grant a = some g) : Warns a p s g (g.enterWarn a p) := by
  have granted := State.grant_only grant
  have calm := State.grant_calm grant
  have axes : g.axes = s.axes := granted.axes
  have kind : ∀ n, (g.axis a).courtesy = some n → (g.load n).kind ≠ .none := fun n named => by
    rw [State.axis_congr axes] at named
    rw [calm.configs n]
    exact law.force.2.2 a n named
  have lit : g.CourtesyLit := fun b n forces => by
    rw [State.Forces, State.axis_congr axes] at forces
    rw [State.grant_sameForced grant n]
    exact (law.force.1 n).2 ⟨b, forces⟩
  obtain ⟨books, -⟩ := State.enterWarn_upholds grant out p law.books law.budget
  obtain ⟨m, eq, entered⟩ := State.enterWarn_entered p (State.grant_sound grant law.books.loads) kind
  rw [eq] at books ⊢
  have own : ∀ b, m.axis b = if b = a then (s.axis a).warned p else s.axis b := fun b => by
    rw [entered.axes, State.axis_congr axes, State.axis_congr axes]
  have channels : ∀ b, m.channel b = if b = a then (s.channel a).start else s.channel b := fun b => by
    rw [entered.channels, State.channel_congr granted.channels, State.channel_congr granted.channels]
  have entries : m.interlocks = s.interlocks := entered.calm.only.interlocks.trans granted.interlocks
  have ripples := m.tellInterlocks_ripples a
  have whole := calm.trans entered.calm
  have kept := (State.warned_free law.entry clear entries own).tellInterlocks a
  have forced := State.tellInterlocks_courtesyLit (entered.courtesyLit lit kind) a
  have alone : s.Unwatched a → m.tellInterlocks a = m := fun unwatched => (unwatched.congr entries).tellInterlocks
  have configs := (whole.trans ripples.toCalm).configs
  have notices := (whole.trans ripples.toCalm).notices
  have frame := ripples.axisFrame whole (fun b hb => by rw [own, if_neg hb]) (fun b hb => by rw [channels, if_neg hb])
  generalize m.tellInterlocks a = u at *
  have axis : u.axis a = (s.axis a).warned p := (congrArg Prod.fst kept).trans ((own a).trans (if_pos rfl))
  have channel : u.channel a = (s.channel a).start :=
    (congrArg (fun x => x.2.1) kept).trans ((channels a).trans (if_pos rfl))
  refine ⟨frame, axis, channel, ?_, fun n named => ?_, notices, fun unwatched => ?_⟩
  · rw [books.ledger.1, axis]
    rfl
  · have on : (u.load n).forced = true := forced a n (by rw [State.Forces, axis]; exact ⟨rfl, named⟩)
    have some : (u.load n).kind ≠ .none := by rw [configs n]; exact law.force.2.2 a n named
    exact ⟨on, (books.loads n).full_of_forced on some⟩
  · rw [alone unwatched]
    exact entered.enters

end

/-! ### The entry from a part with the same records -/

/-- The records that an entry to WARN starts from are the same, but for REST REMAINING. -/
structure SameEntry (s r : State) : Prop extends SameBudget s r where
  axes : ∀ b, ∃ k, r.axis b = { s.axis b with restRemaining := k }
  interlocks : r.interlocks = s.interlocks
  notices : r.notices = s.notices

namespace SameEntry
variable {s r : State} (h : SameEntry s r)
include h

theorem config (b : AxisNo) : (r.axis b).toAxisConfig = (s.axis b).toAxisConfig := by
  obtain ⟨k, axis⟩ := h.axes b
  rw [axis]

theorem forces (b : AxisNo) (n : LoadNo) : r.Forces b n ↔ s.Forces b n := by
  obtain ⟨k, axis⟩ := h.axes b
  rw [State.Forces, State.Forces, axis]
  rfl

theorem blocked (a : AxisNo) (d : Direction) : r.blocked a d = s.blocked a d := by
  have satisfied : r.satisfied = s.satisfied := funext fun e => by
    obtain ⟨k, axis⟩ := h.axes e.condition
    rw [State.satisfied, State.satisfied, axis]
  simp only [State.blocked, State.entryBlocks, State.interlock_congr h.interlocks, satisfied]

theorem warnable (law : s.Warnable) : r.Warnable := by
  have same : SameBooks s r := ⟨h.loads, h.budget, h.settle, fun b => by
    obtain ⟨k, axis⟩ := h.axes b
    rw [axis]
    rfl⟩
  obtain ⟨books, budget, ⟨forced, full, kind⟩, entry⟩ := law
  refine ⟨same.books books, budget.congr h.budget, ⟨fun n => ?_, fun n => ?_, fun b n named => ?_⟩, entry.congr h.interlocks⟩
  · simp only [h.load, h.forces]; exact forced n
  · rw [h.load]; exact full n
  · rw [h.load]; exact kind b n (by rw [← h.config]; exact named)

/-- A motion granted in s is granted in r, and its entry to WARN is that from the part granted in s (R129). -/
theorem grant_warns {a : AxisNo} {p : Pending} {g : State} (law : s.Warnable) (out : (s.axis a).inMotion = false)
    (clear : s.blocked a p.direction = false) (grant : s.grant a = some g) :
    ∃ g', r.grant a = some g' ∧ Warns a p r g (g'.enterWarn a p) := by
  have config := h.config a
  have granted := h.toSameBudget.grant config
  rw [grant] at granted
  obtain ⟨g', grant', same⟩ : ∃ g', r.grant a = some g' ∧ SameBudget g g' := by
    generalize r.grant a = other at granted
    cases granted with
    | some same => exact ⟨_, rfl, same⟩
  have still : (r.axis a).inMotion = false := by
    obtain ⟨k, axis⟩ := h.axes a
    rw [axis]
    exact out
  obtain ⟨frame, axis, channel, held, lit, notices, enters⟩ :=
    State.grant_warns (h.warnable law) still ((h.blocked a p.direction).trans clear) grant'
  refine ⟨g', grant', frame, axis, channel, held, lit, notices, fun unwatched => ?_⟩
  have back : SameBudget g' g := ⟨same.loads.symm, same.outputs.symm, same.budget.symm, same.settle.symm, same.shedChange.symm⟩
  refine (enters unwatched).congr back ?_ ?_ ⟨rfl, rfl, rfl, rfl, rfl⟩ rfl
  · rw [State.axis_congr (State.grant_only grant).axes, State.axis_congr (State.grant_only grant').axes]
    exact (congrArg AxisConfig.courtesy config).symm
  · rw [(State.grant_calm grant).notices, (State.grant_calm grant').notices, h.notices, same.shedChange]

end SameEntry

end Sys2Proof.Machine

namespace Sys2Proof.Machine

/-! ## MOVE (R127 to R130) -/

/-- A MOVE that passes the checks of its target is decided by the Axis Controller (R127). -/
theorem exec_move {s : State} {o : Origin} {a : AxisNo} {d : Direction} {position : Nat} (hp : position < 65536)
    (takes : s.Takes .move o) (permits : s.permitsAxis o a = true) :
    exec (.move o (moveBody (Target.axis a).raw d position)) s
      = .next (((s.endReceipt o).decideMove o a d position).2.answered o ReqKind.move.code
          ((s.endReceipt o).decideMove o a d position).1) := by
  have named := Target.raw_names (t := .axis a) nofun
  have fits : (moveBody (Target.axis a).raw d position).length ≤ 60 := by simp [moveBody, targetBytes, bytesOf]
  show execMove o _ s = _
  rw [execMove, readMove_body named.1 hp,
    serve_targeted takes fits named (by simp [Target.raw, ReqKind.classes]) rfl permits]

/-- The origin holds the axis where a HOLD claim on it says so (R22, R127). -/
theorem State.holdsAxis_iff {s : State} (law : s.CoverageLaw) {o : Origin} {a : AxisNo} :
    s.holdsAxis o a = true ↔ ∃ c ∈ s.claims, c.target = .axis a ∧ c.holder = o := by
  rw [State.holdsAxis, beq_iff_eq, Option.map_eq_some_iff]
  simp only [State.axisCover_iff law, and_assoc]

@[simp] theorem State.endReceipt_holdsAxis (s : State) (o o' : Origin) (a : AxisNo) :
    (s.endReceipt o).holdsAxis o' a = s.holdsAxis o' a := by simp [State.holdsAxis, State.axisCover]

@[simp] theorem State.endReceipt_axisIn (s : State) (o : Origin) (a : AxisNo) : (s.endReceipt o).axisIn a = s.axisIn a := by
  rw [State.axisIn, State.endReceipt]
  split <;> rfl

theorem State.endReceipt_sameEntry (s : State) (o : Origin) : SameEntry s (s.endReceipt o) where
  loads := s.endReceipt_loads o
  outputs := s.endReceipt_outputs o
  budget := s.endReceipt_budget o
  settle := s.endReceipt_settle o
  shedChange := congrArg Notices.shedChange (s.endReceipt_notices o)
  axes b := ⟨(s.axis b).restRemaining, s.endReceipt_axis o b⟩
  interlocks := s.endReceipt_interlocks o
  notices := s.endReceipt_notices o

/-- A MOVE on a PARKED axis that passes its checks is granted and warned of (R127, R129). -/
theorem State.decideMove_of_parked {s : State} {o : Origin} {a : AxisNo} {d : Direction} {position : Nat}
    (holds : s.holdsAxis o a = true) (parked : (s.axis a).state = .parked) (edge : (s.axisIn a).edge = false)
    (clear : s.blocked a d = false) {g : State} (grant : s.grant a = some g) :
    s.decideMove o a d position = (.plain .accepted, g.enterWarn a ((s.axis a).asked o d position)) := by
  simp only [State.decideMove, holds, Bool.true_eq_false, if_false, parked, State.startMove, edge, clear, Bool.false_eq_true, grant]

/-- A direction is forbidden by the entries that name it, or ANY (R163). -/
theorem BlockDir.forbids_iff (b : BlockDir) (d : Direction) : BlockDir.forbids b d = true
    ↔ b = .any ∨ b = (match d with | .extend => .extend | .retract => .retract) := by
  cases b <;> cases d <;> decide

/-- An IDLE channel starts at the MARK of its PRIMARY cycle (R171). -/
theorem Channel.start_of_idle {ch : Channel} (idle : ch.state = .idle) : ch.start = { ch with
    state := .sounding, cycle := some .primary, phase := some .mark, gapLeft := 0, warnCount := 0, discard := false
    markTimer := if ch.live.primarySpace = 0 then none else some (ch.live.primaryMark * 10)
    cycleTimer := some ((ch.live.primaryMark + ch.live.primarySpace) * 10) } := by
  have timer : (if Cycle.primary.sounded && decide (0 < ch.live.primarySpace) then some (ch.live.primaryMark * tenMs) else none)
      = if ch.live.primarySpace = 0 then none else some (ch.live.primaryMark * 10) := by
    by_cases zero : ch.live.primarySpace = 0
    · simp [zero]
    · rw [if_neg zero, if_pos (by simp [Cycle.sounded, Nat.pos_of_ne_zero zero])]
      rfl
  simp only [Channel.start, idle, Channel.beginCycle, Pattern.lengths]
  rw [← timer]
  rfl

theorem Channel.start_of_finishing {ch : Channel} (finishing : ch.state = .finishing) :
    ch.start = { ch with state := .sounding, warnCount := 0, discard := true } := by
  simp only [Channel.start, finishing]

/-- Where HEADROOM covers the need, a grant adds the demand and sheds nothing (R109). -/
theorem State.grant_of_room {s g : State} {a : AxisNo} (room : s.motionNeed a ≤ s.headroom) (grant : s.grant a = some g) :
    g = s.addDemand a := by
  simp only [State.grant, room, if_true] at grant
  repeat' split at grant
  all_goals cases grant
  all_goals rfl

/-- COMMITTED rises by the need of the motion where HEADROOM covers it (R107, R110). -/
theorem EntersWarn.committed_of_room {s g u : State} {a : AxisNo} (h : EntersWarn a g u) (law : s.Lawful)
    (room : s.motionNeed a ≤ s.headroom) (grant : s.grant a = some g) :
    u.budget.committed = s.budget.committed + s.motionNeed a := by
  have committed := h.committed
  rw [State.grant_of_room room grant] at committed
  have axis : (s.addDemand a).axis a = s.axis a := rfl
  have load : (s.addDemand a).load = s.load := rfl
  rw [axis, load, State.addDemand_budget] at committed
  rw [committed, State.motionNeed, ← Nat.add_assoc]
  congr 1
  cases named : (s.axis a).courtesy with
  | none => rfl
  | some n =>
    have lit := law.force.2.2 a n named
    have rise := LoadRec.toForced_increment (law.books.loads n) lit
    simp only [State.courtesyIncrement, lit, false_or]
    omega

/-- Settles O38: MOVE on a parked axis is the entry to WARN from the end of its receipt. -/
theorem moveBeginsAWarning : Obligations.move_begins_a_warning := by
  intro s o a d position hp takes permits law held parked edge free g grant ax ch
  have out : (s.axis a).inMotion = false := by rw [AxisRec.inMotion, parked]
  have clear : s.blocked a d = false := by
    refine State.blocked_eq_false_iff.2 fun p e present => Bool.eq_false_iff.2 fun blocks => ?_
    simp only [State.entryBlocks, Bool.and_eq_true, beq_iff_eq] at blocks
    obtain ⟨⟨now, own⟩, way⟩ := blocks
    rw [free p e present own ((BlockDir.forbids_iff _ _).1 way)] at now
    cases now
  set r := s.endReceipt o with hr
  have same : SameEntry s r := s.endReceipt_sameEntry o
  have axis : r.axis a = s.axis a := s.endReceipt_axis o a
  obtain ⟨g', grant', warns⟩ := same.grant_warns (p := (s.axis a).asked o d position) law.warnable out clear grant
  have decided := State.decideMove_of_parked (s := r) (o := o) (d := d) (position := position)
    (by rw [hr, State.endReceipt_holdsAxis]; exact (State.holdsAxis_iff law.coverage).2 held)
    (by rw [axis]; exact parked) (by rw [hr, State.endReceipt_axisIn]; exact edge)
    ((same.blocked a d).trans clear) grant'
  rw [axis] at decided
  rw [exec_move hp takes permits, ← hr, decided]
  generalize g'.enterWarn a ((s.axis a).asked o d position) = u at warns
  have channel : u.channel a = (s.channel a).start := warns.channel.trans (congrArg Channel.start (s.endReceipt_channel o a))
  have enters : s.Unwatched a → EntersWarn a g u := fun unwatched => warns.enters (unwatched.congr same.interlocks)
  refine ⟨u, rfl, warns.frame, ?_, ?_, fun n named => warns.lit n (by rw [axis]; exact named), fun idle => ?_, fun finishing => ?_,
    ?_, enters, fun unwatched room => ?_⟩
  · rw [warns.axis, axis]; rfl
  · rw [warns.held, axis]
  · rw [channel]; exact Channel.start_of_idle idle
  · rw [channel]; exact Channel.start_of_finishing finishing
  · rw [← same.notices]; exact warns.notices
  · exact (enters unwatched).committed_of_room law room grant

end Sys2Proof.Machine

namespace Sys2Proof.Machine

/-! ## The end of a rest (R152, R153) -/

theorem exec_restExpiry (s : State) (a : AxisNo) : exec (.restExpiry a) s = .next (s.restEnd a).driveOutputs := rfl

/-- The part whose rest is over, REST REMAINING absent (R152). -/
def State.rested (s : State) (a : AxisNo) : State := s.setAxis a { s.axis a with restRemaining := none }

section
variable (s : State) (a : AxisNo)

theorem State.rested_axis (b : AxisNo) : ∃ k, (s.rested a).axis b = { s.axis b with restRemaining := k } := by
  rw [State.rested, State.axis_setAxis]
  split
  · rename_i e
    subst e
    exact ⟨none, rfl⟩
  · exact ⟨(s.axis b).restRemaining, rfl⟩

theorem State.rested_own : (s.rested a).axis a = { s.axis a with restRemaining := none } := s.axis_setAxis_self a _

theorem State.rested_sameEntry : SameEntry s (s.rested a) where
  loads := rfl
  outputs := rfl
  budget := rfl
  settle := rfl
  shedChange := rfl
  axes := s.rested_axis a
  interlocks := rfl
  notices := rfl

/-- A grant is refused after a rest where it is refused before (R107 to R109). -/
theorem State.rested_grant (refused : s.grant a = none) : (s.rested a).grant a = none := by
  have granted := (s.rested_sameEntry a).toSameBudget.grant ((s.rested_sameEntry a).config a)
  rw [refused] at granted
  generalize (s.rested a).grant a = other at granted
  cases granted
  rfl

variable {s a}

/-- A retry where all five tests pass enters WARN with the motion it kept (R152). -/
theorem State.restEnd_retries (due : (s.axis a).restRemaining = some 0) (rest : (s.axis a).state = .rest) {g : State}
    {p : Pending} (passed : (s.rested a).retryTests a = .retry g p) : s.restEnd a = g.enterWarn a p := by
  rw [State.restEnd, if_pos ⟨due, rest⟩]
  simp only [State.restOver]
  rw [← State.rested, passed]

/-- A retry that fails parks the axis with the reason of the test, or the reason it had; an edge is a fault as well (R153). -/
theorem State.restEnd_parks (due : (s.axis a).restRemaining = some 0) (rest : (s.axis a).state = .rest)
    {reason : Option EndReason} (failed : (s.rested a).retryTests a = .fail reason) :
    LeavesMotion a ((s.axis a).parkedBy (reason.getD (s.axis a).endReason)) (reason == some .obstructed) s (s.restEnd a) := by
  have leaves : ∀ er, LeavesMotion a ((s.axis a).parkedBy er) false s ((s.rested a).park a er) := fun er => by
    have leaves := (s.rested a).park_leaves a er
    rw [State.rested_own] at leaves
    exact leaves.of_own rfl
  rw [State.restEnd, if_pos ⟨due, rest⟩]
  simp only [State.restOver]
  rw [← State.rested, failed, State.rested_own]
  cases reason with
  | none => exact leaves _
  | some er =>
    dsimp only
    split
    · rename_i edge
      subst edge
      exact (leaves .obstructed).faulted
    · rename_i other
      have calm : (some er == some EndReason.obstructed) = false := by simp [other]
      rw [calm]
      exact leaves er

/-- A motion kept through a rest is put to the four tests of its claim, the edge, the entries and the budget (R152). -/
theorem State.rested_retryTests {p : Pending} (kept : (s.axis a).pending = some p) : (s.rested a).retryTests a
    = if s.holdsAxis p.origin a = false then .fail none
      else if (s.axisIn a).edge then .fail (some .obstructed)
      else if s.blocked a p.direction then .fail (some .interlock)
      else match (s.rested a).grant a with | none => .fail (some .noBudget) | some g => .retry g p := by
  have pending : ((s.rested a).axis a).pending = some p := by rw [State.rested_own]; exact kept
  have blocked := (s.rested_sameEntry a).blocked a p.direction
  simp only [State.retryTests, pending, blocked]
  rfl

end

/-- Where the record of axis a was rewritten first, the event is still one of axis a. -/
theorem AxisFrame.of_own {s u : State} {a : AxisNo} {x : AxisRec} (h : AxisFrame a (s.setAxis a x) u) : AxisFrame a s u := by
  have axes : ∀ b, b ≠ a → (s.setAxis a x).axis b = s.axis b := fun b hb => by rw [State.axis_setAxis, if_neg hb]
  refine ⟨(s.setAxis_only a x).trans h.only, h.configs, h.targets, h.available, fun b hb => ?_, fun b hb => ?_⟩
  · rw [← axes b hb]; exact h.axes b hb
  · rw [← axes b hb]; exact h.channels b hb

/-- A silent channel starts SOUNDING with no warn cycle counted (R171). -/
theorem Channel.start_of_silent {ch : Channel} (silent : ch.state ≠ .sounding) :
    ch.start.state = .sounding ∧ ch.start.warnCount = 0 := by
  cases state : ch.state with
  | idle => rw [Channel.start_of_idle state]; exact ⟨rfl, rfl⟩
  | finishing => rw [Channel.start_of_finishing state]; exact ⟨rfl, rfl⟩
  | sounding => exact absurd state silent

/-- Settles O44: a failed test ends the motion, and a granted retry is the entry to WARN from the rested part. -/
theorem aRestEndsInARetryOrParks : Obligations.a_rest_ends_in_a_retry_or_parks := by
  intro s a ax
  rw [exec_restExpiry]
  refine ⟨fun idle => ?_, fun due rest law => ?_⟩
  · rcases s.restEnd_cases a with ⟨-, e⟩ | ⟨⟨due, rest⟩, -⟩
    · rw [e]
    · exact absurd idle (by rintro (e | e) <;> [exact e due; exact e rest])
  intro parks
  have fails : ∀ reason, (s.rested a).retryTests a = .fail reason →
      parks (reason.getD ax.endReason) (reason == some .obstructed) := fun reason failed => by
    have leaves := State.restEnd_parks due rest failed
    exact ⟨s.restEnd a, rfl, leaves.frame, leaves.axis, leaves.channel, leaves.gives, leaves.notices⟩
  refine ⟨fun lost => ?_, fun p kept => ?_⟩
  · exact fails none (by simp only [State.retryTests, State.rested_own, show (s.axis a).pending = none from lost])
  have tests := State.rested_retryTests kept
  refine ⟨fun others => ?_, fun held => ?_⟩
  · have loose : s.holdsAxis p.origin a = false := Bool.eq_false_iff.2 fun holds => by
      obtain ⟨c, mem, target, holder⟩ := (State.holdsAxis_iff law.coverage).1 holds
      exact others c mem target holder
    exact fails none (tests.trans (if_pos loose))
  have holds : ¬ s.holdsAxis p.origin a = false := by
    rw [(State.holdsAxis_iff law.coverage).2 held]
    decide
  rw [if_neg holds] at tests
  refine ⟨fun edge => fails (some .obstructed) (tests.trans (if_pos edge)), fun edge => ?_⟩
  rw [edge, if_neg Bool.false_ne_true] at tests
  refine ⟨fun blocked => fails (some .interlock) (tests.trans (if_pos blocked)), fun clear => ?_⟩
  rw [clear, if_neg Bool.false_ne_true] at tests
  refine ⟨fun refused => fails (some .noBudget) ?_, fun g grant => ?_⟩
  · rw [tests, State.rested_grant s a refused]
  have out : (s.axis a).inMotion = false := by rw [AxisRec.inMotion, rest]
  obtain ⟨g', grant', warns⟩ := (s.rested_sameEntry a).grant_warns (p := p) law.warnable out clear grant
  rw [grant'] at tests
  rw [State.restEnd_retries due rest tests]
  generalize g'.enterWarn a p = u at warns
  have silent : (s.channel a).state ≠ .sounding := fun sounding => by
    rw [law.sounding a, rest] at sounding
    cases sounding
  have channel : u.channel a = (s.channel a).start := warns.channel
  obtain ⟨sounds, count⟩ := Channel.start_of_silent silent
  have own := s.rested_own a
  refine ⟨u, rfl, warns.frame.of_own, ?_, ?_, fun n named => ?_, fun unwatched => warns.enters unwatched, ?_, ?_,
    fun finishing => ?_, warns.notices⟩
  · rw [warns.axis, own, AxisRec.warned, ← kept]
  · rw [warns.held, own]
  · obtain ⟨forced, level, -⟩ := warns.lit n (by rw [own]; exact named)
    exact ⟨forced, level⟩
  · rw [channel]; exact sounds
  · rw [channel]; exact count
  · rw [channel]; exact Channel.start_of_finishing finishing

end Sys2Proof.Machine

/-! # Proofs of the statements on the axes and the outputs

First what every step keeps of axes, channels and outputs (O60). `State.Rigged` holds the laws that every single operation keeps,
from any rigged part: `Drives` says that it does, and that it sets no axis going. The interlock law can be broken between the
change of an axis and the pass of that change through the Interlock Table, by entries that watch the axis alone
(`State.QuietBut`); the law of holds can be broken between the end of a claim and the response of its axis.

Then the requests to the Axis Controller (O37, O39, O40) and the events of an axis that moves (O45, O46, O50), whose record is what
the event writes where no entry stops the axis (`Advances`). -/

namespace Sys2Proof.Machine

/-! ## The laws of one axis and its channel -/

/-- What the laws ask of an axis record and its channel (R154, Tables 7-1 to 7-3). -/
structure AxisRec.Fit (x : AxisRec) (ch : Channel) : Prop where
  lockout : x.LockoutSound
  range : x.InRange
  warned : x.state = .warn → x.pending.isSome = true
  sounding : ch.state = .sounding ↔ x.state = .warn

namespace AxisRec.Fit
variable {x y : AxisRec} {ch ch' : Channel}

/-- Nothing that the laws look at differs but the speeds and the distance, which stay in range, and the PENDING MOTION. -/
theorem tweak (h : x.Fit ch) (config : y.toAxisConfig = x.toAxisConfig) (state : y.state = x.state)
    (count : y.stallCount = x.stallCount) (reason : y.endReason = x.endReason) (position : y.position ≤ 16383)
    (speed : y.speed ≤ 255) (distance : y.runDistance ≤ 65535) (pending : y.state = .warn → y.pending.isSome = true) :
    y.Fit ch := by
  obtain ⟨lockout, ⟨demand, creep, speeds, run, high, low, cycles, cycles', -, -, -⟩, -, sounding⟩ := h
  refine ⟨?_, ?_, pending, by rw [state]; exact sounding⟩
  · simpa only [AxisRec.LockoutSound, state, count, reason] using lockout
  · rw [← config] at demand creep speeds run high low cycles cycles'
    exact ⟨demand, creep, speeds, run, high, low, cycles, cycles', position, speed, distance⟩

/-- The axis is in another state than WARN and LOCKOUT, its channel not SOUNDING, the record short of the eighth stall. -/
theorem out (h : x.Fit ch) (config : y.toAxisConfig = x.toAxisConfig) (position : y.position ≤ 16383) (speed : y.speed ≤ 255)
    (distance : y.runDistance ≤ 65535) (warn : y.state ≠ .warn) (lockout : y.LockoutSound) (silent : ch'.state ≠ .sounding) :
    y.Fit ch' := by
  obtain ⟨-, ⟨demand, creep, speeds, run, high, low, cycles, cycles', -, -, -⟩, -, -⟩ := h
  refine ⟨lockout, ?_, fun e => absurd e warn, iff_of_false silent warn⟩
  rw [← config] at demand creep speeds run high low cycles cycles'
  exact ⟨demand, creep, speeds, run, high, low, cycles, cycles', position, speed, distance⟩

theorem silent (h : x.Fit ch) (warn : x.state ≠ .warn) : ch.state ≠ .sounding := fun sounds => warn (h.sounding.1 sounds)

theorem position (h : x.Fit ch) : x.position ≤ 16383 := h.range.2.2.2.2.2.2.2.2.1
theorem speed (h : x.Fit ch) : x.speed ≤ 255 := h.range.2.2.2.2.2.2.2.2.2.1
theorem distance (h : x.Fit ch) : x.runDistance ≤ 65535 := h.range.2.2.2.2.2.2.2.2.2.2

end AxisRec.Fit

/-! ## What an operation keeps wherever it stands -/

/-- The laws of axes, channels and forced loads but for those of interlock entries and claims (R124, R137, R154, Table 7-3). -/
structure State.Rigged (s : State) : Prop where
  forced : ∀ n, (s.load n).forced = true ↔ ∃ a, s.Forces a n
  courtesy : ∀ a n, (s.axis a).courtesy = some n → (s.load n).kind ≠ .none
  fit : ∀ a, (s.axis a).Fit (s.channel a)

/-- Only the budget record, outputs, the device, inputs, ports, stations, scenes, notices or pins differ. -/
structure Untouched (s t : State) : Prop where
  axes : t.axes = s.axes
  channels : t.channels = s.channels
  entries : t.interlocks = s.interlocks
  claims : t.claims = s.claims
  loads : t.loads = s.loads

/-- What an operation on loads and axes makes of a rigged part: it is rigged, no entry stops an axis where none did, the claims
stand, and no axis is in WARN or RUN that was in neither (R140, R165). -/
structure Drives (s t : State) : Prop where
  rigged : t.Rigged
  quiet : s.Quiet → t.Quiet
  claims : t.claims = s.claims
  driven : ∀ a, (t.axis a).driven = true → (s.axis a).driven = true

theorem Drives.trans {s t u : State} (h : Drives s t) (k : Drives t u) : Drives s u :=
  ⟨k.rigged, fun quiet => k.quiet (h.quiet quiet), k.claims.trans h.claims, fun a on => h.driven a (k.driven a on)⟩

theorem Drives.hold {s t : State} (h : Drives s t) (law : s.HoldLaw) : t.HoldLaw := fun a on => by
  rw [h.claims]; exact law a (h.driven a on)

theorem Calmer.refl (s : State) : Calmer s s := fun _ => ⟨rfl, rfl, id, .inl rfl⟩

theorem Calmer.trans {s t u : State} (h : Calmer s t) (k : Calmer t u) : Calmer s u := by
  intro a
  obtain ⟨position, verified, engaged, moving⟩ := h a
  obtain ⟨position', verified', engaged', moving'⟩ := k a
  refine ⟨position'.trans position, verified'.trans verified, fun on => engaged (engaged' on), ?_⟩
  rcases moving' with same | none
  · rw [same]; exact moving
  · exact .inr none

theorem Calmer.of_axes {s t : State} (h : t.axes = s.axes) : Calmer s t := fun a => by
  rw [State.axis_congr h]; exact ⟨rfl, rfl, id, .inl rfl⟩

namespace State.Rigged
variable {s t : State} (h : s.Rigged)
include h

/-- No axis record differs, no load's kind or FORCED flag does, and no channel starts or stops SOUNDING. -/
theorem congr (axes : t.axes = s.axes) (forced : SameForced s t) (kinds : ∀ n, (t.load n).kind = (s.load n).kind)
    (channels : ∀ a, (t.channel a).state = .sounding ↔ (s.channel a).state = .sounding) : t.Rigged where
  forced n := by simp only [State.Forces, State.axis_congr axes, forced n]; exact h.forced n
  courtesy a n := by rw [State.axis_congr axes, kinds]; exact h.courtesy a n
  fit a := by
    obtain ⟨lockout, range, warned, sounding⟩ := h.fit a
    rw [State.axis_congr axes]
    exact ⟨lockout, range, warned, (channels a).trans sounding⟩

theorem refl : Drives s s := ⟨h, id, rfl, fun _ => id⟩

/-- Nothing that these laws look at differs but the loads. -/
theorem loads (axes : t.axes = s.axes) (channels : t.channels = s.channels) (entries : t.interlocks = s.interlocks)
    (claims : t.claims = s.claims) (forced : SameForced s t) (kinds : ∀ n, (t.load n).kind = (s.load n).kind) : Drives s t where
  rigged := h.congr axes forced kinds fun a => by rw [State.channel_congr channels]
  quiet := (Calmer.of_axes axes).quiet entries
  claims := claims
  driven a := by rw [State.axis_congr axes]; exact id

/-- Nothing that these laws look at differs. -/
theorem same (untouched : Untouched s t) : Drives s t :=
  have ⟨axes, channels, entries, claims, loads⟩ := untouched
  h.loads axes channels entries claims (.of_loads loads) fun n => by rw [State.load_congr loads]

/-- Loads and the budget change, and no FORCED flag does. -/
theorem loadRun (run : LoadRun s t) (forced : SameForced s t) : Drives s t :=
  h.loads run.only.axes run.only.channels run.only.interlocks run.only.claims forced fun n => by rw [(run.changes n).config]

/-- One operation after another, each wherever it stands. -/
theorem foldl {α : Type} {f : State → α → State} (each : ∀ {s : State}, s.Rigged → ∀ a, Drives s (f s a)) (as : List α) :
    Drives s (as.foldl f s) := by
  induction as generalizing s with
  | nil => exact h.refl
  | cons a as ih => exact (each h a).trans (ih (each h a).rigged)

/-! ### One axis record rewritten -/

/-- One axis record is rewritten, in motion as it was and with the courtesy load it names; its channel may change with it. -/
theorem of_axis (a : AxisNo) {x : AxisRec} (axes : ∀ b, t.axis b = if b = a then x else s.axis b)
    (channels : ∀ b, b ≠ a → t.channel b = s.channel b) (loads : t.loads = s.loads) (courtesy : x.courtesy = (s.axis a).courtesy)
    (motion : x.inMotion = (s.axis a).inMotion) (fit : x.Fit (t.channel a)) : t.Rigged where
  forced n := by
    have forces : ∀ b, t.Forces b n ↔ s.Forces b n := fun b => by
      rw [State.Forces, State.Forces, axes]
      split
      · rename_i e; rw [e, courtesy, motion]
      · rfl
    simp only [forces, State.load_congr loads]
    exact h.forced n
  courtesy b n := by
    rw [axes, State.load_congr loads]
    split
    · rw [courtesy]; exact h.courtesy a n
    · exact h.courtesy b n
  fit b := by
    rw [axes]
    split
    · rename_i e; subst e; exact fit
    · rename_i e; rw [channels b e]; exact h.fit b

theorem setAxis (a : AxisNo) {x : AxisRec} (courtesy : x.courtesy = (s.axis a).courtesy)
    (motion : x.inMotion = (s.axis a).inMotion) (fit : x.Fit (s.channel a)) : (s.setAxis a x).Rigged :=
  h.of_axis a (fun b => s.axis_setAxis a b x) (fun _ _ => rfl) rfl courtesy motion fit

/-- One axis record is rewritten, and neither moves where it did not nor has moved. -/
theorem rewrites (a : AxisNo) {x : AxisRec} (courtesy : x.courtesy = (s.axis a).courtesy)
    (motion : x.inMotion = (s.axis a).inMotion) (fit : x.Fit (s.channel a)) (position : x.position = (s.axis a).position)
    (verified : x.verified = (s.axis a).verified) (engaged : x.engaged = true → (s.axis a).engaged = true)
    (moving : x.movingDirection = (s.axis a).movingDirection ∨ x.movingDirection = none)
    (driven : x.driven = true → (s.axis a).driven = true) : Drives s (s.setAxis a x) where
  rigged := h.setAxis a courtesy motion fit
  quiet := (Calmer.of_axis (fun b => s.axis_setAxis a b x) position verified engaged moving).quiet rfl
  claims := rfl
  driven b := by
    rw [State.axis_setAxis]
    split
    · rename_i e; rw [e]; exact driven
    · exact id

/-- An axis record is rewritten in its timers, its SPEED, its RUN DISTANCE, its jam position and its PENDING MOTION at most. -/
theorem tweak (a : AxisNo) {x : AxisRec} (config : x.toAxisConfig = (s.axis a).toAxisConfig) (state : x.state = (s.axis a).state)
    (count : x.stallCount = (s.axis a).stallCount) (reason : x.endReason = (s.axis a).endReason)
    (position : x.position = (s.axis a).position) (verified : x.verified = (s.axis a).verified)
    (direction : x.direction = (s.axis a).direction)
    (pending : x.state = .warn → x.pending.map (·.direction) = (s.axis a).pending.map (·.direction))
    (speed : x.speed ≤ 255) (distance : x.runDistance ≤ 65535) : Drives s (s.setAxis a x) := by
  have fit := h.fit a
  refine h.rewrites a (by rw [config]) (AxisRec.inMotion_of_state state) ?_ position verified ?_ (.inl ?_) ?_
  · refine fit.tweak config state count reason (position.trans_le fit.position) speed distance fun warn => ?_
    have kept := congrArg Option.isSome (pending warn)
    rw [Option.isSome_map, Option.isSome_map] at kept
    exact kept.trans (fit.warned (state.symm.trans warn))
  · rw [AxisRec.engaged, AxisRec.engaged, state]; exact id
  · rw [AxisRec.movingDirection, AxisRec.movingDirection, ← state, direction]
    split
    · rename_i warn; exact pending warn
    · rfl
    · rfl
  · rw [AxisRec.driven, AxisRec.driven, state]; exact id

/-- The channel of an axis changes, SOUNDING or not as it was. -/
theorem setChannel (a : AxisNo) {ch : Channel} (sounding : ch.state = .sounding ↔ (s.channel a).state = .sounding) :
    Drives s (s.setChannel a ch) where
  rigged := h.congr rfl (.of_loads rfl) (fun _ => rfl) fun b => by
    rw [State.channel_setChannel]
    split
    · rename_i e; rw [e]; exact sounding
    · rfl
  quiet := id
  claims := rfl
  driven _ := id

end State.Rigged

end Sys2Proof.Machine

namespace Sys2Proof.Machine

/-! ## Out of motion, and the passes of a change -/

/-- An axis that leaves motion frees its courtesy load unless another axis in motion names it, and no other load (R135, R137). -/
theorem State.leaveMotion_forced_iff (s : State) (a : AxisNo) (st : AxisState) (ex : Bool) (n : LoadNo) :
    ((s.leaveMotion a st ex).load n).forced = true
      ↔ (s.load n).forced = true ∧ ((s.axis a).courtesy = some n → ∃ b, b ≠ a ∧ s.Forces b n) := by
  set t := (s.setAxis a ((s.axis a).atRest st)).releaseDemand a with ht
  have axis : ∀ b, t.axis b = if b = a then (s.axis a).atRest st else s.axis b := fun b => s.axis_setAxis a b _
  have others : t.otherForces a n = true ↔ ∃ b, b ≠ a ∧ s.Forces b n := by
    rw [State.otherForces_iff]
    refine exists_congr fun b => and_congr_right fun hb => ?_
    rw [State.Forces, State.Forces, axis, if_neg hb]
  have named : (t.axis a).courtesy = (s.axis a).courtesy := by rw [axis, if_pos rfl]; rfl
  have released : ((t.releaseCourtesy a).load n).forced = true
      ↔ (s.load n).forced = true ∧ ((s.axis a).courtesy = some n → ∃ b, b ≠ a ∧ s.Forces b n) := by
    rw [← others]
    by_cases held : t.otherForces a n = true
    · rw [State.releaseCourtesy_load_held held]
      exact ⟨fun on => ⟨on, fun _ => held⟩, And.left⟩
    · rw [State.releaseCourtesy, named]
      split
      · rename_i unnamed; exact ⟨fun on => ⟨on, fun e => nomatch unnamed ▸ e⟩, And.left⟩
      · rename_i m courtesy
        by_cases e : m = n
        · subst e
          rw [if_neg held, State.load_storeLoad, if_pos rfl, LoadRec.toUnforced_forced]
          exact ⟨nofun, fun on => absurd (on.2 courtesy) held⟩
        · have other : ¬ some m = some n := fun same => e (Option.some.inj same)
          have same : ((if t.otherForces a m then t else t.storeLoad m (t.load m).toUnforced).load n) = s.load n := by
            split
            · rfl
            · rw [State.load_storeLoad, if_neg (Ne.symm e)]; rfl
          rw [same]
          exact ⟨fun on => ⟨on, fun h => absurd (courtesy.symm.trans h) other⟩, And.left⟩
  rw [State.leaveMotion, State.load_congr (State.endMotion_same _ a st).1]
  rcases (s.setAxis a ((s.axis a).atRest st)).giveBack_run a ex with e | e <;> rw [e]
  · exact released
  · rw [State.answerFall_sameForced]; exact released

namespace State.Rigged
variable {s : State} (h : s.Rigged)
include h

/-- An axis is rewritten and leaves motion (R135). -/
theorem leaveMotion (a : AxisNo) {x : AxisRec} {st : AxisState} {ex : Bool} (still : st.Still)
    (config : x.toAxisConfig = (s.axis a).toAxisConfig) (position : x.position = (s.axis a).position)
    (verified : x.verified = (s.axis a).verified) (distance : x.runDistance = (s.axis a).runDistance)
    (lockout : (x.leftIn st).LockoutSound) (engaged : st = .rest → (s.axis a).engaged = true) :
    Drives s ((s.setAxis a x).leaveMotion a st ex) := by
  obtain ⟨only, axes, channels⟩ := (s.setAxis a x).leaveMotion_spec a st ex
  have configs := ((s.setAxis_steady a x).trans ((s.setAxis a x).leaveMotion_steady a st ex)).configs
  have forced := (s.setAxis a x).leaveMotion_forced_iff a st ex
  set u := (s.setAxis a x).leaveMotion a st ex
  have axis : ∀ b, u.axis b = if b = a then x.leftIn st else s.axis b := fun b => by
    rw [axes, State.axis_setAxis, State.axis_setAxis, if_pos rfl]
    split <;> rfl
  have channel : ∀ b, u.channel b = if b = a then (s.channel a).finish else s.channel b := channels
  have courtesy : x.courtesy = (s.axis a).courtesy := by rw [config]
  have parked : (x.leftIn st).inMotion = false := AxisRec.atRest_inMotion (x := x) still
  have out := still.out
  have idle : (x.leftIn st).driven = false := by rcases still with e | e | e <;> subst e <;> rfl
  have forces : ∀ b n, u.Forces b n ↔ b ≠ a ∧ s.Forces b n := fun b n => by
    rw [State.Forces, State.Forces, axis]
    by_cases e : b = a
    · simp [e, parked]
    · simp [e]
  have others : ∀ n, (∃ b, b ≠ a ∧ (s.setAxis a x).Forces b n) ↔ ∃ b, b ≠ a ∧ s.Forces b n := fun n =>
    exists_congr fun b => and_congr_right fun hb => by rw [State.Forces, State.Forces, State.axis_setAxis, if_neg hb]
  refine ⟨⟨fun n => ?_, fun b n => ?_, fun b => ?_⟩, ?_, only.claims, fun b on => ?_⟩
  · rw [forced, others, State.axis_setAxis_self, courtesy]
    simp only [forces]
    refine ⟨fun ⟨on, held⟩ => ?_, fun ⟨b, other, on⟩ => ⟨(h.forced n).2 ⟨b, on⟩, fun _ => ⟨b, other, on⟩⟩⟩
    obtain ⟨b, forces⟩ := (h.forced n).1 on
    by_cases e : b = a
    · exact held (e ▸ forces.2)
    · exact ⟨b, e, forces⟩
  · have kind : (u.load n).kind = (s.load n).kind := congrArg LoadConfig.kind (configs n)
    rw [kind, axis]
    split
    · rw [show (x.leftIn st).courtesy = (s.axis a).courtesy from courtesy]; exact h.courtesy a n
    · exact h.courtesy b n
  · rw [axis, channel]
    split
    · have fit := h.fit a
      refine fit.out config (position.trans_le fit.position) (Nat.zero_le _) (distance.trans_le fit.distance) out.1 lockout ?_
      exact (s.channel a).finish_state
    · exact h.fit b
  · refine (Calmer.of_axis axis position verified (fun on => ?_) (.inr ?_)).quiet only.interlocks
    · rcases still with e | e | e <;> subst e
      · cases on
      · exact engaged rfl
      · cases on
    · rcases still with e | e | e <;> subst e <;> rfl
  · rw [axis] at on
    split at on
    · rw [idle] at on; cases on
    · exact on

theorem parkCore (a : AxisNo) {er : EndReason} {ex : Bool} (out : (s.axis a).state ≠ .lockout) (reason : er ≠ .noLoad) :
    Drives s (s.parkCore a er ex) := by
  have count := ((h.fit a).lockout.out out).1
  refine h.leaveMotion a (.inl rfl) rfl rfl rfl rfl ?_ nofun
  exact AxisRec.lockoutSound_of nofun count reason

theorem stopCore (a : AxisNo) {er : EndReason} (run : (s.axis a).state = .run) (reason : er ≠ .noLoad) :
    Drives s (s.stopCore a er) := by
  have fit := h.fit a
  have warn : (s.axis a).state ≠ .warn := by rw [run]; decide
  have engaged : (s.axis a).engaged = true := by rw [AxisRec.engaged, run]
  refine h.rewrites a rfl (by rw [AxisRec.inMotion, AxisRec.inMotion, run]; rfl) ?_ rfl rfl (fun _ => engaged) (.inr rfl) nofun
  exact fit.out rfl fit.position fit.speed fit.distance nofun
    (AxisRec.toStopping_sound fit.lockout (by rw [run]; decide) reason) (fit.silent warn)

theorem blockCore (a : AxisNo) : Drives s (s.blockCore a) := by
  rw [State.blockCore]
  split
  · rename_i warn; exact h.parkCore a (by rw [warn]; decide) (by decide)
  · rename_i run; exact h.stopCore a run (by decide)
  · exact h.refl

theorem passChange (depth : Nat) (c : AxisNo) : Drives s (State.passChange depth c s) :=
  State.passChange_rel (R := fun s t => s.Rigged → Drives s t) (fun _ h => h.refl)
    (fun first second h => (first h).trans (second (first h).rigged)) (fun _ a h => h.blockCore a) depth c s h

theorem tellInterlocks (a : AxisNo) : Drives s (s.tellInterlocks a) := h.passChange 3 a

theorem park (a : AxisNo) {er : EndReason} {ex : Bool} (out : (s.axis a).state ≠ .lockout) (reason : er ≠ .noLoad) :
    Drives s (s.park a er ex) :=
  have parked := h.parkCore a (ex := ex) out reason
  parked.trans (parked.rigged.tellInterlocks a)

theorem stopMotion (a : AxisNo) {er : EndReason} (run : (s.axis a).state = .run) (reason : er ≠ .noLoad) :
    Drives s (s.stopMotion a er) :=
  have stopped := h.stopCore a run reason
  stopped.trans (stopped.rigged.tellInterlocks a)

end State.Rigged

/-! ### The only entries that stop an axis watch the axis whose change is passed on -/

/-- Every entry that stops its subject watches axis a (R165). -/
def State.QuietBut (s : State) (a : AxisNo) : Prop :=
  ∀ p e, s.interlock p = some e → s.entryStops e = true → e.condition = a

theorem State.Quiet.but {s : State} (quiet : s.Quiet) (a : AxisNo) : s.QuietBut a := fun p e present now => by
  rw [quiet p e present] at now; cases now

/-- An axis record is rewritten that moves, if at all, as it did: only what watches it can stop an axis. -/
theorem State.QuietBut.setAxis {s : State} {a : AxisNo} (but : s.QuietBut a) {x : AxisRec}
    (moving : x.movingDirection = (s.axis a).movingDirection ∨ x.movingDirection = none) : (s.setAxis a x).QuietBut a := by
  intro p e present now
  by_contra other
  have watched : (s.setAxis a x).satisfied e = s.satisfied e := by
    simp only [State.satisfied, State.axis_setAxis, if_neg other]
  have before : s.entryStops e = false := Bool.eq_false_iff.2 fun on => other (but p e present on)
  rw [State.entryStops, State.axis_setAxis] at now
  rw [State.entryStops] at before
  simp only [State.entryBlocks, watched] at now before
  by_cases own : e.subject = a
  · rw [if_pos own] at now
    rw [own] at before
    rw [own] at now
    rcases moving with same | none
    · rw [same, before] at now; cases now
    · rw [none] at now; cases now
  · rw [if_neg own, before] at now; cases now

theorem State.Quiet.setAxis {s : State} (quiet : s.Quiet) (a : AxisNo) {x : AxisRec}
    (moving : x.movingDirection = (s.axis a).movingDirection ∨ x.movingDirection = none) : (s.setAxis a x).QuietBut a :=
  (quiet.but a).setAxis moving

/-- A block ends what the entry that makes it stops (R141, R163). -/
theorem State.blockCore_entryStops (s : State) (e : Interlock) : (s.blockCore e.subject).entryStops e = false := by
  have still : ((s.blockCore e.subject).axis e.subject).movingDirection = none := by
    cases state : (s.axis e.subject).state with
    | warn =>
      have eq : s.blockCore e.subject = s.parkCore e.subject .interlock := by simp only [State.blockCore, state]
      rw [eq, State.parkCore_axis, if_pos rfl]
      rfl
    | run =>
      have eq : s.blockCore e.subject = s.stopCore e.subject .interlock := by simp only [State.blockCore, state]
      rw [eq, State.stopCore_axis, if_pos rfl]
      rfl
    | parked | stopping | rest | lockout =>
      have eq : s.blockCore e.subject = s := by simp only [State.blockCore, state]
      rw [eq, AxisRec.movingDirection, state]
  rw [State.entryStops, still]

/-- What a pass of a change leaves: no axis moves anew, and the entries stand. -/
def Subdues (s t : State) : Prop := Calmer s t ∧ t.interlocks = s.interlocks

theorem Subdues.refl (s : State) : Subdues s s := ⟨.refl s, rfl⟩

theorem Subdues.trans {s t u : State} (h : Subdues s t) (k : Subdues t u) : Subdues s u :=
  ⟨h.1.trans k.1, k.2.trans h.2⟩

theorem State.passChange_subdues (depth : Nat) (c : AxisNo) (s : State) : Subdues s (State.passChange depth c s) :=
  State.passChange_rel Subdues.refl Subdues.trans
    (fun s a => ⟨s.blockCore_calmer a, (s.blockCore_spec a).1.interlocks⟩) depth c s

theorem Subdues.silenced {s t : State} (h : Subdues s t) {e : Interlock} (silent : s.entryStops e = false) :
    t.entryStops e = false :=
  Bool.eq_false_iff.2 fun now => Bool.eq_false_iff.1 silent (h.1.entryStops now)

/-- What one place of the table makes of a change of axis c (R165, R166). -/
def State.passAt (depth : Nat) (c : AxisNo) (s : State) (p : PlaceNo) : State :=
  match s.interlock p with
  | some e =>
    if e.condition = c ∧ s.entryStops e = true then State.passChange depth e.subject (s.blockCore e.subject) else s
  | none => s

theorem State.passAt_subdues (depth : Nat) (c : AxisNo) (s : State) (p : PlaceNo) : Subdues s (s.passAt depth c p) := by
  rw [State.passAt]
  split
  · split
    · exact Subdues.trans ⟨s.blockCore_calmer _, (s.blockCore_spec _).1.interlocks⟩ (State.passChange_subdues _ _ _)
    · exact .refl s
  · exact .refl s

/-- The entry of a place stops its subject no more, once the place has answered a change of the axis it watches (R165). -/
theorem State.passAt_silences {depth : Nat} {s : State} {p : PlaceNo} {e : Interlock} (present : s.interlock p = some e) :
    (s.passAt depth e.condition p).entryStops e = false := by
  simp only [State.passAt, present, true_and]
  split
  · exact (State.passChange_subdues _ _ _).silenced (s.blockCore_entryStops e)
  · rename_i silent; exact Bool.eq_false_iff.2 silent

/-- So it is for every place of a pass. -/
theorem State.pass_silences {depth : Nat} {ps : List PlaceNo} {s : State} {p : PlaceNo} {e : Interlock} (mem : p ∈ ps)
    (present : s.interlock p = some e) : (ps.foldl (State.passAt depth e.condition) s).entryStops e = false := by
  induction ps generalizing s with
  | nil => cases mem
  | cons q qs ih =>
    have once := s.passAt_subdues depth e.condition q
    rw [List.foldl_cons]
    rcases List.mem_cons.1 mem with rfl | mem
    · exact Subdues.silenced (foldl_rel Subdues.refl Subdues.trans (State.passAt_subdues _ _) qs _)
        (State.passAt_silences present)
    · exact ih mem ((State.interlock_congr once.2 p).trans present)

/-- Where only entries that watch axis a stop an axis, none does once the change of axis a is passed on (R165, R166). -/
theorem State.QuietBut.tellInterlocks {s : State} {a : AxisNo} (but : s.QuietBut a) : (s.tellInterlocks a).Quiet := by
  intro p e present
  have subdues : Subdues s (s.tellInterlocks a) := State.passChange_subdues 3 a s
  rw [State.interlock_congr subdues.2] at present
  refine Bool.eq_false_iff.2 fun now => Bool.eq_false_iff.1 ?_ now
  have watched := but p e present (subdues.1.entryStops now)
  subst watched
  exact State.pass_silences (depth := 2) (allPlaces_complete p) present

/-- A change of axis a and what the Interlock Table makes of it, where only what watches the axis may stop another for it. -/
theorem Drives.told {s m : State} (a : AxisNo) (rigged : m.Rigged) (but : s.Quiet → m.QuietBut a) (claims : m.claims = s.claims)
    (driven : ∀ b, (m.axis b).driven = true → (s.axis b).driven = true) : Drives s (m.tellInterlocks a) :=
  have passed := rigged.tellInterlocks a
  ⟨passed.rigged, fun quiet => (but quiet).tellInterlocks, passed.claims.trans claims, fun b on => driven b (passed.driven b on)⟩

end Sys2Proof.Machine

namespace Sys2Proof.Machine

/-! ## The operations on axes -/

/-- No normal end is a lockout for NO_LOAD (R134). -/
theorem AxisRec.normalEnd_ne_noLoad {x : AxisRec} {home : Bool} {er : EndReason} (ends : x.normalEnd home = some er) :
    er ≠ .noLoad := by
  rintro rfl
  simp only [AxisRec.normalEnd] at ends
  split_ifs at ends <;> cases ends

/-- The over-current timer is all that the current sense changes in a record (R149). -/
theorem AxisRec.currentMoved_eq (ax : AxisRec) (old new : Nat) : ax.currentMoved old new = { ax with overCurrentTimer :=
    if ax.monitoring = true ∧ ax.state = .run then
      (if ax.overCurrent < new then (if old ≤ ax.overCurrent then some 100 else ax.overCurrentTimer) else none)
    else ax.overCurrentTimer } := by
  unfold AxisRec.currentMoved
  split_ifs <;> rfl

/-- SPEED stays in range at a ramp expiry in RUN (R132). -/
theorem AxisRec.InRange.rampedSpeed {x : AxisRec} (h : x.InRange) : x.rampedSpeed ≤ 255 := by
  obtain ⟨-, -, creep, run, -, -, -, -, -, speed, -⟩ := h
  have limit : x.speedLimit ≤ 255 := by
    rw [AxisRec.speedLimit]
    split_ifs <;> omega
  rw [AxisRec.rampedSpeed]
  split_ifs <;> omega

/-- POSITION stays in range at a pulse (R133). -/
theorem AxisRec.InRange.counted {x : AxisRec} (h : x.InRange) : x.counted ≤ 16383 := by
  obtain ⟨-, -, -, -, -, -, -, -, position, -, -⟩ := h
  rw [AxisRec.counted]
  split
  · split <;> omega
  · omega

/-- An axis in WARN and the same axis in RUN move in the same direction (R131, R163). -/
theorem AxisRec.toRun_movingDirection {x : AxisRec} (warn : x.state = .warn) (asked : x.pending.isSome = true) :
    x.toRun.movingDirection = x.movingDirection := by
  obtain ⟨p, pending⟩ := Option.isSome_iff_exists.1 asked
  simp only [AxisRec.movingDirection, AxisRec.toRun, warn, pending, Option.map_some]

/-- A run begins within the ranges of Table 7-1 (R131). -/
theorem AxisRec.Fit.toRun {x : AxisRec} {ch ch' : Channel} (h : x.Fit ch) (warn : x.state = .warn)
    (silent : ch'.state ≠ .sounding) : x.toRun.Fit ch' := by
  obtain ⟨count, reason⟩ := h.lockout.out (by rw [warn]; decide)
  exact h.out rfl h.position (Nat.zero_le _) (Nat.zero_le _) nofun (AxisRec.lockoutSound_of nofun count reason) silent

namespace State.Rigged
variable {s : State} (h : s.Rigged)
include h

theorem raised (p : Notices) : Drives s { s with notices := p } := h.same ⟨rfl, rfl, rfl, rfl, rfl⟩

/-- The PENDING MOTION of an axis out of WARN is lost. -/
theorem unasked (a : AxisNo) (warn : (s.axis a).state ≠ .warn) : Drives s (s.setAxis a { s.axis a with pending := none }) :=
  h.tweak a rfl rfl rfl rfl rfl rfl rfl (fun e => absurd e warn) (h.fit a).speed (h.fit a).distance

theorem quickStop (a : AxisNo) {er : EndReason} (run : (s.axis a).state = .run) (reason : er ≠ .noLoad) :
    Drives s (s.quickStop a er) := by
  have stood : Drives s (s.setAxis a { s.axis a with speed := 0, pending := none }) :=
    h.tweak a rfl rfl rfl rfl rfl rfl rfl (fun e => nomatch run.symm.trans e) (Nat.zero_le _) (h.fit a).distance
  exact stood.trans (stood.rigged.stopMotion a (by rw [State.axis_setAxis_self]; exact run) reason)

theorem abandon (a : AxisNo) : Drives s (s.abandon a) := by
  rw [State.abandon]
  split
  · rename_i warn; exact h.park a (by rw [warn]; decide) (by decide)
  · exact h.refl

theorem axisHalt (a : AxisNo) : Drives s (s.axisHalt a) := by
  rw [State.axisHalt]
  split
  · rename_i warn; exact h.park a (by rw [warn]; decide) (by decide)
  · rename_i rest; exact h.park a (by rw [rest]; decide) (by decide)
  · rename_i run
    have unasked := h.unasked a (by rw [run]; decide)
    exact unasked.trans (unasked.rigged.stopMotion a (by rw [State.axis_setAxis_self]; exact run) (by decide))
  · exact h.refl

theorem claimEnded (a : AxisNo) {er : EndReason} (reason : er ≠ .noLoad) : Drives s (s.claimEnded a er) := by
  have told : ∀ {b : Bool} {t : State}, t = (if b = true then s.raiseMotionLeaseLost else s) →
      Drives s t ∧ t.axis a = s.axis a := by
    rintro b t rfl
    split
    · exact ⟨h.raised _, rfl⟩
    · exact ⟨h.refl, rfl⟩
  rw [State.claimEnded]
  dsimp only
  split
  · rename_i warn
    obtain ⟨raised, same⟩ := told rfl
    exact raised.trans (raised.rigged.park a (by rw [same, warn]; decide) reason)
  · rename_i run
    obtain ⟨raised, same⟩ := told rfl
    exact raised.trans (raised.rigged.stopMotion a (by rw [same, run]) reason)
  · rename_i rest
    obtain ⟨raised, same⟩ := told rfl
    exact raised.trans (raised.rigged.unasked a (by rw [same, rest]; decide))
  · exact h.refl

theorem testEnds (a : AxisNo) (home : Bool) : Drives s (s.testEnds a home) := by
  rw [State.testEnds]
  split
  · rename_i run
    split
    · rename_i ends; exact h.stopMotion a run (AxisRec.normalEnd_ne_noLoad ends)
    · exact h.refl
  · exact h.refl

theorem noLoadLockout (a : AxisNo) : Drives s (s.noLoadLockout a) := by
  have left : Drives s ((s.setAxis a { s.axis a with endReason := .noLoad }).leaveMotion a .lockout) :=
    h.leaveMotion a (.inr (.inr rfl)) rfl rfl rfl rfl ⟨(h.fit a).lockout.1, iff_of_true rfl (.inr rfl)⟩ nofun
  have told := left.trans (left.rigged.tellInterlocks a)
  exact told.trans (told.rigged.raised _)

theorem stall (a : AxisNo) (run : (s.axis a).state = .run) : Drives s (s.stall a) := by
  have engaged : (s.axis a).engaged = true := by rw [AxisRec.engaged, run]
  have passed : ∀ {t : State}, Drives s t → Drives s (t.tellInterlocks a).raiseAxisFault := fun left =>
    have told := left.trans (left.rigged.tellInterlocks a)
    told.trans (told.rigged.raised _)
  rw [State.stall]
  refine passed ?_
  split
  · exact h.leaveMotion a (.inr (.inr rfl)) rfl rfl rfl rfl ⟨le_rfl, iff_of_true rfl (.inl rfl)⟩ nofun
  · refine h.leaveMotion a (.inr (.inl rfl)) rfl rfl rfl rfl ?_ (fun _ => engaged)
    exact AxisRec.lockoutSound_of nofun (Nat.not_le.1 (by assumption)) nofun

theorem moveTo (a : AxisNo) {position : Nat} (range : position ≤ 16383) : Drives s (s.moveTo a position) := by
  rw [State.moveTo]
  split
  · exact h.refl
  · have fit := h.fit a
    have moved : (s.setAxis a { s.axis a with position := position }).Rigged :=
      h.setAxis a rfl rfl (fit.tweak rfl rfl rfl rfl range fit.speed fit.distance fit.warned)
    refine Drives.told a moved (fun quiet => quiet.setAxis a (.inl rfl)) rfl fun b on => ?_
    rw [State.axis_setAxis] at on
    split at on
    · rename_i e; rw [e]; exact on
    · exact on

theorem foundHome (a : AxisNo) : Drives s (s.foundHome a) := by
  have fit := h.fit a
  rw [State.foundHome]
  split
  · rename_i home
    exact h.tweak a rfl rfl rfl rfl home.1.symm home.2.symm rfl (fun _ => rfl) fit.speed fit.distance
  · have found : (s.setAxis a { s.axis a with position := 0, verified := true }).Rigged :=
      h.setAxis a rfl rfl (fit.tweak rfl rfl rfl rfl (Nat.zero_le _) fit.speed fit.distance fit.warned)
    refine Drives.told a found (fun quiet => quiet.setAxis a (.inl rfl)) rfl fun b on => ?_
    rw [State.axis_setAxis] at on
    split at on
    · rename_i e; rw [e]; exact on
    · exact on

/-- An axis in WARN whose channel has gone silent enters RUN (R131). -/
theorem enterRun (a : AxisNo) {ch : Channel} (warn : (s.axis a).state = .warn) (silent : ch.state ≠ .sounding) :
    Drives s ((s.setChannel a ch).enterRun a) := by
  have fit := h.fit a
  set t := (s.setChannel a ch).setAxis a (s.axis a).toRun with ht
  have axes : ∀ b, t.axis b = if b = a then (s.axis a).toRun else s.axis b := fun b => (s.setChannel a ch).axis_setAxis a b _
  have channels : ∀ b, t.channel b = if b = a then ch else s.channel b := fun b => s.channel_setChannel a b ch
  have runs : Drives s t := by
    refine ⟨h.of_axis a axes (fun b hb => by rw [channels, if_neg hb]) rfl rfl ?_ ?_, ?_, rfl, fun b on => ?_⟩
    · rw [AxisRec.inMotion, AxisRec.inMotion, warn]; rfl
    · rw [channels, if_pos rfl]; exact fit.toRun warn silent
    · refine (Calmer.of_axis axes rfl rfl (fun _ => ?_) (.inl ?_)).quiet rfl
      · rw [AxisRec.engaged, warn]
      · exact AxisRec.toRun_movingDirection warn (fit.warned warn)
    · rw [axes] at on
      split at on
      · rename_i e; rw [e, AxisRec.driven, warn]
      · exact on
  have ends : ∀ {u : State} (home : Bool), Drives s u → Drives s ((u.testEnds a home).tellInterlocks a) := fun home k =>
    have tested := k.trans (k.rigged.testEnds a home)
    tested.trans (tested.rigged.tellInterlocks a)
  rw [State.enterRun, if_pos (show ((s.setChannel a ch).axis a).state = .warn from warn)]
  refine ends _ ?_
  split
  · exact runs.trans (runs.rigged.foundHome a)
  · exact runs

theorem stopAxis (a : AxisNo) : Drives s (s.stopAxis a) := by
  rw [State.stopAxis]
  split
  · rename_i warn; exact h.park a (by rw [warn]; decide) (by decide)
  · rename_i run; exact h.stopMotion a run (by decide)
  · rename_i rest; exact h.unasked a (by rw [rest]; decide)
  all_goals exact h.refl

/-- A lockout cleared (R155). -/
theorem clearLockout (a : AxisNo) : Drives s (s.clearLockout a) := by
  rw [State.clearLockout]
  split
  · rename_i lockout
    have fit := h.fit a
    have warn : (s.axis a).state ≠ .warn := by rw [lockout]; decide
    have cleared := h.rewrites a (x := { s.axis a with state := .parked, stallCount := 0, jam := none, endReason := .cleared })
      rfl (by rw [AxisRec.inMotion, AxisRec.inMotion, lockout])
      (fit.out rfl fit.position fit.speed fit.distance nofun (AxisRec.lockoutSound_of nofun (Nat.zero_lt_succ 7) nofun)
        (fit.silent warn))
      rfl rfl nofun (.inr rfl) nofun
    exact cleared.trans (cleared.rigged.tellInterlocks a)
  · exact h.refl

theorem pulse (a : AxisNo) : Drives s (s.pulse a) := by
  have fit := h.fit a
  rw [State.pulse]
  split
  · have travelled : Drives s (s.setAxis a (s.axis a).travelled) :=
      h.tweak a rfl rfl rfl rfl rfl rfl rfl (fun _ => rfl) fit.speed (Nat.min_le_right _ _)
    have moved := travelled.trans (travelled.rigged.moveTo a fit.range.counted)
    exact moved.trans (moved.rigged.testEnds a _)
  · exact h.moveTo a fit.range.counted

theorem setAxisIn (a : AxisNo) (x : AxisInputs) : Drives s (s.setAxisIn a x) := h.same ⟨rfl, rfl, rfl, rfl, rfl⟩

theorem homeFound (a : AxisNo) : Drives s (s.homeFound a) :=
  have active := h.setAxisIn a { s.axisIn a with home := true }
  have found := active.trans (active.rigged.foundHome a)
  found.trans (found.rigged.testEnds a true)

theorem edgePressed (a : AxisNo) : Drives s (s.edgePressed a) := by
  have pressed : Drives s (s.setEdge a true) := h.setAxisIn a _
  have raise : ∀ {t : State}, Drives (s.setEdge a true) t → Drives s t.raiseAxisFault := fun k =>
    (pressed.trans k).trans (k.rigged.raised _)
  rw [State.edgePressed_eq]
  split
  · rename_i warn
    exact raise (pressed.rigged.park a (by show (s.axis a).state ≠ _; rw [warn]; decide) (by decide))
  · rename_i run; exact raise (pressed.rigged.quickStop a run (by decide))
  · split
    · rename_i stopping _
      exact pressed.trans (pressed.rigged.tweak a rfl rfl rfl rfl rfl rfl rfl (fun _ => rfl) (Nat.zero_le _) (h.fit a).distance)
    · exact pressed
  all_goals exact pressed

theorem setCurrent (a : AxisNo) (v : Nat) : Drives s (s.setCurrent a v) := by
  have sensed := h.setAxisIn a { s.axisIn a with current := v }
  have fit := h.fit a
  rw [State.setCurrent, AxisRec.currentMoved_eq]
  exact sensed.trans (sensed.rigged.tweak a rfl rfl rfl rfl rfl rfl rfl (fun _ => rfl) fit.speed fit.distance)

/-! ### Expiries of an axis -/

theorem ramp (a : AxisNo) : Drives s (s.ramp a) := by
  have fit := h.fit a
  rcases s.ramp_cases a with ⟨_, e⟩ | ⟨_, _, e⟩ | ⟨_, _, e⟩ <;> rw [e]
  · exact h.refl
  · rw [AxisRec.armWatch_eq]
    exact h.tweak a rfl rfl rfl rfl rfl rfl rfl (fun _ => rfl) fit.range.rampedSpeed fit.distance
  · exact h.tweak a rfl rfl rfl rfl rfl rfl rfl (fun _ => rfl) ((Nat.sub_le _ _).trans fit.speed) fit.distance

theorem brakeSettled (a : AxisNo) : Drives s (s.brakeSettled a) := by
  rcases s.brakeSettled_cases a with ⟨_, e⟩ | ⟨⟨_, stopping⟩, e⟩ <;> rw [e]
  · exact h.refl
  · have out : (s.axis a).state ≠ .lockout := by rw [stopping]; decide
    exact h.park a out ((h.fit a).lockout.out out).2

theorem confirmWindow (a : AxisNo) : Drives s (s.confirmWindow a) := by
  have fit := h.fit a
  rcases s.confirmWindow_cases a with ⟨_, e⟩ | ⟨_, e⟩ <;> rw [e]
  · exact h.refl
  · split
    · rw [AxisRec.confirmed, AxisRec.armWatch_eq]
      exact h.tweak a rfl rfl rfl rfl rfl rfl rfl (fun _ => rfl) fit.speed fit.distance
    · exact h.noLoadLockout a

theorem pulseWatchEnd (a : AxisNo) : Drives s (s.pulseWatchEnd a) := by
  rcases s.pulseWatchEnd_cases a with ⟨_, e⟩ | ⟨⟨_, run⟩, e⟩ <;> rw [e]
  · exact h.refl
  · exact h.stall a run

theorem overCurrentEnd (a : AxisNo) : Drives s (s.overCurrentEnd a) := by
  rcases s.overCurrentEnd_cases a with ⟨_, e⟩ | ⟨⟨_, run⟩, e⟩ <;> rw [e]
  · exact h.refl
  · exact h.stall a run

end State.Rigged

end Sys2Proof.Machine

namespace Sys2Proof.Machine

/-! ## The budget's answers -/

@[simp] theorem LoadRec.reconfigure_forced (l : LoadRec) (c : LoadConfig) : (l.reconfigure c).forced = l.forced := by
  unfold LoadRec.reconfigure
  dsimp only
  split <;> simp

/-- A WRITE_LOAD neither forces nor unforces its load (R47, R50). -/
theorem LoadRec.rewritten_forced (l : LoadRec) (c : LoadConfig) : (l.rewritten c).forced = l.forced := by
  simp only [LoadRec.rewritten, LoadRec.recount_forced, LoadRec.reshed]
  split_ifs <;> simp

theorem LoadRec.trim_forced (l : LoadRec) (c : Nat) : (l.trim c).forced = l.forced := by
  simp only [LoadRec.trim]
  split
  · rfl
  · split <;> simp
  · split <;> simp

namespace State.Rigged
variable {s : State} (h : s.Rigged)
include h

theorem answerFall : Drives s s.answerFall := h.loadRun s.answerFall_run s.answerFall_sameForced

theorem setBudget (b : Budget) : Drives s { s with budget := b } := h.same ⟨rfl, rfl, rfl, rfl, rfl⟩

theorem restorePass : Drives s s.restorePass := h.loadRun s.restorePass_run (State.restoreAlong_sameForced _ s)

/-- The first two steps of the reduction shed loads and abandon axes in WARN (R114, R115). -/
theorem reduceTwoSteps : Drives s s.reduceTwoSteps := by
  have loads : Drives s s.reduceLoads := h.loadRun (State.shedAlong_run _ _ s) (State.shedAlong_sameForced _ _ s)
  have abandoned : Drives s s.reduceLoads.abandonWarned :=
    loads.trans (loads.rigged.foldl (fun h a => h.abandon a) allAxes)
  simp only [State.reduceTwoSteps]
  split
  · exact loads.trans (loads.rigged.setBudget _)
  · split
    · have cleared := abandoned.trans (abandoned.rigged.setBudget { s.reduceLoads.abandonWarned.budget with deficit := false })
      exact cleared.trans cleared.rigged.restorePass
    · exact abandoned

theorem reduce : Drives s s.reduce := by
  have two := h.reduceTwoSteps
  rw [State.reduce]
  split
  · exact two
  · exact two.trans (two.rigged.setBudget _)

theorem applyBudget (v : Nat) : Drives s (s.applyBudget v) := by
  have set := h.setBudget { s.budget with available := v }
  rw [State.applyBudget]
  split
  · have cleared := set.trans (set.rigged.setBudget { s.budget with available := v, deficit := false })
    exact cleared.trans cleared.rigged.restorePass
  · exact set.trans set.rigged.reduce

theorem reduceInDeficit (n : LoadNo) (c start : Nat) : Drives s (s.reduceInDeficit n c start) := by
  have two := h.reduceTwoSteps
  have trimmed : Drives s.reduceTwoSteps (s.reduceTwoSteps.storeLoad n ((s.reduceTwoSteps.load n).trim c)) := by
    have only := s.reduceTwoSteps.storeLoad_only n ((s.reduceTwoSteps.load n).trim c) false
    refine two.rigged.loads only.axes only.channels only.interlocks only.claims
      (State.storeLoad_sameForced (LoadRec.trim_forced _ _)) fun m => ?_
    rw [State.load_storeLoad]
    split
    · rename_i e; rw [e, LoadRec.trim_config]
    · rfl
  simp only [State.reduceInDeficit]
  split
  · exact two
  · split
    · have trims := two.trans trimmed
      exact trims.trans (trims.rigged.setBudget _)
    · exact two.trans (two.rigged.setBudget _)

end State.Rigged

/-! ## What a whole event keeps -/

/-- The laws of axes and channels, of interlock entries and of holds (R137, R140, R154, R165, Table 7-3). -/
structure State.Axled (s : State) : Prop where
  rigged : s.Rigged
  quiet : s.Quiet
  hold : s.HoldLaw

theorem Drives.axled {s t : State} (h : Drives s t) (law : s.Axled) : t.Axled :=
  ⟨h.rigged, h.quiet law.quiet, h.hold law.hold⟩

/-- An event keeps the laws of axes, from sound loads. -/
def Steers (s t : State) : Prop := s.LoadsSound → s.Axled → t.Axled

theorem Steers.refl (s : State) : Steers s s := fun _ law => law

/-- An operation that keeps the laws wherever it stands. -/
theorem Steers.of {s t : State} (h : s.Rigged → Drives s t) : Steers s t := fun _ law => (h law.rigged).axled law

theorem Steers.then {s t u : State} (h : Steers s t) (k : t.Rigged → Drives t u) : Steers s u := fun sound law =>
  (k (h sound law).rigged).axled (h sound law)

theorem Steers.after {s t u : State} (untouched : Untouched s t) (k : Steers t u) : Steers s u := fun sound law =>
  k (fun n => by rw [State.load_congr untouched.loads]; exact sound n) ((law.rigged.same untouched).axled law)

theorem Untouched.steers {s t : State} (h : Untouched s t) : Steers s t := .of fun rigged => rigged.same h

/-! ### WRITE_LOAD, WRITE_AXIS, WRITE_INTERLOCK -/

/-- A load out of force is written: no axis in motion names it, so none loses its courtesy load (R124, R137). -/
theorem State.Axled.loadWritten {s : State} (law : s.Axled) {n : LoadNo} (free : (s.load n).forced = false) (c : LoadConfig) :
    (s.loadWritten n c).Axled := by
  obtain ⟨⟨forced, courtesy, fit⟩, quiet, hold⟩ := law
  have axis := s.loadWritten_axis n c
  have unnamed : ∀ b, ¬ s.Forces b n := fun b forces => by
    rw [(forced n).2 ⟨b, forces⟩] at free; cases free
  have forces : ∀ b m, (s.loadWritten n c).Forces b m ↔ s.Forces b m := fun b m => by
    rw [State.Forces, State.Forces, axis]
    refine and_congr_right fun moving => ?_
    show (if c.kind = .none ∧ (s.axis b).courtesy = some n then none else (s.axis b).courtesy) = some m ↔ _
    rw [if_neg fun named => unnamed b ⟨moving, named.2⟩]
  refine ⟨⟨fun m => ?_, fun b m named => ?_, fun b => ?_⟩, ?_, fun b on => ?_⟩
  · simp only [forces]
    rw [State.loadWritten_load]
    split
    · rename_i e; subst e
      rw [LoadRec.rewritten_forced]
      exact forced m
    · exact forced m
  · rw [axis] at named
    rw [State.loadWritten_load]
    change (if c.kind = .none ∧ (s.axis b).courtesy = some n then none else (s.axis b).courtesy) = some m at named
    split at named
    · cases named
    · rename_i kept
      split
      · rename_i e
        subst e
        rw [LoadRec.rewritten_config]
        exact fun none => kept ⟨none, named⟩
      · exact courtesy b m named
  · rw [axis, State.channel_congr (s.loadWritten_channels n c)]
    exact ⟨(fit b).lockout, (fit b).range, (fit b).warned, (fit b).sounding⟩
  · exact (s.loadWritten_calmer n c).quiet (s.loadWritten_interlocks n c) quiet
  · rw [axis] at on
    obtain ⟨x, mem, target⟩ := hold b on
    refine ⟨x, ?_, target⟩
    show x ∈ if s.movesClaimed n c.space then s.claims.filter fun x => x.target != .load n else s.claims
    split
    · exact List.mem_filter.2 ⟨mem, by rw [target]; rfl⟩
    · exact mem

theorem State.decideWriteLoad_steers (s : State) (n : LoadNo) (f : LoadFields) : Steers s (s.decideWriteLoad n f).2 := by
  rw [State.decideWriteLoad]
  split_ifs with busy
  · exact .refl s
  · exact .refl s
  · intro _ law
    have free : (s.load n).forced = false := Bool.eq_false_iff.2 busy
    have written := law.loadWritten free (loadConfigOf f)
    have h := written.rigged
    show (s.writeLoad n (loadConfigOf f)).Axled
    rw [State.writeLoad_eq]
    split_ifs
    · rw [← State.answerFall_eq_afterFall]; exact h.answerFall.axled written
    · exact (h.reduceInDeficit n _ _).axled written
    · exact written
    · exact h.reduce.axled written
    · exact written

/-- The values that WRITE_AXIS accepts are in the ranges of Table 7-1 (R123). -/
theorem State.axisFieldsOk_inRange {s : State} {f : AxisFields} (ok : s.axisFieldsOk f = true) :
    f.config.demand ≤ 1500 ∧ 1 ≤ f.config.creepSpeed ∧ f.config.creepSpeed ≤ f.config.runSpeed ∧ f.config.softHigh ≤ 16383
      ∧ f.config.softLow < f.config.softHigh ∧ 1 ≤ f.config.warnCycles ∧ f.config.warnCycles ≤ 15 := by
  simp only [State.axisFieldsOk, Bool.and_eq_true, decide_eq_true_iff] at ok
  omega

/-- An axis out of motion is given a configuration in range, whose courtesy load, if any, is not NONE (R123, R124). -/
theorem State.Rigged.configure {s : State} (h : s.Rigged) (a : AxisNo) {c : AxisConfig} (out : (s.axis a).inMotion = false)
    (range : ({ s.axis a with toAxisConfig := c } : AxisRec).InRange)
    (named : ∀ n, c.courtesy = some n → (s.load n).kind ≠ .none) :
    Drives s (s.setAxis a { s.axis a with toAxisConfig := c }) := by
  set x : AxisRec := { s.axis a with toAxisConfig := c } with hx
  have axes : ∀ b, (s.setAxis a x).axis b = if b = a then x else s.axis b := fun b => s.axis_setAxis a b x
  have forces : ∀ b n, (s.setAxis a x).Forces b n ↔ s.Forces b n := fun b n => by
    rw [State.Forces, State.Forces, axes]
    by_cases e : b = a
    · rw [if_pos e, e, out]
      exact iff_of_false (fun h => nomatch out.symm.trans h.1) fun h => nomatch h.1
    · rw [if_neg e]
  refine ⟨⟨fun n => ?_, fun b n => ?_, fun b => ?_⟩, (Calmer.of_axis axes rfl rfl id (.inl rfl)).quiet rfl, rfl, fun b on => ?_⟩
  · simp only [forces]; exact h.forced n
  · rw [axes]
    split
    · exact named n
    · exact h.courtesy b n
  · rw [axes]
    split
    · rename_i e
      subst e
      obtain ⟨lockout, -, warned, sounding⟩ := h.fit b
      exact ⟨lockout, range, warned, sounding⟩
    · exact h.fit b
  · rw [axes] at on
    split at on
    · rename_i e; rw [e]; exact on
    · exact on

theorem State.decideWriteAxis_steers (s : State) (a : AxisNo) {f : AxisFields} (byte : f.config.runSpeed ≤ 255) :
    Steers s (s.decideWriteAxis a f).2 := by
  rw [State.decideWriteAxis]
  split_ifs with busy bad
  · exact .refl s
  · exact .refl s
  · refine .of fun h => ?_
    have ok : s.axisFieldsOk f = true := by simpa using bad
    have out : (s.axis a).inMotion = false := by
      cases state : (s.axis a).state <;> simp_all [AxisRec.engaged, AxisRec.inMotion]
    refine h.configure a out ?_ fun n courtesy => ?_
    · obtain ⟨demand, creep, speeds, high, low, cycles, cycles'⟩ := State.axisFieldsOk_inRange ok
      have fit := h.fit a
      exact ⟨demand, creep, speeds, byte, high, low, cycles, cycles', fit.position, fit.speed, fit.distance⟩
    · have lit : (s.load n).kind != .none := by
        simp only [State.axisFieldsOk, courtesy, Bool.and_eq_true] at ok
        tauto
      exact bne_iff_ne.1 lit

/-- A RUN SPEED that a WRITE_AXIS carries is a byte (Table 7-1). -/
theorem readWriteAxis_runSpeed {body : List Byte} {x : RawTarget} {f : AxisFields} (read : readWriteAxis body = some (x, f)) :
    f.config.runSpeed ≤ 255 := by
  unfold readWriteAxis at read
  split at read
  · rw [Option.map_eq_some_iff] at read
    obtain ⟨_, _, e⟩ := read
    cases e
    exact Nat.le_of_lt_succ (BitVec.isLt _)
  · cases read

/-- A new entry is tested at once, and it alone may stop an axis: its subject is then blocked (R161, R165). -/
theorem State.decideWriteInterlock_steers (s : State) (f : InterlockFields) : Steers s (s.decideWriteInterlock f).2 := by
  rw [State.decideWriteInterlock]
  split
  · exact .refl s
  · rename_i p entry _
    intro _ law
    obtain ⟨rigged, quiet, hold⟩ := law
    have written : (s.setInterlock p entry).Rigged := rigged.congr rfl (.of_loads rfl) (fun _ => rfl) fun _ => Iff.rfl
    have held : (s.setInterlock p entry).HoldLaw := hold
    have others : ∀ q e, (s.setInterlock p entry).interlock q = some e → some e ≠ entry →
        (s.setInterlock p entry).entryStops e = false := fun q e present new => by
      rw [State.interlock_setInterlock] at present
      split at present
      · exact absurd present.symm new
      · exact quiet q e present
    cases entry with
    | none => exact ⟨written, fun q e present => others q e present nofun, held⟩
    | some x =>
      show ((s.setInterlock p (some x)).blockSubject x).Axled
      rw [State.blockSubject]
      split
      · have blocked := written.blockCore x.subject
        have silent : ((s.setInterlock p (some x)).blockCore x.subject).Quiet := fun q e present => by
          rw [State.interlock_congr (State.blockCore_spec _ _).1.interlocks] at present
          by_cases new : e = x
          · rw [new]; exact State.blockCore_entryStops _ x
          · have before := others q e present fun same => new (Option.some.inj same)
            exact Bool.eq_false_iff.2 fun now =>
              Bool.eq_false_iff.1 before ((State.blockCore_calmer _ _).entryStops now)
        exact (blocked.rigged.tellInterlocks x.subject).axled ⟨blocked.rigged, silent, blocked.hold held⟩
      · rename_i silent
        refine ⟨written, fun q e present => ?_, held⟩
        by_cases new : e = x
        · rw [new]; exact Bool.eq_false_iff.2 silent
        · exact others q e present fun same => new (Option.some.inj same)

end Sys2Proof.Machine

namespace Sys2Proof.Machine

/-! ### The entry to WARN -/

/-- The origin that holds an axis has a claim on it (R22, R127). -/
theorem State.claimed_of_holdsAxis {s : State} {o : Origin} {a : AxisNo} (holds : s.holdsAxis o a = true) :
    ∃ c ∈ s.claims, c.target = .axis a := by
  rw [State.holdsAxis, beq_iff_eq, Option.map_eq_some_iff] at holds
  obtain ⟨c, cover, -⟩ := holds
  have target : (c.target == ClaimTarget.axis a) = true :=
    List.find?_some (p := fun c : Claim => c.target == .axis a) (l := s.claims) cover
  exact ⟨c, List.mem_of_find?_eq_some cover, beq_iff_eq.1 target⟩

/-- An axis at rest, held and not blocked, enters WARN with its courtesy load forced (R129, R137). -/
theorem State.Axled.grant_warns {s g : State} (law : s.Axled) (sound : s.LoadsSound) {a : AxisNo} {p : Pending}
    (still : (s.axis a).state = .parked ∨ (s.axis a).state = .rest) (held : ∃ c ∈ s.claims, c.target = .axis a)
    (clear : s.blocked a p.direction = false) (grant : s.grant a = some g) : (g.enterWarn a p).Axled := by
  obtain ⟨⟨forced, courtesy, fit⟩, quiet, hold⟩ := law
  have granted := State.grant_only grant
  have configs := (State.grant_calm grant).configs
  have same := State.grant_sameForced grant
  have kind : ∀ b n, (s.axis b).courtesy = some n → (g.load n).kind ≠ .none := fun b n named => by
    rw [configs n]; exact courtesy b n named
  obtain ⟨m, eq, entered⟩ := State.enterWarn_entered p (State.grant_sound grant sound) fun n named =>
    kind a n (by rw [← State.axis_congr granted.axes]; exact named)
  have axes : ∀ b, m.axis b = if b = a then (s.axis a).warned p else s.axis b := fun b => by
    rw [entered.axes, State.axis_congr granted.axes, State.axis_congr granted.axes]
  have channels : ∀ b, m.channel b = if b = a then (s.channel a).start else s.channel b := fun b => by
    rw [entered.channels, State.channel_congr granted.channels, State.channel_congr granted.channels]
  have entries : m.interlocks = s.interlocks := entered.calm.only.interlocks.trans granted.interlocks
  have claims : m.claims = s.claims := entered.calm.only.claims.trans granted.claims
  have own : ∀ n, (g.axis a).courtesy = some n ↔ (s.axis a).courtesy = some n := fun n => by rw [State.axis_congr granted.axes]
  have idle : (s.axis a).inMotion = false := by rcases still with e | e <;> rw [AxisRec.inMotion, e]
  have forces : ∀ n, (∃ b, m.Forces b n) ↔ (s.axis a).courtesy = some n ∨ ∃ b, s.Forces b n := fun n => by
    refine ⟨fun ⟨b, on⟩ => ?_, fun on => ?_⟩
    · rw [State.Forces, axes] at on
      split at on
      · exact .inl on.2
      · exact .inr ⟨b, on⟩
    · rcases on with named | ⟨b, on⟩
      · exact ⟨a, by rw [State.Forces, axes, if_pos rfl]; exact ⟨rfl, named⟩⟩
      · have other : b ≠ a := fun e => by rw [e, State.Forces, idle] at on; cases on.1
        exact ⟨b, by rw [State.Forces, axes, if_neg other]; exact on⟩
  have rigged : m.Rigged := by
    refine ⟨fun n => ?_, fun b n named => ?_, fun b => ?_⟩
    · rw [entered.enters.loads, forces]
      split
      · rename_i named
        rw [own] at named
        exact iff_of_true (LoadRec.toForced_forced (kind a n named)) (.inl named)
      · rename_i unnamed
        rw [own] at unnamed
        rw [same n, or_iff_right unnamed]
        exact forced n
    · rw [entered.calm.configs n]
      rw [axes] at named
      split at named
      · exact kind a n named
      · exact kind b n named
    · rw [axes, channels]
      split
      · have out : (s.axis a).state ≠ .lockout ∧ (s.axis a).state ≠ .warn := by
          rcases still with e | e <;> rw [e] <;> exact ⟨nofun, nofun⟩
        obtain ⟨lockout, range, -, -⟩ := fit a
        obtain ⟨demand, creep, speeds, run, high, low, cycles, cycles', position, -, distance⟩ := range
        obtain ⟨count, reason⟩ := lockout.out out.1
        exact ⟨AxisRec.lockoutSound_of nofun count reason,
          ⟨demand, creep, speeds, run, high, low, cycles, cycles', position, Nat.zero_le _, distance⟩, fun _ => rfl,
          iff_of_true (Channel.start_of_silent ((fit a).silent out.2)).1 rfl⟩
      · exact fit b
  have but : m.QuietBut a := fun q e present now => by
    by_contra other
    rw [State.interlock_congr entries] at present
    have watched : m.satisfied e = s.satisfied e := by simp only [State.satisfied, axes, if_neg other]
    by_cases own : e.subject = a
    · have moving : (m.axis e.subject).movingDirection = some p.direction := by rw [axes, if_pos own]; rfl
      have free := State.blocked_eq_false_iff.1 clear q e present
      rw [State.entryStops, moving] at now
      simp only [State.entryBlocks, watched, own] at now free
      rw [free] at now; cases now
    · have before := quiet q e present
      rw [State.entryStops] at before
      simp only [State.entryStops, State.entryBlocks, watched, axes, if_neg own] at now before
      rw [before] at now; cases now
  have passed := rigged.tellInterlocks a
  rw [eq]
  refine ⟨passed.rigged, but.tellInterlocks, fun b on => ?_⟩
  rw [passed.claims, claims]
  have driven := passed.driven b on
  rw [axes] at driven
  split at driven
  · rename_i e; rw [e]; exact held
  · exact hold b driven

theorem State.decideMove_steers (s : State) (o : Origin) (a : AxisNo) (d : Direction) (position : Nat) :
    Steers s (s.decideMove o a d position).2 := by
  have retargets : s.Rigged → Drives s (s.replaceTarget a position) := fun h => by
    have fit := h.fit a
    refine h.tweak a rfl rfl rfl rfl rfl rfl rfl (fun _ => ?_) fit.speed fit.distance
    rw [Option.map_map]
    rfl
  rw [State.decideMove]
  split
  · exact .refl s
  rename_i holds
  split
  · exact .refl s
  · exact .refl s
  · exact .refl s
  · split
    · exact .of retargets
    · exact .refl s
  · split
    · exact .of fun h => (retargets h).trans ((retargets h).rigged.testEnds a false)
    · exact .refl s
  · rename_i parked
    rw [State.startMove]
    split_ifs with edge blocked
    · exact .refl s
    · exact .refl s
    · split
      · exact .refl s
      · rename_i g grant
        intro sound law
        have held := State.claimed_of_holdsAxis (Bool.eq_true_of_not_eq_false holds)
        have clear : s.blocked a ((s.axis a).asked o d position).direction = false := Bool.eq_false_iff.2 blocked
        dsimp only
        exact law.grant_warns sound (.inl parked) held clear grant

/-! ### The end of a rest -/

/-- A retry has passed its tests (R152). -/
theorem State.retryTests_passed {s g : State} {a : AxisNo} {p : Pending} (retry : s.retryTests a = .retry g p) :
    s.holdsAxis p.origin a = true ∧ s.blocked a p.direction = false ∧ s.grant a = some g := by
  simp only [State.retryTests] at retry
  repeat' split at retry
  all_goals cases retry
  exact ⟨Bool.eq_true_of_not_eq_false (by assumption), Bool.eq_false_iff.2 (by assumption), by assumption⟩

/-- No failed test of a retry is a lockout for NO_LOAD (R153). -/
theorem State.retryTests_reason {s : State} {a : AxisNo} {er : EndReason} (failed : s.retryTests a = .fail (some er)) :
    er ≠ .noLoad := by
  simp only [State.retryTests] at failed
  repeat' split at failed
  all_goals cases failed
  all_goals decide

theorem State.restEnd_steers (s : State) (a : AxisNo) : Steers s (s.restEnd a) := by
  rcases s.restEnd_cases a with ⟨_, e⟩ | ⟨⟨_, rest⟩, e⟩ <;> rw [e]
  · exact .refl s
  intro sound law
  have fit := law.rigged.fit a
  have rested : Drives s (s.rested a) :=
    law.rigged.tweak a rfl rfl rfl rfl rfl rfl rfl (fun _ => rfl) fit.speed fit.distance
  have law' := rested.axled law
  have state : ((s.rested a).axis a).state = .rest := by rw [State.rested_own]; exact rest
  have out : ((s.rested a).axis a).state ≠ .lockout := by rw [state]; decide
  have parks : ∀ {er : EndReason}, er ≠ .noLoad → Drives (s.rested a) ((s.rested a).park a er) := fun reason =>
    rested.rigged.park a out reason
  rw [State.restOver]
  dsimp only
  rw [← State.rested]
  split
  · rename_i retry
    obtain ⟨holds, clear, grant⟩ := State.retryTests_passed retry
    exact law'.grant_warns (fun n => sound n) (.inr state) (State.claimed_of_holdsAxis holds) clear grant
  · exact (parks ((rested.rigged.fit a).lockout.out out).2).axled law'
  · rename_i failed
    have parked := parks (State.retryTests_reason failed)
    split
    · exact (parked.trans (parked.rigged.raised _)).axled law'
    · exact parked.axled law'

/-! ### The signal channels -/

@[simp] theorem Channel.beginCycle_state (ch : Channel) (c : Cycle) : (ch.beginCycle c).state = ch.state := rfl

@[simp] theorem Channel.adoptStaged_state (ch : Channel) : ch.adoptStaged.state = ch.state := by
  unfold Channel.adoptStaged; split <;> rfl

@[simp] theorem Channel.nextCycle_state (ch : Channel) (c : Cycle) : (ch.nextCycle c).state = ch.state := by
  simp only [Channel.nextCycle]
  split
  · split
    · rfl
    · split <;> rfl
  · split <;> rfl
  · split <;> rfl

/-- A channel that reports its warning complete is silent; one that does not is SOUNDING as it was (R172, R173). -/
theorem Channel.endCycle_state (ch : Channel) (c : Cycle) (k : Nat) :
    if (ch.endCycle c k).2 = true then (ch.endCycle c k).1.state ≠ .sounding
      else ((ch.endCycle c k).1.state = .sounding ↔ ch.state = .sounding) := by
  have adopted := ch.adoptStaged_state
  simp only [Channel.endCycle]
  cases state : ch.adoptStaged.state with
  | idle => simp
  | sounding => split_ifs <;> simp_all [Channel.toIdle]
  | finishing =>
    have silent : ch.state ≠ .sounding := by rw [← adopted, state]; decide
    dsimp only
    split <;> simp [Channel.toIdle, silent]

theorem State.Rigged.cycleEnd {s : State} (h : s.Rigged) (a : AxisNo) : Drives s (s.cycleEnd a) := by
  rcases s.cycleEnd_cases a with ⟨_, e⟩ | ⟨c, _, _, e⟩ <;> rw [e]
  · exact h.refl
  have reports := (s.channel a).endCycle_state c (s.axis a).warnCycles
  dsimp only
  split
  · rename_i complete
    rw [if_pos complete] at reports
    by_cases warn : (s.axis a).state = .warn
    · exact h.enterRun a warn reports
    · rw [State.enterRun, if_neg (show ((s.setChannel a _).axis a).state ≠ .warn from warn)]
      exact h.setChannel a (iff_of_false reports ((h.fit a).silent warn))
  · rename_i goes
    rw [if_neg goes] at reports
    exact h.setChannel a reports

theorem State.Rigged.markEnd {s : State} (h : s.Rigged) (a : AxisNo) : Drives s (s.markEnd a) := by
  rcases s.markEnd_cases a with ⟨_, e⟩ | ⟨_, e⟩ <;> rw [e]
  · exact h.refl
  · exact h.setChannel a Iff.rfl

theorem State.Rigged.decideWriteSignal {s : State} (h : s.Rigged) (a : AxisNo) (p : Pattern) :
    Drives s (s.decideWriteSignal a p).2 := by
  rw [State.decideWriteSignal]
  split
  · refine h.setChannel a ?_
    rw [Channel.write]
    split <;> exact Iff.rfl
  · exact h.refl

/-! ### Claims -/

/-- An axis is in neither WARN nor RUN after the end of its claim (R140). -/
theorem State.claimEnded_idle (s : State) (a : AxisNo) (er : EndReason) : ((s.claimEnded a er).axis a).driven = false := by
  rw [(s.claimEnded_responds a er).axis, AxisRec.claimEndedBy]
  split
  · rfl
  · rfl
  all_goals rename_i state; simp only [AxisRec.driven, state]

/-- An axis is in neither WARN nor RUN after a HALT (R142). -/
theorem State.axisHalt_idle (s : State) (a : AxisNo) : ((s.axisHalt a).axis a).driven = false := by
  rw [State.axisHalt]
  split
  · rw [(s.park_leaves a .halt).axis]; rfl
  · rw [(s.park_leaves a .halt).axis]; rfl
  · rename_i run
    have running : ((s.setAxis a { s.axis a with pending := none }).axis a).state = .run := by
      rw [State.axis_setAxis_self]; exact run
    rw [(State.stopMotion_responds _ a .halt running).axis, AxisRec.claimEndedBy, running]
    rfl
  · rename_i rest warn run
    rw [AxisRec.driven]
    split
    · exact absurd (by assumption) rest
    · exact absurd (by assumption) run
    · rfl

/-- Operations on the axes in turn, each of which idles its own axis where P holds, idle every such axis. -/
theorem State.Rigged.foldl_idle {s : State} (h : s.Rigged) {f : State → AxisNo → State} {P : AxisNo → Prop}
    (each : ∀ {s : State}, s.Rigged → ∀ a, Drives s (f s a)) (idles : ∀ s a, P a → ((f s a).axis a).driven = false)
    {as : List AxisNo} {a : AxisNo} (mem : a ∈ as) (reached : P a) : ((as.foldl f s).axis a).driven = false := by
  induction as generalizing s with
  | nil => cases mem
  | cons b as ih =>
    rw [List.foldl_cons]
    rcases List.mem_cons.1 mem with rfl | mem
    · have rest : Drives (f s a) (as.foldl f (f s a)) := (each h a).rigged.foldl each as
      exact Bool.eq_false_iff.2 fun on => Bool.eq_false_iff.1 (idles s a reached) (rest.driven a on)
    · exact ih (each h b).rigged mem

/-- Claims are retired, and every axis that was held by one of them is left idle (R34, R36, R140). -/
theorem State.Axled.retires {s u : State} (law : s.Axled) {kept : List Claim}
    (told : (s.setClaims kept).Rigged → Drives (s.setClaims kept) u)
    (idle : ∀ c ∈ s.claims, c ∉ kept → ∀ a, c.target = .axis a → (u.axis a).driven = false) : u.Axled := by
  obtain ⟨rigged, quiet, hold⟩ := law
  have drives := told (rigged.congr rfl (.of_loads rfl) (fun _ => rfl) fun _ => Iff.rfl)
  refine ⟨drives.rigged, drives.quiet fun p e present => quiet p e present, fun a on => ?_⟩
  obtain ⟨c, mem, target⟩ := hold a (drives.driven a on)
  rw [drives.claims]
  refine ⟨c, ?_, target⟩
  by_contra gone
  rw [idle c mem gone a target] at on
  cases on

/-- The claims are written anew, and each axis held is held still. -/
theorem State.Axled.reclaims {s : State} (law : s.Axled) {claims : List Claim}
    (held : ∀ c ∈ s.claims, ∀ a, c.target = .axis a → ∃ c' ∈ claims, c'.target = .axis a) : (s.setClaims claims).Axled := by
  obtain ⟨rigged, quiet, hold⟩ := law
  refine ⟨rigged.congr rfl (.of_loads rfl) (fun _ => rfl) fun _ => Iff.rfl, fun p e present => quiet p e present, fun a on => ?_⟩
  obtain ⟨c, mem, target⟩ := hold a on
  exact held c mem a target

/-- The claims on one target are retired, and the axis it names is told (R25, R34). -/
theorem State.retired_steers (s : State) (t : ClaimTarget) {kept : List Claim} {er : EndReason} (reason : er ≠ .noLoad)
    (others : ∀ c ∈ s.claims, c.target ≠ t → c ∈ kept) : Steers s ((s.setClaims kept).tellHeldAxis t er) := by
  refine fun _ law => law.retires (kept := kept) (fun h => ?_) fun c mem gone a target => ?_
  · cases t with
    | axis a => exact h.claimEnded a reason
    | load n => exact h.refl
    | space p => exact h.refl
  · have named : t = .axis a := by
      by_contra other
      exact gone (others c mem fun e => other (e.symm.trans target))
    subst named
    exact State.claimEnded_idle _ a er

theorem State.decideRelease_steers (s : State) (o : Origin) (t : ClaimTarget) : Steers s (s.decideRelease o t).2 := by
  rw [State.decideRelease]
  split
  · refine s.retired_steers t (by decide) fun c mem other => List.mem_filter.2 ⟨mem, ?_⟩
    simp [other]
  · exact .refl s

theorem State.expireLease_steers (s : State) (t : ClaimTarget) : Steers s (s.expireLease t) := by
  rcases s.expireLease_cases t with ⟨_, e⟩ | ⟨_, e⟩ <;> rw [e]
  · exact .refl s
  · refine s.retired_steers t (by decide) fun c mem other => List.mem_filter.2 ⟨mem, ?_⟩
    simp [other]

theorem State.renewClaim_steers (s : State) (o : Origin) (t : ClaimTarget) (lease : Nat) : Steers s (s.renewClaim o t lease) := by
  refine fun _ law => law.reclaims fun c mem a target => ⟨_, List.mem_map_of_mem mem, ?_⟩
  split
  · rw [Claim.renewed]
    split <;> exact target
  · exact target

theorem State.makeClaim_steers (s : State) (o : Origin) (t : ClaimTarget) (lease : Nat) : Steers s (s.makeClaim o t lease) := by
  intro _ law
  have kept : ∀ c ∈ s.claims, ∀ a, c.target = .axis a → t ≠ .axis a → c ∈ s.claimsLeft o t := fun c mem a target other => by
    refine State.mem_claimsLeft.2 ⟨mem, fun conflict => ?_, fun folded => ?_⟩
    · obtain ⟨-, -, same | ⟨n, -, space⟩ | ⟨n, -, load⟩⟩ := conflict
      · exact other (same.symm.trans target)
      · rw [target] at space; cases space
      · rw [target] at load; cases load
    · obtain ⟨-, -, n, -, load⟩ := folded
      rw [target] at load; cases load
  obtain ⟨rigged, quiet, hold⟩ := law
  have told : ∀ claims, (s.setClaims claims).Rigged := fun _ => rigged.congr rfl (.of_loads rfl) (fun _ => rfl) fun _ => Iff.rfl
  have preempted : Drives (s.setClaims (s.claims.filter fun c => !(s.conflicts o t).contains c)) (s.preempt o t) := by
    simp only [State.preempt]
    split
    · split
      · exact (told _).refl
      · exact (told _).claimEnded _ (by decide)
    · exact (told _).refl
  rw [State.makeClaim_eq]
  refine ⟨preempted.rigged.congr rfl (.of_loads rfl) (fun _ => rfl) fun _ => Iff.rfl,
    fun p e present => preempted.quiet (fun p e present => quiet p e present) p e present, fun a on => ?_⟩
  by_cases own : t = .axis a
  · exact ⟨_, List.mem_append_right _ (List.mem_singleton_self _), own⟩
  · obtain ⟨c, mem, target⟩ := hold a (preempted.driven a on)
    exact ⟨c, List.mem_append_left _ (kept c mem a target own), target⟩

theorem State.decideClaim_steers (s : State) (o : Origin) (t : ClaimTarget) (k : ClaimKind) (lease : Nat) :
    Steers s (s.decideClaim o t k lease).2 := by
  simp only [State.decideClaim]
  split_ifs
  · exact .refl s
  · exact s.renewClaim_steers o t lease
  · exact .refl s
  · exact .refl s
  · exact .refl s
  · exact s.makeClaim_steers o t lease

theorem State.decideRenew_steers (s : State) (o : Origin) (t : ClaimTarget) (lease : Nat) :
    Steers s (s.decideRenew o t lease).2 := by
  rw [State.decideRenew]
  split
  · exact s.renewClaim_steers o t lease
  · exact .refl s

theorem State.decideWriteStation_steers (s : State) (f : StationFields) : Steers s (s.decideWriteStation f).2 := by
  rw [State.decideWriteStation]
  split
  · exact .refl s
  · rename_i p e _
    set w : State := { s with stations := s.stations.set p e } with hw
    have each : ∀ {lost : List Claim} {s : State}, s.Rigged → ∀ a, Drives s (s.tellIfLost lost a) := fun h a => by
      rw [State.tellIfLost]
      split
      · exact h.claimEnded a (by decide)
      · exact h.refl
    refine .after (t := w) ⟨rfl, rfl, rfl, rfl, rfl⟩ fun _ law => law.retires
      (kept := s.claims.filter fun c => !s.claimLost w (placeOrigin p) c) (fun h => h.foldl each allAxes) ?_
    intro c mem gone a target
    have lost : s.claimLost w (placeOrigin p) c = true := by
      by_contra stays
      exact gone (List.mem_filter.2 ⟨mem, by simpa using stays⟩)
    have h : (w.setClaims (s.claims.filter fun c => !s.claimLost w (placeOrigin p) c)).Rigged :=
      law.rigged.congr rfl (.of_loads rfl) (fun _ => rfl) fun _ => Iff.rfl
    refine h.foldl_idle (P := fun a => ∃ c ∈ s.claims.filter (fun c => s.claimLost w (placeOrigin p) c), c.target = .axis a)
      each (fun u b reached => ?_) (allAxes_complete a) ⟨c, List.mem_filter.2 ⟨mem, lost⟩, target⟩
    obtain ⟨x, here, at_b⟩ := reached
    have told : ((s.claims.filter fun c => s.claimLost w (placeOrigin p) c).any fun c => c.target == .axis b) = true :=
      List.any_eq_true.2 ⟨x, here, beq_iff_eq.2 at_b⟩
    have eq : u.tellIfLost (s.claims.filter fun c => s.claimLost w (placeOrigin p) c) b = u.claimEnded b .preEmpted := if_pos told
    rw [← hw, eq]
    exact u.claimEnded_idle b _

theorem State.haltPart_steers (s : State) : Steers s s.haltPart := fun _ law => by
  have halted : Drives s (allAxes.foldl State.axisHalt s) := law.rigged.foldl (fun h a => h.axisHalt a) allAxes
  have idle : ∀ a, ((allAxes.foldl State.axisHalt s).axis a).driven = false := fun a =>
    law.rigged.foldl_idle (P := fun _ => True) (fun h a => h.axisHalt a) (fun s a _ => s.axisHalt_idle a) (allAxes_complete a)
      trivial
  rw [State.haltPart]
  generalize allAxes.foldl State.axisHalt s = w at halted idle
  refine ⟨halted.rigged.congr rfl (.of_loads rfl) (fun _ => rfl) fun _ => Iff.rfl,
    fun p e present => halted.quiet law.quiet p e present, fun a on => ?_⟩
  exact absurd on (Bool.eq_false_iff.1 (idle a))

end Sys2Proof.Machine

namespace Sys2Proof.Machine

/-! ### Levels, scenes and the budget limit -/

section
variable (s : State)

theorem applyEntries_steers (skip : State → LoadNo → Bool) (fade : Nat) (es : List (LoadNo × Nat)) (k : Tally) :
    Steers s (applyEntries skip fade es k s).2 :=
  .of fun h => h.loadRun (applyEntries_run skip fade es k s) (applyEntries_sameForced skip fade es k s)

theorem State.setLevels_steers (o : Origin) (t : Target) (level fade : Nat) : Steers s (s.setLevels o t level fade).2 := by
  cases t with
  | load n =>
    simp only [State.setLevels]
    split
    · exact .refl s
    · exact applyEntries_steers s _ _ _ _
  | _ =>
    simp only [State.setLevels]
    split
    · exact .refl s
    · exact applyEntries_steers s _ _ _ _

theorem State.recall_steers (o : Origin) (v : SceneNo) (fade : Nat) : Steers s (s.recall o v fade).2 := by
  simp only [State.recall]
  split
  · exact .refl s
  · split
    · exact applyEntries_steers s _ _ _ _
    · exact (applyEntries_steers s _ _ _ _).then fun h => h.same ⟨rfl, rfl, rfl, rfl, rfl⟩

theorem State.returnScene_steers (o : Origin) (p : SpaceNo) (fade : Nat) : Steers s (s.returnScene o p fade).2 := by
  rw [State.returnScene]
  split
  · exact .refl s
  · rename_i f rest _
    exact .after (t := s.setReturnStack p rest) ⟨rfl, rfl, rfl, rfl, rfl⟩ (applyEntries_steers _ _ fade f Tally.zero)

theorem State.decideWriteScene_steers (v : SceneNo) (f : SceneFields) : Steers s (s.decideWriteScene v f).2 := by
  rw [State.decideWriteScene]
  split
  · exact .refl s
  · split
    · exact .refl s
    · exact Untouched.steers ⟨rfl, rfl, rfl, rfl, rfl⟩

theorem State.decideSetBudget_steers (v : Nat) : Steers s (s.decideSetBudget v).2 := by
  rw [State.decideSetBudget]
  split
  · exact .refl s
  · exact .of fun h => h.applyBudget v

end

end Sys2Proof.Machine

namespace Sys2Proof.Machine

/-! ### Resets and the clock -/

theorem State.Lawful.axled {s : State} (law : s.Lawful) : s.Axled :=
  ⟨⟨law.force.1, law.force.2.2, fun a => ⟨law.lockout a, law.range a, law.interlock.2 a, law.sounding a⟩⟩, law.interlock.1,
    law.hold⟩

/-- After a warm reset an axis is locked out where it was, and else PARKED at rest (R126). -/
theorem AxisRec.Fit.warm {x : AxisRec} {ch ch' : Channel} (h : x.Fit ch) (silent : ch'.state ≠ .sounding) : x.warm.Fit ch' := by
  have state : x.warm.state = if x.state = .lockout then .lockout else .parked := rfl
  have warn : x.warm.state ≠ .warn := by rw [state]; split <;> decide
  refine h.out rfl h.position (Nat.zero_le _) (Nat.zero_le _) warn ?_ silent
  by_cases lockout : x.state = .lockout
  · have same : x.warm.endReason = x.endReason := by simp only [AxisRec.warm, lockout]
    simp only [AxisRec.LockoutSound, state, same, lockout, if_true, true_iff]
    exact ⟨h.lockout.1, h.lockout.2.1 lockout⟩
  · obtain ⟨count, reason⟩ := h.lockout.out lockout
    refine AxisRec.lockoutSound_of (by rw [state, if_neg lockout]; decide) count ?_
    simp only [AxisRec.warm]
    split
    case h_5 => exact reason
    case h_6 => exact reason
    all_goals decide

/-- After a warm reset no axis moves, every channel is silent and no load is forced (R45, R126, R168). -/
theorem State.warmReset_steers (s : State) (cause : WarmCause) (persists : Bool) : Steers s (s.warmReset cause persists) := by
  intro _ law
  have eq := s.warmReset_eq cause persists
  set w := s.warmReset cause persists
  have load : ∀ n, w.load n = (s.load n).warm := fun n => (congrArg (fun t : State => t.load n) eq).trans (get_mapTable _ _ n)
  have axis : ∀ a, w.axis a = (s.axis a).warm := fun a => (congrArg (fun t : State => t.axis a) eq).trans (get_mapTable _ _ a)
  have channel : ∀ a, w.channel a = (s.channel a).warm := fun a =>
    (congrArg (fun t : State => t.channel a) eq).trans (get_mapTable _ _ a)
  have state : ∀ a, (w.axis a).state = .lockout ∨ (w.axis a).state = .parked := fun a => by
    rw [axis]
    exact (ite_eq_or_eq _ _ _)
  refine ⟨⟨fun n => ?_, fun a n => ?_, fun a => ?_⟩, fun p e _ => ?_, fun a on => ?_⟩
  · rw [load]
    refine iff_of_false nofun fun ⟨a, moving, _⟩ => ?_
    rcases state a with e | e <;> rw [AxisRec.inMotion, e] at moving <;> cases moving
  · rw [axis, load]
    exact law.rigged.courtesy a n
  · rw [axis, channel]
    exact (law.rigged.fit a).warm (by rw [Channel.warm_eq]; nofun)
  · have still : (w.axis e.subject).movingDirection = none := by
      rcases state e.subject with e | e <;> rw [AxisRec.movingDirection, e]
    rw [State.entryStops, still]
  · rcases state a with e | e <;> rw [AxisRec.driven, e] at on <;> cases on

/-- A millisecond changes timers alone. -/
theorem State.tick_steers (s : State) : Steers s s.tick := by
  intro _ law
  have load : ∀ n, s.tick.load n = (s.load n).tick := fun n => get_mapTable _ _ n
  have axis : ∀ a, s.tick.axis a = (s.axis a).tick := fun a => get_mapTable _ _ a
  have channel : ∀ a, s.tick.channel a = (s.channel a).tick := fun a => get_mapTable _ _ a
  have calmer : Calmer s s.tick := fun a => by rw [axis]; exact ⟨rfl, rfl, id, .inl rfl⟩
  obtain ⟨⟨forced, courtesy, fit⟩, quiet, hold⟩ := law
  refine ⟨⟨fun n => ?_, fun a n => ?_, fun a => ?_⟩, calmer.quiet rfl quiet, fun a on => ?_⟩
  · simp only [State.Forces, load, axis]; exact forced n
  · rw [load, axis]; exact courtesy a n
  · rw [axis, channel]
    obtain ⟨lockout, range, warned, sounding⟩ := fit a
    exact ⟨lockout, range, warned, sounding⟩
  · rw [axis] at on
    obtain ⟨c, mem, target⟩ := hold a on
    exact ⟨_, List.mem_map_of_mem mem, target⟩

theorem State.Rigged.settleOver {s : State} (h : s.Rigged) : Drives s s.settleOver := by
  rcases s.settleOver_cases with ⟨_, e⟩ | ⟨k, _, e⟩ <;> rw [e]
  · exact h.refl
  have begun : Drives s s.begun := h.same ⟨rfl, rfl, rfl, rfl, rfl⟩
  cases k with
  | powerOn => exact begun
  | warm =>
    rw [State.endSettle_warm]
    exact begun.trans
      (begun.rigged.foldl (fun {t} h n => h.loadRun (t.fadeInLoad_run n) (t.fadeInLoad_sameForced n)) allLoads)

/-! ### The Dispatcher -/

theorem State.endReceipt_untouched (s : State) (o : Origin) : Untouched s (s.endReceipt o) :=
  ⟨s.endReceipt_axes o, s.endReceipt_channels o, s.endReceipt_interlocks o, s.endReceipt_claims o, s.endReceipt_loads o⟩

theorem State.driveOutputs_untouched (s : State) : Untouched s s.driveOutputs := ⟨rfl, rfl, rfl, rfl, rfl⟩

theorem State.answered_untouched (s : State) (o : Origin) (kind : Byte) (b : ReplyBody) : Untouched s (s.answered o kind b) := by
  rw [State.answered, State.postReply]
  split <;> exact ⟨rfl, rfl, rfl, rfl, rfl⟩

section
variable {α : Type} {k : ReqKind} {o : Origin} {s t : State}

/-- An owner that is reached is handed the value read; a refusal before it changes no record (R8). -/
theorem decideBody_steers {parsed : Option α} {owner : α → State → Decision}
    (owned : ∀ x s, parsed = some x → Steers s (owner x s).2) (s : State) : Steers s (decideBody k o parsed owner s).2 := by
  cases admitted : s.admission o with
  | some c => rw [decideBody_refused admitted]; exact .refl s
  | none =>
    cases screened : s.screen k o parsed.isSome with
    | some c => rw [decideBody_screened admitted screened]; exact .refl s
    | none =>
      obtain ⟨x, read, e⟩ := decideBody_owned (owner := owner) admitted screened
      rw [e]
      exact owned x s read

theorem serve_steers {kind : Byte} {body : List Byte} {f : State → Decision} (decided : ∀ r, Steers r (f r).2)
    (run : serve o kind body f s = .next t) : Steers s t := by
  have ended := s.endReceipt_untouched o
  by_cases h : body.length ≤ 60 ∧ s.hasRoom o = true
  · rw [serve_decided h.2 h.1] at run
    cases run
    exact .after ended ((decided _).then fun rigged => rigged.same (State.answered_untouched _ _ _ _))
  · have dropped : s.hasRoom o = false ∨ 60 < body.length := by
      rcases Bool.eq_false_or_eq_true (s.hasRoom o) with room | none
      · exact .inr (by by_contra fits; exact h ⟨by omega, room⟩)
      · exact .inl none
    rw [serve_dropped dropped] at run
    cases run
    exact ended.steers

theorem targeted_steers {body : List Byte} {parsed : Option (RawTarget × α)} {owner : Target → α → State → Decision}
    (run : serve o k.code body (decideTarget k o parsed owner) s = .next t)
    (owned : ∀ t x s, (∃ r, parsed = some (r, x)) → Steers s (owner t x s).2) : Steers s t := by
  refine serve_steers (decideBody_steers fun x s read => ?_) run
  split
  · exact .refl s
  · exact owned _ _ s ⟨x.1, read⟩

end

/-- Every request keeps the laws of axes, by its owner. -/
theorem request_steers {s t : State} (k : ReqKind) (o : Origin) (body : List Byte) (run : execRequest k o body s = .next t) :
    Steers s t := by
  cases k with
  | query =>
    refine targeted_steers run fun t _ s _ => ?_
    rw [State.viewOf_same]; exact .refl s
  | setLevel => exact targeted_steers run fun t x s _ => s.setLevels_steers o t x.1 x.2
  | recallScene =>
    refine targeted_steers run fun t fade s _ => ?_
    cases t with
    | scene v => exact s.recall_steers o v fade
    | _ => exact .refl s
  | returnScene =>
    refine targeted_steers run fun t fade s _ => ?_
    cases t with
    | space p => exact s.returnScene_steers o p fade
    | _ => exact .refl s
  | claim =>
    refine targeted_steers run fun t x s _ => ?_
    cases claimTargetOf t with
    | some ct => exact s.decideClaim_steers o ct x.1 x.2
    | none => exact .refl s
  | renew =>
    refine targeted_steers run fun t lease s _ => ?_
    cases claimTargetOf t with
    | some ct => exact s.decideRenew_steers o ct lease
    | none => exact .refl s
  | release =>
    refine targeted_steers run fun t _ s _ => ?_
    cases claimTargetOf t with
    | some ct => exact s.decideRelease_steers o ct
    | none => exact .refl s
  | move =>
    refine targeted_steers run fun t x s _ => ?_
    cases t with
    | axis a => exact s.decideMove_steers o a x.1 x.2
    | _ => exact .refl s
  | stop =>
    refine targeted_steers run fun t _ s _ => ?_
    cases t with
    | axis a => exact .of fun h => h.stopAxis a
    | _ => exact .refl s
  | writeStation => exact serve_steers (decideBody_steers fun f s _ => s.decideWriteStation_steers f) run
  | writeLoad =>
    refine targeted_steers run fun t f s _ => ?_
    cases t with
    | load n => exact s.decideWriteLoad_steers n f
    | _ => exact .refl s
  | writeAxis =>
    refine targeted_steers run fun t f s ⟨r, read⟩ => ?_
    cases t with
    | axis a => exact s.decideWriteAxis_steers a (readWriteAxis_runSpeed read)
    | _ => exact .refl s
  | writeInterlock => exact serve_steers (decideBody_steers fun f s _ => s.decideWriteInterlock_steers f) run
  | writeSignal =>
    refine targeted_steers run fun t p s _ => ?_
    cases t with
    | axis a => exact .of fun h => h.decideWriteSignal a p
    | _ => exact .refl s
  | takeScene | giveScene =>
    refine targeted_steers run fun t _ s _ => ?_
    cases t with
    | scene v => exact Untouched.steers ⟨rfl, rfl, rfl, rfl, rfl⟩
    | _ => exact .refl s
  | writeScene =>
    refine targeted_steers run fun t f s _ => ?_
    cases t with
    | scene v => exact s.decideWriteScene_steers v f
    | _ => exact .refl s
  | setBudget => exact serve_steers (decideBody_steers fun v s _ => s.decideSetBudget_steers v) run
  | clearLockout =>
    refine targeted_steers run fun t _ s _ => ?_
    cases t with
    | axis a => exact .of fun h => h.clearLockout a
    | _ => exact .refl s
  | start => exact serve_steers (decideBody_steers fun _ s _ => Untouched.steers ⟨rfl, rfl, rfl, rfl, rfl⟩) run
  | halt => exact serve_steers (decideBody_steers fun _ s _ => s.haltPart_steers) run
  | readNotice => exact serve_steers (decideBody_steers fun _ s _ => Untouched.steers ⟨rfl, rfl, rfl, rfl, rfl⟩) run

end Sys2Proof.Machine

namespace Sys2Proof.Machine

theorem unknownKind_steers {s t : State} {o : Origin} {kind : Byte} {body : List Byte}
    (run : execUnknownKind o kind body s = .next t) : Steers s t := by
  unfold execUnknownKind at run
  split at run
  · exact request_steers _ o body run
  · refine serve_steers (fun r => ?_) run
    obtain ⟨c, e⟩ := refuseKind_eq o r
    rw [e]; exact .refl r

theorem frameDropped_steers {s t : State} {p : Port} {bytes : List Byte} (run : execFrameDropped p bytes s = .next t) :
    Steers s t := by
  unfold execFrameDropped at run
  split at run
  · cases run
    refine Untouched.steers ?_
    cases p <;> exact ⟨rfl, rfl, rfl, rfl, rfl⟩
  · exact unknownKind_steers run

theorem Steers.complete {s u t : State} (h : Steers s u) (run : u.complete = .next t) : Steers s t := by
  cases run
  exact h.then fun rigged => rigged.same u.driveOutputs_untouched

/-- Every command keeps the laws of axes. -/
theorem exec_steers {s t : State} (i : Instr) (run : exec i s = .next t) : Steers s t := by
  cases i with
  | query o b => exact request_steers .query o b run
  | setLevel o b => exact request_steers .setLevel o b run
  | recallScene o b => exact request_steers .recallScene o b run
  | returnScene o b => exact request_steers .returnScene o b run
  | claim o b => exact request_steers .claim o b run
  | renew o b => exact request_steers .renew o b run
  | release o b => exact request_steers .release o b run
  | move o b => exact request_steers .move o b run
  | stop o b => exact request_steers .stop o b run
  | writeStation o b => exact request_steers .writeStation o b run
  | writeLoad o b => exact request_steers .writeLoad o b run
  | writeAxis o b => exact request_steers .writeAxis o b run
  | writeInterlock o b => exact request_steers .writeInterlock o b run
  | writeSignal o b => exact request_steers .writeSignal o b run
  | takeScene o b => exact request_steers .takeScene o b run
  | writeScene o b => exact request_steers .writeScene o b run
  | giveScene o b => exact request_steers .giveScene o b run
  | setBudget o b => exact request_steers .setBudget o b run
  | clearLockout o b => exact request_steers .clearLockout o b run
  | start o b => exact request_steers .start o b run
  | halt o b => exact request_steers .halt o b run
  | readNotice o b => exact request_steers .readNotice o b run
  | unknownKind o kind b => exact unknownKind_steers run
  | frameDropped p bytes => exact frameDropped_steers run
  | replySent =>
    refine Steers.complete (Untouched.steers ?_) run
    rw [State.sendReply]; split <;> exact ⟨rfl, rfl, rfl, rfl, rfl⟩
  | replyRead =>
    refine Steers.complete (Untouched.steers ?_) run
    rw [State.readReply]; split <;> exact ⟨rfl, rfl, rfl, rfl, rfl⟩
  | leaseExpiry x => exact (s.expireLease_steers x).complete run
  | fadeStep n => exact (Steers.of fun h => h.loadRun (s.fadeStep_run n) (s.fadeStep_sameForced n)).complete run
  | outputPeriodEnd n =>
    refine Steers.complete (Untouched.steers ?_) run
    rw [State.endPeriod]; split <;> exact ⟨rfl, rfl, rfl, rfl, rfl⟩
  | rampExpiry a => exact (Steers.of fun h => h.ramp a).complete run
  | brakeSettleExpiry a => exact (Steers.of fun h => h.brakeSettled a).complete run
  | confirmWindowExpiry a => exact (Steers.of fun h => h.confirmWindow a).complete run
  | pulseWatchExpiry a => exact (Steers.of fun h => h.pulseWatchEnd a).complete run
  | overCurrentExpiry a => exact (Steers.of fun h => h.overCurrentEnd a).complete run
  | restExpiry a => exact (s.restEnd_steers a).complete run
  | signalMarkEnd a => exact (Steers.of fun h => h.markEnd a).complete run
  | signalCycleEnd a => exact (Steers.of fun h => h.cycleEnd a).complete run
  | settleExpiry => exact (Steers.of fun h => h.settleOver).complete run
  | positionPulse a => exact (Steers.of fun h => h.pulse a).complete run
  | homeActive a => exact (Steers.of fun h => h.homeFound a).complete run
  | homeInactive a => exact (Steers.of fun h => h.setAxisIn a _).complete run
  | safetyEdgeActive a => exact (Steers.of fun h => h.edgePressed a).complete run
  | safetyEdgeInactive a => exact (Steers.of fun h => h.setAxisIn a _).complete run
  | currentRise a v => exact (Steers.of fun h => h.setCurrent a v.toNat).complete run
  | currentFall a v => exact (Steers.of fun h => h.setCurrent a v.toNat).complete run
  | powerOnReset low => exact Steers.complete (fun _ _ => (s.powerOn_lawful low).axled) run
  | warmReset cause persists => exact (s.warmReset_steers cause persists).complete run
  | resetSourceEnd source =>
    refine Steers.complete (Untouched.steers ?_) run
    rw [State.startSettle]
    cases source <;> split <;> exact ⟨rfl, rfl, rfl, rfl, rfl⟩

theorem step_steers {s t : State} (run : step s = .next t) : Steers s t := by
  have queued : ∀ (queue : List Instr) (tie : Nat), Untouched s { s with pending := queue, tieCount := tie } :=
    fun _ _ => ⟨rfl, rfl, rfl, rfl, rfl⟩
  unfold step State.takeStep at run
  split at run
  · exact .after (queued _ s.tieCount) (exec_steers _ run)
  · unfold State.idle at run
    split at run
    · cases run; exact s.tick_steers
    · exact exec_steers _ run
    · exact .after (queued s.pending _) (exec_steers _ run)

/-! ## The outputs -/

theorem State.outputLaw_iff {s : State} : s.OutputLaw ↔ s.notices = s.levelNotices
    ∧ s.axisPins = mapTable (fun ax => ax.pins s.inSettle) s.axes
    ∧ s.signalPins = mapTable (fun ch => ch.pins s.inSettle) s.channels ∧ s.noticeLine = s.noticeLevel := by
  rw [State.OutputLaw, State.driveOutputs]
  refine ⟨fun h => ?_, fun ⟨notices, axes, signals, line⟩ => ?_⟩
  · exact ⟨(congrArg State.notices h).symm, (congrArg State.axisPins h).symm, (congrArg State.signalPins h).symm,
      (congrArg State.noticeLine h).symm⟩
  · rw [← notices, ← axes, ← signals, ← line]

/-- Every event ends with the outputs brought to the records (R121, R169, R181). -/
theorem State.complete_outputLaw {u t : State} (run : u.complete = .next t) : t.OutputLaw := by
  cases run
  exact u.driveOutputs_driveOutputs

theorem State.OutputLaw.endReceipt {s : State} (law : s.OutputLaw) (o : Origin) : (s.endReceipt o).OutputLaw := by
  rw [State.outputLaw_iff] at law ⊢
  rw [State.endReceipt]
  split <;> exact law

theorem serve_outputLaw {o : Origin} {kind : Byte} {body : List Byte} {f : State → Decision} {s t : State} (law : s.OutputLaw)
    (run : serve o kind body f s = .next t) : t.OutputLaw := by
  rw [serve] at run
  dsimp only at run
  split at run
  · exact State.complete_outputLaw run
  · cases run; exact law.endReceipt o

theorem request_outputLaw {s t : State} (law : s.OutputLaw) (k : ReqKind) (o : Origin) (body : List Byte)
    (run : execRequest k o body s = .next t) : t.OutputLaw := by
  obtain ⟨_, _, _, -, served, -⟩ := exec_request k o body
  rw [← exec_eq_execRequest, served] at run
  exact serve_outputLaw law run

theorem unknownKind_outputLaw {s t : State} (law : s.OutputLaw) {o : Origin} {kind : Byte} {body : List Byte}
    (run : execUnknownKind o kind body s = .next t) : t.OutputLaw := by
  unfold execUnknownKind at run
  split at run
  · exact request_outputLaw law _ o body run
  · exact serve_outputLaw law run

theorem frameDropped_outputLaw {s t : State} (law : s.OutputLaw) {p : Port} {bytes : List Byte}
    (run : execFrameDropped p bytes s = .next t) : t.OutputLaw := by
  unfold execFrameDropped at run
  split at run
  · cases run
    rw [State.outputLaw_iff] at law ⊢
    cases p <;> exact law
  · exact unknownKind_outputLaw law run

theorem exec_outputLaw {s t : State} (law : s.OutputLaw) (i : Instr) (run : exec i s = .next t) : t.OutputLaw := by
  cases i with
  | query o b => exact request_outputLaw law .query o b run
  | setLevel o b => exact request_outputLaw law .setLevel o b run
  | recallScene o b => exact request_outputLaw law .recallScene o b run
  | returnScene o b => exact request_outputLaw law .returnScene o b run
  | claim o b => exact request_outputLaw law .claim o b run
  | renew o b => exact request_outputLaw law .renew o b run
  | release o b => exact request_outputLaw law .release o b run
  | move o b => exact request_outputLaw law .move o b run
  | stop o b => exact request_outputLaw law .stop o b run
  | writeStation o b => exact request_outputLaw law .writeStation o b run
  | writeLoad o b => exact request_outputLaw law .writeLoad o b run
  | writeAxis o b => exact request_outputLaw law .writeAxis o b run
  | writeInterlock o b => exact request_outputLaw law .writeInterlock o b run
  | writeSignal o b => exact request_outputLaw law .writeSignal o b run
  | takeScene o b => exact request_outputLaw law .takeScene o b run
  | writeScene o b => exact request_outputLaw law .writeScene o b run
  | giveScene o b => exact request_outputLaw law .giveScene o b run
  | setBudget o b => exact request_outputLaw law .setBudget o b run
  | clearLockout o b => exact request_outputLaw law .clearLockout o b run
  | start o b => exact request_outputLaw law .start o b run
  | halt o b => exact request_outputLaw law .halt o b run
  | readNotice o b => exact request_outputLaw law .readNotice o b run
  | unknownKind o kind b => exact unknownKind_outputLaw law run
  | frameDropped p bytes => exact frameDropped_outputLaw law run
  | _ => exact State.complete_outputLaw run

/-- The outputs follow no timer but the settle interval itself. -/
theorem State.OutputLaw.tick {s : State} (law : s.OutputLaw) : s.tick.OutputLaw := by
  rw [State.outputLaw_iff] at law ⊢
  obtain ⟨notices, axes, signals, line⟩ := law
  have settle : s.tick.inSettle = s.inSettle := Option.isSome_map
  have lockout : s.tick.anyLockout = s.anyLockout := by
    simp only [State.anyLockout, State.tick, get_mapTable, AxisRec.tick]
  have level : s.tick.levelNotices = s.levelNotices := by
    simp only [State.levelNotices, lockout]
    rfl
  refine ⟨?_, ?_, ?_, ?_⟩
  · rw [level]; exact notices
  · refine axes.trans (vector_ext_get fun a => ?_)
    have axis : s.tick.axes.get a = (s.axes.get a).tick := get_mapTable _ _ a
    rw [settle, get_mapTable, get_mapTable, axis]
    rfl
  · refine signals.trans (vector_ext_get fun a => ?_)
    have channel : s.tick.channels.get a = (s.channels.get a).tick := get_mapTable _ _ a
    rw [settle, get_mapTable, get_mapTable, channel]
    rfl
  · rw [State.noticeLevel, level, settle]; exact line

theorem step_outputLaw {s t : State} (law : s.OutputLaw) (run : step s = .next t) : t.OutputLaw := by
  have queued : ∀ (queue : List Instr) (tie : Nat), ({ s with pending := queue, tieCount := tie } : State).OutputLaw := by
    intro queue tie
    rw [State.outputLaw_iff] at law ⊢
    exact law
  unfold step State.takeStep at run
  split at run
  · exact exec_outputLaw (queued _ s.tieCount) _ run
  · unfold State.idle at run
    split at run
    · cases run; exact law.tick
    · exact exec_outputLaw law _ run
    · exact exec_outputLaw (queued s.pending _) _ run

/-- Settles O60: each event keeps the laws of axes by its operations (`Steers`), and its outputs are driven as it ends; the
levels of forced loads follow from the laws of loads, which the step upholds as well. -/
theorem everyStepKeepsAxesAndOutputs : Obligations.every_step_keeps_axes_and_outputs := by
  intro s t law run
  obtain ⟨⟨forced, courtesy, fit⟩, quiet, hold⟩ := step_steers run law.books.loads law.axled
  obtain ⟨books, -⟩ := step_upholds run law.books law.budget
  refine ⟨⟨forced, fun n on => ?_, courtesy⟩, hold, fun a => (fit a).lockout, ⟨quiet, fun a => (fit a).warned⟩,
    fun a => (fit a).sounding, step_outputLaw law.output run, fun a => (fit a).range⟩
  obtain ⟨a, forces⟩ := (forced n).1 on
  exact (books.loads n).full_of_forced on (courtesy a n forces.2)

end Sys2Proof.Machine

namespace Sys2Proof.Machine

/-! ## WRITE_AXIS -/

/-- The values R123 lists are those its second check refuses. -/
theorem State.axisFieldsOk_eq_false {s : State} {f : AxisFields} : s.axisFieldsOk f = false
    ↔ 1500 < f.config.demand ∨ (95 < f.courtesy ∧ f.courtesy ≠ 255)
      ∨ (∃ n, f.config.courtesy = some n ∧ (s.load n).kind = .none)
      ∨ f.config.runSpeed = 0 ∨ f.config.creepSpeed = 0 ∨ f.config.accelStep = 0 ∨ f.config.decelStep = 0
      ∨ f.config.runSpeed < f.config.creepSpeed ∨ 1023 < f.config.approach ∨ 16383 < f.config.softHigh
      ∨ f.config.softHigh ≤ f.config.softLow ∨ f.config.stallWindow < 10 ∨ 200 < f.config.stallWindow
      ∨ f.config.overCurrent ≤ f.config.noLoad ∨ f.config.warnCycles = 0 ∨ 15 < f.config.warnCycles := by
  have byte : 96 ≤ f.courtesy ↔ 95 < f.courtesy := Iff.rfl
  cases named : f.config.courtesy <;>
    simp only [State.axisFieldsOk, named, Bool.and_eq_false_iff, Bool.or_eq_false_iff, decide_eq_false_iff_not, Nat.not_le,
      Nat.not_lt, Nat.le_zero, or_assoc, byte, bne_eq_false_iff_eq, ne_eq, Option.some.injEq, exists_eq_left', reduceCtorEq,
      false_and, exists_false, Bool.true_eq_false]

/-- A WRITE_AXIS that is read fits a frame (Table 1-3). -/
theorem readWriteAxis_fits {body : List Byte} {x : RawTarget} {f : AxisFields} (read : readWriteAxis body = some (x, f)) :
    body.length ≤ 60 := by
  unfold readWriteAxis at read
  split at read
  · simp
  · cases read

/-- A WRITE_AXIS whose body is read is decided by the Axis Controller (R123). -/
theorem exec_writeAxis {s : State} {o : Origin} {a : AxisNo} {body : List Byte} {f : AxisFields} (takes : s.Takes .writeAxis o)
    (read : readWriteAxis body = some ((Target.axis a).raw, f)) :
    exec (.writeAxis o body) s
      = .next (((s.endReceipt o).decideWriteAxis a f).2.answered o ReqKind.writeAxis.code
          ((s.endReceipt o).decideWriteAxis a f).1) := by
  have management : o = 0 := takes.origin rfl
  have permits : s.permitsAxis o a = true := by simp [State.permitsAxis, management]
  show execWriteAxis o body s = _
  rw [execWriteAxis, read, serve_targeted takes (readWriteAxis_fits read) (Target.raw_names (t := .axis a) nofun)
    (by simp [Target.raw, ReqKind.classes]) rfl permits]

/-- Settles O37: an axis in motion or at rest is BUSY, and the values refused are those of `axisFieldsOk_eq_false`. -/
theorem writeAxisWritesTheConfiguration : Obligations.write_axis_writes_the_configuration := by
  intro s o a body f takes read
  have decided := exec_writeAxis takes read
  have values : (s.endReceipt o).axisFieldsOk f = false ↔ _ := State.axisFieldsOk_eq_false
  simp only [State.endReceipt_load] at values
  rw [State.decideWriteAxis, State.endReceipt_axis] at decided
  split
  · rename_i out
    have idle : (s.axis a).engaged = false := by rcases out with state | state <;> simp [AxisRec.engaged, state]
    rw [idle, if_neg nofun] at decided
    refine ⟨fun bad => ?_, fun good => ?_⟩
    · rw [if_pos (values.2 bad)] at decided; exact decided
    · rw [if_neg (mt values.1 good)] at decided; exact decided
  · rename_i out
    have busy : (s.axis a).engaged = true := by
      cases state : (s.axis a).state <;> simp [AxisRec.engaged, state] at out ⊢
    rw [if_pos busy] at decided
    exact decided

end Sys2Proof.Machine

namespace Sys2Proof.Machine

/-! ## STOP -/

/-- A STOP that passes the checks of its target acts on the axis and is DONE (R139). -/
theorem exec_stop {s : State} {o : Origin} {a : AxisNo} (takes : s.Takes .stop o) (permits : s.permitsAxis o a = true) :
    exec (.stop o (Target.axis a).bytes) s
      = .next (((s.endReceipt o).stopAxis a).answered o ReqKind.stop.code (.plain .done)) := by
  have named := Target.raw_names (t := .axis a) nofun
  show execStop o _ s = _
  rw [execStop, Target.bytes, readTargetBody_bytes named.1,
    serve_targeted takes (by simp [targetBytes, bytesOf]) named (by simp [Target.raw, ReqKind.classes]) rfl permits]
  rfl

/-- A decelerating stop keeps the HELD DEMAND of its axis (R110, R136). -/
theorem State.stopMotion_held (s : State) (a : AxisNo) (er : EndReason) : (s.stopMotion a er).held a = s.held a := by
  have passed : RecordsPassed (s.stopCore a er) (s.stopMotion a er) := State.tellInterlocks_recordsPassed _ a
  refine passed.held (a := a) ?_
  rw [State.stopCore_axis, if_pos rfl]
  nofun

/-- Settles O40: by the state of the axis. -/
theorem stopActsByState : Obligations.stop_acts_by_state := by
  intro s o a takes permits r done
  have axis : r.axis a = s.axis a := s.endReceipt_axis o a
  have channel : r.channel a = s.channel a := s.endReceipt_channel o a
  have held : r.held a = s.held a := State.held_congr (s.endReceipt_budget o) a
  have acts : ∀ t, r.stopAxis a = t → done t := fun t e => e ▸ exec_stop takes permits
  unfold State.stopAxis at acts
  rw [axis] at acts
  cases state : (s.axis a).state <;> simp only [state] at acts ⊢
  case warn =>
    have leaves := r.park_leaves a .stopRequest
    rw [axis] at leaves
    have same : SameBudget r s := ⟨(s.endReceipt_loads o).symm, (s.endReceipt_outputs o).symm, (s.endReceipt_budget o).symm,
      (s.endReceipt_settle o).symm, congrArg Notices.shedChange (s.endReceipt_notices o).symm⟩
    have gives : GivesBack a s _ := leaves.gives.congr same (s.endReceipt_axes o).symm (s.endReceipt_interlocks o).symm
    exact ⟨_, acts _ rfl, leaves.frame, leaves.axis, leaves.channel.trans (congrArg _ channel), leaves.held, gives⟩
  case run =>
    have responds := r.stopMotion_responds a .stopRequest (by rw [axis, state])
    refine ⟨_, acts _ rfl, responds.frame, ?_, ?_, (r.stopMotion_held a _).trans held⟩
    · rw [responds.axis, axis]; simp only [AxisRec.claimEndedBy, state]
    · rw [responds.channel, axis, state, if_neg nofun, channel]
  all_goals exact acts _ rfl

end Sys2Proof.Machine

namespace Sys2Proof.Machine

/-! ## An axis that moves, and its normal ends

MOVE in RUN, a position pulse, the home input and the entry to RUN each rewrite the record of one axis, pass its change on and
test the normal ends. Where no entry stops the axis, its record is what the event writes (`Advances`). -/

/-! ### The normal ends (R134) -/

theorem AxisRec.normalEnd_eq_endFound (x : AxisRec) : x.normalEnd false = x.endFound := by
  unfold AxisRec.normalEnd AxisRec.endFound
  cases x.pending with
  | none => cases x.direction <;> simp
  | some p => cases target : p.target <;> cases x.direction <;> simp [target]

/-- The home input ends a retracting run first of all. -/
theorem AxisRec.normalEnd_home (x : AxisRec) :
    x.normalEnd true = if x.direction = .retract then some .home else x.endFound := by
  rw [← AxisRec.normalEnd_eq_endFound]
  by_cases retracts : x.direction = .retract
  · simp [AxisRec.normalEnd, retracts]
  · simp [AxisRec.normalEnd, retracts]

/-- The record of an axis in RUN once a normal end is tested. -/
def AxisRec.endedBy (x : AxisRec) (found : Option EndReason) : AxisRec :=
  match found with | some er => x.stoppedBy er | none => x

/-! ### What the event makes of the part -/

theorem AxisFrame.refl (a : AxisNo) (s : State) : AxisFrame a s s :=
  (Ripples.refl s).axisFrame (.refl s) (fun _ _ => rfl) fun _ _ => rfl

/-- Two events of an axis in turn are one: an axis that an entry stopped is out of WARN and RUN, and is not stopped again. -/
theorem AxisFrame.trans {a : AxisNo} {s t u : State} (h : AxisFrame a s t) (k : AxisFrame a t u) : AxisFrame a s u := by
  refine ⟨h.only.trans k.only, fun n => (k.configs n).trans (h.configs n), fun n => (k.targets n).trans (h.targets n),
    k.available.trans h.available, fun b hb => (h.axes b hb).trans (k.axes b hb), fun b hb => ?_⟩
  rcases h.channels b hb with same | ⟨warn, parked, finished⟩
  · rw [← same]
    rcases k.channels b hb with same' | ⟨warn', parked', finished'⟩
    · exact .inl same'
    · rcases h.axes b hb with kept | ⟨⟨-, parked⟩ | ⟨-, stopping⟩, -⟩
      · rw [kept] at warn'; exact .inr ⟨warn', parked', finished'⟩
      · rw [parked] at warn'; cases warn'
      · rw [stopping] at warn'; cases warn'
  · have kept : u.axis b = t.axis b := by
      rcases k.axes b hb with kept | ⟨⟨warn', -⟩ | ⟨run, -⟩, -⟩
      · exact kept
      · rw [parked] at warn'; cases warn'
      · rw [parked] at run; cases run
    rcases k.channels b hb with same' | ⟨warn', -, -⟩
    · exact .inr ⟨warn, by rw [kept, parked], same'.trans finished⟩
    · rw [parked] at warn'; cases warn'

/-- An event of axis a leaves it with the record y, its channel and its HELD DEMAND as they were, and raises no notice but
SHED_CHANGE. -/
structure Advances (a : AxisNo) (y : AxisRec) (s u : State) : Prop where
  frame : AxisFrame a s u
  axis : u.axis a = y
  channel : u.channel a = s.channel a
  held : u.held a = s.held a
  notices : u.notices = { s.notices with shedChange := u.notices.shedChange }

theorem Advances.refl (a : AxisNo) (s : State) : Advances a (s.axis a) s s := ⟨.refl a s, rfl, rfl, rfl, rfl⟩

theorem Advances.trans {a : AxisNo} {y z : AxisRec} {s t u : State} (h : Advances a y s t) (k : Advances a z t u) :
    Advances a z s u := by
  have notices := k.notices
  rw [h.notices] at notices
  exact ⟨h.frame.trans k.frame, k.axis, k.channel.trans h.channel, k.held.trans h.held, notices⟩

section
variable (s : State) (a : AxisNo)

theorem State.setAxis_advances (x : AxisRec) : Advances a x s (s.setAxis a x) :=
  ⟨(Ripples.refl _).axisFrame (s.setAxis_calm a x) (fun b hb => by rw [State.axis_setAxis, if_neg hb]) fun _ _ => rfl,
    s.axis_setAxis_self a x, rfl, rfl, rfl⟩

/-- A stop out of RUN, its change passed on (R136). -/
theorem State.stopMotion_advances (er : EndReason) (run : (s.axis a).state = .run) :
    Advances a ((s.axis a).stoppedBy er) s (s.stopMotion a er) := by
  have responds := s.stopMotion_responds a er run
  refine ⟨responds.frame, ?_, ?_, s.stopMotion_held a er, responds.notices_kept⟩
  · rw [responds.axis, AxisRec.claimEndedBy, run]
  · rw [responds.channel, run, if_neg nofun]

/-- The normal ends of an axis in RUN are tested. -/
theorem State.testEnds_advances (home : Bool) (run : (s.axis a).state = .run) :
    Advances a ((s.axis a).endedBy ((s.axis a).normalEnd home)) s (s.testEnds a home) := by
  rw [State.testEnds, if_pos run]
  cases (s.axis a).normalEnd home with
  | none => exact .refl a s
  | some er => exact s.stopMotion_advances a er run

end

section
variable {s : State} {a : AxisNo}

/-- Where only entries that watch an axis stop an axis, none stops the axis itself (R160). -/
theorem State.QuietBut.free (but : s.QuietBut a) (entries : s.EntryLaw) : s.Free a := fun p e present own =>
  Bool.eq_false_iff.2 fun now => entries p e present ((but p e present now).trans own.symm)

/-- A change that stops no entry's own subject is passed on, and the axis stands (R165). -/
theorem State.Free.tell_advances (free : s.Free a) : Advances a (s.axis a) s (s.tellInterlocks a) := by
  have ripples := s.tellInterlocks_ripples a
  have records := free.tellInterlocks a
  generalize s.tellInterlocks a = u at ripples records ⊢
  exact ⟨ripples.axisFrame (.refl s) (fun _ _ => rfl) (fun _ _ => rfl), congrArg Prod.fst records,
    congrArg (fun x => x.2.1) records, congrArg (fun x => x.2.2) records, ripples.notices⟩

/-- An axis that moves, if at all, as it did is rewritten and its change passed on. -/
theorem State.QuietBut.tell_advances (but : s.QuietBut a) (entries : s.EntryLaw) {x : AxisRec}
    (moving : x.movingDirection = (s.axis a).movingDirection) : Advances a x s ((s.setAxis a x).tellInterlocks a) := by
  have told := State.Free.tell_advances ((but.setAxis (x := x) (.inl moving)).free entries)
  rw [State.axis_setAxis_self] at told
  exact (s.setAxis_advances a x).trans told

end

end Sys2Proof.Machine

namespace Sys2Proof.Machine

/-! ## The other outcomes of MOVE -/

/-- The entries that block an axis in a direction (R163). -/
theorem State.blocked_iff {s : State} {a : AxisNo} {d : Direction} : s.blocked a d = true
    ↔ ∃ p e, s.interlock p = some e ∧ e.subject = a ∧ s.satisfied e = true
      ∧ (e.direction = .any ∨ e.direction = (match d with | .extend => .extend | .retract => .retract)) := by
  have blocks : ∀ e, s.entryBlocks e a d = true ↔ e.subject = a ∧ s.satisfied e = true
      ∧ (e.direction = .any ∨ e.direction = (match d with | .extend => .extend | .retract => .retract)) := fun e => by
    simp only [State.entryBlocks, Bool.and_eq_true, beq_iff_eq, BlockDir.forbids_iff]
    tauto
  rw [← Bool.not_eq_false, State.blocked_eq_false_iff]
  simp only [← blocks, not_forall, Bool.not_eq_false, exists_prop]

/-- A grant refused is refused to a part whose entry to WARN would be the same (R107). -/
theorem SameEntry.grant_refused {s r : State} (h : SameEntry s r) {a : AxisNo} (refused : s.grant a = none) :
    r.grant a = none := by
  have granted := h.toSameBudget.grant (h.config a)
  rw [refused] at granted
  generalize r.grant a = other at granted
  cases granted
  rfl

/-- The PENDING MOTION of axis a with its target replaced (R130). -/
def AxisRec.retargeted (ax : AxisRec) (p : Pending) (position : Nat) : AxisRec :=
  { ax with pending := some { p with target := ax.recordedTarget position } }

theorem State.replaceTarget_eq {s : State} {a : AxisNo} {p : Pending} (pending : (s.axis a).pending = some p)
    (position : Nat) : s.replaceTarget a position = s.setAxis a ((s.axis a).retargeted p position) := by
  simp only [State.replaceTarget, pending, Option.map_some, AxisRec.retargeted]

section
variable {r : State} {o : Origin} {a : AxisNo} {d : Direction} {position : Nat}

theorem State.decideMove_of_other (other : r.holdsAxis o a = false) : r.decideMove o a d position = r.refuse .notHolder :=
  if_pos other

/-- A MOVE of the holder is decided by the state of the axis (R127). -/
theorem State.decideMove_of_holder (holds : r.holdsAxis o a = true) : r.decideMove o a d position
    = match (r.axis a).state with
      | .lockout => r.refuse .lockedOut
      | .stopping | .rest => r.refuse .busy
      | .warn =>
        if (r.axis a).pending.map (·.direction) = some d then (r.replaceTarget a position).done else r.refuse .busy
      | .run =>
        if (r.axis a).pending.map (·.direction) = some d then ((r.replaceTarget a position).testEnds a false).done
        else r.refuse .busy
      | .parked => r.startMove o a d position :=
  if_neg (by rw [holds]; nofun)

/-- A motion in the other direction is in the way (R127). -/
theorem State.decideMove_turned (holds : r.holdsAxis o a = true) {p : Pending} (pending : (r.axis a).pending = some p)
    (engaged : (r.axis a).state = .warn ∨ (r.axis a).state = .run) (turned : p.direction ≠ d) :
    r.decideMove o a d position = r.refuse .busy := by
  have other : ¬ (r.axis a).pending.map (·.direction) = some d := by rw [pending]; simpa using turned
  rw [State.decideMove_of_holder holds]
  rcases engaged with state | state <;> simp only [state, if_neg other]

/-- A motion in WARN has its target replaced (R127, R130). -/
theorem State.decideMove_warn (holds : r.holdsAxis o a = true) {p : Pending} (pending : (r.axis a).pending = some p)
    (warn : (r.axis a).state = .warn) (same : p.direction = d) :
    r.decideMove o a d position = (r.setAxis a ((r.axis a).retargeted p position)).done := by
  have own : (r.axis a).pending.map (·.direction) = some d := by rw [pending]; simpa using same
  rw [State.decideMove_of_holder holds]
  simp only [warn, if_pos own, State.replaceTarget_eq pending]

/-- A motion in RUN has its target replaced, and its normal ends are tested (R127, R130, R134). -/
theorem State.decideMove_run (holds : r.holdsAxis o a = true) {p : Pending} (pending : (r.axis a).pending = some p)
    (run : (r.axis a).state = .run) (same : p.direction = d) :
    r.decideMove o a d position
      = ((r.setAxis a ((r.axis a).retargeted p position)).testEnds a false).done := by
  have own : (r.axis a).pending.map (·.direction) = some d := by rw [pending]; simpa using same
  rw [State.decideMove_of_holder holds]
  simp only [run, if_pos own, State.replaceTarget_eq pending]

end

/-- A target replaced in RUN may end the run (R134). -/
theorem State.retargeted_ends (r : State) {a : AxisNo} {x : AxisRec} (run : x.state = .run) :
    Advances a (x.endedBy x.endFound) r ((r.setAxis a x).testEnds a false) := by
  have own : (r.setAxis a x).axis a = x := r.axis_setAxis_self a x
  have ends := (r.setAxis a x).testEnds_advances a false (by rw [own, run])
  rw [own, AxisRec.normalEnd_eq_endFound] at ends
  exact (r.setAxis_advances a x).trans ends

theorem State.testEnds_of_none {s : State} {a : AxisNo} (none : (s.axis a).endFound = none) : s.testEnds a false = s := by
  rw [State.testEnds, AxisRec.normalEnd_eq_endFound, none]
  split <;> rfl

/-- Settles O39: the checks of MOVE in turn, by the state of the axis. -/
theorem moveIsRefusedOrRetargets : Obligations.move_is_refused_or_retargets := by
  intro s o a d position hp takes permits law ax answer refused target
  set r := s.endReceipt o with hr
  have same : SameEntry s r := s.endReceipt_sameEntry o
  have axis : r.axis a = ax := s.endReceipt_axis o a
  have held : r.holdsAxis o a = s.holdsAxis o a := s.endReceipt_holdsAxis o o a
  have decided : ∀ c t, r.decideMove o a d position = (.plain c, t) → answer t c := fun c t e => by
    have run := exec_move (d := d) hp takes permits
    rw [← hr, e] at run
    exact run
  refine ⟨fun others => ?_, fun own => ?_, State.blocked_iff⟩
  · have loose : s.holdsAxis o a = false := Bool.eq_false_iff.2 fun holds => by
      obtain ⟨c, mem, target, holder⟩ := (State.holdsAxis_iff law).1 holds
      exact others c mem target holder
    exact decided _ _ (State.decideMove_of_other (held.trans loose))
  have holds : r.holdsAxis o a = true := held.trans ((State.holdsAxis_iff law).2 own)
  have byState := State.decideMove_of_holder (d := d) (position := position) holds
  refine ⟨fun state => ?_, fun state => ?_, fun engaged p pending => ⟨fun turned => ?_, fun along => ⟨fun goes => ?_,
    fun run er found => ?_⟩⟩, fun parked => ⟨fun edge => ?_, fun clear => ⟨fun blocked => ?_, fun free none => ?_⟩⟩⟩
  · rw [axis, state] at byState
    exact decided _ _ byState
  · rw [axis] at byState
    rcases state with state | state <;> rw [state] at byState <;> exact decided _ _ byState
  · exact decided _ _ (State.decideMove_turned holds (by rw [axis, pending]) (by rw [axis]; exact engaged) turned)
  · have pending' : (r.axis a).pending = some p := by rw [axis, pending]
    rcases engaged with warn | run
    · have moved := State.decideMove_warn (position := position) holds pending' (by rw [axis, warn]) along
      rw [axis] at moved
      exact decided _ _ moved
    · have moved := State.decideMove_run (position := position) holds pending' (by rw [axis, run]) along
      have stays : (ax.retargeted p position).endFound = none :=
        goes.resolve_left fun warn => by rw [run] at warn; cases warn
      rw [axis, State.testEnds_of_none (by rw [State.axis_setAxis_self]; exact stays)] at moved
      exact decided _ _ moved
  · have moved := State.decideMove_run (position := position) holds (by rw [axis, pending]) (by rw [axis, run]) along
    have ends := r.retargeted_ends (a := a) (x := ax.retargeted p position) run
    have ended : (ax.retargeted p position).endFound = some er := found
    rw [axis] at moved
    rw [ended] at ends
    exact ⟨_, decided _ _ moved, ends.frame, ends.axis, ends.channel.trans (s.endReceipt_channel o a),
      ends.held.trans (State.held_congr (s.endReceipt_budget o) a)⟩
  all_goals
    rw [axis, parked] at byState
    refine decided _ _ (byState.trans ?_)
    simp only [State.startMove]
  · rw [hr, State.endReceipt_axisIn, if_pos edge]; rfl
  · rw [hr, State.endReceipt_axisIn, clear, if_neg nofun, ← hr, same.blocked, if_pos blocked]; rfl
  · rw [hr, State.endReceipt_axisIn, clear, if_neg nofun, ← hr, same.blocked, free, if_neg nofun, same.grant_refused none]; rfl

end Sys2Proof.Machine

namespace Sys2Proof.Machine

/-! ## A position pulse (R133) -/

theorem exec_positionPulse (s : State) (a : AxisNo) : exec (.positionPulse a) s = .next (s.pulse a).driveOutputs := rfl

theorem AxisRec.counted_eq (x : AxisRec) : x.counted = match x.direction with
    | .extend => if x.position < 16383 then x.position + 1 else x.position
    | .retract => if 0 < x.position then x.position - 1 else 0 := by
  rw [AxisRec.counted]
  cases x.direction with
  | extend => rfl
  | retract => dsimp only; split <;> omega

/-- RUN DISTANCE is counted up to its end, and an armed watch starts afresh (R133, R149). -/
theorem AxisRec.travelled_eq (x : AxisRec) : x.travelled = { x with
    runDistance := if x.runDistance < 65535 then x.runDistance + 1 else 65535
    pulseWatch := if x.monitoring = true ∧ x.pulseWatch ≠ none then some (x.stallWindow * 10) else x.pulseWatch } := by
  have distance : min (x.runDistance + 1) 65535 = if x.runDistance < 65535 then x.runDistance + 1 else 65535 := by
    split <;> omega
  have watch : (if x.monitoring then x.pulseWatch.map (fun _ => x.stallWindow * tenMs) else x.pulseWatch)
      = if x.monitoring = true ∧ x.pulseWatch ≠ none then some (x.stallWindow * 10) else x.pulseWatch := by
    cases x.monitoring <;> cases x.pulseWatch <;> simp [tenMs]
  rw [AxisRec.travelled, distance, watch]

section
variable {s : State} {a : AxisNo}

/-- POSITION takes a value, and the axis stands (R133, R144). -/
theorem State.QuietBut.moveTo_advances (but : s.QuietBut a) (entries : s.EntryLaw) (position : Nat) :
    Advances a { s.axis a with position := position } s (s.moveTo a position) := by
  rw [State.moveTo]
  split
  · rename_i same
    rw [← same]
    exact .refl a s
  · exact but.tell_advances entries rfl

/-- A pulse out of RUN moves POSITION alone (R133). -/
theorem State.Quiet.pulse_out (quiet : s.Quiet) (entries : s.EntryLaw) (out : (s.axis a).state ≠ .run) :
    Advances a { s.axis a with position := (s.axis a).counted } s (s.pulse a) := by
  rw [State.pulse, if_neg out]
  exact (quiet.but a).moveTo_advances entries _

/-- A pulse in RUN counts the travel and POSITION, and tests the normal ends (R133, R134). -/
theorem State.Quiet.pulse_run (quiet : s.Quiet) (entries : s.EntryLaw) (run : (s.axis a).state = .run) :
    let x := { (s.axis a).travelled with position := (s.axis a).counted }
    Advances a (x.endedBy x.endFound) s (s.pulse a) := by
  intro x
  set t := s.setAxis a (s.axis a).travelled with ht
  have own : t.axis a = (s.axis a).travelled := s.axis_setAxis_self a _
  have but : t.QuietBut a := quiet.setAxis a (.inl rfl)
  have moved := but.moveTo_advances (a := a) entries (s.axis a).counted
  rw [own] at moved
  have ends := (t.moveTo a (s.axis a).counted).testEnds_advances a false (by rw [moved.axis]; exact run)
  rw [moved.axis, AxisRec.normalEnd_eq_endFound] at ends
  rw [State.pulse, if_pos run]
  exact ((s.setAxis_advances a _).trans moved).trans ends

end

/-- Settles O45: a pulse rewrites its axis, which no entry stops, as none did before. -/
theorem aPulseCountsPosition : Obligations.a_pulse_counts_position := by
  intro s a law entries ax position x
  have quiet : s.Quiet := law.1
  have counted : ax.counted = position := ax.counted_eq
  rw [exec_positionPulse]
  refine ⟨fun out same => ?_, s.pulse a, rfl, ?_⟩
  · rw [State.pulse, if_neg out, State.moveTo, if_pos (same.symm.trans counted.symm)]
  · by_cases run : ax.state = .run
    · have moved := quiet.pulse_run entries run
      have record : { ax.travelled with position := ax.counted } = x := by rw [AxisRec.travelled_eq, counted]
      rw [record] at moved
      exact ⟨moved.frame, moved.channel, moved.notices, fun out => absurd run out, fun _ => moved.axis⟩
    · have moved := quiet.pulse_out entries run
      rw [counted] at moved
      exact ⟨moved.frame, moved.channel, moved.notices, fun _ => moved.axis, fun run' => absurd run' run⟩

end Sys2Proof.Machine

namespace Sys2Proof.Machine

/-! ## The home input and the quiet inputs (R134, R149, R156) -/

/-- The record of an axis in RUN that finds home (R134). -/
theorem AxisRec.endedBy_home (x : AxisRec) : x.endedBy (x.normalEnd true)
    = if x.direction = .retract then x.stoppedBy .home
      else match x.endFound with | some er => x.stoppedBy er | none => x := by
  rw [AxisRec.normalEnd_home]
  split <;> rfl

section
variable {s : State} {a : AxisNo}

/-- Home is found, and the axis stands (R134). -/
theorem State.QuietBut.foundHome_advances (but : s.QuietBut a) (entries : s.EntryLaw) :
    Advances a { s.axis a with position := 0, verified := true } s (s.foundHome a) := by
  rw [State.foundHome]
  split
  · exact s.setAxis_advances a _
  · exact but.tell_advances entries rfl

/-- Where home is found, still only what watches the axis may stop an axis. -/
theorem State.QuietBut.foundHome (but : s.QuietBut a) : (s.foundHome a).QuietBut a := by
  have found : (s.setAxis a { s.axis a with position := 0, verified := true }).QuietBut a := but.setAxis (.inl rfl)
  rw [State.foundHome]
  split
  · exact found
  · exact found.tellInterlocks.but a

/-- HOME_ACTIVE ends a run in RETRACT, and tests the normal ends of one in EXTEND (R134). -/
theorem State.Quiet.homeFound_advances (quiet : s.Quiet) (entries : s.EntryLaw) :
    let x := { s.axis a with position := 0, verified := true }
    Advances a (if x.state = .run then x.endedBy (x.normalEnd true) else x) (s.setHome a true) (s.homeFound a) := by
  intro x
  have calm : (s.setHome a true).Quiet := quiet
  have found : Advances a x (s.setHome a true) ((s.setHome a true).foundHome a) :=
    (calm.but a).foundHome_advances (a := a) entries
  rw [State.homeFound]
  generalize (s.setHome a true).foundHome a = t at found ⊢
  split
  · rename_i run
    have ends := t.testEnds_advances a true (by rw [found.axis]; exact run)
    rw [found.axis] at ends
    exact found.trans ends
  · rename_i out
    rw [State.testEnds, if_neg (by rw [found.axis]; exact out)]
    exact found

end

/-- Settles O46: the home input is found by the axis, which no entry stops; each other input changes its own record. -/
theorem homeAndTheQuietInputs : Obligations.home_and_the_quiet_inputs := by
  intro s a ax i x
  refine ⟨fun law entries => ?_, rfl, rfl, fun current => ?_⟩
  · have quiet : s.Quiet := law.1
    have found : Advances a (if ax.state = .run then x.endedBy (x.normalEnd true) else x) _ _ := quiet.homeFound_advances entries
    exact ⟨s.homeFound a, rfl, found.frame, found.channel, found.notices,
      found.axis.trans (if_congr Iff.rfl x.endedBy_home rfl)⟩
  · intro timer t
    have sensed : s.setCurrent a current.toNat = t := by
      rw [State.setCurrent, AxisRec.currentMoved_eq]
    exact ⟨congrArg State.complete sensed, congrArg State.complete sensed⟩

end Sys2Proof.Machine

namespace Sys2Proof.Machine

/-! ## The cycles of a signal channel, and the entry to RUN (R131, R170 to R173) -/

theorem exec_signalMarkEnd (s : State) (a : AxisNo) : exec (.signalMarkEnd a) s = .next (s.markEnd a).driveOutputs := rfl

theorem exec_signalCycleEnd (s : State) (a : AxisNo) : exec (.signalCycleEnd a) s = .next (s.cycleEnd a).driveOutputs := rfl

theorem Cycle.sounded_of_ne_gap {c : Cycle} (h : c ≠ .gap) : c.sounded = true := by
  cases c with
  | gap => exact absurd rfl h
  | primary | secondary => rfl

namespace Channel
variable (ch : Channel)

/-- The staged pattern, if any, becomes live (R172). -/
theorem adoptStaged_eq :
    ch.adoptStaged = { ch with live := (match ch.staged with | some p => p | none => ch.live), staged := none } := by
  unfold Channel.adoptStaged
  cases staged : ch.staged with
  | none => dsimp only; rw [← staged]
  | some p => rfl

/-- A cycle begins with the timers of its kind; a mark that no space follows ends with its cycle (R170). -/
theorem beginCycle_eq {p : Pattern} (live : ch.live = p) (c : Cycle) : ch.beginCycle c = { ch with
    cycle := some c, phase := if c = .gap then none else some .mark
    markTimer := match c with
      | .primary => if p.primarySpace = 0 then none else some (p.primaryMark * 10)
      | .secondary => if p.secondarySpace = 0 then none else some (p.secondaryMark * 10)
      | .gap => none
    cycleTimer := match c with
      | .secondary => some ((p.secondaryMark + p.secondarySpace) * 10)
      | .primary | .gap => some ((p.primaryMark + p.primarySpace) * 10) } := by
  have mark : ∀ space length : Nat, (if true && decide (0 < space) then some (length * tenMs) else none)
      = if space = 0 then none else some (length * 10) := fun space length => by
    cases space <;> rfl
  subst live
  cases c with
  | primary => rw [← mark ch.live.primarySpace]; rfl
  | secondary => rw [← mark ch.live.secondarySpace]; rfl
  | gap => rfl

/-- The table of R170. -/
theorem nextCycle_eq (c : Cycle) : ch.nextCycle c = match c with
    | .primary =>
      if ch.live.mode = .twoTone then ch.beginCycle .secondary
      else if ch.live.gapCycles = 0 then ch.beginCycle .primary
      else ({ ch with gapLeft := ch.live.gapCycles - 1 } : Channel).beginCycle .gap
    | .secondary =>
      if ch.live.gapCycles = 0 then ch.beginCycle .primary
      else ({ ch with gapLeft := ch.live.gapCycles - 1 } : Channel).beginCycle .gap
    | .gap =>
      if 0 < ch.gapLeft ∧ 0 < ch.live.gapCycles then ({ ch with gapLeft := ch.gapLeft - 1 } : Channel).beginCycle .gap
      else ({ ch with gapLeft := 0 } : Channel).beginCycle .primary := by
  cases c with
  | primary =>
    cases mode : ch.live.mode <;> simp only [Channel.nextCycle, mode, reduceCtorEq, if_true, if_false]
  | secondary | gap => rfl

variable {ch}

theorem endCycle_finishing (finishing : ch.state = .finishing) (c : Cycle) (k : Nat) :
    (ch.endCycle c k).1 = ch.adoptStaged.toIdle := by
  simp only [Channel.endCycle, Channel.adoptStaged_state, finishing]

section
variable (sounding : ch.state = .sounding)
include sounding

theorem endCycle_discarded (discard : ch.discard = true) (c : Cycle) (k : Nat) :
    ch.endCycle c k = (({ ch.adoptStaged with discard := false, gapLeft := 0 } : Channel).beginCycle .primary, false) := by
  have kept : ch.adoptStaged.discard = true := by rw [adoptStaged_eq]; exact discard
  simp only [Channel.endCycle, Channel.adoptStaged_state, sounding, kept, if_true]

/-- The channel that counted its last cycle goes IDLE and reports it (R172). -/
theorem endCycle_complete (discard : ch.discard = false) {c : Cycle} (sounded : c ≠ .gap) {k : Nat}
    (last : ch.warnCount + 1 = k) :
    ch.endCycle c k = (ch.adoptStaged.toIdle, true) := by
  have kept : ch.adoptStaged.discard = false := by rw [adoptStaged_eq]; exact discard
  have count : ch.adoptStaged.warnCount + 1 = k := by rw [adoptStaged_eq]; exact last
  have audible : c.sounded = true := Cycle.sounded_of_ne_gap sounded
  simp only [Channel.endCycle, Channel.adoptStaged_state, sounding, kept, audible, count, if_true, and_self,
    Bool.false_eq_true, if_false]
  rfl

/-- The channel with a cycle counted, a gap apart (R172). -/
theorem endCycle_counted (discard : ch.discard = false) {c : Cycle} {k : Nat} (more : c = .gap ∨ ch.warnCount + 1 ≠ k) :
    ch.endCycle c k = (({ ch.adoptStaged with
      warnCount := if c = .gap then ch.warnCount else ch.warnCount + 1 } : Channel).nextCycle c, false) := by
  have kept : ch.adoptStaged.discard = false := by rw [adoptStaged_eq]; exact discard
  have count : ch.adoptStaged.warnCount = ch.warnCount := by rw [adoptStaged_eq]
  by_cases gap : c = .gap
  · subst gap
    rw [if_pos rfl, ← count]
    show _ = (ch.adoptStaged.nextCycle .gap, false)
    simp only [Channel.endCycle, Channel.adoptStaged_state, sounding, kept, Cycle.sounded, Bool.false_eq_true, false_and,
      if_false]
  · have audible : c.sounded = true := Cycle.sounded_of_ne_gap gap
    have short : ch.warnCount + 1 ≠ k := more.resolve_left gap
    rw [if_neg gap, ← count] at *
    simp only [Channel.endCycle, Channel.adoptStaged_state, sounding, kept, audible, short, Bool.false_eq_true, if_false,
      if_true, and_false]

end

end Channel

section
variable {s : State} {a : AxisNo}

theorem State.cycleEnd_due {c : Cycle} (due : (s.channel a).cycleTimer = some 0) (cycle : (s.channel a).cycle = some c) :
    s.cycleEnd a =
      if ((s.channel a).endCycle c (s.axis a).warnCycles).2
      then (s.setChannel a ((s.channel a).endCycle c (s.axis a).warnCycles).1).enterRun a
      else s.setChannel a ((s.channel a).endCycle c (s.axis a).warnCycles).1 := by
  simp only [State.cycleEnd, due, cycle]

/-- An axis out of WARN ignores the report of its channel (R131). -/
theorem State.enterRun_out (out : (s.axis a).state ≠ .warn) : s.enterRun a = s := if_neg out

/-- The record of an axis that enters RUN with its PENDING MOTION (R131). -/
theorem AxisRec.toRun_eq {x : AxisRec} {p : Pending} (pending : x.pending = some p) : x.toRun = { x with
    state := .run, direction := p.direction, runDistance := 0, speed := 0, rampTimer := some 10
    confirmTimer := some 200, brakeTimer := none, monitoring := false, pulseWatch := none, overCurrentTimer := none } := by
  rw [AxisRec.toRun, pending]
  rfl

/-- The normal ends of an axis in RUN are tested and its change passed on; a stop has been passed on already (R134, R144). -/
theorem State.QuietBut.ends_advances (but : s.QuietBut a) (entries : s.EntryLaw) (home : Bool) (run : (s.axis a).state = .run) :
    Advances a ((s.axis a).endedBy ((s.axis a).normalEnd home)) s ((s.testEnds a home).tellInterlocks a) := by
  rw [State.testEnds, if_pos run]
  cases (s.axis a).normalEnd home with
  | none => exact (but.free entries).tell_advances
  | some er =>
    have stopped : (s.stopMotion a er).Quiet := by
      have core : (s.stopCore a er).QuietBut a := but.setAxis (.inr rfl)
      exact core.tellInterlocks
    dsimp only
    rw [stopped.tellInterlocks]
    exact s.stopMotion_advances a er run

/-- The entry to RUN: an axis that retracts and is at home ends there at once (R131, R134). -/
theorem State.Quiet.enterRun_advances (quiet : s.Quiet) (entries : s.EntryLaw) (warn : (s.axis a).state = .warn)
    (asked : (s.axis a).pending.isSome = true) :
    Advances a
      (if (s.axis a).toRun.direction = .retract ∧ (s.axisIn a).home = true
        then ({ (s.axis a).toRun with position := 0, verified := true } : AxisRec).stoppedBy .home
        else (s.axis a).toRun.endedBy (s.axis a).toRun.endFound)
      s (s.enterRun a) := by
  set t := s.setAxis a (s.axis a).toRun with ht
  have own : t.axis a = (s.axis a).toRun := s.axis_setAxis_self a _
  have runs : Advances a (s.axis a).toRun s t := s.setAxis_advances a _
  have but : t.QuietBut a := quiet.setAxis a (.inl (AxisRec.toRun_movingDirection warn asked))
  have entered : s.enterRun a =
      ((if (s.axis a).toRun.direction == .retract && (s.axisIn a).home then t.foundHome a else t).testEnds a
        ((s.axis a).toRun.direction == .retract && (s.axisIn a).home)).tellInterlocks a := by
    simp only [State.enterRun, if_pos warn, ← ht, own]
    rfl
  rw [entered]
  by_cases home : (s.axis a).toRun.direction = .retract ∧ (s.axisIn a).home = true
  · have atHome : ((s.axis a).toRun.direction == .retract && (s.axisIn a).home) = true := by simpa using home
    have found := but.foundHome_advances (a := a) entries
    rw [own] at found
    have entries' : (t.foundHome a).EntryLaw := State.EntryLaw.congr (s := t) entries found.frame.only.interlocks
    have ends := but.foundHome.ends_advances entries' true (by rw [found.axis]; rfl)
    rw [found.axis, AxisRec.endedBy_home, if_pos home.1] at ends
    rw [atHome, if_pos home, if_pos rfl]
    exact (runs.trans found).trans ends
  · have away : ((s.axis a).toRun.direction == .retract && (s.axisIn a).home) = false := by
      rw [← Bool.not_eq_true]; simpa using home
    have ends := but.ends_advances entries false (by rw [own]; rfl)
    rw [own, AxisRec.normalEnd_eq_endFound] at ends
    rw [away, if_neg home, if_neg nofun]
    exact runs.trans ends

end

/-- Settles O50: by the state of the channel and the cycle that ends; the report of the last cycle finds its axis in WARN, which
sounds no other way. -/
theorem signalCyclesLeadToRun : Obligations.signal_cycles_lead_to_run := by
  intro s a law ax ch live base starts idle becomes
  have adopted : ch.adoptStaged = base := ch.adoptStaged_eq
  have started : ∀ (x : Channel) c, x.live = live → x.beginCycle c = starts x c := fun x c e => x.beginCycle_eq e c
  have silent : ∀ x : Channel, s.cycleEnd a = s.setChannel a x → becomes x := fun x e =>
    congrArg State.complete e
  rw [exec_signalMarkEnd, exec_signalCycleEnd]
  refine ⟨?_, fun off => ?_, fun c due cycle => ⟨fun finishing => silent _ ?_, fun sounding => ⟨fun discard => silent _ ?_,
    fun discard => ⟨fun sounded last p pending => ?_, fun more => silent _ ?_⟩⟩⟩⟩
  · rcases s.markEnd_cases a with ⟨off, e⟩ | ⟨due, e⟩
    · rw [e, if_pos off]
    · rw [e, if_neg (not_not.2 due)]; rfl
  · rcases s.cycleEnd_cases a with ⟨-, e⟩ | ⟨c, due, cycle, -⟩
    · rw [e]
    · rcases off with off | off
      · exact absurd due off
      · exact nomatch off.symm.trans cycle
  · have out : (s.axis a).state ≠ .warn := fun warn => by
      have sounds : ch.state = .sounding := (law.sounding a).2 warn
      rw [finishing] at sounds; cases sounds
    have ignored : ∀ x, (s.setChannel a x).enterRun a = s.setChannel a x := fun x => State.enterRun_out out
    rw [State.cycleEnd_due due cycle, ignored, ite_self, Channel.endCycle_finishing finishing, adopted]
    rfl
  · rw [State.cycleEnd_due due cycle, Channel.endCycle_discarded sounding discard, if_neg nofun, adopted, started _ _ rfl]
  · intro x
    have warn : (s.axis a).state = .warn := (law.sounding a).1 sounding
    have reports : s.cycleEnd a = (s.setChannel a idle).enterRun a := by
      rw [State.cycleEnd_due due cycle, Channel.endCycle_complete sounding discard sounded last, if_pos rfl, adopted]
      rfl
    have quiet : (s.setChannel a idle).Quiet := law.interlock.1
    have run : (s.axis a).toRun = x := AxisRec.toRun_eq pending
    have enters := quiet.enterRun_advances (a := a) law.entry warn (law.interlock.2 a warn)
    have axis : (s.setChannel a idle).axis a = s.axis a := rfl
    rw [axis, run] at enters
    rw [reports]
    exact ⟨_, rfl, enters.frame, enters.channel.trans (s.channel_setChannel_self a idle), enters.held, enters.notices,
      enters.axis⟩
  · rw [State.cycleEnd_due due cycle, Channel.endCycle_counted sounding discard more, if_neg nofun, adopted,
      Channel.nextCycle_eq]
    refine congrArg (s.setChannel a) ?_
    cases c with
    | primary =>
      exact if_congr Iff.rfl (started _ _ rfl) (if_congr Iff.rfl (started _ _ rfl) (started _ _ rfl))
    | secondary | gap => exact if_congr Iff.rfl (started _ _ rfl) (started _ _ rfl)

end Sys2Proof.Machine

namespace Sys2Proof.Machine

/-! ## CLEAR_LOCKOUT (R155) -/

/-- A CLEAR_LOCKOUT is from the Management Link, so it passes the checks of its target, and is DONE in every state of the axis. -/
theorem exec_clearLockout {s : State} {o : Origin} {a : AxisNo} (takes : s.Takes .clearLockout o) :
    exec (.clearLockout o (Target.axis a).bytes) s
      = .next (((s.endReceipt o).clearLockout a).answered o ReqKind.clearLockout.code (.plain .done)) := by
  have management : o = 0 := takes.origin rfl
  have permits : s.permitsAxis o a = true := by simp [State.permitsAxis, management]
  have named := Target.raw_names (t := .axis a) nofun
  show execClearLockout o _ s = _
  rw [execClearLockout, Target.bytes, readTargetBody_bytes named.1,
    serve_targeted takes (by simp [targetBytes, bytesOf]) named (by simp [Target.raw, ReqKind.classes]) rfl permits]
  rfl

/-- A PARKED axis moves in no direction and satisfies no NOT_PARKED entry: the change of state passed to the
Interlock Table stops no axis (R162, R165). -/
theorem State.Quiet.clearLockout {s : State} (quiet : s.Quiet) (a : AxisNo) :
    s.clearLockout a = if (s.axis a).state = .lockout then
        s.setAxis a { s.axis a with state := .parked, stallCount := 0, jam := none, endReason := .cleared }
      else s := by
  have calm : Calmer s (s.setAxis a
      { s.axis a with state := .parked, stallCount := 0, jam := none, endReason := .cleared }) :=
    .of_axis (fun b => s.axis_setAxis a b _) rfl rfl (fun engaged => by cases engaged) (.inr rfl)
  rw [State.clearLockout, (calm.quiet rfl quiet).tellInterlocks]

/-- Settles O53: the change of state is passed to the Interlock Table, which stops no axis for it. -/
theorem clearLockoutParksTheAxis : Obligations.clear_lockout_parks_the_axis := by
  intro s o a takes law
  have quiet : (s.endReceipt o).Quiet := State.endReceipt_quiet law.1 o
  rw [exec_clearLockout takes, quiet.clearLockout, State.endReceipt_axis]

end Sys2Proof.Machine

namespace Sys2Proof.Machine

/-! ## WRITE_INTERLOCK (R160, R161) -/

/-! ### The body and its values -/

theorem readWriteInterlock_body {index subject condition hi lo d r : Byte} {present : Bool} {dir : BlockDir} {rel : Relation}
    (direction : readBlockDir d = some dir) (relation : readRelation r = some rel) :
    readWriteInterlock [index, if present then 1 else 0, subject, d, condition, r, hi, lo]
      = some ⟨index.toNat, present, subject.toNat, dir, condition.toNat, rel, wordOf hi lo⟩ := by
  simp only [readWriteInterlock, readPresent_code, direction, relation, Option.bind_some, Option.map_some]

/-- The values that R160 refuses; those of the entry count where PRESENT is 1. -/
def BadInterlock (f : InterlockFields) : Prop :=
  15 < f.index ∨ f.present = true ∧ (2 < f.subject ∨ 2 < f.condition ∨ f.condition = f.subject
    ∨ f.relation ≠ .notParked ∧ 16383 < f.threshold)

/-- An index and axes past the last, an entry that watches its own subject and a threshold out of range name no place. -/
theorem interlockEntry_bad {f : InterlockFields} (bad : BadInterlock f) : interlockEntry f = none := by
  rcases bad with index | ⟨present, subject | condition | own | threshold⟩
  · simp [interlockEntry, show ¬ f.index < 16 by omega]
  · simp [interlockEntry, present, show ¬ f.subject < 3 by omega]
  · simp [interlockEntry, present, show ¬ f.condition < 3 by omega]
  · simp [interlockEntry, present, own]
  · simp [interlockEntry, present, threshold]

theorem interlockEntry_absent {f : InterlockFields} (place : PlaceNo) (index : place.val = f.index) (absent : f.present = false) :
    interlockEntry f = some (place, none) := by
  simp [interlockEntry, absent, ← index]

theorem interlockEntry_present {f : InterlockFields} (place : PlaceNo) (a c : AxisNo) (index : place.val = f.index)
    (present : f.present = true) (subject : a.val = f.subject) (condition : c.val = f.condition) (good : ¬ BadInterlock f) :
    interlockEntry f = some (place, some { subject := a, direction := f.direction, condition := c, relation := f.relation
                                           threshold := if f.relation = .notParked then 0 else f.threshold }) := by
  have range : f.index < 16 := index ▸ place.isLt
  have axes : f.subject < 3 ∧ f.condition < 3 := ⟨subject ▸ a.isLt, condition ▸ c.isLt⟩
  have values : ¬ (f.condition = f.subject ∨ f.relation ≠ .notParked ∧ 16383 < f.threshold) := fun bad =>
    good (.inr ⟨present, .inr (.inr bad)⟩)
  rw [interlockEntry, dif_pos range, if_pos present, dif_pos axes, if_neg values]
  simp only [← index, ← subject, ← condition]

/-! ### The decision -/

/-- A WRITE_INTERLOCK whose body is read is decided by the Interlock Table (R160). -/
theorem exec_writeInterlock {s : State} {o : Origin} {body : List Byte} {f : InterlockFields}
    (takes : s.Takes .writeInterlock o) (fits : body.length ≤ 60) (read : readWriteInterlock body = some f) :
    exec (.writeInterlock o body) s
      = .next (((s.endReceipt o).decideWriteInterlock f).2.answered o ReqKind.writeInterlock.code
          ((s.endReceipt o).decideWriteInterlock f).1) := by
  obtain ⟨g, hg, owned⟩ := decideBody_owned (parsed := some f) (owner := fun f s => State.decideWriteInterlock s f)
    takes.endReceipt.admission takes.endReceipt.screen
  cases hg
  show execWriteInterlock o body s = _
  rw [execWriteInterlock, serve_decided takes.room fits, read, owned]

section
variable {s : State}

theorem State.decideWriteInterlock_refused {f : InterlockFields} (bad : interlockEntry f = none) :
    s.decideWriteInterlock f = s.refuse .badValue := by
  rw [State.decideWriteInterlock, bad]

theorem State.decideWriteInterlock_written {f : InterlockFields} {p : PlaceNo} {entry : Option Interlock}
    (good : interlockEntry f = some (p, entry)) : s.decideWriteInterlock f = (s.writeInterlock p entry).done := by
  rw [State.decideWriteInterlock, good]

/-! ### The entry tested against its subject -/

/-- What an entry reads of a part is its axis records (R162). -/
theorem State.satisfied_congr {t : State} (axes : t.axes = s.axes) (e : Interlock) : t.satisfied e = s.satisfied e := by
  simp only [State.satisfied, State.axis_congr axes]

variable {e : Interlock}

/-- An entry stops a subject that moves where the entry is satisfied and forbids the direction (R161, R163). -/
theorem State.entryStops_iff {d : Direction} (moving : (s.axis e.subject).movingDirection = some d) :
    s.entryStops e = true ↔ s.satisfied e = true ∧ BlockDir.forbids e.direction d = true := by
  simp only [State.entryStops, moving, State.entryBlocks, beq_self_eq_true, Bool.and_true, Bool.and_eq_true]

/-- A subject out of WARN and RUN is not tested (R163). -/
theorem State.entryStops_out (warn : (s.axis e.subject).state ≠ .warn) (run : (s.axis e.subject).state ≠ .run) :
    s.entryStops e = false := by
  have out : (s.axis e.subject).movingDirection = none := by
    cases state : (s.axis e.subject).state <;> simp [AxisRec.movingDirection, state] at warn run ⊢
  rw [State.entryStops, out]

theorem State.blockSubject_silent (silent : ¬ s.entryStops e = true) : s.blockSubject e = s := if_neg silent

/-- A subject stopped out of WARN is parked (R141). -/
theorem State.blockSubject_leaves (stops : s.entryStops e = true) (warn : (s.axis e.subject).state = .warn) :
    LeavesMotion e.subject ((s.axis e.subject).parkedBy .interlock) false s (s.blockSubject e) := by
  have parks : s.blockSubject e = s.park e.subject .interlock := by
    simp only [State.blockSubject, stops, if_true, State.blockCore, warn, State.park]
  exact parks ▸ s.park_leaves e.subject .interlock

/-- A subject stopped out of RUN decelerates (R141). -/
theorem State.blockSubject_advances (stops : s.entryStops e = true) (run : (s.axis e.subject).state = .run) :
    Advances e.subject ((s.axis e.subject).stoppedBy .interlock) s (s.blockSubject e) := by
  have halts : s.blockSubject e = s.stopMotion e.subject .interlock := by
    simp only [State.blockSubject, stops, if_true, State.blockCore, run, State.stopMotion]
  exact halts ▸ s.stopMotion_advances e.subject .interlock run

end

/-- Settles O48: the values refused are `BadInterlock`, and a written entry parks its subject out of WARN, stops it out of
RUN, or lets it be. -/
theorem writeInterlockIsTestedAtOnce : Obligations.write_interlock_is_tested_at_once := by
  intro s o index subject condition hi lo present dir rel takes threshold body answer bad
  set f : InterlockFields := ⟨index.toNat, present, subject.toNat, dir, condition.toNat, rel, threshold⟩ with hf
  have read : readWriteInterlock body = some f :=
    readWriteInterlock_body (by cases dir <;> rfl) (by cases rel <;> rfl)
  have decided : exec (.writeInterlock o body) s = _ := exec_writeInterlock takes (Nat.le_add_right 8 52) read
  have bad_iff : BadInterlock f ↔ bad := by
    have bounded : rel ≠ .notParked ↔ rel = .below ∨ rel = .above := by cases rel <;> decide
    simp only [BadInterlock, hf, bad, bounded, BitVec.toNat_inj]
  refine ⟨fun refused => ?_, fun place at_index => ⟨fun absent => ?_, ?_⟩⟩
  · rw [State.decideWriteInterlock_refused (interlockEntry_bad (bad_iff.2 refused))] at decided
    exact decided
  · rw [State.decideWriteInterlock_written (interlockEntry_absent place at_index absent)] at decided
    exact decided
  · intro there good a c at_subject at_condition e r blocks
    have entry : interlockEntry f = some (place, some e) :=
      interlockEntry_present place a c at_index there at_subject at_condition (mt bad_iff.1 good)
    have written : answer (r.blockSubject e) .done := by
      rw [State.decideWriteInterlock_written entry] at decided
      exact decided
    have axis : r.axis a = s.axis a := s.endReceipt_axis o a
    have channel : r.channel a = s.channel a := s.endReceipt_channel o a
    have held : r.held a = s.held a := State.held_congr (s.endReceipt_budget o) a
    have satisfied : r.satisfied e = s.satisfied e := State.satisfied_congr (s.endReceipt_axes o) e
    clear_value r
    have silent : ¬ r.entryStops e = true → answer r .done := fun silent => by
      rwa [State.blockSubject_silent silent] at written
    have stops : ∀ d, (s.axis a).movingDirection = some d → (r.entryStops e = true ↔ blocks d) := fun d moving => by
      rw [State.entryStops_iff (axis ▸ moving), satisfied]
      exact and_congr_right fun _ => BlockDir.forbids_iff dir d
    have warned : (s.axis a).state = .warn → ∀ p, (s.axis a).pending = some p →
        (r.entryStops e = true ↔ blocks p.direction) := fun warn p pending =>
      stops p.direction (by simp only [AxisRec.movingDirection, warn, pending, Option.map_some])
    have running : (s.axis a).state = .run → (r.entryStops e = true ↔ blocks (s.axis a).direction) := fun run =>
      stops _ (by simp only [AxisRec.movingDirection, run])
    refine ⟨fun warn p pending blocked => ?_, fun run blocked => ?_, fun warn p pending free => ?_, fun run free => ?_,
      fun warn run => ?_⟩
    · have leaves := State.blockSubject_leaves ((warned warn p pending).2 blocked) (axis ▸ warn)
      exact ⟨_, written, leaves.frame, axis ▸ leaves.axis, channel ▸ leaves.channel, leaves.held⟩
    · have advances := State.blockSubject_advances ((running run).2 blocked) (axis ▸ run)
      exact ⟨_, written, advances.frame, axis ▸ advances.axis, advances.channel.trans channel, advances.held.trans held⟩
    · exact silent (mt (warned warn p pending).1 free)
    · exact silent (mt (running run).1 free)
    · exact silent (Bool.eq_false_iff.1 (State.entryStops_out (axis ▸ warn) (axis ▸ run)))

end Sys2Proof.Machine

namespace Sys2Proof.Machine

/-! ## WRITE_SIGNAL (R174) -/

/-- The values that R174 refuses. -/
theorem patternOk_eq_false {p : Pattern} :
    patternOk p = false ↔ p.primaryMark = 0 ∨ p.secondaryMark = 0 ∨ 15 < p.gapCycles := by
  simp only [patternOk, Bool.and_eq_false_iff, decide_eq_false_iff_not, Nat.not_lt, Nat.le_zero, Nat.not_le, or_assoc]

/-- An IDLE channel takes the pattern at once, and holds none staged (R174). -/
theorem Channel.write_idle {ch : Channel} (idle : ch.state = .idle) (p : Pattern) :
    ch.write p = { ch with live := p, staged := none } := by
  simp only [Channel.write, idle]

/-- A channel that sounds or finishes takes the pattern in place of the one it had staged (R174). -/
theorem Channel.write_staged {ch : Channel} (busy : ch.state ≠ .idle) (p : Pattern) :
    ch.write p = { ch with staged := some p } := by
  cases state : ch.state with
  | idle => exact absurd state busy
  | sounding | finishing => simp only [Channel.write, state]

theorem State.decideWriteSignal_refused {p : Pattern} (bad : patternOk p = false) (s : State) (a : AxisNo) :
    s.decideWriteSignal a p = s.refuse .badValue := by
  rw [State.decideWriteSignal, bad, if_neg nofun]

theorem State.decideWriteSignal_written {p : Pattern} (good : patternOk p = true) (s : State) (a : AxisNo) :
    s.decideWriteSignal a p = (s.setChannel a ((s.channel a).write p)).done := by
  rw [State.decideWriteSignal, if_pos good]

/-- A WRITE_SIGNAL is from the Management Link, so it passes the checks of its target; its six bytes spell the pattern, on which the
Signal Generator decides (R174). -/
theorem exec_writeSignal {s : State} {o : Origin} {a : AxisNo} {p : Pattern} (takes : s.Takes .writeSignal o)
    (h1 : p.primaryMark < 256) (h2 : p.primarySpace < 256) (h3 : p.secondaryMark < 256) (h4 : p.secondarySpace < 256)
    (h5 : p.gapCycles < 256) :
    exec (.writeSignal o ((Target.axis a).bytes ++ patternBytes p)) s
      = .next (((s.endReceipt o).decideWriteSignal a p).2.answered o ReqKind.writeSignal.code
          ((s.endReceipt o).decideWriteSignal a p).1) := by
  have management : o = 0 := takes.origin rfl
  have permits : s.permitsAxis o a = true := by simp [State.permitsAxis, management]
  have named := Target.raw_names (t := .axis a) nofun
  show execWriteSignal o _ s = _
  rw [execWriteSignal, Target.bytes, readWriteSignal_bytes named.1 h1 h2 h3 h4 h5,
    serve_targeted takes (by simp [targetBytes, bytesOf, patternBytes]) named (by simp [Target.raw, ReqKind.classes]) rfl permits]

/-- Settles O49: the values refused are those of `patternOk_eq_false`, and a good pattern is live or staged by the state of the
channel. -/
theorem writeSignalIsLiveOrStaged : Obligations.write_signal_is_live_or_staged := by
  intro s o a p takes h1 h2 h3 h4 h5 answer
  have decided := exec_writeSignal (a := a) takes h1 h2 h3 h4 h5
  split
  · rename_i bad
    rw [State.decideWriteSignal_refused (patternOk_eq_false.2 bad)] at decided
    exact decided
  · rename_i good
    have ok : patternOk p = true := by
      rw [← Bool.not_eq_false, patternOk_eq_false]
      exact good
    rw [State.decideWriteSignal_written ok, State.endReceipt_channel] at decided
    split
    · rename_i idle
      rw [Channel.write_idle idle] at decided
      exact decided
    · rename_i busy
      rw [Channel.write_staged busy] at decided
      exact decided

end Sys2Proof.Machine

namespace Sys2Proof.Machine

/-! ## QUERY of the device (R180) -/

@[simp] theorem State.endReceipt_deviceView (s : State) (o : Origin) : (s.endReceipt o).deviceView = s.deviceView := by
  simp only [State.endReceipt]; split <;> rfl

/-- A target is named through its own class alone (R4). -/
theorem names_cls {x : RawTarget} {t : Target} (h : x.Names t) : x.cls = t.raw.cls := by
  obtain ⟨-, typed⟩ := h
  unfold RawTarget.typed at typed
  split at typed
  case h_1 | h_3 | h_5 | h_6 =>
    split at typed <;> cases typed
    assumption
  all_goals
    cases typed
    assumption

/-- The reply body of a view: the code byte, and two bytes for each field (Table 1-5). -/
theorem ReplyBody.view_length (fields : List Nat) : (ReplyBody.view fields).bytes.length = 2 * fields.length + 1 := by
  have two : ∀ x : Nat, (bytesOf x).length = 2 := fun _ => rfl
  simp only [ReplyBody.bytes, List.length_cons, List.length_flatMap, two, List.map_const', List.sum_replicate, smul_eq_mul]
  omega

/-- Settles O24: an admitted QUERY shows the view of its target, and DEVICE asks for no permission. -/
theorem queryShowsTheDevice : Obligations.query_shows_the_device := by
  intro s o x takes named bit fields
  have shown := exec_query takes named (by rw [names_cls named]; decide) rfl rfl
  simp only [State.viewOf, State.endReceipt_deviceView] at shown
  exact ⟨shown, ReplyBody.view_length fields⟩

end Sys2Proof.Machine

namespace Sys2Proof.Machine

/-! ## READ_NOTICE (R182) -/

/-- A reply is no record, so the outputs may be driven before it is posted. -/
theorem State.answered_eq (t : State) (o : Origin) (kind : Byte) (b : ReplyBody) :
    t.answered o kind b = t.driveOutputs.postReply o kind b := by
  rw [State.answered, State.postReply, State.postReply]
  split <;> rfl

/-- Reading a condition leaves the two level conditions as they are (R182). -/
theorem Notices.clearEdge_levels (p : Notices) (code : Nat) :
    (p.clearEdge code).axisLockout = p.axisLockout ∧ (p.clearEdge code).deficit = p.deficit := by
  unfold Notices.clearEdge
  split <;> exact ⟨rfl, rfl⟩

/-- Where the outputs are what the records give, a change of the edge conditions alone moves the NOTICE line alone (R181). -/
theorem State.OutputLaw.driveOutputs_notices {s : State} (law : s.OutputLaw) (settled : s.settle = none) {p : Notices}
    (lockout : p.axisLockout = s.notices.axisLockout) (deficit : p.deficit = s.notices.deficit) :
    ({ s with notices := p } : State).driveOutputs = { s with notices := p, noticeLine := p.any } := by
  obtain ⟨notices, axes, signals, -⟩ := State.outputLaw_iff.1 law
  have level : ({ s with notices := p } : State).levelNotices = p := by
    have lockout' : s.anyLockout = p.axisLockout := (lockout.trans (congrArg Notices.axisLockout notices)).symm
    have deficit' : s.budget.deficit = p.deficit := (deficit.trans (congrArg Notices.deficit notices)).symm
    show { p with axisLockout := s.anyLockout, deficit := s.budget.deficit } = p
    rw [lockout', deficit']
  have line : ({ s with notices := p } : State).noticeLevel = p.any := by
    rw [State.noticeLevel, level, State.inSettle, settled]; rfl
  rw [State.driveOutputs, level, line]
  conv_rhs => rw [axes, signals]
  rfl

/-- A READ_NOTICE returns the highest pending condition, clears it where it is an edge condition, and brings the NOTICE line to the
conditions left. -/
theorem exec_readNotice {s : State} {o : Origin} (takes : s.Takes .readNotice o) (law : s.OutputLaw) :
    let left := s.notices.clearEdge s.notices.highest
    exec (.readNotice o []) s
      = .next (({ s.endReceipt o with notices := left, noticeLine := left.any } : State).postReply o ReqKind.readNotice.code
          (.condition s.notices.highest)) := by
  obtain ⟨lockout, deficit⟩ := s.notices.clearEdge_levels s.notices.highest
  show execReadNotice o [] s = _
  rw [execReadNotice, serve_decided takes.room (by decide), decideBody_empty takes, State.answered_eq, State.readNotice,
    State.endReceipt_notices, (law.endReceipt o).driveOutputs_notices takes.endReceipt.settled (by rw [lockout, s.endReceipt_notices])
    (by rw [deficit, s.endReceipt_notices])]

/-- Settles O52: the clauses are the branches of `Notices.highest`, in each of which the condition to clear is known. -/
theorem readNoticeReturnsTheHighest : Obligations.read_notice_returns_the_highest := by
  intro s o takes law returns p
  have read : returns p.highest (p.clearEdge p.highest) := exec_readNotice takes law
  unfold Notices.highest at read
  split_ifs at read ⊢ with lockout deficit fault leaseLost shed reset <;> exact read

end Sys2Proof.Machine
